-- ==== Sys2Proof/Word.lean ====
section
/-! DEFINITION. The word types of the Serug and their plainest arithmetic: 32-bit registers (06 R118), 64-bit pairs
(06 R120), register numbers of seven bits and immediates extended to 32 bits (06 R111, R116). -/

namespace Sys2Proof

/-- A byte of memory. -/
abbrev Byte := BitVec 8
/-- A vector register's 32 bits (R118). -/
abbrev Word := BitVec 32
/-- A register pair's 64 bits, the lower register in the low half (R120). -/
abbrev Pair := BitVec 64
/-- A 7-bit register field (R111). -/
abbrev Reg := BitVec 7
/-- An immediate after its extension to 32 bits (R111, R116). -/
abbrev Imm := BitVec 32

/-- The pair with low half `lo` and high half `hi` (R120). -/
def mkPair (lo hi : Word) : Pair := (hi.setWidth 64 <<< 32) ||| lo.setWidth 64

/-- The low half of a pair (R120). -/
def Pair.lo (p : Pair) : Word := p.setWidth 32

/-- The high half of a pair (R120). -/
def Pair.hi (p : Pair) : Word := (p >>> 32).setWidth 32

@[simp] theorem mkPair_lo (lo hi : Word) : Pair.lo (mkPair lo hi) = lo := by
  unfold Pair.lo mkPair
  ext i h
  simp

@[simp] theorem mkPair_hi (lo hi : Word) : Pair.hi (mkPair lo hi) = hi := by
  unfold Pair.hi mkPair
  ext i h
  have h1 : 32 + i < 64 := by omega
  have h2 : i < 64 := by omega
  simp [h1, h2, BitVec.getLsbD_eq_getElem h]

end Sys2Proof
end

