-- ==== Sys2Proof/Config.lean ====
section
/-! DEFINITION. What one part or one installation fixes and the spec leaves open: the fused cluster ports (01 R12), the
home hash (11 R213), the part identifier (20 R414), and the free values and choices of the model. Every constant here has
no body, so that a claim holds whatever it is. -/

namespace Sys2Proof

/-- A value that the spec leaves open; applied to the counter State.freeCtr (assumption log 5). -/
opaque Config.freeValue : Nat → BitVec 64

/-- A choice that the spec calls unspecified (R6); applied to the counter State.freeCtr (assumption log 5). -/
opaque Config.freeChoice : Nat → Nat

/-- Which of the 12 physical cluster ports of a sector are disabled is fused (R12): numbers that pick, for a sector of a die, its
disabled ports, the first of all 12 and the second of the other 11. -/
opaque Config.fused : Nat → Nat → Nat → Nat

/-- The fixed hash of physical address bits [47:9] that picks the slice of an address on its home die (R213), taken modulo the 24
slices. -/
opaque Config.homeHash : Nat → Nat

/-- The package number in the system (R13), taken modulo 16,384. -/
opaque Config.pkgNumber : Nat

/-- What a core of a peer package has written to a word that it owns, when the home recalls it (R359, R368): of the package,
the core, the word's key and its value at the home (assumption log 5). -/
opaque Config.peerWord : Nat → Nat → Nat → Word → Word

/-- The codebook entry of a lane that holds no live thread (R37), of the counter State.idCtr at the issue and of the lane (assumption
log 5). -/
opaque Config.bookLane : Nat → Nat → Word

/-- The part identifier in the header of a saved image (R414; assumption log 7). -/
opaque Config.partId : Word

/-- The bytes of a saved image after its header are laid out by the part (R414): the size of an image in 64 KiB units, of
the number of threads, tasks and pours it names (assumption log 7). -/
opaque Config.imageUnits : Nat → Nat

/-- The words of a saved image after its header, and the CRC-32 in its header, are the part's (R414): those of the image of a
number (assumption log 7). -/
opaque Config.imageWord : Nat → Nat → BitVec 64

/-- See `Config.imageWord`. -/
opaque Config.imageCrc : Nat → Word

/-- Where the distributor begins to look for the private region that it assigns to a task at admission (R224), in 64 KiB units, taken
modulo 2^32 (assumption log 27). -/
opaque Config.privateBase : Nat → Nat

/-- The default heat table of the firmware image: HBCAP, HBRATE and HBCOST of a sector of a die (R435; assumption log
43). -/
opaque Config.heatDefault : Nat → Nat → Nat × Nat × Word

/-- The SHA-384 hash that the fuses hold for the public key of a signature algorithm: 0 RSA-3072, 1 SLH-DSA-SHA2-192s (R434; assumption
log 43). -/
opaque Config.fuseHash : Nat → Nat

/-- The C-die that becomes the home of a host-shared page flipped to device bias (R367), of the page's physical address
(assumption log 43). -/
opaque Config.biasDie : Nat → Nat

/-- The C-die whose arbiter receives the LINK events of a port or link (R407, R408; assumption log 43). -/
opaque Config.linkDie : Nat → Nat

/-- What GROUTE and a result group give where no string of at most 8 nibbles reaches the core, which R190 does not state: of the issuing core and
of the other (assumption log 83). -/
opaque Config.noRoute : Nat → Nat → Word

/-- The fields rel, count, W and MOV of a result group whose status is not OK, or is END, which R301 does not state: of the status, 12 bits
(assumption log 82). -/
opaque Config.emptyFields : Nat → Nat

/-- The kind bits of a name that is unbound in the status word 3 of MSTAT, which R298 does not state: of the name, 2 bits (assumption log 81). -/
opaque Config.unboundKind : Nat → Nat

end Sys2Proof
end

