-- ==== Sys2Proof/Syntax.lean ====
section
/-! DEFINITION. The syntax of the Serug: one constructor of Instr for each row of spec/opcode_table.json.
The switch marker (bit [31], R113) is carried beside an instruction by the decoder (Decode.Decoded), not in it.
The first 252 constructors are instruction words; the last 93 are the steps of the device that no word names
(95_what_each_step_holds.md), which reach the machine as items of its agenda. The arguments of a step
(which core, which entry, the value written) are plain data of the state (its field arg), named in its docstring as
x, y, z and so on. -/

namespace Sys2Proof

/-- Integer types of MIN, MAX and PSET (06 Tables 6-12 and 6-14). -/
inductive IntTy where
  | i32 | n32 | i64 | n64
deriving DecidableEq, Repr

/-- Conditions of BCMP in code order (06 Table 6-11). -/
inductive BCond where
  | eq | ne | lt | ge | gt | le
deriving DecidableEq, Repr

/-- Conditions of PSET in code order (R178). -/
inductive PCond where
  | eq | ne | lt | le | gt | ge
deriving DecidableEq, Repr

/-- Conditions of FCMP in code order (R197); ord is the mnemonic .or. -/
inductive FCond where
  | eq | ne | lt | le | gt | ge | un | ord
deriving DecidableEq, Repr

/-- Modes of VOTE (R184). -/
inductive VoteMode where
  | ballot | any | all | uni
deriving DecidableEq, Repr

/-- Modes of SHFL (R185). -/
inductive ShflMode where
  | idx | up | down | xor
deriving DecidableEq, Repr

/-- Operations of REDW and SCANW in code order (06 Table 6-15). -/
inductive RedOp where
  | addI32 | addF32 | minI32 | maxI32 | minF32 | maxF32 | and | or
deriving DecidableEq, Repr

/-- Rounding modes in the order of Table 2-2 (R25). -/
inductive Rnd where
  | rne | rz | rd | ru | rna
deriving DecidableEq, Repr

/-- Rounding selector of CVT: a static mode, or dyn for the mode in frm (R203). -/
inductive RndSel where
  | rne | rz | rd | ru | rna | dyn
deriving DecidableEq, Repr

/-- Type codes of CVT (R203); codes 0 to 7 are those of Table 6-19. -/
inductive NumTy where
  | f32 | f16 | bf16 | e4m3 | e5m2 | i32 | n32 | f64 | i64 | n64 | i16 | n16 | i8 | n8
deriving DecidableEq, Repr

/-- Requested types of GATH, SCAT and copies (06 Table 6-19). -/
inductive ReqTy8 where
  | f32 | f16 | bf16 | e4m3 | e5m2 | i32 | n32 | f64
deriving DecidableEq, Repr

/-- Element types of CVTX (R205). -/
inductive XTy where
  | f16 | bf16 | e4m3 | e5m2
deriving DecidableEq, Repr

/-- Access widths (06 Table 6-18). -/
inductive Width where
  | b8 | b16 | b32 | b64 | b128
deriving DecidableEq, Repr

/-- Request type of LD: page default, .own, .si, .nc (06 Table 6-18). -/
inductive LdReq where
  | dflt | own | si | nc
deriving DecidableEq, Repr

/-- Request type of ST: page default, .own, .wt, .nc (06 Table 6-18). -/
inductive StReq where
  | dflt | own | wt | nc
deriving DecidableEq, Repr

/-- Scopes in code order (R230). -/
inductive Scope where
  | thread | team | core | cluster | die | pkg | sys
deriving DecidableEq, Repr

/-- Operations of ATOM and RED (06 Table 6-20). -/
inductive AtomOp where
  | add | and | or | xor | exch | min | max | fadd
deriving DecidableEq, Repr

/-- Packed types of HFMA2 (R201). -/
inductive FmtA where
  | f16 | bf16
deriving DecidableEq, Repr

/-- A and B types of MMA in offset order (14 Table 14-3). -/
inductive MmaTy where
  | e4m3e4m3 | e4m3e5m2 | e5m2e4m3 | e5m2e5m2 | i8i8 | bf16bf16 | f16f16 | f64f64
deriving DecidableEq, Repr

/-- A types of MMAQ and MMAL (14 Table 14-3). -/
inductive MmaQTy where
  | e4m3 | e5m2 | bf16
deriving DecidableEq, Repr

/-- Accumulator kinds (R280). -/
inductive ZKind where
  | f32 | i32 | f64
deriving DecidableEq, Repr

/-- Stream formats in code order (14 Table 14-2). -/
inductive SFmt where
  | e4m3 | e5m2 | i8 | bf16 | f16 | f64 | sE4m3 | sE5m2 | q4k64 | q4k32 | lut4k64 | lut4k32
deriving DecidableEq, Repr

/-- Signed or unsigned form of MULH, DIV and REM (06 Table 6-12). -/
inductive DivTy where
  | i32 | n32
deriving DecidableEq, Repr

/-- Faces in the order of R57 (R302). -/
inductive Face where
  | xm | xp | ym | yp | zm | zp
deriving DecidableEq, Repr

/-- Rounding modes of FRND (R199). -/
inductive FRnd where
  | rne | rz | rd | ru
deriving DecidableEq, Repr

/-- Requests that a peer package makes of a home slice over Korlas Link (R368, 18 Table 18-1). -/
inductive PeerReq where
  | read | write | own
  | atom (o : AtomOp)
  | acas
deriving DecidableEq, Repr

/-- Registers of the package that a write changes with no behaviour of their own (the row REGISTER_WRITE): launch
queue base and size (R428), heat rate and cost (R104), arbitration weights (R372), mailbox words and MBIRQ (R438). -/
inductive PlainReg where
  | lqbase (q : Nat) | lqsize (q : Nat)
  | hbrate (die sector : Nat) | hbcost (die sector : Nat)
  | qwgt0 (port : Nat) | qwgt1 (port : Nat)
  | mbreq (k : Nat) | mbirq
  | hop (n : Nat)
deriving DecidableEq, Repr

/-- The instructions and steps of the Serug, one constructor per row of spec/opcode_table.json. -/
inductive Instr where
  /-- BRA, R167. Always branches to the PC-relative target. -/
  | bra (off : BitVec 21)
  /-- CALL, R168. Writes the link into pair v0 at issue and jumps to the PC-relative target. -/
  | call (off : BitVec 21)
  /-- CALLI, R168. Writes the link into pair vD and jumps to the address in pair vA. -/
  | calli (d : Reg) (a : Reg)
  /-- RET, R168. Jumps to the address in pair vA, marked as a return for fetch prediction. -/
  | ret (a : Reg)
  /-- JMPI, R168. Jumps to the address in pair vA. -/
  | jmpi (a : Reg)
  /-- BCMP, R167. Branches in each lane whose vD, read as signed 32-bit, meets the condition against zero. -/
  | bcmp (c : BCond) (d : Reg) (i : Imm)
  /-- REP, R114. Prefix that issues the next instruction n times, stepping the chosen register fields. -/
  | rep (n : BitVec 6) (sD : Bool) (sA : Bool) (sB : Bool)
  /-- GUARD, R115. Samples a predicate per thread and masks the next c compounds by it. -/
  | guard (p : BitVec 3) (sense : Bool) (c : BitVec 3)
  /-- WBASE, R121. Sets each executing thread's register window base to an unsigned immediate. -/
  | wbase (i : Imm)
  /-- WBASE_ADD, R121. Adds a signed immediate to each executing thread's register window base. -/
  | wbaseAdd (i : Imm)
  /-- TRAP, R171. Raises a precise trap with cause TRAP and the given code. -/
  | trap (i : Imm)
  /-- SYSC, R171. Raises a precise trap with cause SYSC and the given code. -/
  | sysc (i : Imm)
  /-- ADD, R173. Integer add of two registers or pairs. -/
  | add (p : Bool) (d : Reg) (a : Reg) (b : Reg)
  /-- ADDC, R173. Writes the carry out of a + b. -/
  | addc (p : Bool) (d : Reg) (a : Reg) (b : Reg)
  /-- SUB, R173. Integer subtract of two registers or pairs. -/
  | sub (p : Bool) (d : Reg) (a : Reg) (b : Reg)
  /-- SUBB, R173. Writes the unsigned borrow of a − b. -/
  | subb (p : Bool) (d : Reg) (a : Reg) (b : Reg)
  /-- MUL, R173. Writes the low bits of an integer product. -/
  | mul (p : Bool) (d : Reg) (a : Reg) (b : Reg)
  /-- MULH, R173. Writes the high 32 bits of a signed or unsigned 64-bit product. -/
  | mulh (u : DivTy) (d : Reg) (a : Reg) (b : Reg)
  /-- MAD, R173. Writes the low bits of a × b + d. -/
  | mad (p : Bool) (d : Reg) (a : Reg) (b : Reg)
  /-- DIV, R174. Integer division truncating toward zero, with defined results for zero divisors. -/
  | div (u : DivTy) (d : Reg) (a : Reg) (b : Reg)
  /-- DIV_TRAP, R174. Integer division that traps with cause DIVZERO on a zero divisor. -/
  | divTrap (u : DivTy) (d : Reg) (a : Reg) (b : Reg)
  /-- REM, R174. Integer remainder with the sign of the dividend. -/
  | rem (u : DivTy) (d : Reg) (a : Reg) (b : Reg)
  /-- MIN, R173. Writes the smaller of two integer operands in the chosen type. -/
  | min (t : IntTy) (d : Reg) (a : Reg) (b : Reg)
  /-- MAX, R173. Writes the larger of two integer operands in the chosen type. -/
  | max (t : IntTy) (d : Reg) (a : Reg) (b : Reg)
  /-- ABS, R173. Writes the absolute value of a signed 32-bit register. -/
  | abs (d : Reg) (a : Reg)
  /-- NEG, R173. Writes 0 − a. -/
  | neg (d : Reg) (a : Reg)
  /-- AND, R173. Bitwise and of two registers. -/
  | and (d : Reg) (a : Reg) (b : Reg)
  /-- OR, R173. Bitwise or of two registers. -/
  | or (d : Reg) (a : Reg) (b : Reg)
  /-- XOR, R173. Bitwise exclusive or of two registers. -/
  | xor (d : Reg) (a : Reg) (b : Reg)
  /-- NOT, R173. Bitwise complement of a register. -/
  | not (d : Reg) (a : Reg)
  /-- ANDN, R173. Writes a and not b. -/
  | andn (d : Reg) (a : Reg) (b : Reg)
  /-- SHL, R175. 32-bit left shift by a register amount. -/
  | shl (d : Reg) (a : Reg) (b : Reg)
  /-- SHL_64, R175. 64-bit pair left shift by a register amount. -/
  | shl64 (d : Reg) (a : Reg) (b : Reg)
  /-- SHR, R175. 32-bit logical right shift by a register amount. -/
  | shr (d : Reg) (a : Reg) (b : Reg)
  /-- SHR_64, R175. 64-bit pair logical right shift by a register amount. -/
  | shr64 (d : Reg) (a : Reg) (b : Reg)
  /-- SHRA, R175. 32-bit arithmetic right shift by a register amount. -/
  | shra (d : Reg) (a : Reg) (b : Reg)
  /-- SHRA_64, R175. 64-bit pair arithmetic right shift by a register amount. -/
  | shra64 (d : Reg) (a : Reg) (b : Reg)
  /-- ROT, R173. Rotates a left by b mod 32. -/
  | rot (d : Reg) (a : Reg) (b : Reg)
  /-- SEL, R173. Bitwise select between a and b by the bits of vD. -/
  | sel (d : Reg) (a : Reg) (b : Reg)
  /-- LEA, R173. Adds a sign-extended register to an address pair. -/
  | lea (d : Reg) (a : Reg) (b : Reg)
  /-- ADD_I, R176. Adds a signed immediate to a register or pair. -/
  | addI (p : Bool) (d : Reg) (a : Reg) (i : Imm)
  /-- MUL_I, R176. Multiplies a register by a signed immediate. -/
  | mulI (d : Reg) (a : Reg) (i : Imm)
  /-- AND_I, R176. Bitwise and with a signed immediate. -/
  | andI (d : Reg) (a : Reg) (i : Imm)
  /-- OR_I, R176. Bitwise or with a signed immediate. -/
  | orI (d : Reg) (a : Reg) (i : Imm)
  /-- XOR_I, R176. Bitwise exclusive or with a signed immediate. -/
  | xorI (d : Reg) (a : Reg) (i : Imm)
  /-- SHL_I, R176. Left shift by an unsigned immediate, 32-bit or pair. -/
  | shlI (p : Bool) (d : Reg) (a : Reg) (i : Imm)
  /-- SHR_I, R176. Logical right shift by an unsigned immediate, 32-bit or pair. -/
  | shrI (p : Bool) (d : Reg) (a : Reg) (i : Imm)
  /-- SHRA_I, R176. Arithmetic right shift by an unsigned immediate, 32-bit or pair. -/
  | shraI (p : Bool) (d : Reg) (a : Reg) (i : Imm)
  /-- ROT_I, R176. Rotates left by an immediate mod 32. -/
  | rotI (d : Reg) (a : Reg) (i : Imm)
  /-- MIN_I_I32, R176. Signed minimum with an immediate. -/
  | minIS (d : Reg) (a : Reg) (i : Imm)
  /-- MIN_I_N32, R176. Unsigned minimum with an immediate. -/
  | minIU (d : Reg) (a : Reg) (i : Imm)
  /-- MAX_I_I32, R176. Signed maximum with an immediate. -/
  | maxIS (d : Reg) (a : Reg) (i : Imm)
  /-- MAX_I_N32, R176. Unsigned maximum with an immediate. -/
  | maxIU (d : Reg) (a : Reg) (i : Imm)
  /-- LEA_I, R177. Adds a register shifted left by 0–7 to an address pair. -/
  | leaI (d : Reg) (a : Reg) (i : Imm)
  /-- MOVI, R176. Writes a signed immediate to a register. -/
  | movi (d : Reg) (i : Imm)
  /-- MOVI_N64, R177. Writes a zero-extended immediate to a register pair. -/
  | movi64 (d : Reg) (i : Imm)
  /-- PSET, R178. Sets a predicate from an integer comparison of two registers or pairs. -/
  | pset (c : PCond) (t : IntTy) (d : Reg) (a : Reg) (b : Reg)
  /-- PAND, R178. Predicate and. -/
  | pand (d : Reg) (a : Reg) (b : Reg)
  /-- POR, R178. Predicate or. -/
  | por (d : Reg) (a : Reg) (b : Reg)
  /-- PXOR, R178. Predicate exclusive or. -/
  | pxor (d : Reg) (a : Reg) (b : Reg)
  /-- PNOT, R178. Predicate complement. -/
  | pnot (d : Reg) (a : Reg)
  /-- PMOV_TO_REG, R178. Writes all ones or zero to a register from a predicate. -/
  | pmovReg (d : Reg) (a : Reg)
  /-- PMOV_TO_PRED, R178. Sets a predicate when a register is nonzero. -/
  | pmovPred (d : Reg) (a : Reg)
  /-- BFX, R179. Extracts a bit field, zero- or sign-extended. -/
  | bfx (x : Bool) (d : Reg) (a : Reg) (b : Reg)
  /-- BFI, R179. Inserts a bit field into vD. -/
  | bfi (d : Reg) (a : Reg) (b : Reg)
  /-- POPC, R180. Counts the set bits of a register. -/
  | popc (d : Reg) (a : Reg)
  /-- CLZ, R180. Counts leading zero bits. -/
  | clz (d : Reg) (a : Reg)
  /-- CTZ, R180. Counts trailing zero bits. -/
  | ctz (d : Reg) (a : Reg)
  /-- BREV, R180. Reverses the bit order of a register. -/
  | brev (d : Reg) (a : Reg)
  /-- SMOV, R181. Reads a special register into vD. -/
  | smov (d : Reg) (a : Reg)
  /-- SWR, R181. Writes vA into a writable special register. -/
  | swr (d : Reg) (a : Reg)
  /-- TJOIN, R182. Adds each executing thread to a team, or creates one. -/
  | tjoin (d : Reg) (a : Reg)
  /-- TLEAVE, R182. Removes each executing thread from a team. -/
  | tleave (d : Reg) (a : Reg)
  /-- MJOIN, R183. Sets the executing lanes' bits in a lane mask at issue. -/
  | mjoin (d : Reg)
  /-- MLEAVE, R183. Clears the executing lanes' bits in a lane mask at issue. -/
  | mleave (d : Reg)
  /-- MWAIT, R143. Parks each executing thread until the mask's wait condition holds. -/
  | mwait (d : Reg)
  /-- MSET, R183. Sets a lane mask from the lowest executing lane's vA. -/
  | mset (d : Reg) (a : Reg)
  /-- MREAD, R183. Reads a whole lane mask into every executing lane. -/
  | mread (d : Reg) (a : Reg)
  /-- WREGRP, R188. Parks team members for a regroup of their regroup group. -/
  | wregrp (d : Reg) (a : Reg)
  /-- WPART, R189. Sets the warp's partition tile size at issue. -/
  | wpart (i : Imm)
  /-- GROUTE, R190. Returns the route to a member of the caller's gang, parking until it starts. -/
  | groute (d : Reg) (a : Reg)
  /-- WSORT, R187. Sorts the executing threads of each tile by key onto their lane positions. -/
  | wsort (d : Reg) (a : Reg)
  /-- LCOMP, R187. Moves threads with a true predicate to the lowest lane positions of each tile. -/
  | lcomp (d : Reg) (a : Reg)
  /-- MATCH, R184. Gives each lane the mask of tile lanes with an equal key. -/
  | match (w : Bool) (d : Reg) (a : Reg)
  /-- VOTE, R184. Ballots or tests a predicate across the executing lanes of a tile. -/
  | vote (v : VoteMode) (d : Reg) (a : Reg)
  /-- SHFL, R185. Reads the value of another lane within the tile. -/
  | shfl (m : ShflMode) (d : Reg) (a : Reg) (b : Reg)
  /-- REDW, R186. Reduces a tile's values by a fixed pairwise tree. -/
  | redw (o : RedOp) (d : Reg) (a : Reg)
  /-- SCANW, R186. Inclusive scan of a tile's values by a fixed pairwise tree. -/
  | scanw (o : RedOp) (d : Reg) (a : Reg)
  /-- FADD_F32, R194. FP32 add rounded under frm. -/
  | faddF32 (d : Reg) (a : Reg) (b : Reg)
  /-- FADD_F16, R194. FP16 add rounded under frm. -/
  | faddF16 (d : Reg) (a : Reg) (b : Reg)
  /-- FADD_BF16, R194. BF16 add rounded under frm. -/
  | faddBf16 (d : Reg) (a : Reg) (b : Reg)
  /-- FSUB_F32, R194. FP32 subtract. -/
  | fsubF32 (d : Reg) (a : Reg) (b : Reg)
  /-- FSUB_F16, R194. FP16 subtract. -/
  | fsubF16 (d : Reg) (a : Reg) (b : Reg)
  /-- FSUB_BF16, R194. BF16 subtract. -/
  | fsubBf16 (d : Reg) (a : Reg) (b : Reg)
  /-- FMUL_F32, R194. FP32 multiply. -/
  | fmulF32 (d : Reg) (a : Reg) (b : Reg)
  /-- FMUL_F16, R194. FP16 multiply. -/
  | fmulF16 (d : Reg) (a : Reg) (b : Reg)
  /-- FMUL_BF16, R194. BF16 multiply. -/
  | fmulBf16 (d : Reg) (a : Reg) (b : Reg)
  /-- FFMA_F32, R194. FP32 fused multiply-add into vD with one rounding. -/
  | ffmaF32 (d : Reg) (a : Reg) (b : Reg)
  /-- FFMA_F16, R194. FP16 fused multiply-add into vD. -/
  | ffmaF16 (d : Reg) (a : Reg) (b : Reg)
  /-- FFMA_BF16, R194. BF16 fused multiply-add into vD. -/
  | ffmaBf16 (d : Reg) (a : Reg) (b : Reg)
  /-- FMIN_F32, R195. FP32 minimum with −0 below +0. -/
  | fminF32 (d : Reg) (a : Reg) (b : Reg)
  /-- FMIN_F16, R195. FP16 minimum. -/
  | fminF16 (d : Reg) (a : Reg) (b : Reg)
  /-- FMIN_BF16, R195. BF16 minimum. -/
  | fminBf16 (d : Reg) (a : Reg) (b : Reg)
  /-- FMAX_F32, R195. FP32 maximum. -/
  | fmaxF32 (d : Reg) (a : Reg) (b : Reg)
  /-- FMAX_F16, R195. FP16 maximum. -/
  | fmaxF16 (d : Reg) (a : Reg) (b : Reg)
  /-- FMAX_BF16, R195. BF16 maximum. -/
  | fmaxBf16 (d : Reg) (a : Reg) (b : Reg)
  /-- FNEG_F32, R196. Flips the FP32 sign bit. -/
  | fnegF32 (d : Reg) (a : Reg)
  /-- FNEG_F16, R196. Flips the FP16 sign bit. -/
  | fnegF16 (d : Reg) (a : Reg)
  /-- FNEG_BF16, R196. Flips the BF16 sign bit. -/
  | fnegBf16 (d : Reg) (a : Reg)
  /-- FABS_F32, R196. Clears the FP32 sign bit. -/
  | fabsF32 (d : Reg) (a : Reg)
  /-- FABS_F16, R196. Clears the FP16 sign bit. -/
  | fabsF16 (d : Reg) (a : Reg)
  /-- FABS_BF16, R196. Clears the BF16 sign bit. -/
  | fabsBf16 (d : Reg) (a : Reg)
  /-- FCMP, R197. Sets a predicate from an FP32 comparison. -/
  | fcmp (c : FCond) (d : Reg) (a : Reg) (b : Reg)
  /-- FSEL, R196. Copies vA to vD in lanes whose predicate is set. -/
  | fsel (d : Reg) (a : Reg) (b : Reg)
  /-- FDIV, R194. FP32 divide rounded under frm. -/
  | fdiv (d : Reg) (a : Reg) (b : Reg)
  /-- FSQRT, R194. FP32 square root rounded under frm. -/
  | fsqrt (d : Reg) (a : Reg)
  /-- FRCP, R200. Approximate FP32 reciprocal. -/
  | frcp (d : Reg) (a : Reg)
  /-- FRSQ, R200. Approximate FP32 reciprocal square root. -/
  | frsq (d : Reg) (a : Reg)
  /-- FEXP2, R200. Approximate FP32 power of two. -/
  | fexp2 (d : Reg) (a : Reg)
  /-- FLOG2, R200. Approximate FP32 base-2 logarithm. -/
  | flog2 (d : Reg) (a : Reg)
  /-- FSIN, R200. Approximate FP32 sine. -/
  | fsin (d : Reg) (a : Reg)
  /-- FCOS, R200. Approximate FP32 cosine. -/
  | fcos (d : Reg) (a : Reg)
  /-- FTANH, R200. Approximate FP32 hyperbolic tangent. -/
  | ftanh (d : Reg) (a : Reg)
  /-- FCLASS, R198. Writes a one-hot class mask of an FP32 value. -/
  | fclass (d : Reg) (a : Reg)
  /-- FRND_RNE, R199. Rounds FP32 to integral, nearest-even. -/
  | frndRne (d : Reg) (a : Reg)
  /-- FRND_RZ, R199. Rounds FP32 to integral toward zero. -/
  | frndRz (d : Reg) (a : Reg)
  /-- FRND_RD, R199. Rounds FP32 to integral toward −∞. -/
  | frndRd (d : Reg) (a : Reg)
  /-- FRND_RU, R199. Rounds FP32 to integral toward +∞. -/
  | frndRu (d : Reg) (a : Reg)
  /-- FSCALE, R194. Multiplies FP32 by 2 to an integer power. -/
  | fscale (d : Reg) (a : Reg) (b : Reg)
  /-- HFMA2, R201. Two independent 16-bit fused multiply-adds per register. -/
  | hfma2 (t : FmtA) (d : Reg) (a : Reg) (b : Reg)
  /-- DOT4_E4M3, R202. Adds a four-way E4M3 dot product to an FP32 accumulator. -/
  | dot4E4m3 (d : Reg) (a : Reg) (b : Reg)
  /-- DOT4_E5M2, R202. Adds a four-way E5M2 dot product to an FP32 accumulator. -/
  | dot4E5m2 (d : Reg) (a : Reg) (b : Reg)
  /-- DOT4_I8, R202. Adds a four-way signed-byte dot product modulo 2^32. -/
  | dot4I8 (d : Reg) (a : Reg) (b : Reg)
  /-- FADD_F64, R194. FP64 add on pairs. -/
  | faddF64 (d : Reg) (a : Reg) (b : Reg)
  /-- FSUB_F64, R194. FP64 subtract on pairs. -/
  | fsubF64 (d : Reg) (a : Reg) (b : Reg)
  /-- FMUL_F64, R194. FP64 multiply on pairs. -/
  | fmulF64 (d : Reg) (a : Reg) (b : Reg)
  /-- FFMA_F64, R194. FP64 fused multiply-add on pairs. -/
  | ffmaF64 (d : Reg) (a : Reg) (b : Reg)
  /-- FMIN_F64, R195. FP64 minimum. -/
  | fminF64 (d : Reg) (a : Reg) (b : Reg)
  /-- FMAX_F64, R195. FP64 maximum. -/
  | fmaxF64 (d : Reg) (a : Reg) (b : Reg)
  /-- FDIV_F64, R194. FP64 divide. -/
  | fdivF64 (d : Reg) (a : Reg) (b : Reg)
  /-- FSQRT_F64, R194. FP64 square root. -/
  | fsqrtF64 (d : Reg) (a : Reg)
  /-- FCMP_F64, R197. Sets a predicate from an FP64 comparison. -/
  | fcmpF64 (c : FCond) (d : Reg) (a : Reg) (b : Reg)
  /-- FRND_F64, R199. Rounds FP64 to integral in the named mode. -/
  | frndF64 (r : FRnd) (d : Reg) (a : Reg)
  /-- FNEG_F64, R196. Flips the FP64 sign bit. -/
  | fnegF64 (d : Reg) (a : Reg)
  /-- FABS_F64, R196. Clears the FP64 sign bit. -/
  | fabsF64 (d : Reg) (a : Reg)
  /-- FCLASS_F64, R198. Writes a one-hot class mask of an FP64 value. -/
  | fclassF64 (d : Reg) (a : Reg)
  /-- FSCALE_F64, R194. Multiplies FP64 by 2 to an integer power. -/
  | fscaleF64 (d : Reg) (a : Reg) (b : Reg)
  /-- CVTQ_DEC, R207. Decodes a 4-bit code with block parameters into exact FP32. -/
  | cvtqDec (d : Reg) (a : Reg) (b : Reg)
  /-- CVTQ_ENC, R208. Quantises an FP32 value into a 4-bit code. -/
  | cvtqEnc (d : Reg) (a : Reg) (b : Reg)
  /-- CVTX_INS, R206. Converts FP32 and inserts it as one packed element of vD. -/
  | cvtxIns (y : XTy) (n : BitVec 2) (r : RndSel) (d : Reg) (a : Reg)
  /-- CVTX_EXT, R206. Extracts one packed element exactly into FP32. -/
  | cvtxExt (y : XTy) (n : BitVec 2) (d : Reg) (a : Reg)
  /-- FLAGR, R209. Reads fsr into vD. -/
  | flagr (d : Reg)
  /-- FLAGC, R209. Clears fsr bits named by the lowest executing lane's vA. -/
  | flagc (a : Reg)
  /-- RNG, R210. Writes one generator output and advances the thread's state. -/
  | rng (d : Reg)
  /-- RNGSEED, R211. Sets generator state from a seed and stream number. -/
  | rngseed (a : Reg) (b : Reg)
  /-- CVT, R203. Converts between number formats with a static or dynamic rounding mode. -/
  | cvt (x : Bool) (dst : NumTy) (src : NumTy) (r : RndSel) (d : Reg) (a : Reg)
  /-- LD, R232. Loads width bytes per lane with the named request type. -/
  | ld (q : LdReq) (w : Width) (d : Reg) (a : Reg) (i : Imm)
  /-- ST, R232. Stores width bytes per lane with the named request type. -/
  | st (q : StReq) (w : Width) (d : Reg) (a : Reg) (i : Imm)
  /-- LDS, R233. Loads from the task's scratchpad, waiting on empty lines. -/
  | lds (w : Width) (d : Reg) (a : Reg) (i : Imm)
  /-- STS, R233. Stores to the task's scratchpad, leaving full/empty bits unchanged. -/
  | sts (w : Width) (d : Reg) (a : Reg) (i : Imm)
  /-- LDX, R234. Loads from the scratchpad of a gang member by route. -/
  | ldx (w : Bool) (d : Reg) (a : Reg) (i : Imm)
  /-- STX, R234. Stores to the scratchpad of a gang member by route. -/
  | stx (w : Bool) (d : Reg) (a : Reg) (i : Imm)
  /-- PREF, R237. Hints a fill of a line into L1, L2 or the memory-side cache. -/
  | pref (d : Reg) (a : Reg) (i : Imm)
  /-- CWB, R235. Writes back dirty grains of a range to their homes at cluster scope and wider. -/
  | cwb (sc : Scope) (a : Reg) (b : Reg)
  /-- CINV, R235. Drops a range's grains, discarding dirty data of whole grains. -/
  | cinv (sc : Scope) (a : Reg) (b : Reg)
  /-- CWBINV, R235. Writes back and then drops a range's grains. -/
  | cwbinv (sc : Scope) (a : Reg) (b : Reg)
  /-- ICINV, R235. Drops instruction-cache copies of a range in every core within scope. -/
  | icinv (sc : Scope) (a : Reg) (b : Reg)
  /-- LENSLD, R238. Checks and loads a lens record into a lens entry. -/
  | lensld (a : Reg) (i : Imm)
  /-- LENSINV, R239. Empties a lens entry after its references drain. -/
  | lensinv (i : Imm)
  /-- LENSQ, R240. Returns a word of a lens entry or its state. -/
  | lensq (d : Reg) (a : Reg) (i : Imm)
  /-- COPY, R241. Queues a copy of a lens tile from memory into scratchpad on channel qN. -/
  | copy (q : BitVec 2) (d : Reg) (a : Reg) (i : Imm)
  /-- COPYS, R244. Queues a copy of a tile from scratchpad back to memory through a lens. -/
  | copys (q : BitVec 2) (d : Reg) (a : Reg) (i : Imm)
  /-- COPYM, R245. Queues one tile read delivered into several gang members' scratchpads. -/
  | copym (q : BitVec 2) (d : Reg) (a : Reg) (i : Imm)
  /-- QFENCE, R249. Places a fence entry in named queues, optionally with a release. -/
  | qfence (sc : Scope) (rel : Bool) (q : BitVec 7)
  /-- CWAIT, R250. Parks until the warp's earlier entries in named queues are performed. -/
  | cwait (q : BitVec 7)
  /-- FESET, R251. Sets a scratchpad line's full/empty bit and releases its waiters. -/
  | feset (a : Reg) (i : Imm)
  /-- FECLR, R251. Clears a scratchpad line's full/empty bit. -/
  | feclr (a : Reg) (i : Imm)
  /-- CSTORE, R257. Stores participants' values to consecutive elements in lane order. -/
  | cstore (w : Bool) (d : Reg) (a : Reg) (b : Reg)
  /-- XPAND, R258. Loads consecutive elements into participants in lane order. -/
  | xpand (w : Bool) (d : Reg) (a : Reg) (b : Reg)
  /-- GATH, R252. Reads one lens element per lane through the Prism, converted to a type. -/
  | gath (m : Bool) (t : ReqTy8) (d : Reg) (a : Reg) (i : Imm)
  /-- SCAT, R256. Writes one lens element per lane, converted into the lens format. -/
  | scat (t : ReqTy8) (d : Reg) (a : Reg) (i : Imm)
  /-- LD_ACQ, R375. Ordered load followed by an acquire at its scope. -/
  | ldAcq (w : Width) (sc : Scope) (d : Reg) (a : Reg)
  /-- ST_REL, R376. Release at its scope followed by a release-write store. -/
  | stRel (w : Width) (sc : Scope) (d : Reg) (a : Reg)
  /-- ATOM, R378. Atomic read-modify-write at the home slice, returning the old value. -/
  | atom (o : AtomOp) (w : Bool) (d : Reg) (a : Reg) (b : Reg)
  /-- ACAS, R380. Atomic compare-and-swap at the home slice. -/
  | acas (w : Bool) (d : Reg) (a : Reg) (b : Reg)
  /-- RED, R379. Atomic reduction at the home slice without a returned value. -/
  | red (o : AtomOp) (w : Bool) (a : Reg) (b : Reg)
  /-- FENCE_ACQ, R377. Parks until earlier loads return, then performs an acquire. -/
  | fenceAcq (sc : Scope)
  /-- FENCE_REL, R377. Performs a release making later writes release writes. -/
  | fenceRel (sc : Scope)
  /-- FENCE_ACQREL, R377. Performs an acquire then a release. -/
  | fenceAcqrel (sc : Scope)
  /-- WAITV_B32, R381. Parks until a 32-bit word holds a value other than the compare value. -/
  | waitvB32 (d : Reg) (a : Reg) (b : Reg)
  /-- WAITV_B64, R381. Parks until a 64-bit word holds a value other than the compare value. -/
  | waitvB64 (d : Reg) (a : Reg) (b : Reg)
  /-- BINIT, R385. Sets the expected count of a rendezvous point. -/
  | binit (d : Reg) (a : Reg) (l : BitVec 2)
  /-- BARV, R386. Releases at core scope and arrives with a count on a rendezvous point. -/
  | barv (d : Reg) (a : Reg) (l : BitVec 2)
  /-- BARVR, R386. Arrives on a rendezvous point of a team on another core by route. -/
  | barvr (d : Reg) (a : Reg) (b : Reg)
  /-- BWAIT, R387. Parks until a rendezvous phase completes, then acquires. -/
  | bwait (d : Reg) (l : BitVec 2)
  /-- BTEST, R388. Returns the number of completed phases not yet consumed. -/
  | btest (d : Reg) (a : Reg) (l : BitVec 2)
  /-- MMA, R285. Queues a dense matrix pass of A rows against a stream block. -/
  | mma (t : MmaTy) (nw : Bool) (st : BitVec 3) (z : BitVec 3) (a : Reg)
  /-- MMAS, R285. Queues a 2:4 sparse FP8 matrix pass. -/
  | mmas (e5 : Bool) (nw : Bool) (st : BitVec 3) (z : BitVec 3) (a : Reg)
  /-- MMAQ, R285. Queues a matrix pass against 4-bit block-scaled B. -/
  | mmaq (t : MmaQTy) (nw : Bool) (st : BitVec 3) (z : BitVec 3) (a : Reg)
  /-- MMAL, R285. Queues a matrix pass against LUT4 B decoded by a codebook register. -/
  | mmal (t : MmaQTy) (nw : Bool) (st : BitVec 3) (z : BitVec 3) (a : Reg) (c : Reg)
  /-- ZCLR, R287. Binds a tile name to fresh tiles of a kind with active rows zeroed. -/
  | zclr (k : ZKind) (z : BitVec 3)
  /-- ZLD, R288. Binds a tile name and loads rows from memory. -/
  | zld (k : ZKind) (z : BitVec 3) (a : Reg) (i : Imm)
  /-- ZMOV, R289. Moves part of each active row of a tile into registers. -/
  | zmov (d : Reg) (a : Reg) (i : Imm)
  /-- ZSCALE, R286. Queues a per-column scale and zero-point pass on an FP32 tile. -/
  | zscale (d : Reg) (a : Reg) (b : Reg)
  /-- ZSTO, R290. Stores active tile rows to memory as FP32 or BF16. -/
  | zsto (bf : Bool) (d : Reg) (a : Reg) (i : Imm)
  /-- ZREL, R291. Unbinds a tile name and frees its tiles when no earlier entry reads them. -/
  | zrel (d : Reg)
  /-- ZWAIT, R292. Parks until the warp's earlier qm entries naming the tile are performed. -/
  | zwait (d : Reg)
  /-- SPACK, R297. Builds 2:4 sparse metadata nibbles from keep masks. -/
  | spack (d : Reg) (a : Reg)
  /-- STRPUB, R293. Publishes the core's quarter of a B block into an operand stream. -/
  | strpub (f : SFmt) (st : BitVec 3) (a : Reg) (b : Reg)
  /-- STRSUB, R294. Subscribes the warp to a stream with a window count. -/
  | strsub (d : Reg) (i : Imm)
  /-- STREND, R295. Ends the warp's subscription to a stream. -/
  | strend (d : Reg)
  /-- MSTAT, R298. Returns a matrix status word chosen by a selector. -/
  | mstat (d : Reg) (a : Reg) (i : Imm)
  /-- KENC, R303. Forms a key from coordinates and level by a curve descriptor. -/
  | kenc (c : BitVec 4) (d : Reg) (a : Reg)
  /-- KDEC, R303. Decodes a key into coordinates and level. -/
  | kdec (c : BitVec 4) (d : Reg) (a : Reg)
  /-- KPAR, R303. Returns the parent key. -/
  | kpar (c : BitVec 4) (d : Reg) (a : Reg)
  /-- KCHLD, R303. Returns the i-th child key in curve order. -/
  | kchld (c : BitVec 4) (j : BitVec 3) (d : Reg) (a : Reg)
  /-- KREF, R305. Refines a leaf into its children in the leaf store. -/
  | kref (m : BitVec 3) (d : Reg) (a : Reg)
  /-- KCOARS, R305. Merges a parent's child leaves back into one leaf. -/
  | kcoars (m : BitVec 3) (d : Reg) (a : Reg)
  /-- KNBR, R306. Finds the face neighbour of a cell and returns a result group. -/
  | knbr (f : Face) (m : BitVec 3) (d : Reg) (a : Reg)
  /-- KNEXT, R307. Returns the i-th leaf touching a cell's face. -/
  | knext (f : Face) (m : BitVec 3) (d : Reg) (a : Reg)
  /-- KOWN, R308. Returns the owner result group for a key. -/
  | kown (m : BitVec 3) (d : Reg) (a : Reg)
  /-- KCOST, R310. Adds an amount to the cost of the leaf containing a key. -/
  | kcost (m : BitVec 3) (d : Reg) (a : Reg)
  /-- KREBAL, R313. Moves movable cuts by measured cost and installs a new table version. -/
  | krebal (clr : Bool) (m : BitVec 3) (d : Reg) (a : Reg)
  /-- KCUTQ, R309. Reads a cut record or the table status from the die's replica. -/
  | kcutq (m : BitVec 3) (d : Reg) (a : Reg)
  /-- KMESH_CURVE, R56. Loads a curve descriptor from a curve record. -/
  | kmeshCurve (n : BitVec 4) (d : Reg) (a : Reg)
  /-- KMESH_DEF, R312. Makes a mesh live from a mesh record. -/
  | kmeshDef (n : BitVec 3) (d : Reg) (a : Reg)
  /-- KMESH_REL, R312. Releases a live mesh, writing counts and cuts back to memory. -/
  | kmeshRel (n : BitVec 3) (d : Reg)
  /-- SWBEG, R335. Starts a sweep job on the core's sweep engine. -/
  | swbeg (d : Reg) (a : Reg) (i : Imm)
  /-- SWRET, R337. Installs a new context for the thread's element and returns it. -/
  | swret (a : Reg)
  /-- SWAKE, R338. Decrements an element's wait count at its home, waking it at zero. -/
  | swake (d : Reg) (a : Reg) (i : Imm)
  /-- SWEND, R339. Parks until the team's job ends, optionally requesting an abort. -/
  | swend (ab : Bool) (d : Reg)
  /-- SWSTAT, R340. Returns a status word of the team's latest sweep job. -/
  | swstat (d : Reg) (i : Imm)
  /-- POUR, R82. Checks and launches one pour per executing lane. -/
  | pour (d : Reg) (a : Reg) (i : Imm)
  /-- EDGEQ, R83. Counts retired producers in an edge's completion bitmap. -/
  | edgeq (d : Reg) (a : Reg) (i : Imm)
  /-- GANGQ, R103. Returns one fact about the caller's gang. -/
  | gangq (d : Reg) (a : Reg) (i : Imm)
  /-- CTLR, R425. Reads a control register into a pair. -/
  | ctlr (d : Reg) (i : Imm)
  /-- CTLW, R426. Writes a control register from a pair. -/
  | ctlw (a : Reg) (i : Imm)
  /-- TLBINV, R412. Drops translations of a range and waits for their accesses. -/
  | tlbinv (d : Reg) (a : Reg) (b : Reg)
  /-- PREEMPT, R413. Requests the halt, optionally the destruction, of a context. -/
  | preempt (k : Bool) (d : Reg) (a : Reg)
  /-- CTXSV, R414. Saves a halted context to a save area. -/
  | ctxsv (d : Reg) (a : Reg)
  /-- CTXLD, R415. Checks and restores a saved context image and resumes it. -/
  | ctxld (d : Reg) (a : Reg)
  /-- ENGRST, R416. Resets the matrix engine of a cluster. -/
  | engrst (a : Reg)
  /-- EVTQ, R417. Takes the oldest event of the die's arbiter, optionally waiting. -/
  | evtq (wt : Bool) (d : Reg)
  /-- TRESUME, R411. Ends a miss-table fault entry by replay or stop. -/
  | tresume (d : Reg) (a : Reg) (b : Reg)
  /-- NOP, R166. Occupies one issue slot and does nothing; with S set it acts only as a switch marker. -/
  | nop
  /-- EXIT, R169. Makes each executing thread exited, clearing its mask bits and team memberships. -/
  | exit
  /-- YIELD, R170. Keeps the warp from being chosen in the next cycle if another warp of the packer is eligible. -/
  | yield
  /-- LIMM, R116. Prefix that widens the immediate of the following RRI or RI14 word. Its imm21 stands beside it, in the low 21 bits of the word the issue latch holds (Decode.limmImm). -/
  | limm
  /-- FBAR, R172. Discards instruction words fetched ahead for the executing threads. -/
  | fbar
  /-- ILL, R127. The all-ones word of class 15, which always raises an illegal-instruction fault. -/
  | ill
  /-- SWNEXT, R336. Hands a batch of awake elements to the executing lanes. -/
  | swnext
  /-- ERET, R410. Leaves the trap handler using the thread's trap record. -/
  | eret
  /-- ISSUE_DECISION, R137. Each packer chooses the oldest eligible warp and one PC and issues one word. Arguments: x core, y pipe. -/
  | issueDecision
  /-- WARP_STARVATION_BOUND, R138. A warp eligible for 256 cycles without being chosen is chosen next. Arguments: x core, y pipe. -/
  | warpStarvationBound
  /-- PC_STARVATION_BOUND, R139. A PC unchosen in 64 decisions is chosen next for its warp. Arguments: x core, y warp. -/
  | pcStarvationBound
  /-- RESULT_RETURN, R135. An outstanding result is written to its register when it returns. Arguments: x core, y slot, z idx. -/
  | resultReturn
  /-- MARKER_RELEASE, R134. A thread parked on a switch marker becomes eligible once its last result is written. Arguments: x core, y slot. -/
  | markerRelease
  /-- MWAIT_RELEASE, R143. End-of-cycle evaluation releases threads parked on a mask whose wait condition holds. Arguments: x core, y warp, z mask. -/
  | mwaitRelease
  /-- REGROUP_FIRE, R149. Forms new warps from survivors once every live team thread of the group is parked at WREGRP. Arguments: x core, y group, z team. -/
  | regroupFire
  /-- LENS_ENTRY_WRITE, R50. Once earlier references drain, a loading lens entry is written and parked users released. Arguments: x ctx, y entry. -/
  | lensEntryWrite
  /-- LENS_ENTRY_EMPTY, R239. Once earlier references drain, LENSINV empties the entry and drops Prism lines. Arguments: x ctx, y entry. -/
  | lensEntryEmpty
  /-- COPY_ENTRY, R243. A channel performs a COPY entry, landing bytes, advancing wptr and setting full bits. Arguments: x core, y q, n the elements it passes, 0 for all that are left. -/
  | copyEntry
  /-- COPYS_ENTRY, R244. A channel performs a COPYS entry, writing tile elements to memory. Arguments: x core, y q, n the elements it passes, 0 for all that are left. -/
  | copysEntry
  /-- COPYM_ENTRY, R245. A channel delivers one tile into each named receiver's scratchpad. Arguments: x core, y q, n the elements it passes, 0 for all that are left. -/
  | copymEntry
  /-- PRISM_SERVE, R253. The Prism returns converted elements for a GATH request. Arguments: x cluster, y idx. -/
  | prismServe
  /-- HOME_REQUEST, R359. The home slice serves a request, recalling owned words as Table 18-1 requires. Arguments: x its number. -/
  | homeRequest
  /-- WAITV_REPOLL, R381. A lane that found the watch table full repeats its ordered load every 1,024 cycles. Arguments: x core, y slot. -/
  | waitvRepoll
  /-- PIN_END, R352. A pin ends, the release is widened to .sys and retried accesses proceed. Arguments: x core. -/
  | pinEnd
  /-- L1_EVICTION, R215. The L1 evicts a line, writing back dirty sectors of its grains. Arguments: x core, y line. -/
  | l1Eviction
  /-- INTEGRITY_ERROR, R227. A hop detects an error and corrects, retries or poisons the word. Arguments: x hop, y pa, z ctx, n the core of an L1, the M-stack for hops 0 to 2, else the die, v the bridge or Korlas Link port on which a flit was lost, flag0 uncorrectable. -/
  | integrityError
  /-- TRANSLATION_WALK, R398. A walk completes, filling the TLB or ending in a translation fault. Arguments: x die, y entry. -/
  | translationWalk
  /-- FAULT_RECORD_RESUME, R400. Waiting miss-table entries write their records once software frees fault-queue room. Arguments: x ctx. -/
  | faultRecordResume
  /-- EVENT_ENQUEUE, R407. A source places an event in its die's arbiter queue once there is room. Arguments: x die. -/
  | eventEnqueue
  /-- EVENT_READ, R407. Adeing takes the oldest event through the register map. Arguments: x die. -/
  | eventRead
  /-- LAUNCH_QUEUE_TAKE, R429. The distributor takes, checks and starts the next descriptor of an enabled queue. Arguments: x q. -/
  | launchQueueTake
  /-- UNIT_PLACEMENT, R93. The next linear placement unit is placed on a cluster by the pointer scan. Arguments: x ctx, y pour, z node. -/
  | unitPlacement
  /-- ADMISSION_DECISION, R106. A sector admits at most one candidate that has room and covers its charge. Arguments: x die, y sector. -/
  | admissionDecision
  /-- ADMISSION_OVERDUE, R107. A candidate with room for 4 ms without covering its charge is admitted at once. Arguments: x task. -/
  | admissionOverdue
  /-- CANDIDATE_RESERVED, R107. A candidate passed over for room for 4 ms becomes reserved. Arguments: x task. -/
  | candidateReserved
  /-- TASK_SAVE, R404. A halted pre-empted task is saved into its save slot and returned to ready. Arguments: x task. -/
  | taskSave
  /-- HEAT_REFILL, R105. Every 1,050 cycles each sector's budget level is refilled up to its cap. -/
  | heatRefill
  /-- TASK_RETIRE, R419. A finished task with all work performed cleans regions, writes its record and frees room. Arguments: x task. -/
  | taskRetire
  /-- RETIRE_RESUME, R423. A retire waiting on a full ring continues from step 3 once RRGET advances. Arguments: x task. -/
  | retireResume
  /-- MATRIX_GRANT, R261. The arbiter grants a ready entry to a free array, starting a pass. Arguments: x cluster, y array. -/
  | matrixGrant
  /-- PASS_COMPLETE, R271. A pass ends, its rows and flags posted and its entry performed. Arguments: x cluster, y array. -/
  | passComplete
  /-- GRANT_AGEING, R261. An entry ready for 4,096 cycles without a grant goes ahead of its core's others. Arguments: x cluster, y array. -/
  | grantAgeing
  /-- TILE_PORT_PERFORM, R281. The core's tile port performs a ZCLR, ZLD, ZMOV, ZSTO or ZREL entry in qm order. Arguments: x core, y warp. -/
  | tilePortPerform
  /-- WATCHDOG_TRIP, R278. A pass running 65,536 cycles trips the watchdog, stops grants and raises WATCHDOG. Arguments: x cluster, y array. -/
  | watchdogTrip
  /-- PASS_ABANDON, R279. A pass not ended 64 cycles after a pre-emption request is abandoned, its name lost. Arguments: x cluster, y array. -/
  | passAbandon
  /-- SWEEP_START, R325. A new sweep starts, clearing dispatched marks and waking SWEEP-waiting elements. Arguments: x core. -/
  | sweepStart
  /-- CURSOR_ADVANCE, R322. The sweep cursor leaves a chunk, testing FLAG-waiting elements on arrival. Arguments: x core. -/
  | cursorAdvance
  /-- SWEEP_WAKE, R326. A wake reaches an engine and schedules the element for this or the next sweep. Arguments: x core, y idx. -/
  | sweepWake
  /-- SWEEP_DISPATCH, R336. A parked SWNEXT receives elements once awake elements become reachable. Arguments: x core. -/
  | sweepDispatch
  /-- JOB_END, R324. A sweep job ends, writing its stamp, releasing and answering parked waiters. Arguments: x core. -/
  | jobEnd
  /-- RENDEZVOUS_ARRIVAL, R386. An arrival is counted at the point after its release, possibly completing a phase. Arguments: x its number. -/
  | rendezvousArrival
  /-- REPLICA_APPLY, R69. A die's cut-table replica applies a switch message. Arguments: x ctx, y mesh, z die. -/
  | replicaApply
  /-- LEAF_SWITCH, R316. A migrating leaf with pin count zero switches, ending its windows and clearing MIG. Arguments: x ctx, y mesh, z key. -/
  | leafSwitch
  /-- MIRROR_ENTRY, R362. The initiator rewrites the page entry with the new home and mir 1 and starts the window. Arguments: x ctx, y va, z die. -/
  | mirrorEntry
  /-- MIRROR_RECALL, R361. The old home recalls every owned word of the page. Arguments: x page. -/
  | mirrorRecall
  /-- MIRROR_COPY, R361. The old home copies every line of the page to the new home. Arguments: x page. -/
  | mirrorCopy
  /-- MIRROR_SWITCH, R361. The switch message makes the new home authoritative and clears mir. Arguments: x page. -/
  | mirrorSwitch
  /-- SNPINV, R365. A host SnpInv snoop drops the remote-data-cache line. Arguments: x pa. -/
  | snpInv
  /-- SNPDATA, R365. A host SnpData snoop drops the remote-data-cache line. Arguments: x pa. -/
  | snpData
  /-- SNPCUR, R365. A host SnpCur snoop leaves the line. Arguments: x pa. -/
  | snpCur
  /-- HOST_MEM_READ, R366. A host CXL.mem read is served as a .nc read at the home slice. Arguments: x pa, y n. -/
  | hostMemRead
  /-- HOST_MEM_WRITE, R366. A host CXL.mem write is performed as a .nc write at the home slice. Arguments: x pa, data. -/
  | hostMemWrite
  /-- PEER_REQUEST, R368. A request from a peer package is served at its home slice. Arguments: x pkg, y core, kind, z pa, n bytes, or the grain of an own request, data, and for an atomic v its operand and data the compare value of acas. -/
  | peerRequest
  /-- PEER_REQUEST_TIMEOUT, R369. A peer request without response for 10 ms parks its lane with a link fault record. Arguments: x its number, y port. -/
  | peerRequestTimeout
  /-- ROUTER_ARBITRATE, R371. A router port or memory queue chooses the next message by group and deficit round robin. Arguments: x port. -/
  | routerArbitrate
  /-- G2_AGEING, R371. A G2 message waiting 65,536 fabric cycles is arbitrated once as G1. Arguments: x port. -/
  | g2Ageing
  /-- DIE_HALTED, R401. A die whose context activity has halted raises HALTED. Arguments: x die, y ctx. -/
  | dieHalted
  /-- LQPUT_WRITE, R429. Host doorbell write of LQPUT, ignored with OVF when it overflows the ring. Arguments: x q, v the value. -/
  | lqputWrite
  /-- LQCTL_WRITE, R429. Writes the queue enable and context, stopping or starting the queue. Arguments: x q, v the value. -/
  | lqctlWrite
  /-- LQERR_CLEAR, R428. Write-1-to-clear of the launch queue error flags. Arguments: x q, v the value. -/
  | lqerrClear
  /-- CREATE, R437. Mailbox request that checks an entry image and creates a context. -/
  | mbCreate
  /-- DESTROY, R438. Mailbox request that pre-empts and destroys a context. -/
  | mbDestroy
  /-- HALT, R438. Mailbox request that halts a context. -/
  | mbHalt
  /-- SAVE, R438. Mailbox request that saves a halted context. -/
  | mbSave
  /-- LOAD, R438. Mailbox request that loads a saved context image. -/
  | mbLoad
  /-- TCMAP, R438. Mailbox request that writes a context's TCMAP. -/
  | mbTcmap
  /-- MOVEPAGE, R438. Mailbox request that opens a mirror window moving a page's home. -/
  | mbMovepage
  /-- BIAS, R364. Mailbox request that flips the bias of a host-shared page. -/
  | mbBias
  /-- MAILBOX_TLBINV, R438. Mailbox request that drops translations for a context. -/
  | mbTlbinv
  /-- POWERCAP, R435. Mailbox request that writes PWRCAP. -/
  | mbPowercap
  /-- HEAT, R438. Mailbox request that sets a sector's requested heat-budget values. -/
  | mbHeat
  /-- ENGRESET, R438. Mailbox request that resets a matrix engine through ENGRSTC. -/
  | mbEngreset
  /-- MAILBOX_ANSWER, R439. Adeing writes the response, updates MBSTAT and sends the MSI-X message. -/
  | mailboxAnswer
  /-- MBSTAT_CLEAR, R438. Write-1-to-clear of the mailbox OVF flag. Arguments: v the value. -/
  | mbstatClear
  /-- ENGRSTC_WRITE, R440. Adeing write that starts a reset of a cluster's matrix engine. Arguments: x cluster, v the value, flag0 whether the host writes. -/
  | engrstcWrite
  /-- HBCTL_WRITE, R104. Writes the heat-budget enable; enabling sets the level to the cap. Arguments: x die, y sector, v the value, flag0 whether the host writes. -/
  | hbctlWrite
  /-- HBCAP_WRITE, R104. Writes the heat-budget cap, lowering the level to it if below. Arguments: x die, y sector, v the value, flag0 whether the host writes. -/
  | hbcapWrite
  /-- REGISTER_WRITE, R104. Write of a register without behaviour of its own, ignored with nonzero reserved fields. Arguments: reg, v the value, flag0 whether the host writes. -/
  | registerWrite
  /-- PWRSTAT_CLEAR, R435. Host write of 1 clears the sticky THERM bit. Arguments: v the value. -/
  | pwrstatClear
  /-- POWER_CAP_ENFORCE, R435. While power exceeds the cap, Adeing enables and lowers heat budgets and sets CAPPED. -/
  | powerCapEnforce
  /-- POWER_CAP_RESTORE, R435. After 100 ms below 95 % of the cap, Adeing restores one sector every 10 ms. -/
  | powerCapRestore
  /-- THERMAL_SHUTDOWN, R436. A die at 105 °C makes Adeing raise THERMAL, halt contexts and cut power. Arguments: x die: 0 to 3 a C-die, 4 and 5 the X-dies 0 and 1. -/
  | thermalShutdown
  /-- FUNCTION_RESET, R436. A host function reset leaves thermal shutdown and runs the boot again. -/
  | functionReset
  /-- POWER_ON, R434. Power-on starts the boot ROM's image fetch and verification. -/
  | powerOn
  /-- BOOT_FETCH_RETRY, R434. After a failed fetch or check, the ROM fetches again after a doubling wait. -/
  | bootFetchRetry
  /-- LINK_RETRAIN_BEGIN, R408. A link begins retraining and raises LINK. Arguments: x link. -/
  | linkRetrainBegin
  /-- LINK_RETRAIN_DONE, R408. A link finishes retraining and raises LINK. Arguments: x link; for a Korlas Link port, y the port and z the package at its other end. -/
  | linkRetrainDone
  /-- LINK_RETIRE, R433. A port, base-die link or die bridge that fails to retrain within 100 ms becomes retired, or firmware retires another unit. Arguments: x its number. -/
  | linkRetire
  /-- BOOT_IMAGE_FETCHED, R434. The TFTP fetch of the boot image ends and both signatures are checked, either making the device usable or leading to a retry wait. Arguments: flag0 fetched, flag1 rsa, flag2 slhdsa, x and y the SHA-384 hashes of the image's RSA-3072 and SLH-DSA public keys. -/
  | bootImageFetched
  /-- DIES_BELOW_85C, R436. After a thermal shutdown and reset, every die falls below 85 °C and Adeing lets the held boot proceed. -/
  | diesBelow85C
  /-- MBDOOR_WRITE, R439. A host write of the mailbox doorbell submits a request, or is ignored and sets OVF when busy is 1, or is answered BADREQ for an unassigned opcode. Arguments: v the value. -/
  | mbdoorWrite
deriving DecidableEq, Repr

end Sys2Proof
end

