-- ==== Sys2Proof/Machine/State.lean ====
section
/-! DEFINITION. The state of a Serug package as plain data: tables of records, each with the fields that the spec gives
it, and the state after power-on. A table lists only what is live; a record is found by its key fields. Addresses are
numbers: a virtual address is a 64-bit number, a physical byte is a key, space · 2^56 + address, with space 0 for
device memory, 1 for host memory and 2 for peer packages (18 R358, R365, R368). -/

namespace Sys2Proof.Machine

open Sys2Proof

/-! ## Threads, warps, tasks and teams of a core (06, 07, 19) -/

/-- Where a result of an issued compound lands: a row of the thread's registers, fixed at issue (R121, R135), or a
predicate, or a word of the generator state (R210). -/
inductive Dest where
  | row (n : Nat)
  | pred (n : Nat)
  | rng (n : Nat)
deriving DecidableEq, Repr

/-- An outstanding result (R134). `val` holds its words, the first lowest; each destination names its word. It may
return once no part of it is outstanding at a home (`parts` = 0). -/
structure Pending where
  id : Nat
  parts : Nat := 0
  dests : List (Dest × Nat)
  val : Nat := 0
  flags : BitVec 7 := 0
deriving DecidableEq, Repr

/-- Why a thread is parked (07 Table 7-2 and the entries that park). Every reason holds the thread's PC; a thread parked
with `fault`, `line`, `lens`, `member` or `retry` issues its compound again when it is released (R140, R398). -/
inductive Park where
  /-- the switch marker (R134) -/
  | marker
  /-- MWAIT on a mask (R143) -/
  | mwait (mask : Nat)
  /-- WREGRP naming a team; the row its count lands in (R148) -/
  | wregrp (team row : Nat)
  /-- BWAIT on a point of a team (R387) -/
  | bwait (team point : Nat)
  /-- WAITV on a watch, or on the repeated load when the watch table was full (R381) -/
  | waitv (watch : Nat)
  /-- an empty scratchpad line of a task (R222) -/
  | line (task line : Nat)
  /-- an entry of a miss table (R397); `after` when the thread resumes after its compound (R257, R258) -/
  | fault (die entry : Nat) (after : Bool)
  /-- a loading lens entry (R50) -/
  | lens (ctx entry : Nat)
  /-- its own LENSLD or LENSINV, until the entry is written (R238, R239) -/
  | lensOwn (ctx entry : Nat)
  /-- an unstarted gang member (R99) -/
  | member (gang m : Nat)
  /-- a grain pinned by another core (R351) -/
  | retry
  /-- CWAIT or ZWAIT on queue entries (R250, R292); for ZWAIT, the name, else 8 -/
  | queue (ids : List Nat) (name : Nat)
  /-- EVTQ waiting for an event; the row of its group, and the number that the lanes of one instruction share (R417) -/
  | event (row id : Nat)
  /-- SWNEXT or SWEND, waiting on the sweep engine (R336, R339): its address or the row of its result, and the number that the lanes of one
  instruction share -/
  | sweep (next : Bool) (row id : Nat)
  /-- KREF or KCOARS on leaves of a mesh, by their keys, that migrate (R304); it issues its compound again -/
  | mig (ctx mesh : Nat) (keys : List Nat)
  /-- KREBAL until every replica has applied its version (R314) -/
  | rebal (ctx mesh : Nat)
  /-- TLBINV until the requests and queue entries translated through dropped translations have been performed (R412) -/
  | tlb (reqs entries : List Nat)
  /-- CTXSV or CTXLD until it completes (R414, R415); it issues its compound again -/
  | system
  /-- ENGRST until the engine of the cluster accepts grants again (R416) -/
  | engrst (cluster : Nat)
deriving DecidableEq, Repr

/-- The states of a thread (07 Table 7-1). -/
inductive Status where
  | eligible
  | parked (r : Park)
  | stopped
  | exited
  | unused
deriving DecidableEq, Repr

/-- A guard range in force for a thread: its sample g and the compounds still to run (R115). -/
structure Guard where
  g : Bool
  left : Nat
deriving DecidableEq, Repr

/-- What SWNEXT recorded for a thread: the storage position of the element it holds and its own address (R336); `due` while
the reads of the dispatch are still to be made again after a fault (R331). -/
structure SweepRec where
  elem : Nat
  addr : Pair
  due : Bool := false
deriving DecidableEq, Repr

/-- Why a name of a warp is lost (R277). -/
inductive LostCause where
  | reset | format
deriving DecidableEq, Repr

/-- What has been done of a word that its unit accepts part by part, kept with its executing threads while the word waits (R137): of a compaction
the ranks that have been performed, among the lanes of its participants (R257, R258); of a copy the lens of its issue, and whether the lane's
entry has been placed (R246). `id` is the result that counts the ranks. -/
structure Midway where
  id : Nat := 0
  ranks : Nat := 0
  lanes : List Nat := []
  placed : Bool := false
  snap : List Word := []
deriving DecidableEq, Repr

/-- A thread (06 R118 to R122, 07 R132, R133, 19 R382, R383, 20 R393). Its key is its core and its thread slot, which fix
its register column (R132). -/
structure Thread where
  core : Nat
  slot : Nat
  task : Nat
  tid : Nat
  regs : List Word            -- v registers, row off + n at position n (R120)
  preds : BitVec 8 := 0
  pc : Pair
  wb : Nat := 0
  rng : BitVec 128 := 0       -- s0 to s3, s0 lowest (R210)
  lane : Nat
  warp : Nat                  -- the warp slot that holds it now (R132)
  status : Status := .eligible
  teams : List Nat := [255, 255, 255, 255]
  seen : List ((Nat × Nat) × Word) := []     -- seen count of (team, point), 0 where absent (R382)
  clock : BitVec 64 := 0      -- last capture of clocklo (06 Table 6-7)
  handler : Bool := false     -- handler bit (R393)
  guard : Option Guard := none
  repLeft : Nat := 0          -- repeats still to run of the compound at its PC (R114, R140)
  mark : Bool := false        -- its compound's switch marker takes effect once its other park ends (R113)
  mates : List Nat := []      -- the threads that parked at a switch marker with it, as one group (R134; assumption log 78)
  zwait : Option (Option LostCause) := none  -- its ZWAIT was released, when its name was lost for the cause given (R292)
  pending : List Pending := []
  fetched : List (Nat × BitVec 32) := []     -- words fetched ahead (R130, R172)
  grains : List Nat := []     -- grains loaded since its last acquire (R348)
  relScope : Option Scope := none            -- its later writes are release writes of a FENCE (R344, R377)
  dispatch : Option SweepRec := none         -- sweep dispatch record (R336)
  midway : Option Midway := none             -- the word at its PC has been accepted in part (R246, R257)
deriving DecidableEq, Repr

/-- One name of a warp's name table (13 R267, R268, R277; 14 R281): its issue-time binding and kind, the physical tiles
it is bound to at performance, and its lost state. -/
structure ZName where
  bound : Bool := false            -- as issue checks see it (R281)
  kind : ZKind := .f32
  held : Option ZKind := none      -- the kind of the tiles it holds, as entries are performed
  tiles : List Nat := []           -- those physical tiles
  lost : Option LostCause := none
deriving DecidableEq, Repr

/-- A subscription of a warp to a stream (R266, R294). -/
structure Sub where
  stream : Nat
  cursor : Nat          -- number of the block at the cursor
  window : Nat          -- window count w
  granted : Nat := 0    -- grants of the block at the cursor
  ended : Bool := false -- removed from the warp's table by a STREND not yet performed (R295)
deriving DecidableEq, Repr

/-- A compound whose repeats are not all issued (R139, R140). -/
structure Compound where
  pc : Pair
  next : Pair
  word : BitVec 32
  limm : Option (BitVec 21)
  n : Nat
  sD : Bool
  sA : Bool
  sB : Bool
  j : Nat
  group : List Nat
deriving DecidableEq, Repr

/-- A warp (06 R118, 07 R137 to R144, 02 R25, R38, 13 R267, 12 R247). Its key is its core and warp slot. -/
structure Warp where
  core : Nat
  slot : Nat
  task : Nat
  masks : List Word            -- m0 to m11
  wpart : Nat := 4
  frm : Nat := 0
  fsr : BitVec 7 := 0
  posted : BitVec 7 := 0       -- flags posted in this cycle, which a clear of the same cycle comes before (R209)
  age : Nat                    -- moment of its task's admission (R109, R138)
  waited : Nat := 0            -- consecutive cycles eligible without being chosen (R138)
  unchosen : List (Pair × Nat) := []         -- decisions each PC has gone unchosen (R139)
  yielded : Bool := false      -- YIELD in the last cycle (R170)
  chosen : Bool := false       -- chosen in this cycle (R138)
  stalled : Bool := false      -- its word found its unit unable to accept it in this cycle (R137)
  cur : Option Compound := none
  names : List ZName           -- z0 to z7
  subs : List Sub := []
  vacated : Bool := false      -- emptied by a regroup, never issued again (R149)
deriving DecidableEq, Repr

/-- One rendezvous point (R382). -/
structure Point where
  e : Nat := 0
  arr : List (Nat × Scope) := []             -- the arrival count A, as the arrivals still counted and their scopes
  s : Nat := 0
  p : Word := 0
  last : List Scope := []      -- arrival scopes of the phases completed and not yet consumed by every waiter (R387)
deriving DecidableEq, Repr

/-- A team record (R95, R150, R382). Its key is its core and number. -/
structure Team where
  core : Nat
  num : Nat
  task : Nat
  members : List Nat           -- thread slots
  points : List Point          -- bp0 to bp23
  kept : Bool := false         -- kept for its gang after its last member left (R100)
deriving DecidableEq, Repr

/-! ## Memory, caches, requests and translation (11, 12, 17, 18, 20) -/

/-- A leaf entry in force for an access (20 Table 20-5). -/
structure Leaf where
  pa : Nat              -- first physical byte of the page
  size : Nat            -- bytes of the page
  grain : Nat           -- 32, 128 or 512
  rtype : Nat           -- 0 .own, 1 .si, 2 .wt, 3 .nc
  home : Nat            -- 0 to 3 die, 4 host, 5 peer
  mir : Bool
  sh : Bool
  priv : Bool
  x : Bool
  ro : Bool
deriving DecidableEq, Repr

/-- A cached translation, tagged by context (R397): the page's first virtual byte and its leaf. -/
structure Xlate where
  ctx : Nat
  va : Nat
  leaf : Leaf
deriving DecidableEq, Repr

/-- How an L1 holds a word (R214, R215, R358). -/
inductive Hold where
  | own | si
deriving DecidableEq, Repr

/-- One 32-bit word in an L1 (R215, R358): held as owner with a written bit, or as a shared copy. -/
structure L1Word where
  core : Nat
  key : Nat             -- key of its first byte, a multiple of 4
  val : Word
  hold : Hold
  written : Bool := false
  priv : Bool := false          -- private memory (R225)
  task : Nat := 0               -- its task, for private memory
  grain : Nat := 32
  pref : Bool := false          -- filled by PREF (R237)
  filled : Nat := 0             -- moment of its fill from the home (R217); 0 for a copy that came from elsewhere
deriving DecidableEq, Repr

/-- One word of a near copy, of a remote-data cache, of a Prism or of an instruction cache; `unit` is the sector, die,
cluster or core that holds it, and `tag` the lens entry a Prism filled it through (R218, R219, R255, R130). -/
structure CacheWord where
  unit : Nat
  key : Nat
  val : Word
  tag : Nat := 0
deriving DecidableEq, Repr

/-- The owner record and owned bits of a 128-byte line at its home (R358). -/
structure Owner where
  line : Nat            -- key of the line's first byte
  pkg : Nat             -- 0 this package, else the number of a peer package plus 1 (R368)
  core : Nat
  grain : Nat
  bits : BitVec 32
deriving DecidableEq, Repr

/-- A pin (R351): its grain, its holder, and what ends it. At the home when a watch stood on the word. -/
structure Pin where
  id : Nat              -- order of age on its core
  core : Nat
  slot : Nat            -- the releasing thread
  grain : Nat           -- key of the grain's first byte
  size : Nat
  scope : Scope
  group : List Nat      -- the releasing thread and the members of its teams at the release
  atHome : Bool := false
deriving DecidableEq, Repr

/-- A watch of WAITV (R381). -/
structure Watch where
  id : Nat
  core : Nat
  slot : Nat
  key : Nat
  width : Nat           -- 4 or 8 bytes
  cmp : Nat
  home : Nat := 0       -- the home of its page
  rows : List Nat       -- destination rows
  registered : Bool     -- false when the table was full and the lane repeats its load
  missed : Option Nat := none    -- the first value that a pin keeps from its lane (R351)
  since : Nat           -- moment of its last load
  pc : Pair             -- its compound, where the thread stands when it issues the WAITV again
  rep : Nat             -- the repeats it then has to run
  guard : Option Guard  -- its guard range there
deriving DecidableEq, Repr

/-- How a load fills (11 Table 11-2): exclusively, as a shared copy, with no fill and a recall (.nc), or with no fill (the
no-allocate traffic of R226). -/
inductive LdTy where
  | own | si | nc | na
deriving DecidableEq, Repr

/-- What a request asks of its home (18 Table 18-1). -/
inductive ReqKind where
  | load (t : LdTy) (ordered : Bool)
  | storeOwn | storeWt | storeNc
  | atom (o : AtomOp)
  | acas (cmp : Nat)
deriving DecidableEq, Repr

/-- A request of a thread that its home has not yet served (R343, R359): one single-copy atomic part of an access. -/
structure Req where
  id : Nat
  core : Nat
  slot : Nat
  ctx : Nat
  kind : ReqKind
  key : Nat             -- key of the first byte
  va : Nat
  width : Nat           -- bytes
  data : Nat := 0
  grain : Nat := 32
  home : Nat := 0
  pend : Nat := 0       -- the outstanding result it fills; 0 for none
  shift : Nat := 0      -- byte of the result its data goes to
  post : Bool := false  -- posts flags (ATOM.fadd, R378)
  probe : Bool := false  -- a plain load that may probe a peer cluster (R217)
  na : Bool := false     -- no-allocate traffic (R226)
  rel : Option Scope := none           -- the release that comes before it: every earlier access of its thread, then its work (R376)
  acq : Option Scope := none           -- the acquire that follows it (R375)
  pin : Option Scope := none           -- a release write that pins its grain (R351)
  after : Nat := 0       -- the request that is performed before it (R257); 0 for none
  count : Nat := 0       -- the result that counts it among its ranks (R257, R258), in each of `lanes`
  lanes : List Nat := []
  at_ : Nat := 0         -- moment of its issue, among those of MemSys.now (R353)
  got : Option (Nat × List (Nat × Word)) := none   -- what its home has read for it, and when: the reply is on its way (R216, R353)
  stall : Option (Nat × Nat) := none   -- the miss-table entry it waits in after poison or a lost link (R228, R369)
  since : Nat := 0
deriving DecidableEq, Repr

/-- A thread of a core, and a write on its way to its home that the thread has seen, or may see (R357). -/
structure Early where
  core : Nat
  slot : Nat
  req : Nat
deriving DecidableEq, Repr

/-- A run of keys that a range names on one page: first key, end, and the home of the page. -/
structure KeyRun where
  lo : Nat
  hi : Nat
  home : Nat
deriving DecidableEq, Repr

/-- The forms of a range operation (12 Table 12-2). -/
inductive RangeOp where
  | cwb | cinv | cwbinv | icinv
deriving DecidableEq, Repr

/-- A range operation of a thread that is still to be performed (R235, R236), with the virtual range it names. -/
structure RangeReq where
  id : Nat
  core : Nat
  slot : Nat
  ctx : Nat
  op : RangeOp
  scope : Scope
  va : Nat
  size : Nat
  runs : List KeyRun
deriving DecidableEq, Repr

/-- A write of a core, for what a copy may still answer (R217, R353, R356): its thread slot where the thread made it, or none where a
write of the core was performed at the home. -/
structure Wrote where
  core : Nat
  slot : Option Nat
  key : Nat             -- its word
  at_ : Nat             -- its moment
deriving DecidableEq, Repr

/-- The kinds of a fault record (20 Table 20-6). -/
inductive Access where
  | read | write | fetch | format | mesh | sweep | poison | link | system
deriving DecidableEq, Repr

/-- Which activity waits in a miss-table entry besides lanes (R89, R398). -/
inductive Waiter where
  | lane (core slot rep : Nat)      -- with the repeats it has still to run; 0 leaves its count as it is
  | copy (entry : Nat)
  | gath (entry : Nat)
  | tile (entry : Nat)
  | sweep (task : Nat)              -- a sweep job, by its task
  | pour (ctx pour : Nat)
  | queue (q : Nat)
  | retire (task : Nat)
  | completion (ctx pour : Nat)
  | switch (ctx mesh key : Nat)
  | jobEnd (task : Nat)
  | save (task : Nat)
  | gone (task tid rep : Nat)       -- a lane of a task that stands in a save slot (R404)
deriving DecidableEq, Repr

/-- Where a miss-table entry stands: its walk is under way, its fault waits for room in the fault queue (R400), or its
record is written and it waits for TRESUME (R411). -/
inductive MissPhase where
  | walking | queued | recorded
deriving DecidableEq, Repr

/-- A miss-table entry (R397 to R400). Its key is its die and its number. -/
structure Miss where
  die : Nat
  num : Nat
  ctx : Nat
  page : Nat            -- number of the 64 KiB granule
  kind : Access
  unpriv : Bool         -- whether an unprivileged thread waits (R398)
  write : Bool          -- whether a write or an atomic waits
  waiters : List Waiter
  phase : MissPhase := .walking
  reason : Nat := 0     -- reason field of the record
  va : Nat := 0
  pc : Nat := 0
  task : Nat := 0
  core : Nat := 0
  slot : Nat := 0
  order : Nat := 0      -- moment of its fault (R400)
  poison : Bool := false       -- its walk met poison, and its record is of kind poison (R228)
  resume : Nat := 0            -- a TRESUME recorded while its lanes are saved: 1 replay, 2 stop (R406)
deriving DecidableEq, Repr

/-- A range operation or another access that was translated through a dropped translation and is still to be performed is
counted by its requests (R412); this is the memory system. -/
structure MemSys where
  cells : List Host.Cell := []        -- bytes at their homes; an unlisted byte reads 0 (log 2)
  poison : List Nat := []             -- keys of poisoned 64-bit words, rising (R228)
  l1 : List L1Word := []
  near : List CacheWord := []
  rdc : List CacheWord := []
  icache : List CacheWord := []
  owners : List Owner := []
  pins : List Pin := []
  watches : List Watch := []
  reqs : List Req := []
  ranges : List RangeReq := []        -- range operations still to be performed (R236)
  l1tlb : List (Nat × Xlate) := []    -- per core
  shtlb : List (Nat × Xlate) := []    -- per sector, die · 3 + sector
  miss : List Miss := []
  detector : List (Nat × Nat × Nat × Nat) := []    -- core, key of its page, key of the next grain, accesses in the run (R226)
  predictor : List (Nat × Nat × Nat) := []     -- cluster, index, predicted cluster (R217)
  served : List (Nat × Nat) := []     -- line and the cluster its home last served it to (R217)
  acquired : List (Nat × Nat) := []   -- moment of each core's last acquire (R217)
  now : Nat := 1                      -- the moments of writes, fills and acquires, counted (R217: the package clock)
  wrote : List Wrote := []            -- the writes of each core since its last acquire
  staging : List (Nat × Nat) := []    -- lines that no-allocate traffic passes through: home slice and line (R226)
  early : List Early := []            -- writes that threads have seen before their homes have performed them for all (R357)
  forward : List Early := []          -- what the agenda lets threads see early; the model's own (assumption log 62)
deriving DecidableEq, Repr

/-! ## Queues and engines (12, 13, 14, 15, 16) -/

/-- The queues of R247: a core's copy channels and sweep queue, and a warp's matrix and gather queues. -/
inductive QName where
  | q (n : Nat)
  | qs
  | qm (warp : Nat)
  | qg (warp : Nat)
deriving DecidableEq, Repr

/-- What a copy entry does (R241, R244, R245). -/
inductive CopyOp where
  | copy | copys | copym (mask : Nat)
deriving DecidableEq, Repr

/-- An entry of a copy channel (R241 to R246): its lens as it stood at issue, the tile origin, the scratchpad offset, the
delivered type (none for raw), and the bytes already passed. -/
structure CopyJob where
  op : CopyOp
  slot : Nat
  task : Nat
  lens : Nat
  snap : List Word
  coords : List Int
  off : Nat
  ty : Option ReqTy8
  pc : Nat := 0                 -- first word of its compound, for a fault record
  done : Nat := 0
  value : Nat := 0              -- the element whose bytes are landing
  flags : BitVec 7 := 0
deriving DecidableEq, Repr

/-- One lane of a GATH (R252): its coordinates, or the address they are read from, its destination row and its
outstanding result. -/
structure GathLane where
  lane : Nat
  slot : Nat
  coords : List Int
  addr : Option Nat
  pend : Nat
  rows : List Nat := []         -- the rows that its operand A names, for a GATH that issues again (R254)
  priv : Bool := false          -- the privilege of its thread at issue (R393)
deriving DecidableEq, Repr

/-- A GATH that the Prism has not yet served (R252 to R255). -/
structure GathJob where
  lens : Nat
  snap : List Word
  ty : ReqTy8
  lanes : List GathLane
  book : List Word              -- codebook, lanes 0 to 15 (R37)
  pc : Pair
  dest : Reg := 0               -- its operand D
  again : Bool := false         -- after a format fault, it is to issue again (R254)
deriving DecidableEq, Repr

/-- The request that a pass performs (14 Table 14-3). -/
inductive PassTy where
  | mma (t : MmaTy)
  | mmas (e5 : Bool)
  | mmaq (t : MmaQTy)
  | mmal (t : MmaQTy)
deriving DecidableEq, Repr

/-- One row of a ZLD or ZSTO: its lane, its thread, its address and the translations made at issue (R288). -/
structure TileRow where
  lane : Nat
  slot : Nat
  va : Nat
  leaves : List Xlate
deriving DecidableEq, Repr

/-- An entry of qm (R281). The mask captured at issue is the list of lanes. -/
inductive TileOp where
  /-- MMA, MMAS, MMAQ and MMAL: the A registers of each captured lane, and the codebook of MMAL -/
  | pass (t : PassTy) (nw : Bool) (stream z : Nat) (rows : List (Nat × List Word)) (book : List Word)
  /-- ZSCALE: 64 scales and 64 zero points -/
  | zscale (z : Nat) (lanes : List Nat) (sc zp : List Word)
  | zclr (k : ZKind) (z : Nat) (lanes : List Nat)
  | zld (k : ZKind) (z : Nat) (rows : List TileRow) (pc : Nat)
  /-- ZMOV: the part of each row, and the lanes with their threads and outstanding results -/
  | zmov (z sel : Nat) (k : ZKind) (lanes : List (Nat × Nat × Nat))
  | zsto (bf : Bool) (z : Nat) (k : ZKind) (rows : List TileRow) (pc : Nat)
  | zrel (z : Nat)
  | zwait (z : Nat)
  | strend (stream : Nat)
deriving DecidableEq, Repr

/-- What stands in one place of a queue. -/
inductive QItem where
  | copy (c : CopyJob)
  | gath (g : GathJob)
  | tile (t : TileOp)
  | job                         -- the running job of the core's sweep engine (R335)
  | fence (n : Nat)             -- QFENCE (R249)
deriving DecidableEq, Repr

/-- An entry of a queue (R247, R260, R281). The table of all entries keeps their order. -/
structure QEntry where
  id : Nat
  core : Nat
  warp : Nat                    -- the warp that placed it
  slots : List Nat := []        -- the threads that placed it (R250)
  queue : QName
  item : QItem
  priv : Bool := false          -- the privilege of the thread at issue (R393)
  since : Nat := 0              -- moment it was written (R261)
  ready : Option Nat := none    -- moment since which it has been ready (R261)
  aged : Bool := false          -- ahead of its core's other entries (R261)
deriving DecidableEq, Repr

/-- A QFENCE not yet performed (R249). -/
structure FenceRec where
  id : Nat
  core : Nat
  rel : Bool
  scope : Scope
  slots : List Nat
deriving DecidableEq, Repr

/-- An accumulator tile (R17, R267): 32 rows of 65 words. -/
structure Tile where
  core : Nat
  num : Nat
  words : List Word
deriving DecidableEq, Repr

/-- One quarter of a B block: for each of 32 lanes its data registers and its metadata or scale register (R264), and the warp slot and
the cycle of its publication (R293). -/
structure Quarter where
  data : List (List Word)
  extra : List Word
  warp : Nat := 0
  at_ : Nat := 0
deriving DecidableEq, Repr

/-- A B block (R265, R266). -/
structure Block where
  num : Nat
  quarters : List (Nat × Quarter)        -- by core of the cluster
  members : List (Nat × Nat) := []       -- subscriber set: core and warp, or the key of a pre-empted warp
deriving DecidableEq, Repr

/-- An operand stream (R265). -/
structure Stream where
  fmt : Option SFmt := none
  blocks : List Block := []
  next : Nat := 0                        -- one above the highest block that has existed since the stream was last idle
  counts : List Nat := [0, 0, 0, 0]      -- publications of each core since then
  away : List ((Nat × Nat) × Nat) := []  -- subscriptions of pre-empted warps, which have not ended: member key and cursor (R266, R279)
deriving DecidableEq, Repr

/-- A granted pass of an array (R261, R278). -/
structure Run where
  array : Nat
  entry : Nat
  start : Nat
  block : Option Block
  fmt : Option SFmt
deriving DecidableEq, Repr

/-- The matrix engine of a cluster (R259 to R279). -/
structure Engine where
  cluster : Nat
  streams : List Stream
  runs : List Run := []
  stopped : Bool := false       -- grants nothing more (R278, R279)
  resets : Nat := 0
  busy : Bool := false          -- ENGRSTC BUSY (R440)
deriving DecidableEq, Repr

/-- The condition of an element of a running job (R319); an asleep one waits for wakes, or for a sweep. -/
inductive Cond where
  | done | awake | asleep | later (sweep : Nat) | flag (line : Nat)
deriving DecidableEq, Repr

/-- An element of a job's sequence (R319, R321). -/
structure Elem where
  pos : Nat                     -- storage position
  key : Nat := 2 ^ 64           -- its context word as registered at its home (R327)
  cond : Cond
  out : Bool := false
  dispatched : Bool := false
  tested : Bool := false        -- a flag-waiting element tested in this sweep (R322, R325)
  full : Bool := false          -- its line was found full, so that it is dispatched as an awake one (R325)
  abandoned : Bool := false
deriving DecidableEq, Repr

/-- A sweep job (R318 to R340). After its end its words are kept for SWSTAT (R340). -/
structure Job where
  core : Nat
  team : Nat
  task : Nat
  ctx : Nat
  lens : Nat
  snap : List Word
  sched : List Word             -- 40 words (16 Table 16-2)
  stamp : Nat
  priv : Bool := false
  elems : List Elem
  sweep : Nat := 0              -- number of the sweep under way
  sweeps : Nat := 0             -- sweeps performed
  cursor : Nat := 0             -- the chunks that the cursor has left, in the sweep's direction
  ended : Bool := false         -- the sweep under way has ended; the next has not started
  running : Bool := true
  abort : Bool := false
  warm : Bool := false
  halted : Bool := false        -- hands out nothing while its context halts (R332)
  skips : List Nat := []        -- words whose re-read was stopped (R89), by address
  trying : Nat := 0             -- the word whose re-read met a fault last
  reread : List Nat := []       -- positions to be registered and, if asleep, read again after a restore (R332)
  held : List (Nat × Nat) := [] -- decrements held: element and amount, oldest first (R337, R338)
deriving DecidableEq, Repr

/-- A wake on its way to an engine (R325): the core and the storage position. -/
structure Wake where
  core : Nat
  pos : Nat
deriving DecidableEq, Repr

/-- A decrement held for an element that is no longer out, to be applied to its word as soon as the word can be reached (R333, R337): the
core of its job, the word and the amount. -/
structure Owed where
  core : Nat
  key : Nat
  amt : Nat
deriving DecidableEq, Repr

/-- An arrival on its way to a rendezvous point (R386). -/
structure Arrival where
  id : Nat
  src : Nat                     -- sending core
  slot : Nat
  core : Nat                    -- core of the point
  team : Nat
  point : Nat
  count : Nat
  scope : Scope
  rel : Option Scope := none    -- the release that is still to be performed before it (R386)
  mark : Nat := 0               -- it covers the requests of its thread with smaller numbers
  inst : Nat := 0               -- the lanes of one instruction share it, and arrive in their order
  since : Nat := 0
deriving DecidableEq, Repr

/-- A curve descriptor (R56, R57). -/
structure Curve where
  ctx : Nat
  num : Nat
  d : Nat                       -- 2 or 3
  minlev : Nat
  maxlev : Nat
  faces : Nat                   -- six bits, x− lowest; 1 periodic
  bal : Bool
  table : List (Nat × Nat)      -- (next, digit) of entry s · 2^d + q
deriving DecidableEq, Repr

/-- A segment of a live mesh (03 Table 3-5). -/
structure Seg where
  lbase : Nat
  lcap : Nat
  lcount : Nat
  sbase : Nat
  scap : Nat
  scount : Nat
deriving DecidableEq, Repr

/-- A cut record (03 Table 3-7), with the key it had before a move while it is MOVING (R314). -/
structure Cut where
  key : Nat
  own : Nat
  st : Bool := false
  old : Nat := 0
  ver : Nat := 0
  oldKey : Nat := 0
deriving DecidableEq, Repr

/-- A cut table with its version and the migrating blocks not yet switched (R66 to R69, R309). -/
structure CutTable where
  ver : Nat := 0
  cuts : List Cut
  left : Nat := 0
deriving DecidableEq, Repr

/-- A migrating leaf (R314, R316): its key, its cut and the pages in windows that hold its data. -/
structure Migrant where
  key : Nat
  from_ : Nat := 0             -- its owner when the KREBAL was installed (R314, R316)
  cut : Nat
  slot : Nat
  pages : List Nat
deriving DecidableEq, Repr

/-- A live mesh (R61 to R72, R312 to R317). -/
structure Mesh where
  ctx : Nat
  num : Nat
  cutsVa : Nat
  segsVa : Nat
  nslots : Nat
  desc : Nat
  segs : List Seg
  table : CutTable                        -- as the latest change left it
  reps : List CutTable                    -- by die
  msgs : List (Nat × CutTable) := []      -- switch messages on their way: die, table; oldest first
  inFlight : Bool := false
  clear : Bool := false
  migr : List Migrant := []
  waiter : List (Nat × Nat × Nat) := []   -- threads parked in KREBAL: core, slot, outstanding result
deriving DecidableEq, Repr

/-- The engines of the package and the queues that feed them. -/
structure Eng where
  queue : List QEntry := []
  fences : List FenceRec := []
  wptr : List (Nat × Word) := []          -- write pointer of channel 4 · core + n, 0 where absent (R243)
  tiles : List Tile := []                 -- allocated tiles
  engines : List Engine := []             -- those that differ from power-on
  jobs : List Job := []                   -- the latest job of each core
  wakes : List Wake := []
  owed : List Owed := []                  -- oldest first
  arrivals : List Arrival := []
  prism : List CacheWord := []            -- Prism caches (R255)
  curves : List Curve := []
  meshes : List Mesh := []
deriving DecidableEq, Repr

/-! ## Tasks (04, 05, 11, 20, 21) -/

/-- Where a task stands between its creation at the start of its pour and the end of its retire (R86, R106, R418). -/
inductive TaskPhase where
  | waiting                    -- an incoming edge is not satisfied
  | ready
  | running
  | halting                    -- chosen for pre-emption (R108)
  | saved                      -- in a task save slot, ready again (R404)
  | retiring (step : Nat)      -- the next step of R419
  | retired
deriving DecidableEq, Repr

/-- A scratchpad allocation (R221): its first line, its lines, its bytes that are not zero and its full lines. -/
structure Scratch where
  base : Nat := 0
  lines : Nat := 0
  bytes : List (Nat × Byte) := []       -- canonical: offsets rising, no zero byte
  full : List Nat := []
deriving DecidableEq, Repr

/-- What is saved of the tasks of a context or of a task pre-empted on its own (R403): its records as they stood, the stalled
and requests of its threads. -/
structure TaskImage where
  threads : List Thread := []
  warps : List Warp := []
  teams : List Team := []
  queue : List QEntry := []
  fences : List FenceRec := []
  tiles : List Tile := []
  jobs : List Job := []
  reqs : List Req := []
deriving DecidableEq, Repr

/-- A task (04 R84 to R86, 05 R95 to R101, 11 R221 to R224, 21 R418 to R423). -/
structure Task where
  id : Nat
  ctx : Nat
  pour : Nat
  node : Nat
  index : Nat                  -- task number within its node
  rank : Nat                   -- curve rank (R91, R84)
  key : Nat                    -- tkey: key of a mesh task, index of a linear one
  bslot : Nat := 0             -- block slot of its key (04 Table 4-8)
  phase : TaskPhase := .waiting
  readyAt : Nat := 0           -- its age (R86)
  core : Nat := 0
  warps : List Nat := []       -- its warp slots (R96)
  offs : List Nat := []        -- run offset of each warp slot (R96)
  nthr : Nat
  ngr : Nat
  prio : Nat
  scratch : Scratch := {}
  privBase : Nat := 0
  faultMask : List Word := []  -- one per warp slot (R223)
  counting : Option Nat := none   -- moment since which its cycles are counted; none while they are not (R420)
  cycles : Nat := 0            -- cycles counted so far (R420)
  gang : Option (Nat × Nat) := none     -- gang and member (R98)
  unit : Nat := 0              -- placement unit (R92)
  roomSince : Option Nat := none        -- room without a break since (R107)
  passedSince : Option Nat := none      -- passed over for room since (R107)
  reserved : Bool := false
  saveSlot : Option Nat := none         -- task save slot (R405)
  image : Option TaskImage := none
  pinned : Bool := false       -- holds a pin on its leaf (R316)
  haltAt : Nat := 0            -- moment it was chosen for pre-emption (R108, R279)
  skips : List Nat := []       -- pages whose cleaning was stopped (R89)
  todo : List (Nat × Nat × Nat) := []   -- writes to its pour's frame still to be made: address, bytes, value (R89)
deriving DecidableEq, Repr

/-! ## Pours, contexts and the distributor (04, 05, 20, 21, 22) -/

/-- A node record as its pour snapshot holds it (04 Table 4-2). -/
structure Node where
  entry : Nat
  nthr : Nat
  ngr : Nat
  sl : Nat
  ecls : Nat
  gang : Nat
  sp : Bool             -- mesh space
  mesh : Nat
  pcv : Nat
  gw : Nat
  cnt : Nat
  foff : Nat
deriving DecidableEq, Repr

/-- An edge record (04 Table 4-3). -/
structure Edge where
  src : Nat
  dst : Nat
  map : Nat             -- 0 SAME, 1 FACE, 2 PARENT, 3 CHILDREN, 4 RANGE, 5 ALL
  scope : Nat
  rix : List Nat
  bmoff : Nat
  lo : Int
  hi : Int
deriving DecidableEq, Repr

/-- A region entry, resolved with the pour argument (R76). -/
structure Region where
  base : Nat
  len : Nat
deriving DecidableEq, Repr

/-- The state of one node of a live pour (R78, R84, R91, R93). -/
structure NodeState where
  n : Nat
  retired : Nat := 0
  snap : List Nat := []                 -- keys in curve order, for a mesh node
  slots : List Nat := []                -- their block slots
  table : List (Nat × Nat) := []        -- placement table: digit and next state, entry 4·state + quadrant
  ptr : Nat := 0                        -- placement pointer
  placed : List (Nat × Nat) := []       -- placed units and their clusters
deriving DecidableEq, Repr

/-- A live pour (R82 to R88). Its completion bitmaps are kept as the lists of producers whose bit is set (R86). -/
structure Pour where
  ctx : Nat
  id : Nat
  frame : Nat
  arg : Nat
  cadr : Nat
  cval : Nat
  prio : Nat
  queue : Option Nat            -- host launch queue it came from
  startCl : Nat := 0            -- cluster of the thread whose POUR started it (R93)
  startedAt : Nat := 0
  nodes : List Node
  edges : List Edge
  regions : List Region
  nstates : List NodeState
  bits : List (List Nat)
  started : Bool := false       -- its start is complete, and its tasks may become ready (R84)
  todo : List (Nat × Nat × Nat) := []           -- writes of its start still to be made: address, bytes, value (R89)
  caller : Option (Nat × Nat × Nat) := none     -- the thread that waits for its start: core, slot and outstanding result
  finished : Bool := false      -- every task retired; only the completion write is left (R88)
deriving DecidableEq, Repr

/-- Where a gang member stands (R99, R103). -/
inductive MemberState where
  | unstarted | running | retired
deriving DecidableEq, Repr

/-- A gang (R98 to R101): its members' states and cores, and the route table by core. -/
structure Gang where
  id : Nat
  ctx : Nat
  pour : Nat
  node : Nat
  k : Nat
  members : List (Nat × MemberState × Nat)     -- task, state, core
deriving DecidableEq, Repr

/-- The state of a lens entry (R41, R50). -/
inductive LensState where
  | empty | loaded | loading
deriving DecidableEq, Repr

/-- A LENSLD or LENSINV that waits for its entry (R50, R51, R239): the record it will write, or none to empty it. -/
structure LensWait where
  core : Nat
  slots : List Nat
  snap : Option (List Word)
  pc : Pair             -- its compound, where its threads stand when they issue it again (20 Table 20-7)
  rep : Nat             -- the repeats that they then have to run
  guards : List (Option Guard)  -- their guard ranges there
deriving DecidableEq, Repr

/-- A lens-table entry that is not simply empty (R41 to R51). -/
structure LensEntry where
  num : Nat
  state : LensState
  snap : List Word := []        -- the 16 words of its record (R49)
  queue : List LensWait := []   -- in the order the table received them (R51)
deriving DecidableEq, Repr

/-- The phases of a context (R401, R413, R414). -/
inductive CtxPhase where
  | running | halting | halted | saved
deriving DecidableEq, Repr

/-- A live context (20 R394, R405; 21 R424; 22 R432). The meshes, curves and engines it uses stand in their own tables. -/
structure Context where
  num : Nat
  phase : CtxPhase := .running
  kill : Bool := false          -- destroyed once it has halted (R413)
  haltAt : Nat := 0             -- moment of the request of its halt (R279, R401)
  haltedDies : List Nat := []
  priv : Bool
  pbytes : Nat
  tvec : Pair
  trbase : Pair
  ptroot : Pair
  fqbase : Pair
  fqsize : Pair
  fqput : Pair := 0
  fqget : Pair := 0
  rrbase : Pair
  rrsize : Pair
  rrput : Pair := 0
  rrget : Pair := 0
  tcmap : Word := 0x00688D24
  tsbase : Nat
  tscount : Nat
  tsUsed : List Nat := []       -- task save slots in use (R405)
  entry : Nat := 0              -- the 256 bytes of its context-table entry (R437)
  lenses : List LensEntry := []
  pours : List Pour := []
  gangs : List Gang := []
deriving DecidableEq, Repr

/-- The heat budget of a sector (05 Table 5-4, R105; requested values, R435). -/
structure Heat where
  die : Nat
  sector : Nat
  en : Bool := false
  level : Int := 0
  cap : Nat := 0
  rate : Nat := 0
  cost : Word := 0
  rem : Nat := 0
  reqEn : Bool := false
  reqCap : Nat := 0
  reqRate : Nat := 0
  reqCost : Word := 0
  held : Bool := false          -- below its requested values under the power cap (R435)
deriving DecidableEq, Repr

/-! ## Host, events, links, power (06, 11, 18, 20, 22) -/

/-- The kinds of an event (20 Table 20-8). -/
inductive EvKind where
  | none | fault | double | watchdog | halted | saved | poison | link | reset | thermal
deriving DecidableEq, Repr

/-- An event record (20 Table 20-8). -/
structure Event where
  kind : EvKind
  ctx : Nat
  src : Nat
  data : Word
  addr : BitVec 64
deriving DecidableEq, Repr

/-- The event arbiter of a die (R407): its queue of 256 and the events its sources hold while it is full. -/
structure Arbiter where
  die : Nat
  queue : List Event := []
  held : List Event := []
deriving DecidableEq, Repr

/-- A launch queue (22 Table 22-2). -/
structure LaunchQ where
  num : Nat
  base : BitVec 64 := 0
  size : Word := 0
  en : Bool := false
  ctx : Nat := 0
  put : Word := 0
  get : Word := 0
  ovf : Bool := false
  cfg : Bool := false
  noctx : Bool := false
  rfault : Bool := false
  snap : Option (List Word) := none    -- descriptor taken and not yet started (R81)
  report : Option (Nat × Nat × Nat) := none  -- status of a failed pour still to be written: context, address and code (R80)
deriving DecidableEq, Repr

/-- What the firmware waits for before it answers a mailbox request (R439): for HALT with the cores halted so far, for MOVEPAGE
and BIAS with the virtual address, and for TLBINV with the requests and queue entries that are to be performed. -/
structure MbWait where
  op : Nat
  ctx : Nat
  va : Nat := 0
  cores : Nat := 0
  reqs : List Nat := []
  entries : List Nat := []
deriving DecidableEq, Repr

/-- The firmware mailbox (22 Table 22-6). -/
structure Mailbox where
  req : List Word := List.replicate 16 0
  rsp : List Word := List.replicate 16 0
  door : Nat := 0               -- MBDOOR as last taken
  done : Nat := 0
  busy : Bool := false
  ovf : Bool := false
  irqEn : Bool := false
  irqVec : Nat := 0
  wait : Option MbWait := none
  answer : Option (Nat × List Word) := none    -- status and results, once performed
deriving DecidableEq, Repr

/-- A Korlas Link port (R433): 0 down, 1 training, 2 up, 3 retired. -/
structure Port where
  num : Nat
  state : Nat := 0
  peerPort : Nat := 0
  peerPkg : Nat := 0
deriving DecidableEq, Repr

/-- What a message of the fabric carries, which gives its traffic class (R370): a recall, grant, retry, mirror, switch, wake or management
message; a request of a thread of a task, or of its copy, Prism, sweep or matrix engine; or the response to the request that is
`n`-th in the list of those sent by a port. -/
inductive Traffic where
  | control
  | request (task : Nat) (engine : Bool)
  | response (port n : Nat)
deriving DecidableEq, Repr

/-- A message waiting at a router output port or a memory-controller queue (R370, R371). -/
structure Message where
  tc : Nat
  data : Nat            -- data bytes
  since : Nat           -- fabric cycle of its arrival
  aged : Bool := false
deriving DecidableEq, Repr

/-- An arbitration point (R371, R372). -/
structure Router where
  num : Nat
  wgt0 : Word := 0x04040404
  wgt1 : Word := 0x04040404
  deficit : List Nat := [0, 0, 0, 0, 0, 0, 0, 0]
  turn1 : Nat := 7              -- the class of G1 visited last
  turn2 : Nat := 4              -- the class of G2 visited last
  open1 : Bool := false         -- whether the visit to it goes on
  open2 : Bool := false
  queue : List Message := []    -- oldest first
  sent : List Message := []     -- messages sent, newest first
deriving DecidableEq, Repr

/-- The phases of boot and thermal shutdown (R434, R436). -/
inductive Boot where
  | off | fetching | waiting (seconds : Nat) | usable | shutdown | held
deriving DecidableEq, Repr

/-- A mirror window (18 Table 18-3). -/
inductive MirPhase where
  | entry | recall | copy
deriving DecidableEq, Repr

/-- A mirror record (R361). -/
structure Mirror where
  page : Nat            -- key of the page's first byte
  size : Nat
  ctx : Nat
  va : Nat
  oldHome : Nat
  newHome : Nat
  phase : MirPhase
  mesh : Option Nat     -- opened by the Curve Unit for this mesh, else by firmware
  bias : Bool := false
  also : List Nat := []         -- other virtual addresses whose entries reach the page (R362)
  answered : Nat := 0           -- lines for which the host has answered RdOwnNoData (R364)
deriving DecidableEq, Repr

/-- A mirror window asked for and not yet begun (R361, R315, R438). -/
structure MirStart where
  ctx : Nat
  va : Nat
  newHome : Nat
  mesh : Option Nat
  bias : Bool := false
  also : List Nat := []
deriving DecidableEq, Repr

/-- The package outside the cores. -/
structure Dev where
  cycle : Nat := 0              -- arithmetic cycles since reset (06 Table 6-7, R11)
  refills : Nat := 0            -- refill steps of the heat budgets performed (R105)
  boot : Boot := .off
  wait : Nat := 2               -- seconds before the next fetch (R434)
  bootAt : Nat := 0             -- moment the last fetch failed (R434)
  arbiters : List Arbiter := []         -- the tables below list what differs from reset
  queues : List LaunchQ := []
  mbox : Mailbox := {}
  msix : List Nat := []         -- MSI-X vectors sent, newest first (R438)
  pwrcap : Nat := 1600
  pwrnow : Nat := 0
  therm : Bool := false
  thermDie : Nat := 0
  capped : Bool := false
  restored : Nat := 0           -- moment of the last sector restored (R435)
  below : Nat := 0              -- moment since which PWRNOW is below 95 % of PWRCAP (R435)
  ports : List Port := []
  links : List (Nat × Nat) := []        -- links that retrain, with the moment it began (R408, R433)
  retiredUnits : List Nat := []         -- links and units that firmware has retired (R124, R125)
  routers : List Router := []
  hops : List (Nat × Nat) := []         -- corrections and poison counted at each hop (R228)
  retries : List (Nat × Nat × Nat) := []        -- hop, word and failed transfers of the word in a row (R227)
  mirrors : List Mirror := []
  starts : List MirStart := []
  heat : List Heat := []
  hostRead : List Byte := []            -- data of the last host read (R366)
  hostPoison : Bool := false            -- the last host read completed with poison (R436)
  peerRead : List Byte := []            -- data of the last peer response (R368)
  eventOut : Option Event := none       -- the event Adeing read last (R407)
deriving DecidableEq, Repr

/-! ## The issue slot, the agenda and the state -/

/-- The compound that a packer is issuing (R137 to R141): the group, the prefixes read so far, the word fetched last and
the repeat under way. It lives from an issue decision to the end of the word that fills its slot. -/
structure Latch where
  core : Nat
  warp : Nat
  first : Pair                           -- address of the compound's first word (R117)
  at_ : Pair                             -- address of the word being read
  group : List Nat                       -- issue group, thread slots (R140)
  rep : Option (Nat × Bool × Bool × Bool) := none      -- n, sD, sA, sB of a REP read (R114)
  limm : Option (BitVec 21) := none      -- imm21 of a LIMM read (R116)
  held : Option (BitVec 32) := none      -- the target word, once read, for the repeats after the first
  word : BitVec 32 := 0                  -- the word under execution, as written in memory
  marker : Bool := false                 -- its switch marker (R113)
  waits : Bool := false                  -- some thread of the group has a result outstanding at the marker (assumption log 78)
  exec : List Nat := []                  -- execution mask, thread slots in ascending lane order (R140)
  j : Nat := 0                           -- repeat under way
  n : Nat := 1                           -- repeats of the compound
  left : Nat := 0                        -- repeats a replay group has still to run; 0 for a plain group (R140)
  before : List (Pair × Nat) := []       -- the warp's counts of unchosen PCs before this decision (R139)
deriving DecidableEq, Repr

/-- The arguments of a step of the device that no word names; each row's docstring in Syntax says which it reads. -/
structure Arg where
  x : Nat := 0
  y : Nat := 0
  z : Nat := 0
  v : BitVec 64 := 0
  n : Nat := 0
  flag0 : Bool := false
  flag1 : Bool := false
  flag2 : Bool := false
  data : List Byte := []
  reg : PlainReg := .mbirq
  kind : PeerReq := .read
deriving DecidableEq, Repr

/-- What happens next, when no compound is being issued: a step of the device, the passage of cycles, or a transfer that the core may make at any
time (a word fetched ahead, R130; the home's reading for a plain read whose reply is then on its way, R216; a plain read merged into a pending one,
R353; an entry that a cache, an instruction cache, a predictor, a Prism or a TLB drops, R217 to R219, R255, R397, R442; a write that a thread may see
before its home has performed it for every reader, R357), the host's answers to RdOwnNoData for lines of a page (R364), a message that reaches an
arbitration point (R370), or a new reading of the module's input power (R435). -/
inductive AgendaItem where
  | run (i : Instr) (a : Arg)
  | tick (n : Nat)
  | fetchAhead (core slot va : Nat)
  | readHome (id : Nat)
  | mergeRead (into id : Nat)
  | dropNear (n : Nat)
  | dropRemote (n : Nat)
  | dropPeer (n : Nat)
  | dropXlate (n : Nat)
  | dropPrism (n : Nat)
  | dropCode (n : Nat)
  | forward (core slot id : Nat)
  | hostAnswer (page lines : Nat)
  | message (port : Nat) (what : Traffic) (data : Nat)
  | power (watts : Nat)
deriving DecidableEq, Repr

/-- Fault reasons of the model. The spec has none that stops the machine: its traps and faults are next states. -/
inductive Fault where
  /-- An instruction word is executed while no compound is being issued. `step` never raises it: it executes words only
  through an issue latch. Safe. -/
  | noIssue
deriving DecidableEq, Repr

/-- Refusals of the model. -/
inductive Refusal where
  /-- An arm of exec that has no meaning yet answers with it. Safe. -/
  | notModelled (mnemonic : String)
deriving DecidableEq, Repr

/-- A saved image (R403, R414): the records of a context as they stood, under the number that its words carry, and the size
of the image in 64 KiB units. -/
structure Image where
  num : Nat
  size : Nat
  ctx : Context
  tasks : List Task             -- each with what was saved of it
  curves : List Curve
  meshes : List Mesh
  miss : List Miss
  wptr : List (Nat × Word)
deriving DecidableEq, Repr

/-- The state of the machine. -/
structure State where
  /-- the compound being issued, if one is (07 R137 to R141) -/
  issue : Option Latch := none
  /-- the steps to come; plain data that orders what the spec leaves unordered (assumption log 4) -/
  agenda : List AgendaItem := []
  /-- the arguments of the step under way -/
  arg : Arg := {}
  /-- the counter that free values and free choices are applied to; the model's own (assumption log 5) -/
  freeCtr : Nat := 0
  /-- the number of the next record that needs one; the model's own -/
  idCtr : Nat := 1
  threads : List Thread := []
  warps : List Warp := []
  teams : List Team := []
  /-- the last FP64 arithmetic word of each vector pipe: 2 · core + pipe, and the cycle in which it issued (R193) -/
  fp64 : List (Nat × Nat) := []
  tasks : List Task := []
  mem : MemSys := {}
  eng : Eng := {}
  ctxs : List Context := []
  images : List Image := []
  dev : Dev := {}
deriving DecidableEq, Repr

/-- What an unlisted byte of memory reads as (assumption log 2). -/
def Memory.unlisted : Byte := 0

/-- The canonical form of memory: addresses strictly rising, and no byte listed that reads as an unlisted one does. -/
def Memory.wf : List Host.Cell → Bool
  | [] => true
  | [c] => c.2 != Memory.unlisted
  | c :: d :: t => c.2 != Memory.unlisted && c.1 < d.1 && Memory.wf (d :: t)

/-- The machine right after power-on (22 R434): no image has verified, nothing is live, every table is empty. -/
def State.reset : State := {}

end Sys2Proof.Machine
end

