-- ==== Sys2Proof/Machine/Basic.lean ====
section
/-! DEFINITION. Places of the package (01 R12, R13; 17 Table 17-1) and the named operations over the tables of the state:
finding a record, changing it, and reading and writing one thread's registers. -/

namespace Sys2Proof.Machine

open Sys2Proof

/-! ## Places -/

/-- The C-die of a core (R13). -/
def coreDie (c : Nat) : Nat := c / 128
/-- The global cluster of a core (R13). -/
def coreCluster (c : Nat) : Nat := c / 4
/-- The sector, 0 to 2, of a local cluster: sectors enable 11, 11 and 10 clusters (R12, R13). -/
def localSector (l : Nat) : Nat := if l < 11 then 0 else if l < 22 then 1 else 2
/-- The sector, 0 to 2, of a cluster within its die (R13). -/
def clusterSector (c : Nat) : Nat := localSector (c % 32)
/-- The number of a cluster within its sector (R13). -/
def clusterInSector (c : Nat) : Nat :=
  let l := c % 32
  if l < 11 then l else if l < 22 then l - 11 else l - 22
/-- The sector of a core over the package: die · 3 + sector. -/
def coreSector (c : Nat) : Nat := coreDie c * 3 + clusterSector (coreCluster c)
/-- The enabled cluster ports of a sector of a die, rising (R12): all 12 without the fused one of sectors 0 and 1, or the fused two
of sector 2. -/
def enabledPorts (die sector : Nat) : List Nat :=
  let ports := (List.range 12).eraseIdx (Config.fused die sector 0 % 12)
  if sector = 2 then ports.eraseIdx (Config.fused die sector 1 % 11) else ports
/-- The physical port of a cluster on its sector's crossbar: clusters are numbered in the order of their ports (R12, R13). -/
def clusterPort (c : Nat) : Nat := (enabledPorts (c / 32) (clusterSector c)).getD (clusterInSector c) 0
/-- The package number (R13). -/
def packageNumber : Nat := Config.pkgNumber % 2 ^ 14
/-- The home slice, 0 to 23, of an address on its home die (R213). -/
def homeSlice (key : Nat) : Nat := Config.homeHash (key % 2 ^ 48 / 2 ^ 9) % 24
/-- The sector of a slice: each sector crossbar joins 8 slices (R12; assumption log 56). -/
def sliceSector (slice : Nat) : Nat := slice / 8

/-- Scope codes (R230). -/
def Scope.ord : Scope → Nat
  | .thread => 0 | .team => 1 | .core => 2 | .cluster => 3 | .die => 4 | .pkg => 5 | .sys => 6

/-- The wider of two scopes. -/
def Scope.widen (a b : Scope) : Scope := if Scope.ord a < Scope.ord b then b else a

/-- The scope of a code 0 to 6 (R230). -/
def Scope.ofNat (n : Nat) : Scope :=
  match n with
  | 0 => .thread | 1 => .team | 2 => .core | 3 => .cluster | 4 => .die | 5 => .pkg | _ => .sys

/-- The narrowest scope of .core and wider that holds two cores (R386). -/
def narrowest (a b : Nat) : Scope :=
  if a = b then .core
  else if coreCluster a = coreCluster b then .cluster
  else if coreDie a = coreDie b then .die
  else .pkg

/-! ## Lists -/

/-- A list with the element at `n` changed. -/
def setAt {α : Type} (l : List α) (n : Nat) (a : α) : List α := l.set n a

/-- A list with every element that meets `p` changed by `f`. -/
def updWhere {α : Type} (p : α → Bool) (f : α → α) (l : List α) : List α :=
  l.map fun x => if p x then f x else x

/-- The elements in front of the first that meets `p`, and the rest. -/
def splitFirst {α : Type} (p : α → Bool) : List α → List α × List α
  | [] => ([], [])
  | x :: t => if p x then ([], x :: t) else
    let (a, b) := splitFirst p t
    (x :: a, b)

/-- Insertion before the first element that `lt` puts after it; a stable order (R147). -/
def insertBy {α : Type} (lt : α → α → Bool) (a : α) : List α → List α
  | [] => [a]
  | b :: t => if lt a b then a :: b :: t else b :: insertBy lt a t

/-- A stable sort by `lt`. -/
def sortBy {α : Type} (lt : α → α → Bool) (l : List α) : List α := l.foldr (insertBy (fun a b => !lt b a)) []

/-- Insertion into a rising list without repeats. -/
def insertNat (a : Nat) (l : List Nat) : List Nat := if l.contains a then l else insertBy (fun (x y : Nat) => x < y) a l

/-- The least of a nonempty list of numbers; 0 for an empty one. -/
def leastOf : List Nat → Nat
  | [] => 0
  | [a] => a
  | a :: t => Nat.min a (leastOf t)

/-- Bits `hi` down to `lo` of a number. -/
def bitsOf (n hi lo : Nat) : Nat := (n / 2 ^ lo) % 2 ^ (hi + 1 - lo)

/-- Bit `i` of a number. -/
def bitOf (n i : Nat) : Bool := n.testBit i

/-- The number with bit `i` set to `b`. -/
def putBit (n i : Nat) (b : Bool) : Nat :=
  if n.testBit i then (if b then n else n - 2 ^ i) else (if b then n + 2 ^ i else n)

/-- A number of `w` bits read as two's complement. -/
def sintN (w n : Nat) : Int := if n % 2 ^ w < 2 ^ (w - 1) then (n % 2 ^ w : Nat) else (n % 2 ^ w : Nat) - (2 ^ w : Nat)

/-- An integer as the 32-bit word of its two's complement. -/
def wordOfInt (i : Int) : Word := BitVec.ofInt 32 i

/-- The words of a number, lowest first. -/
def wordsOfNat : Nat → Nat → List Word
  | 0, _ => []
  | k + 1, n => BitVec.ofNat 32 n :: wordsOfNat k (n / 2 ^ 32)

/-- The number with the given words, lowest first. -/
def natOfWords : List Word → Nat
  | [] => 0
  | w :: t => w.toNat + 2 ^ 32 * natOfWords t

/-- The bytes of a number, lowest first (R2: little-endian). -/
def bytesOfNat : Nat → Nat → List Byte
  | 0, _ => []
  | k + 1, n => BitVec.ofNat 8 n :: bytesOfNat k (n / 256)

/-- The number with the given bytes, lowest first. -/
def natOfBytes : List Byte → Nat
  | [] => 0
  | b :: t => b.toNat + 256 * natOfBytes t

/-- Every position 0 … n − 1. -/
def upTo (n : Nat) : List Nat := List.range n

/-! ## Free values, choices and numbers -/

/-- The next free value of 64 bits (assumption log 5). -/
def State.free (s : State) : BitVec 64 × State := (Config.freeValue s.freeCtr, { s with freeCtr := s.freeCtr + 1 })

/-- The next free choice (assumption log 5). -/
def State.choose (s : State) : Nat × State := (Config.freeChoice s.freeCtr, { s with freeCtr := s.freeCtr + 1 })

/-- A fresh record number. -/
def State.newId (s : State) : Nat × State := (s.idCtr, { s with idCtr := s.idCtr + 1 })

/-! ## Records of the state -/

/-- Whether a thread is that of a core and a slot. -/
def Thread.is (c k : Nat) (t : Thread) : Bool := t.core == c && t.slot == k

/-- The thread in a slot of a core. -/
def State.thread? (s : State) (c k : Nat) : Option Thread := s.threads.find? (Thread.is c k)

/-- The state with the thread of a slot changed. -/
def State.updThread (s : State) (c k : Nat) (f : Thread → Thread) : State :=
  { s with threads := updWhere (Thread.is c k) f s.threads }

/-- Whether a warp is that of a core and a warp slot. -/
def Warp.is (c w : Nat) (x : Warp) : Bool := x.core == c && x.slot == w

/-- The warp in a warp slot of a core. -/
def State.warp? (s : State) (c w : Nat) : Option Warp := s.warps.find? (Warp.is c w)

/-- The state with the warp of a slot changed. -/
def State.updWarp (s : State) (c w : Nat) (f : Warp → Warp) : State :=
  { s with warps := updWhere (Warp.is c w) f s.warps }

/-- Whether a team is that of a core and a number. -/
def Team.is (c n : Nat) (x : Team) : Bool := x.core == c && x.num == n

/-- The live team of a number on a core (R150). -/
def State.team? (s : State) (c n : Nat) : Option Team := s.teams.find? (Team.is c n)

/-- The state with a team changed. -/
def State.updTeam (s : State) (c n : Nat) (f : Team → Team) : State :=
  { s with teams := updWhere (Team.is c n) f s.teams }

/-- The task of a number. -/
def State.task? (s : State) (n : Nat) : Option Task := s.tasks.find? (fun t => t.id == n)

/-- The state with a task changed. -/
def State.updTask (s : State) (n : Nat) (f : Task → Task) : State :=
  { s with tasks := updWhere (fun t => t.id == n) f s.tasks }

/-- The live context of a number. -/
def State.ctx? (s : State) (n : Nat) : Option Context := s.ctxs.find? (fun c => c.num == n)

/-- The state with a context changed. -/
def State.updCtx (s : State) (n : Nat) (f : Context → Context) : State :=
  { s with ctxs := updWhere (fun c => c.num == n) f s.ctxs }

/-- The context of a thread. -/
def State.ctxOf (s : State) (t : Thread) : Nat :=
  match s.task? t.task with
  | some k => k.ctx
  | none => 0

/-- The state with its memory system changed. -/
def State.updMem (s : State) (f : MemSys → MemSys) : State := { s with mem := f s.mem }

/-- The state with its engines changed. -/
def State.updEng (s : State) (f : Eng → Eng) : State := { s with eng := f s.eng }

/-- The state with the package outside the cores changed. -/
def State.updDev (s : State) (f : Dev → Dev) : State := { s with dev := f s.dev }

/-- A thread is privileged while its handler bit is set, and always in a privileged context (R393). -/
def State.privileged (s : State) (t : Thread) : Bool :=
  t.handler || (match s.ctx? (s.ctxOf t) with | some c => c.priv | none => false)

/-- A live thread: eligible or parked (R148). -/
def Thread.live (t : Thread) : Bool :=
  match t.status with
  | .eligible | .parked _ => true
  | .stopped | .exited | .unused => false

/-- The live thread in a lane of a warp. -/
def State.laneOf (s : State) (c w l : Nat) : Option Thread :=
  s.threads.find? fun t => t.core == c && t.warp == w && t.lane == l && t.live

/-! ## Registers of one thread (R118 to R120) -/

/-- The value of register vN under the window in force (R120). -/
def Thread.reg (t : Thread) (n : Nat) : Word := t.regs.getD (t.wb + n) 0

/-- A 32-bit register of a thread as a number. -/
def Thread.num (t : Thread) (r : Reg) : Nat := (t.reg r.toNat).toNat

/-- The value of the pair (vN, vN+1) (R30, R119). -/
def Thread.pair (t : Thread) (n : Nat) : Pair := mkPair (t.reg n) (t.reg (n + 1))

/-- A 32-bit or 64-bit operand as a number of its width. -/
def Thread.opnd (t : Thread) (wide : Bool) (n : Nat) : Nat :=
  if wide then (t.pair n).toNat else (t.reg n).toNat

/-- The value of predicate pN. -/
def Thread.pred (t : Thread) (n : Nat) : Bool := t.preds.toNat.testBit n

/-- A write of one row (R120). -/
def Thread.putRow (t : Thread) (row : Nat) (v : Word) : Thread := { t with regs := t.regs.set row v }

/-- A write of vN at issue. -/
def Thread.putReg (t : Thread) (n : Nat) (v : Word) : Thread := t.putRow (t.wb + n) v

/-- A write of one predicate. -/
def Thread.putPred (t : Thread) (n : Nat) (b : Bool) : Thread :=
  { t with preds := BitVec.ofNat 8 (putBit t.preds.toNat n b) }

/-- A thread with a result outstanding (R134). -/
def Thread.addPending (t : Thread) (p : Pending) : Thread := { t with pending := t.pending ++ [p] }

/-- Word n of the generator state (R210). -/
def Thread.rngWord (t : Thread) (n : Nat) : Word := (t.rng >>> (32 * n)).setWidth 32

/-- A write of one word of the generator state (R210). -/
def Thread.putRng (t : Thread) (n : Nat) (v : Word) : Thread :=
  { t with rng := (t.rng &&& ~~~(BitVec.ofNat 128 (0xFFFFFFFF * 2 ^ (32 * n)))) ||| (v.setWidth 128 <<< (32 * n)) }

/-- The write of one destination of a result (R135). -/
def Thread.putDest (t : Thread) (d : Dest) (v : Word) : Thread :=
  match d with
  | .row r => t.putRow r v
  | .pred n => t.putPred n (v != 0)
  | .rng n => t.putRng n v

/-- The rows of vN, vN+1, … as destinations, with the words they take (R121). -/
def Thread.rowsFrom (t : Thread) (n k : Nat) : List (Dest × Nat) :=
  (upTo k).map fun i => (Dest.row (t.wb + n + i), i)

/-- Requests: the entries that stand in the reservation table (R260). -/
def TileOp.isRequest : TileOp → Bool
  | .pass _ _ _ _ _ _ | .zscale _ _ _ _ => true
  | .zclr _ _ _ | .zld _ _ _ _ | .zmov _ _ _ _ | .zsto _ _ _ _ _ | .zrel _ | .zwait _ | .strend _ => false

/-- The matrix operation of an entry. -/
def QEntry.op? (e : QEntry) : Option TileOp :=
  match e.item with
  | .tile o => some o
  | .copy _ | .gath _ | .job | .fence _ => none

/-- Whether an entry is a matrix request, of whatever queue (R260, R281). -/
def QEntry.isRequest (e : QEntry) : Bool :=
  match e.op? with
  | some o => o.isRequest
  | none => false

/-- The end of a park that does not replay: the switch marker of the compound takes effect now (R113, R134). -/
def Thread.release (t : Thread) : Thread :=
  if t.mark && !t.pending.isEmpty then { t with status := .parked .marker, mark := false, mates := [] }
  else { t with status := .eligible, mark := false }

end Sys2Proof.Machine
end

