-- ==== Sys2Proof/Machine/Fabric.lean ====
section
/-! DEFINITION. Arbitration of messages at router ports and memory-controller queues (18 R370 to R372). -/

namespace Sys2Proof.Machine

open Sys2Proof

/-- The arbitration point of a number. -/
def State.router (s : State) (n : Nat) : Router :=
  match s.dev.routers.find? fun r => r.num == n with
  | some r => r
  | none => { num := n }

/-- The state with an arbitration point replaced. -/
def State.putRouter (s : State) (r : Router) : State :=
  s.updDev fun d => { d with routers := d.routers.filter (fun x => x.num != r.num) ++ [r] }

/-- The fabric cycle: two to each cycle (R11). -/
def State.fabricCycle (s : State) : Nat := 2 * s.dev.cycle

/-- The class of a message (R370): TC7; the field of the context's TCMAP (Table 18-5) for the priority of the task's pour; or the class
of the request that it answers. -/
def State.classOf (s : State) : Traffic → Option Nat
  | .control => some 7
  | .request id engine => (s.task? id).bind fun t => (s.ctx? t.ctx).map fun c =>
      let i := t.prio % 4 + (if engine then 4 else 0)
      bitsOf c.tcmap.toNat (3 * i + 2) (3 * i)
  | .response p n => ((s.router p).sent[n]?).map fun m => m.tc

/-- A message reaches an arbitration point, in the class of what it carries. -/
def State.arriveMessage (s : State) (port : Nat) (what : Traffic) (data : Nat) : State :=
  match s.classOf what with
  | none => s
  | some tc =>
    let r := s.router port
    s.putRouter { r with queue := r.queue ++ [{ tc := tc, data := data, since := s.fabricCycle }] }

/-- The size of a message (R371). -/
def Message.size (m : Message) : Nat := 16 + m.data

/-- The weight of a class (Table 18-6). -/
def Router.weight (r : Router) (c : Nat) : Nat :=
  if c < 4 then bitsOf r.wgt0.toNat (8 * c + 7) (8 * c) else bitsOf r.wgt1.toNat (8 * (c - 4) + 7) (8 * (c - 4))

/-- Whether a message is arbitrated in group G1: its class, or its age (R371). -/
def Message.inG1 (m : Message) : Bool := (4 ≤ m.tc && m.tc ≤ 6) || (m.aged && m.tc ≤ 3)

/-- The oldest message of a class in a group. -/
def Router.head (r : Router) (g1 : Bool) (c : Nat) : Option Message :=
  r.queue.find? fun m => m.tc == c && m.inG1 == g1

/-- The point after it sends a message. -/
def Router.send (r : Router) (m : Message) : Router := { r with queue := r.queue.erase m, sent := m :: r.sent }

/-- A class's deficit. -/
def Router.deficitOf (r : Router) (c : Nat) : Nat := r.deficit.getD c 0

/-- The point with a deficit set; a class whose queue is empty has none (R371). -/
def Router.putDeficit (r : Router) (c d : Nat) : Router :=
  { r with deficit := r.deficit.set c (if (r.queue.any fun m => m.tc == c) then d else 0) }

/-- The class visited after one, in descending class order (R371). -/
def nextClass (g1 : Bool) (c : Nat) : Nat := if c = 0 then (if g1 then 6 else 3) else c - 1

/-- The class of a group visited last. -/
def Router.turn (r : Router) (g1 : Bool) : Nat := if g1 then r.turn1 else r.turn2

/-- Whether the visit to that class goes on. -/
def Router.open (r : Router) (g1 : Bool) : Bool := if g1 then r.open1 else r.open2

/-- A visit begins at a class; one at a class of weight 0 ends with its message. -/
def Router.visit (r : Router) (g1 : Bool) (c : Nat) (goesOn : Bool) : Router :=
  if g1 then { r with turn1 := c, open1 := goesOn } else { r with turn2 := c, open2 := goesOn }

/-- Visits to the classes of a group until one sends (R371); `n` bounds them. The weight is read when a visit begins (R372). -/
def Router.visits (r : Router) (g1 : Bool) (c : Nat) : Nat → Router
  | 0 => r
  | n + 1 =>
    let w := r.weight c
    let r := r.visit g1 c (w != 0)
    match r.head g1 c with
    | none => (r.putDeficit c (r.deficitOf c)).visits g1 (nextClass g1 c) n
    | some m =>
      if w = 0 then
        if r.queue.any fun x => x.inG1 == g1 && x.tc != 7 && x.tc != c then r.visits g1 (nextClass g1 c) n
        else (r.send m).putDeficit c (r.deficitOf c)
      else
        let d := r.deficitOf c + 64 * w
        if m.size ≤ d then (r.send m).putDeficit c (d - m.size)
        else (r.putDeficit c d).visits g1 (nextClass g1 c) n

/-- The next message of a group: the class visited last goes on while its deficit allows, whatever its weight is by now (R371, R372). -/
def Router.pick (r : Router) (g1 : Bool) : Router :=
  let c := r.turn g1
  let n := 8 * (r.queue.foldl (fun n m => Nat.max n (m.size / 64 + 2)) 0)
  match r.head g1 c with
  | some m =>
    if r.open g1 && m.size ≤ r.deficitOf c then (r.send m).putDeficit c (r.deficitOf c - m.size)
    else r.visits g1 (nextClass g1 c) n
  | none => r.visits g1 (nextClass g1 c) n

/-- One arbitration (R371). -/
def Router.arbitrate (r : Router) : Router :=
  match r.queue.find? fun m => m.tc == 7 with
  | some m => r.send m
  | none =>
    if r.queue.any Message.inG1 then r.pick true
    else if r.queue.isEmpty then r else r.pick false

/-- ROUTER_ARBITRATE (R371). -/
def execRouterArbitrate (s : State) : Host.Outcome State Fault Refusal := .next (s.putRouter (s.router s.arg.x).arbitrate)

/-- G2_AGEING (R371): messages of G2 that have waited 65,536 fabric cycles. -/
def execG2Ageing (s : State) : Host.Outcome State Fault Refusal :=
  let r := s.router s.arg.x
  .next (s.putRouter { r with queue := r.queue.map fun m =>
    if m.tc ≤ 3 && m.since + 65536 ≤ s.fabricCycle then { m with aged := true } else m })

end Sys2Proof.Machine
end

