-- ==== Sys2Proof/Machine/Flags.lean ====
section
/-! DEFINITION. Number formats and the flags they raise (02 R22 to R38), exact arithmetic and its one rounding (10 R191), and
the operations of the float classes on bit patterns (10 R194 to R208). A finite value is (−1)^neg · m · 2^e with natural m
and integer e, so every operation is exact before it is rounded. -/

namespace Sys2Proof.Machine

open Sys2Proof

/-! ## Flags (R38) -/

/-- NV, invalid operation. -/
def fNV : BitVec 7 := 0x01
/-- DZ, division by zero. -/
def fDZ : BitVec 7 := 0x02
/-- OF, overflow. -/
def fOF : BitVec 7 := 0x04
/-- UF, underflow. -/
def fUF : BitVec 7 := 0x08
/-- NX, inexact. -/
def fNX : BitVec 7 := 0x10
/-- NQ, a reserved narrow code. -/
def fNQ : BitVec 7 := 0x20
/-- OOB, a Prism coordinate out of range. -/
def fOOB : BitVec 7 := 0x40

/-- A flag raised when `b` holds. -/
def flagIf (b : Bool) (f : BitVec 7) : BitVec 7 := if b then f else 0

/-! ## Formats (R22, R27, R28) -/

/-- The float formats of 02 Table 2-1. -/
inductive Fmt where
  | f64 | f32 | f16 | bf16 | e4m3 | e5m2
deriving DecidableEq, Repr

/-- Fraction bits of a format. -/
def Fmt.fb : Fmt → Nat
  | .f64 => 52 | .f32 => 23 | .f16 => 10 | .bf16 => 7 | .e4m3 => 3 | .e5m2 => 2
/-- Exponent bits of a format. -/
def Fmt.eb : Fmt → Nat
  | .f64 => 11 | .f32 => 8 | .f16 => 5 | .bf16 => 8 | .e4m3 => 4 | .e5m2 => 5
/-- Bits of a format. -/
def Fmt.width (f : Fmt) : Nat := 1 + f.eb + f.fb
/-- Exponent bias of a format. -/
def Fmt.bias (f : Fmt) : Nat := 2 ^ (f.eb - 1) - 1
/-- The exponent of the last place of subnormals. -/
def Fmt.qmin (f : Fmt) : Int := 1 - (f.bias : Int) - (f.fb : Int)
/-- The canonical NaN (R24). -/
def Fmt.nan : Fmt → Nat
  | .f64 => 0x7FF8000000000000 | .f32 => 0x7FC00000 | .f16 => 0x7E00 | .bf16 => 0x7FC0 | .e4m3 => 0x7F | .e5m2 => 0x7E
/-- Positive infinity; E4M3 has none, and its largest finite pattern stands here. -/
def Fmt.inf (f : Fmt) : Nat := match f with
  | .e4m3 => 0x7E
  | _ => (2 ^ f.eb - 1) * 2 ^ f.fb
/-- The pattern of the largest finite value. -/
def Fmt.maxFin (f : Fmt) : Nat := match f with
  | .e4m3 => 0x7E
  | _ => (2 ^ f.eb - 1) * 2 ^ f.fb - 1

/-- The value of a pattern. -/
inductive Num where
  | nan (signalling : Bool)
  | inf (neg : Bool)
  | fin (neg : Bool) (m : Nat) (e : Int)
deriving DecidableEq, Repr

/-- A pattern and the flags raised. -/
abbrev Fr := Nat × BitVec 7

/-- The sign bit of a format set on a pattern. -/
def Fmt.signed (f : Fmt) (neg : Bool) (bits : Nat) : Nat := if neg then bits + 2 ^ (f.width - 1) else bits

/-- The value of a pattern (R22, R27, R28). -/
def Fp.decode (f : Fmt) (bits : Nat) : Num :=
  let b := bits % 2 ^ f.width
  let neg := b.testBit (f.width - 1)
  let ex := b / 2 ^ f.fb % 2 ^ f.eb
  let fr := b % 2 ^ f.fb
  if f = .e4m3 && ex = 15 && fr = 7 then .nan false
  else if f ≠ .e4m3 && ex = 2 ^ f.eb - 1 then
    if fr = 0 then .inf neg else .nan (!fr.testBit (f.fb - 1))
  else if ex = 0 then .fin neg fr f.qmin
  else .fin neg (2 ^ f.fb + fr) (f.qmin + ((ex : Int) - 1))

/-- Whether a value is a signalling NaN. -/
def Num.isSig : Num → Bool
  | .nan s => s
  | _ => false
/-- Whether a value is a NaN. -/
def Num.isNan : Num → Bool
  | .nan _ => true
  | _ => false
/-- The value with its sign changed. -/
def Num.negate : Num → Num
  | .nan s => .nan s
  | .inf n => .inf (!n)
  | .fin n m e => .fin (!n) m e

/-! ## Rounding (R191) -/

/-- The number of bits of a magnitude. -/
def bitLen (n : Nat) : Nat := if n = 0 then 0 else n.log2 + 1

/-- Whether a quotient n with remainder class (cmp of the dropped part with one half, and whether it is nonzero) is rounded
up in magnitude. -/
def roundUp (r : Rnd) (neg odd : Bool) (cmp : Ordering) (some_ : Bool) : Bool :=
  match r with
  | .rne => cmp == .gt || (cmp == .eq && odd)
  | .rna => cmp == .gt || cmp == .eq
  | .rz => false
  | .rd => neg && some_
  | .ru => !neg && some_

/-- m · 2^e, plus a part of less than one unit of m when `sticky`, rounded to a multiple of 2^q: the multiple and whether it
differs. -/
def toQuantum (r : Rnd) (neg : Bool) (m : Nat) (e : Int) (sticky : Bool) (q : Int) : Nat × Bool :=
  if q ≤ e then (m * 2 ^ (e - q).toNat, sticky)
  else
    let k := (q - e).toNat
    let n := m / 2 ^ k
    let rem := m % 2 ^ k
    let half := 2 ^ (k - 1)
    let cmp := if rem = half then (if sticky then .gt else .eq) else compare rem half
    let inexact := rem ≠ 0 || sticky
    (if roundUp r neg (n % 2 = 1) cmp inexact then n + 1 else n, inexact)

/-- What a rounded magnitude beyond the largest finite value becomes: R191 step 4, or R29's saturation, or R29's NaN. -/
inductive Ovf where
  | ieee | sat | nan
deriving DecidableEq, Repr

/-- The largest finite value as m · 2^e. -/
def Fmt.maxNum (f : Fmt) : Nat × Int :=
  match Fp.decode f f.maxFin with
  | .fin _ m e => (m, e)
  | _ => (0, 0)

/-- n · 2^q at most, compared with m · 2^e. -/
def leDyadic (n : Nat) (q : Int) (m : Nat) (e : Int) : Bool :=
  if q ≤ e then n ≤ m * 2 ^ (e - q).toNat else n * 2 ^ (q - e).toNat ≤ m

/-- The result of an overflow (R191 step 4, R29). -/
def Fp.overflow (f : Fmt) (o : Ovf) (r : Rnd) (neg : Bool) : Nat :=
  match o with
  | .sat => f.signed neg f.maxFin
  | .nan => f.nan
  | .ieee =>
    let toInf := match r with
      | .rne | .rna => true
      | .rz => false
      | .rd => neg
      | .ru => !neg
    f.signed neg (if toInf then f.inf else f.maxFin)

/-- round(x, mode, type) of R191 steps 3 to 5 for x = (−1)^neg · (m [+ sticky]) · 2^e, with the range handling `o`. -/
def Fp.round (f : Fmt) (o : Ovf) (r : Rnd) (neg : Bool) (m : Nat) (e : Int) (sticky : Bool) : Fr :=
  if m = 0 && !sticky then (f.signed neg 0, 0)
  else
    let qu := (bitLen m : Int) - 1 + e - f.fb
    let (nu, _) := toQuantum r neg m e sticky qu
    let (mm, me) := f.maxNum
    if !leDyadic nu qu mm me then (Fp.overflow f o r neg, fOF ||| fNX)
    else
      let q := if qu < f.qmin then f.qmin else qu
      let (n, inexact) := toQuantum r neg m e sticky q
      let tiny := !leDyadic (2 ^ f.fb) f.qmin nu qu
      let bits := if n < 2 ^ f.fb then n else (q - f.qmin + 1).toNat * 2 ^ f.fb + (n - 2 ^ f.fb)
      (f.signed neg bits, flagIf inexact fNX ||| flagIf (tiny && inexact) fUF)

/-- A value in a format, rounded; ±∞ as the format has it. -/
def Fp.ofNum (f : Fmt) (r : Rnd) (x : Num) : Fr :=
  match x with
  | .nan s => (f.nan, flagIf s fNV)
  | .inf n => (f.signed n f.inf, 0)
  | .fin n m e => Fp.round f .ieee r n m e false

/-! ## Exact sums and products -/

/-- A dyadic as an integer multiple of 2^q. -/
def scaled (neg : Bool) (m : Nat) (e q : Int) : Int :=
  let v : Int := m * 2 ^ (e - q).toNat
  if neg then -v else v

/-- The product of two values: none when it is invalid (0 × ∞). -/
def Num.mul (a b : Num) : Option Num :=
  match a, b with
  | .nan s, .nan t => some (.nan (s || t))
  | .nan s, _ => some (.nan s)
  | _, .nan t => some (.nan t)
  | .inf x, .inf y => some (.inf (xor x y))
  | .inf x, .fin y m _ => if m = 0 then none else some (.inf (xor x y))
  | .fin x m _, .inf y => if m = 0 then none else some (.inf (xor x y))
  | .fin x m e, .fin y n g => some (.fin (xor x y) (m * n) (e + g))

/-- The least exponent of the finite values of a list. -/
def leastExp : List Num → Int
  | [] => 0
  | [.fin _ _ e] => e
  | .fin _ _ e :: t => if e ≤ leastExp t then e else leastExp t
  | _ :: t => leastExp t

/-- The exact integer sum of the finite values of a list, over 2^q. -/
def sumScaled (q : Int) : List Num → Int
  | [] => 0
  | .fin n m e :: t => scaled n m e q + sumScaled q t
  | _ :: t => sumScaled q t

/-- The exact sum of values: none when infinities of opposite sign meet. A zero sum is −0 when every operand is −0, else +0,
and −0 for a sum of opposite signs under .rd (R191 step 6). -/
def Num.sum (r : Rnd) (l : List Num) : Option Num :=
  let nans := l.filter Num.isNan
  if !nans.isEmpty then some (.nan (nans.any Num.isSig))
  else
    let infs := l.filter fun x => match x with | .inf _ => true | _ => false
    match infs with
    | .inf s :: _ => if infs.all (fun x => x == .inf s) then some (.inf s) else none
    | _ =>
      let q := leastExp l
      let t := sumScaled q l
      if t = 0 then
        let negs := l.map fun x => match x with | .fin n _ _ => n | _ => false
        some (.fin (if negs.all id then true else if negs.any id then r == .rd else false) 0 q)
      else some (.fin (t < 0) t.natAbs q)

/-- The canonical NaN of an invalid operation (R191 step 2). -/
def Fp.invalid (f : Fmt) : Fr := (f.nan, fNV)

/-- A sum rounded once. -/
def Fp.sumRound (f : Fmt) (r : Rnd) (l : List Num) : Fr :=
  match Num.sum r l with
  | none => Fp.invalid f
  | some x => Fp.ofNum f r x

/-- FADD (R194). -/
def Fp.add (f : Fmt) (r : Rnd) (a b : Nat) : Fr := Fp.sumRound f r [Fp.decode f a, Fp.decode f b]

/-- FSUB (R194). -/
def Fp.sub (f : Fmt) (r : Rnd) (a b : Nat) : Fr := Fp.sumRound f r [Fp.decode f a, (Fp.decode f b).negate]

/-- FMUL (R194). -/
def Fp.mul (f : Fmt) (r : Rnd) (a b : Nat) : Fr :=
  match Num.mul (Fp.decode f a) (Fp.decode f b) with
  | none => Fp.invalid f
  | some x => Fp.ofNum f r x

/-- FFMA (R194): 0 × ∞ is invalid even with a quiet NaN addend. -/
def Fp.fma (f : Fmt) (r : Rnd) (a b c : Nat) : Fr :=
  match Num.mul (Fp.decode f a) (Fp.decode f b) with
  | none => Fp.invalid f
  | some p => Fp.sumRound f r [p, Fp.decode f c]

/-- FDIV (R194). -/
def Fp.div (f : Fmt) (r : Rnd) (a b : Nat) : Fr :=
  match Fp.decode f a, Fp.decode f b with
  | .nan s, .nan t => (f.nan, flagIf (s || t) fNV)
  | .nan s, _ => (f.nan, flagIf s fNV)
  | _, .nan t => (f.nan, flagIf t fNV)
  | .inf _, .inf _ => Fp.invalid f
  | .inf x, .fin y _ _ => (f.signed (xor x y) f.inf, 0)
  | .fin x _ _, .inf y => (f.signed (xor x y) 0, 0)
  | .fin x m e, .fin y n g =>
    if n = 0 then (if m = 0 then Fp.invalid f else (f.signed (xor x y) f.inf, fDZ))
    else
      let k := f.fb + 4 + bitLen n
      Fp.round f .ieee r (xor x y) (m * 2 ^ k / n) (e - g - k) (m * 2 ^ k % n ≠ 0)

/-- The integer square root, bit by bit from bit `i` − 1. -/
def isqrtFrom (n : Nat) : Nat → Nat → Nat
  | 0, r => r
  | i + 1, r => if (r + 2 ^ i) * (r + 2 ^ i) ≤ n then isqrtFrom n i (r + 2 ^ i) else isqrtFrom n i r

/-- The integer square root. -/
def isqrt (n : Nat) : Nat := isqrtFrom n (bitLen n / 2 + 1) 0

/-- FSQRT (R194). -/
def Fp.sqrt (f : Fmt) (r : Rnd) (a : Nat) : Fr :=
  match Fp.decode f a with
  | .nan s => (f.nan, flagIf s fNV)
  | .inf n => if n then Fp.invalid f else (f.inf, 0)
  | .fin n m e =>
    if m = 0 then (f.signed n 0, 0)
    else if n then Fp.invalid f
    else
      let k := 2 * f.fb + 8 + (if (e - (2 * f.fb + 8 : Nat)) % 2 = 0 then 0 else 1)
      let q := isqrt (m * 2 ^ k)
      Fp.round f .ieee r false q ((e - k) / 2) (q * q ≠ m * 2 ^ k)

/-- FSCALE (R194): ±0 and ±∞ unchanged, without a flag. -/
def Fp.scale (f : Fmt) (r : Rnd) (a : Nat) (k : Int) : Fr :=
  match Fp.decode f a with
  | .nan s => (f.nan, flagIf s fNV)
  | .inf n => (f.signed n f.inf, 0)
  | .fin n m e => Fp.round f .ieee r n m (e + k) false

/-! ## Comparison and selection -/

/-- The order of two values that are not NaN; −0 and +0 are equal. -/
def Num.cmp (a b : Num) : Ordering :=
  match a, b with
  | .inf x, .inf y => if x = y then .eq else if x then .lt else .gt
  | .inf x, _ => if x then .lt else .gt
  | _, .inf y => if y then .gt else .lt
  | .fin x m e, .fin y n g =>
    let q := if e ≤ g then e else g
    compare (scaled x m e q) (scaled y n g q)
  | _, _ => .eq

/-- Whether a value is negative or −0. -/
def Num.neg : Num → Bool
  | .nan _ => false
  | .inf n => n
  | .fin n _ _ => n

/-- FMIN and FMAX (R195). -/
def Fp.minMax (f : Fmt) (isMax : Bool) (a b : Nat) : Fr :=
  let x := Fp.decode f a
  let y := Fp.decode f b
  let fl := flagIf (x.isSig || y.isSig) fNV
  let mask := fun (n : Nat) => n % 2 ^ f.width
  if x.isNan && y.isNan then (f.nan, fl)
  else if x.isNan then (mask b, fl)
  else if y.isNan then (mask a, fl)
  else
    let aLess := match Num.cmp x y with
      | .lt => true
      | .gt => false
      | .eq => x.neg && !y.neg
    (mask (if xor aLess isMax then a else b), fl)

/-- FCMP (R197). -/
def Fp.cmp (f : Fmt) (c : FCond) (a b : Nat) : Bool × BitVec 7 :=
  let x := Fp.decode f a
  let y := Fp.decode f b
  let un := x.isNan || y.isNan
  let o := Num.cmp x y
  let ordered := match c with
    | .lt | .le | .gt | .ge => true
    | .eq | .ne | .un | .ord => false
  let res := match c with
    | .eq => !un && o == .eq
    | .ne => un || o != .eq
    | .lt => !un && o == .lt
    | .le => !un && o != .gt
    | .gt => !un && o == .gt
    | .ge => !un && o != .lt
    | .un => un
    | .ord => !un
  (res, flagIf (x.isSig || y.isSig || (ordered && un)) fNV)

/-- FCLASS (R198). -/
def Fp.classify (f : Fmt) (a : Nat) : Nat :=
  match Fp.decode f a with
  | .nan s => if s then 2 ^ 8 else 2 ^ 9
  | .inf n => if n then 1 else 2 ^ 7
  | .fin n m _ =>
    if m = 0 then (if n then 2 ^ 3 else 2 ^ 4)
    else if m < 2 ^ f.fb then (if n then 2 ^ 2 else 2 ^ 5)
    else (if n then 2 ^ 1 else 2 ^ 6)

/-- The rounding mode of FRND's function code (R199). -/
def FRnd.rnd : FRnd → Rnd
  | .rne => .rne | .rz => .rz | .rd => .rd | .ru => .ru

/-- FRND (R199): never NX; a value that rounds to zero keeps its sign. -/
def Fp.integral (f : Fmt) (r : Rnd) (a : Nat) : Fr :=
  match Fp.decode f a with
  | .nan s => (f.nan, flagIf s fNV)
  | .inf n => (f.signed n f.inf, 0)
  | .fin n m e =>
    if 0 ≤ e then (a % 2 ^ f.width, 0)
    else ((Fp.round f .ieee .rne n (toQuantum r n m e false 0).1 0 false).1, 0)

/-! ## Conversions (R203 to R206) -/

/-- Conversion of a value to a float format with R29's range handling: `x` is .nosat for E4M3 and .sat for E5M2. -/
def Fp.convert (f : Fmt) (x : Bool) (r : Rnd) (v : Num) : Fr :=
  match f with
  | .e4m3 =>
    (match v with
     | .nan s => (f.nan, flagIf s fNV)
     | .inf n => (if x then f.nan else f.signed n f.maxFin, fNV)
     | .fin n m e => Fp.round f (if x then .nan else .sat) r n m e false)
  | .e5m2 =>
    (match v with
     | .nan s => (f.nan, flagIf s fNV)
     | .inf n => (f.signed n (if x then f.maxFin else f.inf), flagIf x fNV)
     | .fin n m e => Fp.round f (if x then .sat else .ieee) r n m e false)
  | .f64 | .f32 | .f16 | .bf16 => Fp.ofNum f r v

/-- Conversion of a value to an integer of `w` bits (10 Table 10-4). -/
def Fp.toInteger (signed : Bool) (w : Nat) (r : Rnd) (v : Num) : Fr :=
  let lo : Int := if signed then -(2 ^ (w - 1) : Nat) else 0
  let hi : Int := if signed then (2 ^ (w - 1) : Nat) - 1 else (2 ^ w : Nat) - 1
  let put := fun (i : Int) => (i % (2 ^ w : Nat)).toNat
  match v with
  | .nan _ => (0, fNV)
  | .inf n => (put (if n then lo else hi), fNV)
  | .fin n m e =>
    let (k, inexact) := toQuantum r n m e false 0
    let i : Int := if n then -(k : Int) else k
    if i < lo then (put lo, fNV) else if hi < i then (put hi, fNV) else (put i, flagIf inexact fNX)

/-- The float format of a CVT type, if it is one (R203). -/
def NumTy.fmt : NumTy → Option Fmt
  | .f32 => some .f32 | .f16 => some .f16 | .bf16 => some .bf16 | .e4m3 => some .e4m3 | .e5m2 => some .e5m2
  | .f64 => some .f64
  | .i32 | .n32 | .i64 | .n64 | .i16 | .n16 | .i8 | .n8 => none

/-- Sign and width of an integer CVT type (R203). -/
def NumTy.int : NumTy → Bool × Nat
  | .i32 => (true, 32) | .n32 => (false, 32) | .i64 => (true, 64) | .n64 => (false, 64)
  | .i16 => (true, 16) | .n16 => (false, 16) | .i8 => (true, 8) | .n8 => (false, 8)
  | .f32 | .f16 | .bf16 | .e4m3 | .e5m2 | .f64 => (false, 0)

/-- An integer as a value. -/
def Num.ofInt (i : Int) : Num := .fin (i < 0) i.natAbs 0

/-- A narrow integer result in its register (R204): sign- or zero-extended to 32 bits; wider ones as they are. -/
def extendInt (signed : Bool) (w n : Nat) : Nat :=
  if signed && w < 32 then (sintN w n % (2 ^ 32 : Nat)).toNat else n

/-- CVT (R204): dst, src, the range modifier x and the mode; the operand as a number. -/
def Fp.cvt (x : Bool) (dst src : NumTy) (r : Rnd) (a : Nat) : Fr :=
  match NumTy.fmt src, NumTy.fmt dst with
  | some fs, some fd => Fp.convert fd x r (Fp.decode fs a)
  | some fs, none =>
    let (sg, w) := NumTy.int dst
    let (n, fl) := Fp.toInteger sg w r (Fp.decode fs a)
    (extendInt sg w n, fl)
  | none, some fd =>
    let (sg, w) := NumTy.int src
    Fp.convert fd x r (Num.ofInt (if sg then sintN w a else (a % 2 ^ w : Nat)))
  | none, none =>
    let (sg, w) := NumTy.int src
    let v : Int := if sg then sintN w a else (a % 2 ^ w : Nat)
    let (dg, dw) := NumTy.int dst
    (extendInt dg dw (v % (2 ^ dw : Nat)).toNat, 0)

/-- The rounding mode of frm (R25). -/
def rndOfFrm (n : Nat) : Rnd :=
  match n with
  | 1 => .rz | 2 => .rd | 3 => .ru | 4 => .rna | _ => .rne

/-- The mode that a CVT selector gives under frm (R203). -/
def RndSel.mode (r : RndSel) (frm : Nat) : Rnd :=
  match r with
  | .rne => .rne | .rz => .rz | .rd => .rd | .ru => .ru | .rna => .rna
  | .dyn => rndOfFrm frm

/-! ## The 4-bit family (R31 to R36, R207, R208) -/

/-- The types of a block (02 Table 2-4). -/
inductive QTy where
  | sym | ofs (z : Nat) | e2m1 | pow2 | hybrid
deriving DecidableEq, Repr

/-- The type of a block, from its scale byte, its INT4 encoding and its zero point (Table 2-4, R33, R35). -/
def QTy.of (scale : Nat) (ofs : Bool) (z : Nat) : QTy :=
  match scale / 64 % 4 with
  | 0 => if ofs then .ofs (z % 16) else .sym
  | 1 => .e2m1
  | 2 => .pow2
  | _ => .hybrid

/-- The magnitudes of the hybrid type (R33). -/
def hybridMag : List Nat := [0, 1, 2, 3, 4, 6, 9, 14]

/-- The magnitudes of E2M1 in halves (R33). -/
def e2m1Mag : List Nat := [0, 1, 2, 3, 4, 6, 8, 12]

/-- The unscaled value of a code (02 Table 2-5). -/
def QTy.value (t : QTy) (code : Nat) : Num :=
  let c := code % 16
  let neg := c ≥ 8
  match t with
  | .sym => if c = 8 then .fin false 0 0 else Num.ofInt (sintN 4 c)
  | .ofs z => Num.ofInt ((c : Int) - z)
  | .e2m1 => .fin neg (e2m1Mag.getD (c % 8) 0) (-1)
  | .pow2 => if c % 8 = 0 then .fin neg 0 0 else .fin neg 1 ((c % 8 : Nat) - 4)
  | .hybrid => .fin neg (hybridMag.getD (c % 8) 0) 0

/-- NQ for a consumed SYM code 0x8 (R34). -/
def QTy.flag (t : QTy) (code : Nat) : BitVec 7 := flagIf (t == .sym && code % 16 == 8) fNQ

/-- A value times 2^k, exactly. -/
def Num.shift (x : Num) (k : Int) : Num :=
  match x with
  | .fin n m e => .fin n m (e + k)
  | .inf n => .inf n
  | .nan s => .nan s

/-- The block scale's exponent (R32). -/
def scaleExp (scale : Nat) : Int := (scale % 64 : Nat) - 32

/-- The exact value of a 4-bit element (R36). -/
def QTy.scaled (t : QTy) (scale code : Nat) : Num := (t.value code).shift (scaleExp scale)

/-- CVTQ.dec (R207). -/
def Fp.cvtqDec (a b : Nat) : Fr :=
  let t := QTy.of (b % 256) (b.testBit 16) (b / 256 % 16)
  ((Fp.ofNum .f32 .rne (t.scaled (b % 256) a)).1, t.flag a)

/-- The codes of a block type that CVTQ.enc chooses among, value 0 as code 0 (OFS: z) only (R208). -/
def QTy.codes (t : QTy) : List Nat :=
  match t with
  | .ofs _ => upTo 16
  | .sym | .e2m1 | .pow2 | .hybrid => (upTo 16).filter (· != 8)

/-- The distance of two finite values, as an exact value. -/
def Num.dist (a b : Num) : Num :=
  match Num.sum .rne [a, b.negate] with
  | some (.fin _ m e) => .fin false m e
  | some x => x
  | none => .nan false

/-- The better of two codes for q: the nearer value, on a tie the code with bit 0 clear (R208). -/
def QTy.nearer (t : QTy) (q : Num) (c d : Nat) : Nat :=
  match Num.cmp (Num.dist (t.value c) q) (Num.dist (t.value d) q) with
  | .lt => c
  | .gt => d
  | .eq => if c % 2 = 0 then c else d

/-- The code with the largest, or the smallest, value. -/
def QTy.extreme (t : QTy) (big : Bool) : Nat :=
  t.codes.foldl (fun c d =>
    match Num.cmp (t.value d) (t.value c) with
    | .gt => if big then d else c
    | .lt => if big then c else d
    | .eq => c) (t.codes.headD 0)

/-- CVTQ.enc (R208). -/
def Fp.cvtqEnc (a b : Nat) : Fr :=
  let t := QTy.of (b % 256) (b.testBit 16) (b / 256 % 16)
  let base := match t with | .ofs z => z | .sym | .e2m1 | .pow2 | .hybrid => 0
  match Fp.decode .f32 a with
  | .nan _ => (base, fNV)
  | x =>
    let q := x.shift (-(scaleExp (b % 256)))
    let top := t.extreme true
    let bot := t.extreme false
    let isInf := match q with | .inf _ => true | .nan _ | .fin _ _ _ => false
    let ofl := if isInf then fNV else fOF ||| fNX
    let (code, fl) :=
      if Num.cmp q (t.value top) == .gt then (top, ofl)
      else if Num.cmp q (t.value bot) == .lt then (bot, ofl)
      else
        let c := t.codes.foldl (t.nearer q) base
        (c, flagIf (Num.cmp (t.value c) q != .eq) fNX)
    let minus := match t with | .e2m1 | .pow2 | .hybrid => true | .sym | .ofs _ => false
    let isZero := match t.value code with | .fin _ m _ => m == 0 | .inf _ | .nan _ => false
    (if minus && isZero && q.neg then 8 else code, fl)

/-! ## Dot products (R202) -/

/-- DOT4 on FP8 elements. -/
def Fp.dot4 (f : Fmt) (d a b : Nat) : Fr :=
  let ps := (upTo 4).map fun i => Num.mul (Fp.decode f (a / 256 ^ i % 256)) (Fp.decode f (b / 256 ^ i % 256))
  let sig := flagIf ((upTo 4).any fun i => (Fp.decode f (a / 256 ^ i % 256)).isSig || (Fp.decode f (b / 256 ^ i % 256)).isSig) fNV
  let nan := (Fp.decode .f32 d).isNan || ps.any fun p => (match p with | some v => v.isNan | none => false)
  if !nan && ps.any Option.isNone then Fp.invalid .f32
  else
    let (v, fl) := Fp.sumRound .f32 .rne (Fp.decode .f32 d :: ps.filterMap id)
    (v, fl ||| sig)

/-- DOT4 on signed bytes. -/
def dot4I8 (d a b : Nat) : Nat :=
  let s : Int := (upTo 4).foldl (fun (t : Int) i => t + sintN 8 (a / 256 ^ i) * sintN 8 (b / 256 ^ i)) (d : Int)
  (s % (2 ^ 32 : Nat)).toNat

/-! ## Approximate functions (R200)

Each returns the exact value rounded to nearest even. The exact value is enclosed at a resolution of 2^−P; when both ends
of the enclosure round to one pattern, that pattern is the result (assumption log 6). -/

/-- The resolution of the enclosures. -/
def xP : Nat := 640

/-- Sum of x^(2k+1) / (2k+1) terms: `n` terms of atan (alternating) or atanh of 1/q, over 2^xP. -/
def invSeries (alt : Bool) (q : Nat) : Nat → Nat → Int → Int → Int
  | 0, _, _, acc => acc
  | n + 1, k, p, acc =>
    let term := p / (2 * k + 1 : Nat)
    invSeries alt q n (k + 1) (p / (q * q : Nat)) (if alt && k % 2 = 1 then acc - term else acc + term)

/-- π over 2^xP (Machin). -/
def xPi : Int :=
  16 * invSeries true 5 150 0 ((2 ^ xP : Nat) / 5) 0 - 4 * invSeries true 239 50 0 ((2 ^ xP : Nat) / 239) 0

/-- ln 2 over 2^xP: 2 atanh(1/3). -/
def xLn2 : Int := 2 * invSeries false 3 210 0 ((2 ^ xP : Nat) / 3) 0

/-- A product of two numbers over 2^xP. -/
def xMul (a b : Int) : Int := a * b / (2 ^ xP : Nat)

/-- The exponential series of t over 2^xP. -/
def expSeries (t : Int) : Nat → Nat → Int → Int → Int
  | 0, _, _, acc => acc
  | n + 1, k, p, acc =>
    let p' := xMul p t / (k + 1 : Nat)
    expSeries t n (k + 1) p' (acc + p')

/-- exp t over 2^xP for 0 ≤ t < 1. -/
def xExp (t : Int) : Int := (2 ^ xP : Nat) + expSeries t 130 0 (2 ^ xP : Nat) 0

/-- The series of sine or cosine of t over 2^xP from term k with power p. -/
def trigSeries (t2 : Int) : Nat → Nat → Int → Int → Int
  | 0, _, _, acc => acc
  | n + 1, k, p, acc =>
    let p' := -(xMul p t2 / ((k + 1) * (k + 2) : Nat))
    trigSeries t2 n (k + 2) p' (acc + p')

/-- sin t over 2^xP for |t| ≤ 1. -/
def xSin (t : Int) : Int := trigSeries (xMul t t) 70 1 t t
/-- cos t over 2^xP for |t| ≤ 1. -/
def xCos (t : Int) : Int := trigSeries (xMul t t) 70 0 (2 ^ xP : Nat) (2 ^ xP : Nat)

/-- The odd series of atanh of z over 2^xP. -/
def atanhSeries (z2 : Int) : Nat → Nat → Int → Int → Int
  | 0, _, _, acc => acc
  | n + 1, k, p, acc => atanhSeries z2 n (k + 1) (xMul p z2) (acc + p / (2 * k + 1 : Nat))

/-- The result of an enclosure v ± 2^200 over 2^(xP − sh): the pattern both ends round to. -/
def enclose (v : Int) (sh : Int) : Option Nat :=
  let at_ := fun (x : Int) => (Fp.round .f32 .ieee .rne (x < 0) x.natAbs (-(xP : Int) + sh) false).1
  let lo := at_ (v - 2 ^ 200)
  let hi := at_ (v + 2 ^ 200)
  if lo = hi then some lo else none

/-- A finite value as a number over 2^xP; bits below that are dropped (none for FP32). -/
def xOf (neg : Bool) (m : Nat) (e : Int) : Int :=
  let k := e + xP
  let v : Int := if 0 ≤ k then (m : Int) * (2 ^ k.toNat : Nat) else (m : Int) / (2 ^ (-k).toNat : Nat)
  if neg then -v else v

/-- A result of an approximate function: its pattern, or none when the enclosure does not decide it; and its flags. -/
abbrev Ap := Option Nat × BitVec 7

/-- The canonical NaN of a NaN input (R200). -/
def apNan (s : Bool) : Ap := (some Fmt.f32.nan, flagIf s fNV)
/-- NaN with NV (Table 10-3). -/
def apInvalid : Ap := (some Fmt.f32.nan, fNV)

/-- FRCP. -/
def Fp.rcp (a : Nat) : Ap :=
  match Fp.decode .f32 a with
  | .nan s => apNan s
  | .inf n => (some (Fmt.f32.signed n 0), 0)
  | .fin n m e =>
    if m = 0 then (some (Fmt.f32.signed n Fmt.f32.inf), fDZ)
    else
      let k := 60 + bitLen m
      (some (Fp.round .f32 .ieee .rne n (2 ^ k / m) (-e - k) (2 ^ k % m ≠ 0)).1, 0)

/-- FRSQ. -/
def Fp.rsq (a : Nat) : Ap :=
  match Fp.decode .f32 a with
  | .nan s => apNan s
  | .inf n => if n then apInvalid else (some 0, 0)
  | .fin n m e =>
    if m = 0 then (some (Fmt.f32.signed n Fmt.f32.inf), fDZ)
    else if n then apInvalid
    else
      let k : Nat := 140 + (if (e + 140) % 2 = 0 then 0 else 1)
      let q := isqrt (2 ^ k / m)
      (some (Fp.round .f32 .ieee .rne false q (-((e + k) / 2)) (q * q * m ≠ 2 ^ k)).1, 0)

/-- 2^x for a finite x of moderate magnitude. -/
def exp2Finite (n : Bool) (m : Nat) (e : Int) : Option Nat :=
  let x := xOf n m e
  let i := x.fdiv (2 ^ xP : Nat)
  let fr := x - i * (2 ^ xP : Nat)
  if fr = 0 then some (Fp.round .f32 .ieee .rne false 1 i false).1 else enclose (xExp (xMul fr xLn2)) i

/-- FEXP2. -/
def Fp.exp2 (a : Nat) : Ap :=
  match Fp.decode .f32 a with
  | .nan s => apNan s
  | .inf n => (some (if n then 0 else Fmt.f32.inf), 0)
  | .fin n m e =>
    if n && leDyadic 151 0 m e then (some 0, 0)
    else if !n && leDyadic 128 0 m e then (some Fmt.f32.inf, 0)
    else (exp2Finite n m e, 0)

/-- FLOG2. -/
def Fp.log2 (a : Nat) : Ap :=
  match Fp.decode .f32 a with
  | .nan s => apNan s
  | .inf n => if n then apInvalid else (some Fmt.f32.inf, 0)
  | .fin n m e =>
    if m = 0 then (some (Fmt.f32.signed true Fmt.f32.inf), fDZ)
    else if n then apInvalid
    else
      let k := bitLen m - 1
      let ex := e + k
      if m = 2 ^ k then ((some (Fp.ofNum .f32 .rne (Num.ofInt ex)).1), 0)
      else
        let z := ((m : Int) - (2 ^ k : Nat)) * (2 ^ xP : Nat) / ((m : Int) + (2 ^ k : Nat))
        let ln := 2 * atanhSeries (xMul z z) 210 0 z 0
        (enclose (ex * (2 ^ xP : Nat) + ln * (2 ^ xP : Nat) / xLn2) 0, 0)

/-- The quadrant and the rest, within ±π/4, of a finite value of moderate or large magnitude, over 2^xP. -/
def trigReduce (neg : Bool) (m : Nat) (e : Int) : Int × Int :=
  let x := xOf neg m e
  let q := (2 * x + xPi / 2).fdiv xPi
  (q, x - q * xPi / 2)

/-- FSIN, and FCOS with `c`. -/
def Fp.sinCos (c : Bool) (a : Nat) : Ap :=
  match Fp.decode .f32 a with
  | .nan s => apNan s
  | .inf _ => apInvalid
  | .fin n m e =>
    if m = 0 then (some (if c then 0x3F800000 else Fmt.f32.signed n 0), 0)
    else
      let (q, t) := trigReduce n m e
      let v := match (if c then q + 1 else q) % 4 with
        | 0 => xSin t
        | 1 => xCos t
        | 2 => -(xSin t)
        | _ => -(xCos t)
      (enclose v 0, 0)

/-- FTANH. -/
def Fp.tanh (a : Nat) : Ap :=
  match Fp.decode .f32 a with
  | .nan s => apNan s
  | .inf n => (some (Fmt.f32.signed n 0x3F800000), 0)
  | .fin n m e =>
    if m = 0 then (some (Fmt.f32.signed n 0), 0)
    else if leDyadic 16 0 m e then (some (Fmt.f32.signed n 0x3F800000), 0)
    else
      let y := 2 * xOf false m e
      let i := y / xLn2
      let ex := xExp (y - i * xLn2) * (2 ^ i.toNat : Nat)
      let one : Int := (2 ^ xP : Nat)
      let v := (ex - one) * one / (ex + one)
      (enclose (if n then -v else v) 0, 0)

end Sys2Proof.Machine
end

