-- ==== Sys2Proof/Machine/Lens.lean ====
section
/-! DEFINITION. Lens records (02 R42, R43, R48), storage positions and addresses (R44, R45), coordinates (R47), the values
of elements (R33 to R37) and their conversions (12 R242, R244), and context words of the sweep engine (16 R318, R319,
R320). -/

namespace Sys2Proof.Machine

open Sys2Proof

/-- A lens record, field by field (02 Table 2-8). The lists hold one value per dimension, dimension 0 first; stride 0 is
fixed at 1 (R44). -/
structure Lens where
  base : Nat
  sbase : Nat
  zpbase : Nat
  ext : List Nat
  stride : List Nat
  fill : Nat
  fmt : Nat
  ndim : Nat            -- dimensions, 1 to 4
  order : Nat           -- 0 row-major, 1 blocked tiles, 2 curve-keyed
  enc : Bool
  ro : Bool
  circ : List Bool
  ctx : Nat             -- 0 none, 1 interleaved, 2 parallel
  cmp : Bool
  mesh : Nat
  blk : Nat
  tile : List Nat       -- exponents
  res : Nat             -- reserved bits [39:36]
  ctxoff : Nat
deriving DecidableEq, Repr

/-- The lens of a record's 16 words (Table 2-8). -/
def Lens.ofWords (ws : List Word) : Lens :=
  let w := fun i => (ws.getD i 0).toNat
  let d := fun i => w i + 2 ^ 32 * w (i + 1)
  let c := d 14
  { base := d 0, sbase := d 2, zpbase := d 4
    ext := [w 6, w 7, w 8, w 9], stride := [1, w 10, w 11, w 12], fill := w 13
    fmt := bitsOf c 3 0, ndim := bitsOf c 5 4 + 1, order := bitsOf c 7 6, enc := bitOf c 8, ro := bitOf c 9
    circ := (upTo 4).map fun k => bitOf c (10 + k)
    ctx := bitsOf c 15 14, cmp := bitOf c 16, mesh := bitsOf c 19 17, blk := bitsOf c 23 20
    tile := (upTo 4).map fun k => bitsOf c (26 + 3 * k) (24 + 3 * k)
    res := bitsOf c 39 36, ctxoff := bitsOf c 63 40 }

/-- The number format of a lens format; none for .q4 and LUT4 (Table 2-9). -/
def Lens.numTy (l : Lens) : Option NumTy :=
  match l.fmt with
  | 0 => some .i8 | 1 => some .n8 | 2 => some .i16 | 3 => some .n16 | 4 => some .i32 | 5 => some .n32 | 6 => some .i64
  | 7 => some .n64 | 8 => some .f16 | 9 => some .bf16 | 10 => some .f32 | 11 => some .f64 | 12 => some .e4m3
  | 13 => some .e5m2
  | _ => none

/-- Whether the format is .q4. -/
def Lens.isQ4 (l : Lens) : Bool := l.fmt == 14
/-- Whether the format is LUT4. -/
def Lens.isLut (l : Lens) : Bool := l.fmt == 15

/-- Bytes of a number format in memory (Table 2-9). -/
def numBytes : NumTy → Nat
  | .i8 | .n8 | .e4m3 | .e5m2 => 1
  | .i16 | .n16 | .f16 | .bf16 => 2
  | .i32 | .n32 | .f32 => 4
  | .i64 | .n64 | .f64 => 8

/-- The element bytes; 0 for the 4-bit formats (Table 2-9). -/
def Lens.eb (l : Lens) : Nat :=
  match l.numTy with
  | some t => numBytes t
  | none => 0

/-- Product of a list. -/
def prod (l : List Nat) : Nat := l.foldl (· * ·) 1

/-- Extent of a dimension. -/
def Lens.extK (l : Lens) (k : Nat) : Nat := l.ext.getD k 0
/-- Stride of a dimension. -/
def Lens.strideK (l : Lens) (k : Nat) : Nat := l.stride.getD k 0
/-- Tile extent of a dimension (R242). -/
def Lens.tileK (l : Lens) (k : Nat) : Nat := 2 ^ l.tile.getD k 0
/-- The dimensions in use. -/
def Lens.dims (l : Lens) : List Nat := upTo l.ndim

/-- The checks of R48; `live` says whether a mesh number names a live mesh of the context. -/
def Lens.recordOk (l : Lens) (live : Nat → Bool) : Bool :=
  let four := l.isQ4 || l.isLut
  l.res == 0 && l.order != 3 && l.ctx != 3
  && (l.dims.all fun k => l.extK k != 0)
  && ((upTo 4).all fun k => k < l.ndim ||
      (l.extK k == 0 && l.strideK k == 0 && !l.circ.getD k false && l.tile.getD k 0 == 0))
  && l.base % (if four then 16 else l.eb) == 0
  && (if four then
        l.blk == 5 && l.ctx != 1 && !l.cmp
        && (l.order == 1 || (l.dims.drop 1).all fun k => l.strideK k % 32 == 0)
        && (l.order != 1 || 32 ≤ prod (l.dims.map l.tileK))
      else l.blk == 0)
  && (l.zpbase == 0 || l.enc)
  && (!l.enc || l.isQ4)
  && (l.ctxoff == 0 || l.ctx == 2)
  && (!l.cmp || (l.ctx == 0 && l.ro && l.order != 2))
  && (l.order != 2 || (l.ndim == 2 && l.extK 0 ≤ l.strideK 1 && live l.mesh))

/-- The elements of the extents. -/
def Lens.count (l : Lens) : Nat := prod (l.dims.map l.extK)

/-- A coordinate of dimension k after R47; none when it is out of range. -/
def Lens.coord (l : Lens) (k : Nat) (c : Int) : Option Nat :=
  let e := l.extK k
  if l.circ.getD k false then some (c % (e : Int)).toNat
  else if 0 ≤ c && c < (e : Int) then some c.toNat else none

/-- The tile of a blocked lens and the position within it (R44). -/
def Lens.blocked (l : Lens) (c : Nat → Nat) : Nat :=
  let q := l.dims.foldl (fun (x : Nat × Nat) k =>
    (x.1 + c k / l.tileK k * x.2, x.2 * ((l.extK k + l.tileK k - 1) / l.tileK k))) (0, 1)
  let w := l.dims.foldl (fun (x : Nat × Nat) k => (x.1 + c k % l.tileK k * x.2, x.2 * l.tileK k)) (0, 1)
  q.1 * w.2 + w.1

/-- The storage position of coordinates that are in range (R44). -/
def Lens.position (l : Lens) (c : Nat → Nat) : Nat :=
  if l.order = 1 then l.blocked c
  else l.dims.foldl (fun x k => x + c k * l.strideK k) 0

/-- The storage position of an access; none when it is out of range (R47, R44). -/
def Lens.place (l : Lens) (cs : List Int) : Option Nat :=
  let xs := l.dims.map fun k => l.coord k (cs.getD k 0)
  if xs.all Option.isSome then
    some (l.position fun k => match xs.getD k none with | some n => n | none => 0)
  else none

/-- The address of the element at a position, for formats of whole bytes (R45). -/
def Lens.elemAddr (l : Lens) (p : Nat) : Nat :=
  if l.ctx = 1 then l.base + p * ((l.eb + 3) / 4 * 4 + 4) else l.base + p * l.eb

/-- The address of the context word at a position (R45). -/
def Lens.ctxAddr (l : Lens) (p : Nat) : Nat :=
  if l.ctx = 1 then l.base + p * ((l.eb + 3) / 4 * 4 + 4) + (l.eb + 3) / 4 * 4 else l.base + l.ctxoff * 65536 + 4 * p

/-- Whether some number below a bound meets a test. -/
def anyBelow (f : Nat → Bool) : Nat → Bool
  | 0 => false
  | n + 1 => f n || anyBelow f n

/-- Whether some coordinates of dimensions 0 to k map to p under strides (R44, R338). -/
def Lens.reaches (l : Lens) (p : Nat) : Nat → Bool
  | 0 => p < l.extK 0
  | k + 1 =>
    let s := l.strideK (k + 1)
    let e := l.extK (k + 1)
    if s = 0 then l.reaches p k
    else anyBelow (fun c => c * s ≤ p && l.reaches (p - c * s) k) (Nat.min e (p / s + 1))

/-- The coordinates of a position of a blocked lens, dimension by dimension, and whether each lies within its extent. -/
def Lens.blockedHolds (l : Lens) (p : Nat) : Bool :=
  let t := prod (l.dims.map l.tileK)
  let r := l.dims.foldl (fun (x : Bool × Nat × Nat) k =>
    let n := (l.extK k + l.tileK k - 1) / l.tileK k
    (x.1 && x.2.1 % n * l.tileK k + x.2.2 % l.tileK k < l.extK k, x.2.1 / n, x.2.2 / l.tileK k)) (true, p / t, p % t)
  r.1 && r.2.1 == 0

/-- Whether a position is the storage position of an element of the lens (R338). -/
def Lens.holds (l : Lens) (p : Nat) : Bool :=
  if l.order = 1 then l.blockedHolds p else l.reaches p (l.ndim - 1)

/-! ## Values (R36, R37, R242, R253) -/

/-- The format of a requested type (06 Table 6-19). -/
def reqNum : ReqTy8 → NumTy
  | .f32 => .f32 | .f16 => .f16 | .bf16 => .bf16 | .e4m3 => .e4m3 | .e5m2 => .e5m2 | .i32 => .i32 | .n32 => .n32 | .f64 => .f64

/-- The requested type of a code 0 to 7 (Table 6-19). -/
def reqOf (n : Nat) : ReqTy8 :=
  match n with
  | 0 => .f32 | 1 => .f16 | 2 => .bf16 | 3 => .e4m3 | 4 => .e5m2 | 5 => .i32 | 6 => .n32 | _ => .f64

/-- The bytes of a delivered type; the lens format for raw (R242). -/
def Lens.sz (l : Lens) (ty : Option ReqTy8) : Nat :=
  match ty with
  | some t => numBytes (reqNum t)
  | none => l.eb

/-- The conversion of an exact value to a requested type, RNE with default range handling (R36, R242). -/
def Fp.ofValue (t : NumTy) (v : Num) : Fr :=
  match NumTy.fmt t with
  | some f => Fp.convert f false .rne v
  | none =>
    let (sg, w) := NumTy.int t
    let (n, fl) := Fp.toInteger sg w .rne v
    (extendInt sg w n, fl)

/-- The exact value of a 4-bit element (R33 to R37), from its code, its block's scale byte and zero point, and the LUT4
codebook; with the flags of a reserved code. -/
def Lens.fourBit (l : Lens) (code scale zp : Nat) (book : List Word) : Num × BitVec 7 :=
  if l.isLut then ((Fp.decode .bf16 ((book.getD (code % 16) 0).toNat % 2 ^ 16)).shift (scaleExp scale), 0)
  else
    let t := QTy.of scale l.enc zp
    (t.scaled scale code, t.flag code)

/-- An element's bits in the lens format, delivered as a type; raw is the bits (R242). -/
def Lens.deliver (l : Lens) (ty : Option ReqTy8) (bits : Nat) : Fr :=
  match ty, l.numTy with
  | some t, some f =>
    let (n, fl) := Fp.cvt false (reqNum t) f .rne bits
    (n % 256 ^ (numBytes (reqNum t)), fl)
  | none, _ => (bits, 0)
  | some _, none => (bits, 0)

/-- A delivered value converted back into the lens format (R244, R256). -/
def Lens.accept (l : Lens) (ty : Option ReqTy8) (bits : Nat) : Fr :=
  match ty, l.numTy with
  | some t, some f =>
    let (n, fl) := Fp.cvt false f (reqNum t) .rne bits
    (n % 256 ^ (numBytes f), fl)
  | none, _ => (bits, 0)
  | some _, none => (bits, 0)

/-- The fill value delivered as a type (R47); it sets no flag. -/
def Lens.fillValue (l : Lens) (ty : Option ReqTy8) : Nat :=
  match l.numTy with
  | none =>
    (match ty with
     | some t => (Fp.ofValue (reqNum t) (Fp.decode .f32 l.fill)).1 % 256 ^ (numBytes (reqNum t))
     | none => 0)
  | some f =>
    let bits :=
      match f with
      | .f64 => (Fp.convert .f64 false .rne (Fp.decode .f32 l.fill)).1
      | .i64 => (sintN 32 l.fill % (2 ^ 64 : Nat)).toNat
      | _ => l.fill % 256 ^ (numBytes f)
    (l.deliver ty bits).1

/-- The coordinates of tile element number i of a copy (R242): i0 fastest. -/
def Lens.tileCoords (l : Lens) (origin : List Int) (i : Nat) : List Int :=
  (l.dims.foldl (fun (x : List Int × Nat) k =>
    (x.1 ++ [origin.getD k 0 + (x.2 % l.tileK k : Nat)], x.2 / l.tileK k)) ([], i)).1

/-- The elements of a copy's tile (R242). -/
def Lens.tileCount (l : Lens) : Nat := prod (l.dims.map l.tileK)

/-! ## Context words and schedules (R318 to R320) -/

/-- State of a context word (Table 16-1). -/
def cwState (w : Word) : Nat := bitsOf w.toNat 31 28
/-- Wait kind of a context word. -/
def cwWait (w : Word) : Nat := bitsOf w.toNat 27 24
/-- Argument of a context word. -/
def cwArg (w : Word) : Nat := bitsOf w.toNat 23 0

/-- The entry of a state in a schedule (Table 16-2). -/
def schedEntry (sched : List Word) (state : Nat) : Pair := mkPair (sched.getD (2 * state) 0) (sched.getD (2 * state + 1) 0)
/-- The structure signature of a schedule. -/
def schedSig (sched : List Word) : Nat := (mkPair (sched.getD 32 0) (sched.getD 33 0)).toNat
/-- The control doubleword of a schedule at 0x88. -/
def schedCtl (sched : List Word) : Nat := (mkPair (sched.getD 34 0) (sched.getD 35 0)).toNat
/-- The cold image's address. -/
def schedInit (sched : List Word) : Nat := (mkPair (sched.getD 36 0) (sched.getD 37 0)).toNat
/-- Sweeps per job. -/
def schedNsweep (sched : List Word) : Nat := bitsOf (schedCtl sched) 15 0
/-- Direction of the sweeps: 0 forward, 1 backward, 2 symmetric. -/
def schedOrder (sched : List Word) : Nat := bitsOf (schedCtl sched) 17 16
/-- Element words delivered. -/
def schedNword (sched : List Word) : Nat := bitsOf (schedCtl sched) 20 18
/-- Scope of the job. -/
def schedScope (sched : List Word) : Nat := bitsOf (schedCtl sched) 23 21

/-- Whether a schedule passes the check BADSCHED (Table 16-4). An unaligned init is refused with the entries (log 9). -/
def schedOk (sched : List Word) : Bool :=
  let c := schedCtl sched
  c / 2 ^ 24 == 0 && (sched.drop 38).all (· == 0) && schedEntry sched 15 == 0
  && schedNsweep sched != 0 && schedOrder sched != 3 && schedNword sched ≤ 4
  && 2 ≤ schedScope sched && schedScope sched ≤ 6
  && (upTo 15).all (fun i => (schedEntry sched i).toNat % 4 == 0) && schedInit sched % 4 == 0
  && (upTo 15).any (fun i => schedEntry sched i != 0)

/-- The condition that a context word gives its element in a job of a task with `sl` scratchpad lines; none for an invalid
word (R319). -/
def condOf (sched : List Word) (sl : Nat) (w : Word) : Option Cond :=
  let arg := cwArg w
  if cwState w = 15 then some .done
  else if schedEntry sched (cwState w) = 0 then none
  else match cwWait w with
    | 0 => if arg = 0 then some .awake else none
    | 1 => some (if arg = 0 then .awake else .asleep)
    | 2 => some (.later arg)
    | 3 => if arg / 2 ^ 11 = 0 && arg % 2 ^ 11 < sl then some (.flag (arg % 2 ^ 11)) else none
    | _ => none

end Sys2Proof.Machine
end

