-- ==== Sys2Proof/Decode.lean ====
section
/-! DEFINITION. The decoder (06 R110 to R117, R126, R127, R129 step 3) and, after it, the encoder, both written from
the encoding tables of the spec. The decoder is total on every 32-bit word, with or without a LIMM before it, and
rejects by name. -/

namespace Sys2Proof

/-- Why a word is no instruction (R129 steps 1 and 3). Every one of them raises a precise illegal-instruction trap. -/
inductive Reject where
  /-- class 14, or a word of class 15 other than ILL (R127) -/
  | reservedClass
  /-- a function code that Tables 6-11 to 6-24 do not list (R126) -/
  | unassigned
  /-- a nonzero reserved field (R112) -/
  | reservedField
  /-- an encoded field that holds a value its entry does not allow (R129 step 3) -/
  | illegalField
  /-- a prefix before a word that may not carry it (R113, R116, R117, R373) -/
  | prefixMisuse
deriving DecidableEq, Repr

/-- A decoded word: its switch marker (R113) and its instruction. -/
structure Decoded where
  marker : Bool
  instr : Instr
deriving DecidableEq, Repr

/-- Two fields side by side in `w` bits, `hi` above `lo`: hi << n | lo, as 06 writes its words. -/
def cat {m n : Nat} (w : Nat) (hi : BitVec m) (lo : BitVec n) : BitVec w :=
  (hi.setWidth w <<< n) ||| lo.setWidth w

/-- The fields of an instruction word but for its S bit (R110, Table 6-1). -/
structure Fields where
  cls : BitVec 4
  fn : BitVec 6
  d : BitVec 7
  a : BitVec 7
  b : BitVec 7
deriving DecidableEq, Repr

/-- The fields of a word (Table 6-1). -/
def Fields.ofWord (w : BitVec 32) : Fields :=
  ⟨w.extractLsb' 27 4, w.extractLsb' 21 6, w.extractLsb' 14 7, w.extractLsb' 7 7, w.extractLsb' 0 7⟩

/-- The word of a marker bit and its fields (Table 6-1). -/
def Fields.toWord (s : Bool) (f : Fields) : BitVec 32 :=
  cat 32 (BitVec.ofBool s) (cat 31 f.cls (cat 27 f.fn (cat 21 f.d (cat 14 f.a f.b))))

/-- imm21 of an I21 word or of a LIMM (R111). -/
def join21 (d a b : BitVec 7) : BitVec 21 := cat 21 d (cat 14 a b)

/-- The fields of an I21 word. -/
def split21 (cls : BitVec 4) (fn : BitVec 6) (i : BitVec 21) : Fields :=
  ⟨cls, fn, i.extractLsb' 14 7, i.extractLsb' 7 7, i.extractLsb' 0 7⟩

/-- A form that takes no LIMM (R116, R373). -/
def rrr (limm : Option (BitVec 21)) (x : Except Reject Instr) : Except Reject Instr :=
  match limm with
  | none => x
  | some _ => .error .prefixMisuse

/-- A reserved field must hold zero (R112). -/
def need0 (z : BitVec 7) (x : Except Reject Instr) : Except Reject Instr :=
  if z = 0 then x else .error .reservedField

/-- An immediate of control bits: a LIMM may stand before it only where it leaves the immediate as it is (R116, R302). -/
def ctl (limm : Option (BitVec 21)) (x : Except Reject Instr) : Except Reject Instr :=
  match limm with
  | none => x
  | some v => if v = 0 then x else .error .illegalField

/-- The signed imm7 of an RRI word, or what a LIMM makes of it (R111, R116). -/
def decS7 (limm : Option (BitVec 21)) (b : BitVec 7) : Imm :=
  match limm with
  | none => b.signExtend 32
  | some v => (cat 28 v b).signExtend 32

/-- The unsigned imm7 of an RRI word, or what a LIMM makes of it (R111, R116). -/
def decU7 (limm : Option (BitVec 21)) (b : BitVec 7) : Imm :=
  match limm with
  | none => b.setWidth 32
  | some v => (cat 28 v b).signExtend 32

/-- Whether bits [20:18] of a LIMM before an RI14 word equal its bit 17 (R116). -/
def limm14Ok (v : BitVec 21) : Bool := v = (v.setWidth 18).signExtend 21

/-- The immediate of a LIMM and an RI14 word (R116). -/
def limm14 (v : BitVec 21) (j : BitVec 14) : Imm := cat 32 (v.setWidth 18) j

/-- The signed imm14 of an RI14 word, or what a LIMM makes of it (R111, R116). -/
def decS14 (limm : Option (BitVec 21)) (j : BitVec 14) (k : Imm → Except Reject Instr) : Except Reject Instr :=
  match limm with
  | none => k (j.signExtend 32)
  | some v => if limm14Ok v then k (limm14 v j) else .error .prefixMisuse

/-- The unsigned imm14 of an RI14 word, or what a LIMM makes of it (R111, R116). -/
def decU14 (limm : Option (BitVec 21)) (j : BitVec 14) (k : Imm → Except Reject Instr) : Except Reject Instr :=
  match limm with
  | none => k (j.setWidth 32)
  | some v => if limm14Ok v then k (limm14 v j) else .error .prefixMisuse

/-- Scope codes 0 to 6 (R230). -/
def Scope.code : Scope → BitVec 3
  | .thread => 0 | .team => 1 | .core => 2 | .cluster => 3 | .die => 4 | .pkg => 5 | .sys => 6

/-- The scope in a 7-bit field, code 7 and the bits above it reserved (R230). -/
def decScope (f : BitVec 7) (k : Scope → Except Reject Instr) : Except Reject Instr :=
  match f with
  | 0 => k .thread | 1 => k .team | 2 => k .core | 3 => k .cluster | 4 => k .die | 5 => k .pkg | 6 => k .sys
  | _ => .error .illegalField

/-- A team slot in bits [1:0], bits [6:2] reserved (R373). -/
def decSlot (f : BitVec 7) (k : BitVec 2 → Except Reject Instr) : Except Reject Instr :=
  if f.extractLsb' 2 5 = (0 : BitVec 5) then k (f.extractLsb' 0 2) else .error .reservedField

/-- Kind codes of ZCLR and ZLD (R280). -/
def ZKind.code : ZKind → BitVec 2
  | .f32 => 0 | .i32 => 1 | .f64 => 2

/-- The D field of ZCLR and ZLD: name [2:0], kind [4:3], reserved [6:5] (R280). -/
def decKind (f : BitVec 7) (k : ZKind → BitVec 3 → Except Reject Instr) : Except Reject Instr :=
  if f.extractLsb' 5 2 = (0 : BitVec 2) then
    match f.extractLsb' 3 2 with
    | 0 => k .f32 (f.extractLsb' 0 3) | 1 => k .i32 (f.extractLsb' 0 3) | 2 => k .f64 (f.extractLsb' 0 3)
    | _ => .error .illegalField
  else .error .reservedField

/-- Stream format codes (14 Table 14-2). -/
def SFmt.code : SFmt → BitVec 4
  | .e4m3 => 0 | .e5m2 => 1 | .i8 => 2 | .bf16 => 3 | .f16 => 4 | .f64 => 5
  | .sE4m3 => 6 | .sE5m2 => 7 | .q4k64 => 8 | .q4k32 => 9 | .lut4k64 => 10 | .lut4k32 => 11

/-- The stream format of a code, 12 to 15 reserved (R293). -/
def decSFmt (f : BitVec 4) (k : SFmt → Except Reject Instr) : Except Reject Instr :=
  match f with
  | 0 => k .e4m3 | 1 => k .e5m2 | 2 => k .i8 | 3 => k .bf16 | 4 => k .f16 | 5 => k .f64
  | 6 => k .sE4m3 | 7 => k .sE5m2 | 8 => k .q4k64 | 9 => k .q4k32 | 10 => k .lut4k64 | 11 => k .lut4k32
  | _ => .error .illegalField

/-- Face codes (R302, R57). -/
def Face.code : Face → BitVec 3
  | .xm => 0 | .xp => 1 | .ym => 2 | .yp => 3 | .zm => 4 | .zp => 5

/-- The immediate of KNBR and KNEXT: face [2:0], mesh [5:3], reserved [6] (15 Table 15-3). -/
def decFace (b : BitVec 7) (k : Face → BitVec 3 → Except Reject Instr) : Except Reject Instr :=
  if b.getLsbD 6 then .error .reservedField else
  match b.extractLsb' 0 3 with
  | 0 => k .xm (b.extractLsb' 3 3) | 1 => k .xp (b.extractLsb' 3 3) | 2 => k .ym (b.extractLsb' 3 3)
  | 3 => k .yp (b.extractLsb' 3 3) | 4 => k .zm (b.extractLsb' 3 3) | 5 => k .zp (b.extractLsb' 3 3)
  | _ => .error .illegalField

/-- Rounding selectors of CVT (R203). -/
def RndSel.code : RndSel → BitVec 3
  | .rne => 0 | .rz => 1 | .rd => 2 | .ru => 3 | .rna => 4 | .dyn => 7

/-- The rounding selector of a code, 5 and 6 illegal (R203). -/
def decRnd (f : BitVec 3) (k : RndSel → Except Reject Instr) : Except Reject Instr :=
  match f with
  | 0 => k .rne | 1 => k .rz | 2 => k .rd | 3 => k .ru | 4 => k .rna | 7 => k .dyn
  | _ => .error .illegalField

/-- Type codes of CVTX (R205). -/
def XTy.code : XTy → BitVec 2
  | .f16 => 0 | .bf16 => 1 | .e4m3 => 2 | .e5m2 => 3

/-- The type of a CVTX code (R205). -/
def XTy.ofCode (f : BitVec 2) : XTy :=
  match f with
  | 0 => .f16 | 1 => .bf16 | 2 => .e4m3 | _ => .e5m2

/-- The B field of CVTX: type [6:5], position [4:3], rounding [2:0]; a position of 2 or more with a 16-bit type is
illegal (R205). -/
def decCvtx (b : BitVec 7) (k : XTy → BitVec 2 → RndSel → Except Reject Instr) : Except Reject Instr :=
  if b.getLsbD 6 = false ∧ b.getLsbD 4 = true then .error .illegalField else
  decRnd (b.extractLsb' 0 3) fun r => k (XTy.ofCode (b.extractLsb' 5 2)) (b.extractLsb' 3 2) r

/-- Type codes of CVT (R203). -/
def NumTy.code : NumTy → BitVec 4
  | .f32 => 0 | .f16 => 1 | .bf16 => 2 | .e4m3 => 3 | .e5m2 => 4 | .i32 => 5 | .n32 => 6 | .f64 => 7
  | .i64 => 8 | .n64 => 9 | .i16 => 10 | .n16 => 11 | .i8 => 12 | .n8 => 13

/-- The type of a CVT code, 14 and 15 illegal (R203). -/
def decNum (f : BitVec 4) (k : NumTy → Except Reject Instr) : Except Reject Instr :=
  match f with
  | 0 => k .f32 | 1 => k .f16 | 2 => k .bf16 | 3 => k .e4m3 | 4 => k .e5m2 | 5 => k .i32 | 6 => k .n32 | 7 => k .f64
  | 8 => k .i64 | 9 => k .n64 | 10 => k .i16 | 11 => k .n16 | 12 => k .i8 | 13 => k .n8
  | _ => .error .illegalField

/-- CVT: function 0x20 + 16 x + dst, B = src << 3 | rm, and x = 1 only with an FP8 destination (R203). -/
def decCvt (fn : BitVec 6) (b : BitVec 7) (k : Bool → NumTy → NumTy → RndSel → Except Reject Instr) :
    Except Reject Instr :=
  decNum (fn.extractLsb' 0 4) fun t =>
  decNum (b.extractLsb' 3 4) fun u =>
  decRnd (b.extractLsb' 0 3) fun r =>
  if fn.getLsbD 4 = true ∧ t ≠ .e4m3 ∧ t ≠ .e5m2 then .error .illegalField else k (fn.getLsbD 4) t u r

/-- Class 0 (06 Table 6-11): the form of each assigned function code, its reserved fields checked. -/
def decodeClass0 (limm : Option (BitVec 21)) (fn : BitVec 6) (d a b : BitVec 7) : Except Reject Instr :=
  match fn with
  | 0x00 => rrr limm (need0 d (need0 a (need0 b (.ok (.nop)))))
  | 0x01 => rrr limm (.ok (.bra (join21 d a b)))
  | 0x02 => rrr limm (.ok (.call (join21 d a b)))
  | 0x03 => rrr limm (need0 b (.ok (.calli d a)))
  | 0x04 => rrr limm (need0 d (need0 b (.ok (.ret a))))
  | 0x05 => rrr limm (need0 d (need0 b (.ok (.jmpi a))))
  | 0x06 => rrr limm (need0 d (need0 a (need0 b (.ok (.exit)))))
  | 0x07 => rrr limm (need0 d (need0 a (need0 b (.ok (.yield)))))
  | 0x08 => decS14 limm (cat 14 a b) fun i => .ok (.bcmp .eq d i)
  | 0x09 => decS14 limm (cat 14 a b) fun i => .ok (.bcmp .ne d i)
  | 0x0A => decS14 limm (cat 14 a b) fun i => .ok (.bcmp .lt d i)
  | 0x0B => decS14 limm (cat 14 a b) fun i => .ok (.bcmp .ge d i)
  | 0x0C => decS14 limm (cat 14 a b) fun i => .ok (.bcmp .gt d i)
  | 0x0D => decS14 limm (cat 14 a b) fun i => .ok (.bcmp .le d i)
  | 0x10 => rrr limm (if a.extractLsb' 0 5 = (0 : BitVec 5) ∧ b = 0 then .ok (.rep (d.extractLsb' 1 6) (d.getLsbD 0) (a.getLsbD 6) (a.getLsbD 5)) else .error .reservedField)
  | 0x11 => rrr limm (need0 a (need0 b (.ok (.guard (d.extractLsb' 4 3) (d.getLsbD 3) (d.extractLsb' 0 3)))))
  | 0x12 => rrr limm (.ok .limm)
  | 0x13 => need0 d (decU14 limm (cat 14 a b) fun i => .ok (.wbase i))
  | 0x14 => need0 d (decS14 limm (cat 14 a b) fun i => .ok (.wbaseAdd i))
  | 0x15 => need0 d (decU14 limm (cat 14 a b) fun i => .ok (.trap i))
  | 0x16 => need0 d (decU14 limm (cat 14 a b) fun i => .ok (.sysc i))
  | 0x17 => rrr limm (need0 d (need0 a (need0 b (.ok (.fbar)))))
  | _ => .error .unassigned

/-- Class 1 (06 Table 6-12): the form of each assigned function code, its reserved fields checked. -/
def decodeClass1 (limm : Option (BitVec 21)) (fn : BitVec 6) (d a b : BitVec 7) : Except Reject Instr :=
  match fn with
  | 0x00 => rrr limm (.ok (.add false d a b))
  | 0x01 => rrr limm (.ok (.add true d a b))
  | 0x02 => rrr limm (.ok (.addc false d a b))
  | 0x03 => rrr limm (.ok (.addc true d a b))
  | 0x04 => rrr limm (.ok (.sub false d a b))
  | 0x05 => rrr limm (.ok (.sub true d a b))
  | 0x06 => rrr limm (.ok (.subb false d a b))
  | 0x07 => rrr limm (.ok (.subb true d a b))
  | 0x08 => rrr limm (.ok (.mul false d a b))
  | 0x09 => rrr limm (.ok (.mul true d a b))
  | 0x0A => rrr limm (.ok (.mulh .i32 d a b))
  | 0x0B => rrr limm (.ok (.mulh .n32 d a b))
  | 0x0C => rrr limm (.ok (.mad false d a b))
  | 0x0D => rrr limm (.ok (.mad true d a b))
  | 0x0E => rrr limm (.ok (.div .i32 d a b))
  | 0x0F => rrr limm (.ok (.div .n32 d a b))
  | 0x10 => rrr limm (.ok (.divTrap .i32 d a b))
  | 0x11 => rrr limm (.ok (.divTrap .n32 d a b))
  | 0x12 => rrr limm (.ok (.rem .i32 d a b))
  | 0x13 => rrr limm (.ok (.rem .n32 d a b))
  | 0x14 => rrr limm (.ok (.min .i32 d a b))
  | 0x15 => rrr limm (.ok (.min .n32 d a b))
  | 0x16 => rrr limm (.ok (.min .i64 d a b))
  | 0x17 => rrr limm (.ok (.min .n64 d a b))
  | 0x18 => rrr limm (.ok (.max .i32 d a b))
  | 0x19 => rrr limm (.ok (.max .n32 d a b))
  | 0x1A => rrr limm (.ok (.max .i64 d a b))
  | 0x1B => rrr limm (.ok (.max .n64 d a b))
  | 0x1C => rrr limm (need0 b (.ok (.abs d a)))
  | 0x1D => rrr limm (need0 b (.ok (.neg d a)))
  | 0x1E => rrr limm (.ok (.and d a b))
  | 0x1F => rrr limm (.ok (.or d a b))
  | 0x20 => rrr limm (.ok (.xor d a b))
  | 0x21 => rrr limm (need0 b (.ok (.not d a)))
  | 0x22 => rrr limm (.ok (.andn d a b))
  | 0x23 => rrr limm (.ok (.shl d a b))
  | 0x24 => rrr limm (.ok (.shl64 d a b))
  | 0x25 => rrr limm (.ok (.shr d a b))
  | 0x26 => rrr limm (.ok (.shr64 d a b))
  | 0x27 => rrr limm (.ok (.shra d a b))
  | 0x28 => rrr limm (.ok (.shra64 d a b))
  | 0x29 => rrr limm (.ok (.rot d a b))
  | 0x2A => rrr limm (.ok (.sel d a b))
  | 0x2B => rrr limm (.ok (.lea d a b))
  | _ => .error .unassigned

/-- Class 2 (06 Table 6-13): the form of each assigned function code, its reserved fields checked. -/
def decodeClass2 (limm : Option (BitVec 21)) (fn : BitVec 6) (d a b : BitVec 7) : Except Reject Instr :=
  match fn with
  | 0x00 => .ok (.addI false d a (decS7 limm b))
  | 0x01 => .ok (.addI true d a (decS7 limm b))
  | 0x02 => .ok (.mulI d a (decS7 limm b))
  | 0x03 => .ok (.andI d a (decS7 limm b))
  | 0x04 => .ok (.orI d a (decS7 limm b))
  | 0x05 => .ok (.xorI d a (decS7 limm b))
  | 0x06 => .ok (.shlI false d a (decU7 limm b))
  | 0x07 => .ok (.shlI true d a (decU7 limm b))
  | 0x08 => .ok (.shrI false d a (decU7 limm b))
  | 0x09 => .ok (.shrI true d a (decU7 limm b))
  | 0x0A => .ok (.shraI false d a (decU7 limm b))
  | 0x0B => .ok (.shraI true d a (decU7 limm b))
  | 0x0C => .ok (.rotI d a (decU7 limm b))
  | 0x0D => .ok (.minIS d a (decS7 limm b))
  | 0x0E => .ok (.minIU d a (decS7 limm b))
  | 0x0F => .ok (.maxIS d a (decS7 limm b))
  | 0x10 => .ok (.maxIU d a (decS7 limm b))
  | 0x11 => .ok (.leaI d a (decU7 limm b))
  | 0x12 => decS14 limm (cat 14 a b) fun i => .ok (.movi d i)
  | 0x13 => decU14 limm (cat 14 a b) fun i => .ok (.movi64 d i)
  | _ => .error .unassigned

/-- Class 3 (06 Table 6-14): the form of each assigned function code, its reserved fields checked. -/
def decodeClass3 (limm : Option (BitVec 21)) (fn : BitVec 6) (d a b : BitVec 7) : Except Reject Instr :=
  match fn with
  | 0x00 => rrr limm (.ok (.pset .eq .i32 d a b))
  | 0x01 => rrr limm (.ok (.pset .eq .n32 d a b))
  | 0x02 => rrr limm (.ok (.pset .eq .i64 d a b))
  | 0x03 => rrr limm (.ok (.pset .eq .n64 d a b))
  | 0x04 => rrr limm (.ok (.pset .ne .i32 d a b))
  | 0x05 => rrr limm (.ok (.pset .ne .n32 d a b))
  | 0x06 => rrr limm (.ok (.pset .ne .i64 d a b))
  | 0x07 => rrr limm (.ok (.pset .ne .n64 d a b))
  | 0x08 => rrr limm (.ok (.pset .lt .i32 d a b))
  | 0x09 => rrr limm (.ok (.pset .lt .n32 d a b))
  | 0x0A => rrr limm (.ok (.pset .lt .i64 d a b))
  | 0x0B => rrr limm (.ok (.pset .lt .n64 d a b))
  | 0x0C => rrr limm (.ok (.pset .le .i32 d a b))
  | 0x0D => rrr limm (.ok (.pset .le .n32 d a b))
  | 0x0E => rrr limm (.ok (.pset .le .i64 d a b))
  | 0x0F => rrr limm (.ok (.pset .le .n64 d a b))
  | 0x10 => rrr limm (.ok (.pset .gt .i32 d a b))
  | 0x11 => rrr limm (.ok (.pset .gt .n32 d a b))
  | 0x12 => rrr limm (.ok (.pset .gt .i64 d a b))
  | 0x13 => rrr limm (.ok (.pset .gt .n64 d a b))
  | 0x14 => rrr limm (.ok (.pset .ge .i32 d a b))
  | 0x15 => rrr limm (.ok (.pset .ge .n32 d a b))
  | 0x16 => rrr limm (.ok (.pset .ge .i64 d a b))
  | 0x17 => rrr limm (.ok (.pset .ge .n64 d a b))
  | 0x20 => rrr limm (.ok (.pand d a b))
  | 0x21 => rrr limm (.ok (.por d a b))
  | 0x22 => rrr limm (.ok (.pxor d a b))
  | 0x23 => rrr limm (need0 b (.ok (.pnot d a)))
  | 0x24 => rrr limm (need0 b (.ok (.pmovReg d a)))
  | 0x25 => rrr limm (need0 b (.ok (.pmovPred d a)))
  | 0x26 => rrr limm (.ok (.bfx false d a b))
  | 0x27 => rrr limm (.ok (.bfx true d a b))
  | 0x28 => rrr limm (.ok (.bfi d a b))
  | 0x29 => rrr limm (need0 b (.ok (.popc d a)))
  | 0x2A => rrr limm (need0 b (.ok (.clz d a)))
  | 0x2B => rrr limm (need0 b (.ok (.ctz d a)))
  | 0x2C => rrr limm (need0 b (.ok (.brev d a)))
  | _ => .error .unassigned

/-- Class 4 (06 Table 6-15): the form of each assigned function code, its reserved fields checked. -/
def decodeClass4 (limm : Option (BitVec 21)) (fn : BitVec 6) (d a b : BitVec 7) : Except Reject Instr :=
  match fn with
  | 0x00 => rrr limm (need0 b (.ok (.smov d a)))
  | 0x01 => rrr limm (need0 b (.ok (.swr d a)))
  | 0x02 => rrr limm (need0 b (.ok (.tjoin d a)))
  | 0x03 => rrr limm (need0 b (.ok (.tleave d a)))
  | 0x04 => rrr limm (need0 a (need0 b (.ok (.mjoin d))))
  | 0x05 => rrr limm (need0 a (need0 b (.ok (.mleave d))))
  | 0x06 => rrr limm (need0 a (need0 b (.ok (.mwait d))))
  | 0x07 => rrr limm (need0 b (.ok (.mset d a)))
  | 0x08 => rrr limm (need0 b (.ok (.mread d a)))
  | 0x09 => rrr limm (need0 b (.ok (.wregrp d a)))
  | 0x0A => need0 d (decU14 limm (cat 14 a b) fun i => .ok (.wpart i))
  | 0x0B => rrr limm (need0 b (.ok (.groute d a)))
  | 0x0C => rrr limm (need0 b (.ok (.wsort d a)))
  | 0x0D => rrr limm (need0 b (.ok (.lcomp d a)))
  | 0x0E => rrr limm (need0 b (.ok (.match false d a)))
  | 0x0F => rrr limm (need0 b (.ok (.match true d a)))
  | 0x10 => rrr limm (need0 b (.ok (.vote .ballot d a)))
  | 0x11 => rrr limm (need0 b (.ok (.vote .any d a)))
  | 0x12 => rrr limm (need0 b (.ok (.vote .all d a)))
  | 0x13 => rrr limm (need0 b (.ok (.vote .uni d a)))
  | 0x14 => rrr limm (.ok (.shfl .idx d a b))
  | 0x15 => rrr limm (.ok (.shfl .up d a b))
  | 0x16 => rrr limm (.ok (.shfl .down d a b))
  | 0x17 => rrr limm (.ok (.shfl .xor d a b))
  | 0x18 => rrr limm (need0 b (.ok (.redw .addI32 d a)))
  | 0x19 => rrr limm (need0 b (.ok (.redw .addF32 d a)))
  | 0x1A => rrr limm (need0 b (.ok (.redw .minI32 d a)))
  | 0x1B => rrr limm (need0 b (.ok (.redw .maxI32 d a)))
  | 0x1C => rrr limm (need0 b (.ok (.redw .minF32 d a)))
  | 0x1D => rrr limm (need0 b (.ok (.redw .maxF32 d a)))
  | 0x1E => rrr limm (need0 b (.ok (.redw .and d a)))
  | 0x1F => rrr limm (need0 b (.ok (.redw .or d a)))
  | 0x20 => rrr limm (need0 b (.ok (.scanw .addI32 d a)))
  | 0x21 => rrr limm (need0 b (.ok (.scanw .addF32 d a)))
  | 0x22 => rrr limm (need0 b (.ok (.scanw .minI32 d a)))
  | 0x23 => rrr limm (need0 b (.ok (.scanw .maxI32 d a)))
  | 0x24 => rrr limm (need0 b (.ok (.scanw .minF32 d a)))
  | 0x25 => rrr limm (need0 b (.ok (.scanw .maxF32 d a)))
  | 0x26 => rrr limm (need0 b (.ok (.scanw .and d a)))
  | 0x27 => rrr limm (need0 b (.ok (.scanw .or d a)))
  | _ => .error .unassigned

/-- Class 5 (06 Table 6-16): the form of each assigned function code, its reserved fields checked. -/
def decodeClass5 (limm : Option (BitVec 21)) (fn : BitVec 6) (d a b : BitVec 7) : Except Reject Instr :=
  match fn with
  | 0x00 => rrr limm (.ok (.faddF32 d a b))
  | 0x01 => rrr limm (.ok (.faddF16 d a b))
  | 0x02 => rrr limm (.ok (.faddBf16 d a b))
  | 0x03 => rrr limm (.ok (.fsubF32 d a b))
  | 0x04 => rrr limm (.ok (.fsubF16 d a b))
  | 0x05 => rrr limm (.ok (.fsubBf16 d a b))
  | 0x06 => rrr limm (.ok (.fmulF32 d a b))
  | 0x07 => rrr limm (.ok (.fmulF16 d a b))
  | 0x08 => rrr limm (.ok (.fmulBf16 d a b))
  | 0x09 => rrr limm (.ok (.ffmaF32 d a b))
  | 0x0A => rrr limm (.ok (.ffmaF16 d a b))
  | 0x0B => rrr limm (.ok (.ffmaBf16 d a b))
  | 0x0C => rrr limm (.ok (.fminF32 d a b))
  | 0x0D => rrr limm (.ok (.fminF16 d a b))
  | 0x0E => rrr limm (.ok (.fminBf16 d a b))
  | 0x0F => rrr limm (.ok (.fmaxF32 d a b))
  | 0x10 => rrr limm (.ok (.fmaxF16 d a b))
  | 0x11 => rrr limm (.ok (.fmaxBf16 d a b))
  | 0x12 => rrr limm (need0 b (.ok (.fnegF32 d a)))
  | 0x13 => rrr limm (need0 b (.ok (.fnegF16 d a)))
  | 0x14 => rrr limm (need0 b (.ok (.fnegBf16 d a)))
  | 0x15 => rrr limm (need0 b (.ok (.fabsF32 d a)))
  | 0x16 => rrr limm (need0 b (.ok (.fabsF16 d a)))
  | 0x17 => rrr limm (need0 b (.ok (.fabsBf16 d a)))
  | 0x18 => rrr limm (.ok (.fcmp .eq d a b))
  | 0x19 => rrr limm (.ok (.fcmp .ne d a b))
  | 0x1A => rrr limm (.ok (.fcmp .lt d a b))
  | 0x1B => rrr limm (.ok (.fcmp .le d a b))
  | 0x1C => rrr limm (.ok (.fcmp .gt d a b))
  | 0x1D => rrr limm (.ok (.fcmp .ge d a b))
  | 0x1E => rrr limm (.ok (.fcmp .un d a b))
  | 0x1F => rrr limm (.ok (.fcmp .ord d a b))
  | 0x20 => rrr limm (.ok (.fsel d a b))
  | 0x21 => rrr limm (.ok (.fdiv d a b))
  | 0x22 => rrr limm (need0 b (.ok (.fsqrt d a)))
  | 0x23 => rrr limm (need0 b (.ok (.frcp d a)))
  | 0x24 => rrr limm (need0 b (.ok (.frsq d a)))
  | 0x25 => rrr limm (need0 b (.ok (.fexp2 d a)))
  | 0x26 => rrr limm (need0 b (.ok (.flog2 d a)))
  | 0x27 => rrr limm (need0 b (.ok (.fsin d a)))
  | 0x28 => rrr limm (need0 b (.ok (.fcos d a)))
  | 0x29 => rrr limm (need0 b (.ok (.ftanh d a)))
  | 0x2A => rrr limm (need0 b (.ok (.fclass d a)))
  | 0x2B => rrr limm (need0 b (.ok (.frndRne d a)))
  | 0x2C => rrr limm (need0 b (.ok (.frndRz d a)))
  | 0x2D => rrr limm (need0 b (.ok (.frndRd d a)))
  | 0x2E => rrr limm (need0 b (.ok (.frndRu d a)))
  | 0x2F => rrr limm (.ok (.fscale d a b))
  | 0x30 => rrr limm (.ok (.hfma2 .f16 d a b))
  | 0x31 => rrr limm (.ok (.hfma2 .bf16 d a b))
  | 0x32 => rrr limm (.ok (.dot4E4m3 d a b))
  | 0x33 => rrr limm (.ok (.dot4E5m2 d a b))
  | 0x34 => rrr limm (.ok (.dot4I8 d a b))
  | _ => .error .unassigned

/-- Class 6 (06 Table 6-17): the form of each assigned function code, its reserved fields checked. -/
def decodeClass6 (limm : Option (BitVec 21)) (fn : BitVec 6) (d a b : BitVec 7) : Except Reject Instr :=
  if fn.getLsbD 5 then rrr limm (decCvt fn b fun x t u r => .ok (.cvt x t u r d a)) else
  match fn with
  | 0x00 => rrr limm (.ok (.faddF64 d a b))
  | 0x01 => rrr limm (.ok (.fsubF64 d a b))
  | 0x02 => rrr limm (.ok (.fmulF64 d a b))
  | 0x03 => rrr limm (.ok (.ffmaF64 d a b))
  | 0x04 => rrr limm (.ok (.fminF64 d a b))
  | 0x05 => rrr limm (.ok (.fmaxF64 d a b))
  | 0x06 => rrr limm (.ok (.fdivF64 d a b))
  | 0x07 => rrr limm (need0 b (.ok (.fsqrtF64 d a)))
  | 0x08 => rrr limm (.ok (.fcmpF64 .eq d a b))
  | 0x09 => rrr limm (.ok (.fcmpF64 .ne d a b))
  | 0x0A => rrr limm (.ok (.fcmpF64 .lt d a b))
  | 0x0B => rrr limm (.ok (.fcmpF64 .le d a b))
  | 0x0C => rrr limm (.ok (.fcmpF64 .gt d a b))
  | 0x0D => rrr limm (.ok (.fcmpF64 .ge d a b))
  | 0x0E => rrr limm (.ok (.fcmpF64 .un d a b))
  | 0x0F => rrr limm (.ok (.fcmpF64 .ord d a b))
  | 0x10 => rrr limm (need0 b (.ok (.frndF64 .rne d a)))
  | 0x11 => rrr limm (need0 b (.ok (.frndF64 .rz d a)))
  | 0x12 => rrr limm (need0 b (.ok (.frndF64 .rd d a)))
  | 0x13 => rrr limm (need0 b (.ok (.frndF64 .ru d a)))
  | 0x14 => rrr limm (need0 b (.ok (.fnegF64 d a)))
  | 0x15 => rrr limm (need0 b (.ok (.fabsF64 d a)))
  | 0x16 => rrr limm (need0 b (.ok (.fclassF64 d a)))
  | 0x17 => rrr limm (.ok (.fscaleF64 d a b))
  | 0x18 => rrr limm (.ok (.cvtqDec d a b))
  | 0x19 => rrr limm (.ok (.cvtqEnc d a b))
  | 0x1A => rrr limm (decCvtx b fun y n r => .ok (.cvtxIns y n r d a))
  | 0x1B => rrr limm (if b.extractLsb' 0 3 = (0 : BitVec 3) then decCvtx b fun y n _ => .ok (.cvtxExt y n d a) else .error .illegalField)
  | 0x1C => rrr limm (need0 a (need0 b (.ok (.flagr d))))
  | 0x1D => rrr limm (need0 d (need0 b (.ok (.flagc a))))
  | 0x1E => rrr limm (need0 a (need0 b (.ok (.rng d))))
  | 0x1F => rrr limm (need0 d (.ok (.rngseed a b)))
  | _ => .error .unassigned

/-- Class 7 (06 Table 6-18): the form of each assigned function code, its reserved fields checked. -/
def decodeClass7 (limm : Option (BitVec 21)) (fn : BitVec 6) (d a b : BitVec 7) : Except Reject Instr :=
  match fn with
  | 0x00 => .ok (.ld .dflt .b8 d a (decS7 limm b))
  | 0x01 => .ok (.ld .dflt .b16 d a (decS7 limm b))
  | 0x02 => .ok (.ld .dflt .b32 d a (decS7 limm b))
  | 0x03 => .ok (.ld .dflt .b64 d a (decS7 limm b))
  | 0x04 => .ok (.ld .dflt .b128 d a (decS7 limm b))
  | 0x05 => .ok (.ld .own .b8 d a (decS7 limm b))
  | 0x06 => .ok (.ld .own .b16 d a (decS7 limm b))
  | 0x07 => .ok (.ld .own .b32 d a (decS7 limm b))
  | 0x08 => .ok (.ld .own .b64 d a (decS7 limm b))
  | 0x09 => .ok (.ld .own .b128 d a (decS7 limm b))
  | 0x0A => .ok (.ld .si .b8 d a (decS7 limm b))
  | 0x0B => .ok (.ld .si .b16 d a (decS7 limm b))
  | 0x0C => .ok (.ld .si .b32 d a (decS7 limm b))
  | 0x0D => .ok (.ld .si .b64 d a (decS7 limm b))
  | 0x0E => .ok (.ld .si .b128 d a (decS7 limm b))
  | 0x0F => .ok (.ld .nc .b8 d a (decS7 limm b))
  | 0x10 => .ok (.ld .nc .b16 d a (decS7 limm b))
  | 0x11 => .ok (.ld .nc .b32 d a (decS7 limm b))
  | 0x12 => .ok (.ld .nc .b64 d a (decS7 limm b))
  | 0x13 => .ok (.ld .nc .b128 d a (decS7 limm b))
  | 0x14 => .ok (.st .dflt .b8 d a (decS7 limm b))
  | 0x15 => .ok (.st .dflt .b16 d a (decS7 limm b))
  | 0x16 => .ok (.st .dflt .b32 d a (decS7 limm b))
  | 0x17 => .ok (.st .dflt .b64 d a (decS7 limm b))
  | 0x18 => .ok (.st .dflt .b128 d a (decS7 limm b))
  | 0x19 => .ok (.st .own .b8 d a (decS7 limm b))
  | 0x1A => .ok (.st .own .b16 d a (decS7 limm b))
  | 0x1B => .ok (.st .own .b32 d a (decS7 limm b))
  | 0x1C => .ok (.st .own .b64 d a (decS7 limm b))
  | 0x1D => .ok (.st .own .b128 d a (decS7 limm b))
  | 0x1E => .ok (.st .wt .b8 d a (decS7 limm b))
  | 0x1F => .ok (.st .wt .b16 d a (decS7 limm b))
  | 0x20 => .ok (.st .wt .b32 d a (decS7 limm b))
  | 0x21 => .ok (.st .wt .b64 d a (decS7 limm b))
  | 0x22 => .ok (.st .wt .b128 d a (decS7 limm b))
  | 0x23 => .ok (.st .nc .b8 d a (decS7 limm b))
  | 0x24 => .ok (.st .nc .b16 d a (decS7 limm b))
  | 0x25 => .ok (.st .nc .b32 d a (decS7 limm b))
  | 0x26 => .ok (.st .nc .b64 d a (decS7 limm b))
  | 0x27 => .ok (.st .nc .b128 d a (decS7 limm b))
  | 0x28 => .ok (.lds .b8 d a (decS7 limm b))
  | 0x29 => .ok (.lds .b16 d a (decS7 limm b))
  | 0x2A => .ok (.lds .b32 d a (decS7 limm b))
  | 0x2B => .ok (.lds .b64 d a (decS7 limm b))
  | 0x2C => .ok (.lds .b128 d a (decS7 limm b))
  | 0x2D => .ok (.sts .b8 d a (decS7 limm b))
  | 0x2E => .ok (.sts .b16 d a (decS7 limm b))
  | 0x2F => .ok (.sts .b32 d a (decS7 limm b))
  | 0x30 => .ok (.sts .b64 d a (decS7 limm b))
  | 0x31 => .ok (.sts .b128 d a (decS7 limm b))
  | 0x32 => .ok (.ldx false d a (decU7 limm b))
  | 0x33 => .ok (.ldx true d a (decU7 limm b))
  | 0x34 => .ok (.stx false d a (decU7 limm b))
  | 0x35 => .ok (.stx true d a (decU7 limm b))
  | _ => .error .unassigned

/-- Class 8 (06 Table 6-19): the form of each assigned function code, its reserved fields checked. -/
def decodeClass8 (limm : Option (BitVec 21)) (fn : BitVec 6) (d a b : BitVec 7) : Except Reject Instr :=
  match fn with
  | 0x00 => .ok (.pref d a (decS7 limm b))
  | 0x01 => rrr limm (decScope d fun sc => .ok (.cwb sc a b))
  | 0x02 => rrr limm (decScope d fun sc => .ok (.cinv sc a b))
  | 0x03 => rrr limm (decScope d fun sc => .ok (.cwbinv sc a b))
  | 0x04 => rrr limm (decScope d fun sc => .ok (.icinv sc a b))
  | 0x05 => need0 d (.ok (.lensld a (decU7 limm b)))
  | 0x06 => need0 d (need0 a (.ok (.lensinv (decU7 limm b))))
  | 0x07 => .ok (.lensq d a (decU7 limm b))
  | 0x08 => .ok (.copy 0 d a (decU7 limm b))
  | 0x09 => .ok (.copy 1 d a (decU7 limm b))
  | 0x0A => .ok (.copy 2 d a (decU7 limm b))
  | 0x0B => .ok (.copy 3 d a (decU7 limm b))
  | 0x0C => .ok (.copys 0 d a (decU7 limm b))
  | 0x0D => .ok (.copys 1 d a (decU7 limm b))
  | 0x0E => .ok (.copys 2 d a (decU7 limm b))
  | 0x0F => .ok (.copys 3 d a (decU7 limm b))
  | 0x10 => .ok (.copym 0 d a (decU7 limm b))
  | 0x11 => .ok (.copym 1 d a (decU7 limm b))
  | 0x12 => .ok (.copym 2 d a (decU7 limm b))
  | 0x13 => .ok (.copym 3 d a (decU7 limm b))
  | 0x14 => need0 d (ctl limm (if a.extractLsb' 4 3 = (0 : BitVec 3) then decScope ((a.extractLsb' 1 3).setWidth 7) fun sc => .ok (.qfence sc (a.getLsbD 0) b) else .error .reservedField))
  | 0x15 => need0 d (ctl limm (need0 a (.ok (.cwait b))))
  | 0x16 => need0 d (.ok (.feset a (decS7 limm b)))
  | 0x17 => need0 d (.ok (.feclr a (decS7 limm b)))
  | 0x18 => rrr limm (.ok (.cstore false d a b))
  | 0x19 => rrr limm (.ok (.cstore true d a b))
  | 0x1A => rrr limm (.ok (.xpand false d a b))
  | 0x1B => rrr limm (.ok (.xpand true d a b))
  | 0x20 => .ok (.gath false .f32 d a (decU7 limm b))
  | 0x21 => .ok (.gath false .f16 d a (decU7 limm b))
  | 0x22 => .ok (.gath false .bf16 d a (decU7 limm b))
  | 0x23 => .ok (.gath false .e4m3 d a (decU7 limm b))
  | 0x24 => .ok (.gath false .e5m2 d a (decU7 limm b))
  | 0x25 => .ok (.gath false .i32 d a (decU7 limm b))
  | 0x26 => .ok (.gath false .n32 d a (decU7 limm b))
  | 0x27 => .ok (.gath false .f64 d a (decU7 limm b))
  | 0x28 => .ok (.gath true .f32 d a (decU7 limm b))
  | 0x29 => .ok (.gath true .f16 d a (decU7 limm b))
  | 0x2A => .ok (.gath true .bf16 d a (decU7 limm b))
  | 0x2B => .ok (.gath true .e4m3 d a (decU7 limm b))
  | 0x2C => .ok (.gath true .e5m2 d a (decU7 limm b))
  | 0x2D => .ok (.gath true .i32 d a (decU7 limm b))
  | 0x2E => .ok (.gath true .n32 d a (decU7 limm b))
  | 0x2F => .ok (.gath true .f64 d a (decU7 limm b))
  | 0x30 => .ok (.scat .f32 d a (decU7 limm b))
  | 0x31 => .ok (.scat .f16 d a (decU7 limm b))
  | 0x32 => .ok (.scat .bf16 d a (decU7 limm b))
  | 0x33 => .ok (.scat .e4m3 d a (decU7 limm b))
  | 0x34 => .ok (.scat .e5m2 d a (decU7 limm b))
  | 0x35 => .ok (.scat .i32 d a (decU7 limm b))
  | 0x36 => .ok (.scat .n32 d a (decU7 limm b))
  | 0x37 => .ok (.scat .f64 d a (decU7 limm b))
  | _ => .error .unassigned

/-- Class 9 (06 Table 6-20): the form of each assigned function code, its reserved fields checked. -/
def decodeClass9 (limm : Option (BitVec 21)) (fn : BitVec 6) (d a b : BitVec 7) : Except Reject Instr :=
  match fn with
  | 0x00 => rrr limm (decScope b fun sc => .ok (.ldAcq .b8 sc d a))
  | 0x01 => rrr limm (decScope b fun sc => .ok (.ldAcq .b16 sc d a))
  | 0x02 => rrr limm (decScope b fun sc => .ok (.ldAcq .b32 sc d a))
  | 0x03 => rrr limm (decScope b fun sc => .ok (.ldAcq .b64 sc d a))
  | 0x04 => rrr limm (decScope b fun sc => .ok (.ldAcq .b128 sc d a))
  | 0x05 => rrr limm (decScope b fun sc => .ok (.stRel .b8 sc d a))
  | 0x06 => rrr limm (decScope b fun sc => .ok (.stRel .b16 sc d a))
  | 0x07 => rrr limm (decScope b fun sc => .ok (.stRel .b32 sc d a))
  | 0x08 => rrr limm (decScope b fun sc => .ok (.stRel .b64 sc d a))
  | 0x09 => rrr limm (decScope b fun sc => .ok (.stRel .b128 sc d a))
  | 0x0A => rrr limm (.ok (.atom .add false d a b))
  | 0x0B => rrr limm (.ok (.atom .add true d a b))
  | 0x0C => rrr limm (.ok (.atom .and false d a b))
  | 0x0D => rrr limm (.ok (.atom .and true d a b))
  | 0x0E => rrr limm (.ok (.atom .or false d a b))
  | 0x0F => rrr limm (.ok (.atom .or true d a b))
  | 0x10 => rrr limm (.ok (.atom .xor false d a b))
  | 0x11 => rrr limm (.ok (.atom .xor true d a b))
  | 0x12 => rrr limm (.ok (.atom .exch false d a b))
  | 0x13 => rrr limm (.ok (.atom .exch true d a b))
  | 0x14 => rrr limm (.ok (.atom .min false d a b))
  | 0x15 => rrr limm (.ok (.atom .min true d a b))
  | 0x16 => rrr limm (.ok (.atom .max false d a b))
  | 0x17 => rrr limm (.ok (.atom .max true d a b))
  | 0x18 => rrr limm (.ok (.atom .fadd false d a b))
  | 0x19 => rrr limm (.ok (.atom .fadd true d a b))
  | 0x1A => rrr limm (.ok (.acas false d a b))
  | 0x1B => rrr limm (.ok (.acas true d a b))
  | 0x1C => rrr limm (need0 d (.ok (.red .add false a b)))
  | 0x1D => rrr limm (need0 d (.ok (.red .add true a b)))
  | 0x1E => rrr limm (need0 d (.ok (.red .and false a b)))
  | 0x1F => rrr limm (need0 d (.ok (.red .and true a b)))
  | 0x20 => rrr limm (need0 d (.ok (.red .or false a b)))
  | 0x21 => rrr limm (need0 d (.ok (.red .or true a b)))
  | 0x22 => rrr limm (need0 d (.ok (.red .xor false a b)))
  | 0x23 => rrr limm (need0 d (.ok (.red .xor true a b)))
  | 0x24 => rrr limm (need0 d (.ok (.red .exch false a b)))
  | 0x25 => rrr limm (need0 d (.ok (.red .exch true a b)))
  | 0x26 => rrr limm (need0 d (.ok (.red .min false a b)))
  | 0x27 => rrr limm (need0 d (.ok (.red .min true a b)))
  | 0x28 => rrr limm (need0 d (.ok (.red .max false a b)))
  | 0x29 => rrr limm (need0 d (.ok (.red .max true a b)))
  | 0x2A => rrr limm (need0 d (.ok (.red .fadd false a b)))
  | 0x2B => rrr limm (need0 d (.ok (.red .fadd true a b)))
  | 0x2C => rrr limm (decScope d fun sc => need0 a (need0 b (.ok (.fenceAcq sc))))
  | 0x2D => rrr limm (decScope d fun sc => need0 a (need0 b (.ok (.fenceRel sc))))
  | 0x2E => rrr limm (decScope d fun sc => need0 a (need0 b (.ok (.fenceAcqrel sc))))
  | 0x2F => rrr limm (.ok (.waitvB32 d a b))
  | 0x30 => rrr limm (.ok (.waitvB64 d a b))
  | 0x31 => rrr limm (decSlot b fun l => .ok (.binit d a l))
  | 0x32 => rrr limm (decSlot b fun l => .ok (.barv d a l))
  | 0x33 => rrr limm (.ok (.barvr d a b))
  | 0x34 => rrr limm (need0 a (decSlot b fun l => .ok (.bwait d l)))
  | 0x35 => rrr limm (decSlot b fun l => .ok (.btest d a l))
  | _ => .error .unassigned

/-- Class 10 (06 Table 6-21): the form of each assigned function code, its reserved fields checked. -/
def decodeClass10 (limm : Option (BitVec 21)) (fn : BitVec 6) (d a b : BitVec 7) : Except Reject Instr :=
  match fn with
  | 0x00 => rrr limm (need0 b (.ok (.mma .e4m3e4m3 (d.getLsbD 6) (d.extractLsb' 3 3) (d.extractLsb' 0 3) a)))
  | 0x01 => rrr limm (need0 b (.ok (.mma .e4m3e5m2 (d.getLsbD 6) (d.extractLsb' 3 3) (d.extractLsb' 0 3) a)))
  | 0x02 => rrr limm (need0 b (.ok (.mma .e5m2e4m3 (d.getLsbD 6) (d.extractLsb' 3 3) (d.extractLsb' 0 3) a)))
  | 0x03 => rrr limm (need0 b (.ok (.mma .e5m2e5m2 (d.getLsbD 6) (d.extractLsb' 3 3) (d.extractLsb' 0 3) a)))
  | 0x04 => rrr limm (need0 b (.ok (.mma .i8i8 (d.getLsbD 6) (d.extractLsb' 3 3) (d.extractLsb' 0 3) a)))
  | 0x05 => rrr limm (need0 b (.ok (.mma .bf16bf16 (d.getLsbD 6) (d.extractLsb' 3 3) (d.extractLsb' 0 3) a)))
  | 0x06 => rrr limm (need0 b (.ok (.mma .f16f16 (d.getLsbD 6) (d.extractLsb' 3 3) (d.extractLsb' 0 3) a)))
  | 0x07 => rrr limm (need0 b (.ok (.mma .f64f64 (d.getLsbD 6) (d.extractLsb' 3 3) (d.extractLsb' 0 3) a)))
  | 0x10 => rrr limm (need0 b (.ok (.mmas false (d.getLsbD 6) (d.extractLsb' 3 3) (d.extractLsb' 0 3) a)))
  | 0x11 => rrr limm (need0 b (.ok (.mmas true (d.getLsbD 6) (d.extractLsb' 3 3) (d.extractLsb' 0 3) a)))
  | 0x14 => rrr limm (need0 b (.ok (.mmaq .e4m3 (d.getLsbD 6) (d.extractLsb' 3 3) (d.extractLsb' 0 3) a)))
  | 0x15 => rrr limm (need0 b (.ok (.mmaq .e5m2 (d.getLsbD 6) (d.extractLsb' 3 3) (d.extractLsb' 0 3) a)))
  | 0x16 => rrr limm (need0 b (.ok (.mmaq .bf16 (d.getLsbD 6) (d.extractLsb' 3 3) (d.extractLsb' 0 3) a)))
  | 0x18 => rrr limm (.ok (.mmal .e4m3 (d.getLsbD 6) (d.extractLsb' 3 3) (d.extractLsb' 0 3) a b))
  | 0x19 => rrr limm (.ok (.mmal .e5m2 (d.getLsbD 6) (d.extractLsb' 3 3) (d.extractLsb' 0 3) a b))
  | 0x1A => rrr limm (.ok (.mmal .bf16 (d.getLsbD 6) (d.extractLsb' 3 3) (d.extractLsb' 0 3) a b))
  | 0x1C => rrr limm (decKind d fun k z => need0 a (need0 b (.ok (.zclr k z))))
  | 0x1D => decKind d fun k z => .ok (.zld k z a (decS7 limm b))
  | 0x1E => .ok (.zmov d a (decU7 limm b))
  | 0x1F => rrr limm (.ok (.zscale d a b))
  | 0x20 => .ok (.zsto false d a (decS7 limm b))
  | 0x21 => .ok (.zsto true d a (decS7 limm b))
  | 0x22 => rrr limm (need0 a (need0 b (.ok (.zrel d))))
  | 0x23 => rrr limm (need0 a (need0 b (.ok (.zwait d))))
  | 0x24 => rrr limm (need0 b (.ok (.spack d a)))
  | 0x25 => rrr limm (decSFmt (d.extractLsb' 3 4) fun f => .ok (.strpub f (d.extractLsb' 0 3) a b))
  | 0x26 => decU14 limm (cat 14 a b) fun i => .ok (.strsub d i)
  | 0x27 => rrr limm (need0 a (need0 b (.ok (.strend d))))
  | 0x28 => .ok (.mstat d a (decU7 limm b))
  | _ => .error .unassigned

/-- Class 11 (06 Table 6-22): the form of each assigned function code, its reserved fields checked. -/
def decodeClass11 (limm : Option (BitVec 21)) (fn : BitVec 6) (d a b : BitVec 7) : Except Reject Instr :=
  match fn with
  | 0x00 => ctl limm (if b.extractLsb' 4 3 = (0 : BitVec 3) then .ok (.kenc (b.extractLsb' 0 4) d a) else .error .reservedField)
  | 0x01 => ctl limm (if b.extractLsb' 4 3 = (0 : BitVec 3) then .ok (.kdec (b.extractLsb' 0 4) d a) else .error .reservedField)
  | 0x02 => ctl limm (if b.extractLsb' 4 3 = (0 : BitVec 3) then .ok (.kpar (b.extractLsb' 0 4) d a) else .error .reservedField)
  | 0x03 => ctl limm (.ok (.kchld (b.extractLsb' 0 4) (b.extractLsb' 4 3) d a))
  | 0x04 => ctl limm (if b.extractLsb' 3 4 = (0 : BitVec 4) then .ok (.kref (b.extractLsb' 0 3) d a) else .error .reservedField)
  | 0x05 => ctl limm (if b.extractLsb' 3 4 = (0 : BitVec 4) then .ok (.kcoars (b.extractLsb' 0 3) d a) else .error .reservedField)
  | 0x06 => ctl limm (decFace b fun f m => .ok (.knbr f m d a))
  | 0x07 => ctl limm (decFace b fun f m => .ok (.knext f m d a))
  | 0x08 => ctl limm (if b.extractLsb' 3 4 = (0 : BitVec 4) then .ok (.kown (b.extractLsb' 0 3) d a) else .error .reservedField)
  | 0x09 => ctl limm (if b.extractLsb' 3 4 = (0 : BitVec 4) then .ok (.kcost (b.extractLsb' 0 3) d a) else .error .reservedField)
  | 0x0A => ctl limm (if b.extractLsb' 4 3 = (0 : BitVec 3) then .ok (.krebal (b.getLsbD 3) (b.extractLsb' 0 3) d a) else .error .reservedField)
  | 0x0B => ctl limm (if b.extractLsb' 3 4 = (0 : BitVec 4) then .ok (.kcutq (b.extractLsb' 0 3) d a) else .error .reservedField)
  | 0x0C => ctl limm (if b.extractLsb' 4 3 = (0 : BitVec 3) then .ok (.kmeshCurve (b.extractLsb' 0 4) d a) else .error .reservedField)
  | 0x0D => ctl limm (if b.extractLsb' 3 4 = (0 : BitVec 4) then .ok (.kmeshDef (b.extractLsb' 0 3) d a) else .error .illegalField)
  | 0x0E => need0 a (ctl limm (if b.extractLsb' 3 4 = (0 : BitVec 4) then .ok (.kmeshRel (b.extractLsb' 0 3) d) else .error .illegalField))
  | _ => .error .unassigned

/-- Class 12 (06 Table 6-23): the form of each assigned function code, its reserved fields checked. -/
def decodeClass12 (limm : Option (BitVec 21)) (fn : BitVec 6) (d a b : BitVec 7) : Except Reject Instr :=
  match fn with
  | 0x00 => .ok (.swbeg d a (decU7 limm b))
  | 0x01 => rrr limm (need0 d (need0 a (need0 b (.ok (.swnext)))))
  | 0x02 => rrr limm (need0 d (need0 b (.ok (.swret a))))
  | 0x03 => .ok (.swake d a (decU7 limm b))
  | 0x04 => need0 a (ctl limm (if b.extractLsb' 1 6 = (0 : BitVec 6) then .ok (.swend (b.getLsbD 0) d) else .error .reservedField))
  | 0x05 => need0 a (.ok (.swstat d (decU7 limm b)))
  | 0x10 => .ok (.pour d a (decS7 limm b))
  | 0x11 => .ok (.edgeq d a (decU7 limm b))
  | 0x12 => .ok (.gangq d a (decU7 limm b))
  | _ => .error .unassigned

/-- Class 13 (06 Table 6-24): the form of each assigned function code, its reserved fields checked. -/
def decodeClass13 (limm : Option (BitVec 21)) (fn : BitVec 6) (d a b : BitVec 7) : Except Reject Instr :=
  match fn with
  | 0x00 => need0 a (.ok (.ctlr d (decU7 limm b)))
  | 0x01 => need0 d (.ok (.ctlw a (decU7 limm b)))
  | 0x02 => rrr limm (.ok (.tlbinv d a b))
  | 0x03 => rrr limm (need0 d (need0 a (need0 b (.ok (.eret)))))
  | 0x04 => ctl limm (if b.extractLsb' 1 6 = (0 : BitVec 6) then .ok (.preempt (b.getLsbD 0) d a) else .error .reservedField)
  | 0x05 => rrr limm (need0 b (.ok (.ctxsv d a)))
  | 0x06 => rrr limm (need0 b (.ok (.ctxld d a)))
  | 0x07 => rrr limm (need0 d (need0 b (.ok (.engrst a))))
  | 0x08 => need0 a (ctl limm (if b.extractLsb' 1 6 = (0 : BitVec 6) then .ok (.evtq (b.getLsbD 0) d) else .error .reservedField))
  | 0x09 => rrr limm (.ok (.tresume d a b))
  | _ => .error .unassigned

/-- The instruction of a word's fields, behind the LIMM before it if there is one (R126, R127). -/
def decodeFields (limm : Option (BitVec 21)) (f : Fields) : Except Reject Instr :=
  match f.cls with
  | 0 => decodeClass0 limm f.fn f.d f.a f.b
  | 1 => decodeClass1 limm f.fn f.d f.a f.b
  | 2 => decodeClass2 limm f.fn f.d f.a f.b
  | 3 => decodeClass3 limm f.fn f.d f.a f.b
  | 4 => decodeClass4 limm f.fn f.d f.a f.b
  | 5 => decodeClass5 limm f.fn f.d f.a f.b
  | 6 => decodeClass6 limm f.fn f.d f.a f.b
  | 7 => decodeClass7 limm f.fn f.d f.a f.b
  | 8 => decodeClass8 limm f.fn f.d f.a f.b
  | 9 => decodeClass9 limm f.fn f.d f.a f.b
  | 10 => decodeClass10 limm f.fn f.d f.a f.b
  | 11 => decodeClass11 limm f.fn f.d f.a f.b
  | 12 => decodeClass12 limm f.fn f.d f.a f.b
  | 13 => decodeClass13 limm f.fn f.d f.a f.b
  | 15 => if f = ⟨15, 0x3F, 0x7F, 0x7F, 0x7F⟩ then rrr limm (.ok .ill) else .error .reservedClass
  | _ => .error .reservedClass

/-- Whether an instruction is a prefix word, which must have S = 0 (R113). -/
def Instr.isPrefix : Instr → Bool
  | .rep .. | .guard .. | .limm => true
  | _ => false

/-- Decode one word behind the LIMM before it if there is one (R110, R113, R126). ILL is the all-ones word alone. -/
def decodeWord (limm : Option (BitVec 21)) (w : BitVec 32) : Except Reject Decoded :=
  match decodeFields limm (Fields.ofWord w) with
  | .error e => .error e
  | .ok i =>
    if i.isPrefix && w.getLsbD 31 then .error .prefixMisuse
    else if i == .ill && !w.getLsbD 31 then .error .reservedClass
    else .ok ⟨w.getLsbD 31, i⟩

/-- The little-endian word at the head of a list of bytes (R110). -/
def wordOfBytes : List Byte → Option (BitVec 32 × List Byte)
  | b0 :: b1 :: b2 :: b3 :: rest => some (cat 32 b3 (cat 24 b2 (cat 16 b1 b0)), rest)
  | _ => none

/-- Decode the instruction at the head of a list of bytes (R110), with the bytes after it; none where four bytes are
not there or the word is rejected. -/
def decodeBytes (bs : List Byte) : Option (Decoded × List Byte) :=
  match wordOfBytes bs with
  | none => none
  | some (w, rest) =>
    match decodeWord none w with
    | .error _ => none
    | .ok x => some (x, rest)

/-- The bytes of a word, lowest address first (R110). -/
def bytesOfWord (w : BitVec 32) : List Byte :=
  [w.extractLsb' 0 8, w.extractLsb' 8 8, w.extractLsb' 16 8, w.extractLsb' 24 8]

/-- The instruction the decoder reads from one 32-bit word of the opcode table. -/
def decodeTableWord (nbits w : Nat) : Option Instr :=
  if nbits = 32 then (decodeBytes (bytesOfWord (BitVec.ofNat 32 w))).map (fun x => x.1.instr) else none

/-- The fields and LIMM of an RRI word with a signed immediate (R111, R116): no LIMM where imm7 holds it. -/
def encS7 (cls : BitVec 4) (fn : BitVec 6) (d a : BitVec 7) (i : Imm) : Option (BitVec 21) × Fields :=
  (if (i.setWidth 7).signExtend 32 = i then none else some (i.extractLsb' 7 21), ⟨cls, fn, d, a, i.setWidth 7⟩)

/-- The fields and LIMM of an RRI word with an unsigned immediate (R111, R116). -/
def encU7 (cls : BitVec 4) (fn : BitVec 6) (d a : BitVec 7) (i : Imm) : Option (BitVec 21) × Fields :=
  (if (i.setWidth 7).setWidth 32 = i then none else some (i.extractLsb' 7 21), ⟨cls, fn, d, a, i.setWidth 7⟩)

/-- The fields and LIMM of an RI14 word with a signed immediate (R111, R116). -/
def encS14 (cls : BitVec 4) (fn : BitVec 6) (d : BitVec 7) (i : Imm) : Option (BitVec 21) × Fields :=
  (if (i.setWidth 14).signExtend 32 = i then none else some ((i.extractLsb' 14 18).signExtend 21),
   ⟨cls, fn, d, i.extractLsb' 7 7, i.setWidth 7⟩)

/-- The fields and LIMM of an RI14 word with an unsigned immediate (R111, R116). -/
def encU14 (cls : BitVec 4) (fn : BitVec 6) (d : BitVec 7) (i : Imm) : Option (BitVec 21) × Fields :=
  (if (i.setWidth 14).setWidth 32 = i then none else some ((i.extractLsb' 14 18).signExtend 21),
   ⟨cls, fn, d, i.extractLsb' 7 7, i.setWidth 7⟩)

/-- The word of a LIMM with immediate `v` (Table 6-5). -/
def limmWord (v : BitVec 21) : BitVec 32 := (split21 0 0x12 v).toWord false

/-- imm21 of a LIMM word (Table 6-5). -/
def limmImm (w : BitVec 32) : BitVec 21 := w.extractLsb' 0 21

/-- The LIMM and the fields that encode an instruction (06 Tables 6-3 to 6-24 and the field tables of the form's
entry); none for a step of the device, which has no word, and for LIMM, whose word is limmWord. -/
def encodeFields : Instr → Option (Option (BitVec 21) × Fields)
  | .nop => some (none, ⟨0, 0x00, 0, 0, 0⟩)
  | .bra off => some (none, split21 0 0x01 off)
  | .call off => some (none, split21 0 0x02 off)
  | .calli d a => some (none, ⟨0, 0x03, d, a, 0⟩)
  | .ret a => some (none, ⟨0, 0x04, 0, a, 0⟩)
  | .jmpi a => some (none, ⟨0, 0x05, 0, a, 0⟩)
  | .exit => some (none, ⟨0, 0x06, 0, 0, 0⟩)
  | .yield => some (none, ⟨0, 0x07, 0, 0, 0⟩)
  | .bcmp .eq d i => some (encS14 0 0x08 d i)
  | .bcmp .ne d i => some (encS14 0 0x09 d i)
  | .bcmp .lt d i => some (encS14 0 0x0A d i)
  | .bcmp .ge d i => some (encS14 0 0x0B d i)
  | .bcmp .gt d i => some (encS14 0 0x0C d i)
  | .bcmp .le d i => some (encS14 0 0x0D d i)
  | .rep n sD sA sB => some (none, ⟨0, 0x10, cat 7 n (BitVec.ofBool sD), cat 7 (cat 2 (BitVec.ofBool sA) (BitVec.ofBool sB)) (0 : BitVec 5), 0⟩)
  | .guard p sense c => some (none, ⟨0, 0x11, cat 7 p (cat 4 (BitVec.ofBool sense) c), 0, 0⟩)
  | .limm => none
  | .wbase i => some (encU14 0 0x13 0 i)
  | .wbaseAdd i => some (encS14 0 0x14 0 i)
  | .trap i => some (encU14 0 0x15 0 i)
  | .sysc i => some (encU14 0 0x16 0 i)
  | .fbar => some (none, ⟨0, 0x17, 0, 0, 0⟩)
  | .add false d a b => some (none, ⟨1, 0x00, d, a, b⟩)
  | .add true d a b => some (none, ⟨1, 0x01, d, a, b⟩)
  | .addc false d a b => some (none, ⟨1, 0x02, d, a, b⟩)
  | .addc true d a b => some (none, ⟨1, 0x03, d, a, b⟩)
  | .sub false d a b => some (none, ⟨1, 0x04, d, a, b⟩)
  | .sub true d a b => some (none, ⟨1, 0x05, d, a, b⟩)
  | .subb false d a b => some (none, ⟨1, 0x06, d, a, b⟩)
  | .subb true d a b => some (none, ⟨1, 0x07, d, a, b⟩)
  | .mul false d a b => some (none, ⟨1, 0x08, d, a, b⟩)
  | .mul true d a b => some (none, ⟨1, 0x09, d, a, b⟩)
  | .mulh .i32 d a b => some (none, ⟨1, 0x0A, d, a, b⟩)
  | .mulh .n32 d a b => some (none, ⟨1, 0x0B, d, a, b⟩)
  | .mad false d a b => some (none, ⟨1, 0x0C, d, a, b⟩)
  | .mad true d a b => some (none, ⟨1, 0x0D, d, a, b⟩)
  | .div .i32 d a b => some (none, ⟨1, 0x0E, d, a, b⟩)
  | .div .n32 d a b => some (none, ⟨1, 0x0F, d, a, b⟩)
  | .divTrap .i32 d a b => some (none, ⟨1, 0x10, d, a, b⟩)
  | .divTrap .n32 d a b => some (none, ⟨1, 0x11, d, a, b⟩)
  | .rem .i32 d a b => some (none, ⟨1, 0x12, d, a, b⟩)
  | .rem .n32 d a b => some (none, ⟨1, 0x13, d, a, b⟩)
  | .min .i32 d a b => some (none, ⟨1, 0x14, d, a, b⟩)
  | .min .n32 d a b => some (none, ⟨1, 0x15, d, a, b⟩)
  | .min .i64 d a b => some (none, ⟨1, 0x16, d, a, b⟩)
  | .min .n64 d a b => some (none, ⟨1, 0x17, d, a, b⟩)
  | .max .i32 d a b => some (none, ⟨1, 0x18, d, a, b⟩)
  | .max .n32 d a b => some (none, ⟨1, 0x19, d, a, b⟩)
  | .max .i64 d a b => some (none, ⟨1, 0x1A, d, a, b⟩)
  | .max .n64 d a b => some (none, ⟨1, 0x1B, d, a, b⟩)
  | .abs d a => some (none, ⟨1, 0x1C, d, a, 0⟩)
  | .neg d a => some (none, ⟨1, 0x1D, d, a, 0⟩)
  | .and d a b => some (none, ⟨1, 0x1E, d, a, b⟩)
  | .or d a b => some (none, ⟨1, 0x1F, d, a, b⟩)
  | .xor d a b => some (none, ⟨1, 0x20, d, a, b⟩)
  | .andn d a b => some (none, ⟨1, 0x22, d, a, b⟩)
  | .shl d a b => some (none, ⟨1, 0x23, d, a, b⟩)
  | .shl64 d a b => some (none, ⟨1, 0x24, d, a, b⟩)
  | .shr d a b => some (none, ⟨1, 0x25, d, a, b⟩)
  | .shr64 d a b => some (none, ⟨1, 0x26, d, a, b⟩)
  | .shra d a b => some (none, ⟨1, 0x27, d, a, b⟩)
  | .shra64 d a b => some (none, ⟨1, 0x28, d, a, b⟩)
  | .rot d a b => some (none, ⟨1, 0x29, d, a, b⟩)
  | .sel d a b => some (none, ⟨1, 0x2A, d, a, b⟩)
  | .lea d a b => some (none, ⟨1, 0x2B, d, a, b⟩)
  | .not d a => some (none, ⟨1, 0x21, d, a, 0⟩)
  | .addI false d a i => some (encS7 2 0x00 d a i)
  | .addI true d a i => some (encS7 2 0x01 d a i)
  | .mulI d a i => some (encS7 2 0x02 d a i)
  | .andI d a i => some (encS7 2 0x03 d a i)
  | .orI d a i => some (encS7 2 0x04 d a i)
  | .xorI d a i => some (encS7 2 0x05 d a i)
  | .shlI false d a i => some (encU7 2 0x06 d a i)
  | .shlI true d a i => some (encU7 2 0x07 d a i)
  | .shrI false d a i => some (encU7 2 0x08 d a i)
  | .shrI true d a i => some (encU7 2 0x09 d a i)
  | .shraI false d a i => some (encU7 2 0x0A d a i)
  | .shraI true d a i => some (encU7 2 0x0B d a i)
  | .rotI d a i => some (encU7 2 0x0C d a i)
  | .minIS d a i => some (encS7 2 0x0D d a i)
  | .minIU d a i => some (encS7 2 0x0E d a i)
  | .maxIS d a i => some (encS7 2 0x0F d a i)
  | .maxIU d a i => some (encS7 2 0x10 d a i)
  | .leaI d a i => some (encU7 2 0x11 d a i)
  | .movi d i => some (encS14 2 0x12 d i)
  | .movi64 d i => some (encU14 2 0x13 d i)
  | .pset .eq .i32 d a b => some (none, ⟨3, 0x00, d, a, b⟩)
  | .pset .eq .n32 d a b => some (none, ⟨3, 0x01, d, a, b⟩)
  | .pset .eq .i64 d a b => some (none, ⟨3, 0x02, d, a, b⟩)
  | .pset .eq .n64 d a b => some (none, ⟨3, 0x03, d, a, b⟩)
  | .pset .ne .i32 d a b => some (none, ⟨3, 0x04, d, a, b⟩)
  | .pset .ne .n32 d a b => some (none, ⟨3, 0x05, d, a, b⟩)
  | .pset .ne .i64 d a b => some (none, ⟨3, 0x06, d, a, b⟩)
  | .pset .ne .n64 d a b => some (none, ⟨3, 0x07, d, a, b⟩)
  | .pset .lt .i32 d a b => some (none, ⟨3, 0x08, d, a, b⟩)
  | .pset .lt .n32 d a b => some (none, ⟨3, 0x09, d, a, b⟩)
  | .pset .lt .i64 d a b => some (none, ⟨3, 0x0A, d, a, b⟩)
  | .pset .lt .n64 d a b => some (none, ⟨3, 0x0B, d, a, b⟩)
  | .pset .le .i32 d a b => some (none, ⟨3, 0x0C, d, a, b⟩)
  | .pset .le .n32 d a b => some (none, ⟨3, 0x0D, d, a, b⟩)
  | .pset .le .i64 d a b => some (none, ⟨3, 0x0E, d, a, b⟩)
  | .pset .le .n64 d a b => some (none, ⟨3, 0x0F, d, a, b⟩)
  | .pset .gt .i32 d a b => some (none, ⟨3, 0x10, d, a, b⟩)
  | .pset .gt .n32 d a b => some (none, ⟨3, 0x11, d, a, b⟩)
  | .pset .gt .i64 d a b => some (none, ⟨3, 0x12, d, a, b⟩)
  | .pset .gt .n64 d a b => some (none, ⟨3, 0x13, d, a, b⟩)
  | .pset .ge .i32 d a b => some (none, ⟨3, 0x14, d, a, b⟩)
  | .pset .ge .n32 d a b => some (none, ⟨3, 0x15, d, a, b⟩)
  | .pset .ge .i64 d a b => some (none, ⟨3, 0x16, d, a, b⟩)
  | .pset .ge .n64 d a b => some (none, ⟨3, 0x17, d, a, b⟩)
  | .pand d a b => some (none, ⟨3, 0x20, d, a, b⟩)
  | .por d a b => some (none, ⟨3, 0x21, d, a, b⟩)
  | .pxor d a b => some (none, ⟨3, 0x22, d, a, b⟩)
  | .bfi d a b => some (none, ⟨3, 0x28, d, a, b⟩)
  | .pnot d a => some (none, ⟨3, 0x23, d, a, 0⟩)
  | .pmovReg d a => some (none, ⟨3, 0x24, d, a, 0⟩)
  | .pmovPred d a => some (none, ⟨3, 0x25, d, a, 0⟩)
  | .popc d a => some (none, ⟨3, 0x29, d, a, 0⟩)
  | .clz d a => some (none, ⟨3, 0x2A, d, a, 0⟩)
  | .ctz d a => some (none, ⟨3, 0x2B, d, a, 0⟩)
  | .brev d a => some (none, ⟨3, 0x2C, d, a, 0⟩)
  | .bfx false d a b => some (none, ⟨3, 0x26, d, a, b⟩)
  | .bfx true d a b => some (none, ⟨3, 0x27, d, a, b⟩)
  | .smov d a => some (none, ⟨4, 0x00, d, a, 0⟩)
  | .swr d a => some (none, ⟨4, 0x01, d, a, 0⟩)
  | .tjoin d a => some (none, ⟨4, 0x02, d, a, 0⟩)
  | .tleave d a => some (none, ⟨4, 0x03, d, a, 0⟩)
  | .mset d a => some (none, ⟨4, 0x07, d, a, 0⟩)
  | .mread d a => some (none, ⟨4, 0x08, d, a, 0⟩)
  | .wregrp d a => some (none, ⟨4, 0x09, d, a, 0⟩)
  | .groute d a => some (none, ⟨4, 0x0B, d, a, 0⟩)
  | .wsort d a => some (none, ⟨4, 0x0C, d, a, 0⟩)
  | .lcomp d a => some (none, ⟨4, 0x0D, d, a, 0⟩)
  | .mjoin d => some (none, ⟨4, 0x04, d, 0, 0⟩)
  | .mleave d => some (none, ⟨4, 0x05, d, 0, 0⟩)
  | .mwait d => some (none, ⟨4, 0x06, d, 0, 0⟩)
  | .wpart i => some (encU14 4 0x0A 0 i)
  | .match false d a => some (none, ⟨4, 0x0E, d, a, 0⟩)
  | .match true d a => some (none, ⟨4, 0x0F, d, a, 0⟩)
  | .vote .ballot d a => some (none, ⟨4, 0x10, d, a, 0⟩)
  | .vote .any d a => some (none, ⟨4, 0x11, d, a, 0⟩)
  | .vote .all d a => some (none, ⟨4, 0x12, d, a, 0⟩)
  | .vote .uni d a => some (none, ⟨4, 0x13, d, a, 0⟩)
  | .shfl .idx d a b => some (none, ⟨4, 0x14, d, a, b⟩)
  | .shfl .up d a b => some (none, ⟨4, 0x15, d, a, b⟩)
  | .shfl .down d a b => some (none, ⟨4, 0x16, d, a, b⟩)
  | .shfl .xor d a b => some (none, ⟨4, 0x17, d, a, b⟩)
  | .redw .addI32 d a => some (none, ⟨4, 0x18, d, a, 0⟩)
  | .redw .addF32 d a => some (none, ⟨4, 0x19, d, a, 0⟩)
  | .redw .minI32 d a => some (none, ⟨4, 0x1A, d, a, 0⟩)
  | .redw .maxI32 d a => some (none, ⟨4, 0x1B, d, a, 0⟩)
  | .redw .minF32 d a => some (none, ⟨4, 0x1C, d, a, 0⟩)
  | .redw .maxF32 d a => some (none, ⟨4, 0x1D, d, a, 0⟩)
  | .redw .and d a => some (none, ⟨4, 0x1E, d, a, 0⟩)
  | .redw .or d a => some (none, ⟨4, 0x1F, d, a, 0⟩)
  | .scanw .addI32 d a => some (none, ⟨4, 0x20, d, a, 0⟩)
  | .scanw .addF32 d a => some (none, ⟨4, 0x21, d, a, 0⟩)
  | .scanw .minI32 d a => some (none, ⟨4, 0x22, d, a, 0⟩)
  | .scanw .maxI32 d a => some (none, ⟨4, 0x23, d, a, 0⟩)
  | .scanw .minF32 d a => some (none, ⟨4, 0x24, d, a, 0⟩)
  | .scanw .maxF32 d a => some (none, ⟨4, 0x25, d, a, 0⟩)
  | .scanw .and d a => some (none, ⟨4, 0x26, d, a, 0⟩)
  | .scanw .or d a => some (none, ⟨4, 0x27, d, a, 0⟩)
  | .faddF32 d a b => some (none, ⟨5, 0x00, d, a, b⟩)
  | .faddF16 d a b => some (none, ⟨5, 0x01, d, a, b⟩)
  | .faddBf16 d a b => some (none, ⟨5, 0x02, d, a, b⟩)
  | .fsubF32 d a b => some (none, ⟨5, 0x03, d, a, b⟩)
  | .fsubF16 d a b => some (none, ⟨5, 0x04, d, a, b⟩)
  | .fsubBf16 d a b => some (none, ⟨5, 0x05, d, a, b⟩)
  | .fmulF32 d a b => some (none, ⟨5, 0x06, d, a, b⟩)
  | .fmulF16 d a b => some (none, ⟨5, 0x07, d, a, b⟩)
  | .fmulBf16 d a b => some (none, ⟨5, 0x08, d, a, b⟩)
  | .ffmaF32 d a b => some (none, ⟨5, 0x09, d, a, b⟩)
  | .ffmaF16 d a b => some (none, ⟨5, 0x0A, d, a, b⟩)
  | .ffmaBf16 d a b => some (none, ⟨5, 0x0B, d, a, b⟩)
  | .fminF32 d a b => some (none, ⟨5, 0x0C, d, a, b⟩)
  | .fminF16 d a b => some (none, ⟨5, 0x0D, d, a, b⟩)
  | .fminBf16 d a b => some (none, ⟨5, 0x0E, d, a, b⟩)
  | .fmaxF32 d a b => some (none, ⟨5, 0x0F, d, a, b⟩)
  | .fmaxF16 d a b => some (none, ⟨5, 0x10, d, a, b⟩)
  | .fmaxBf16 d a b => some (none, ⟨5, 0x11, d, a, b⟩)
  | .fnegF32 d a => some (none, ⟨5, 0x12, d, a, 0⟩)
  | .fnegF16 d a => some (none, ⟨5, 0x13, d, a, 0⟩)
  | .fnegBf16 d a => some (none, ⟨5, 0x14, d, a, 0⟩)
  | .fabsF32 d a => some (none, ⟨5, 0x15, d, a, 0⟩)
  | .fabsF16 d a => some (none, ⟨5, 0x16, d, a, 0⟩)
  | .fabsBf16 d a => some (none, ⟨5, 0x17, d, a, 0⟩)
  | .fcmp .eq d a b => some (none, ⟨5, 0x18, d, a, b⟩)
  | .fcmp .ne d a b => some (none, ⟨5, 0x19, d, a, b⟩)
  | .fcmp .lt d a b => some (none, ⟨5, 0x1A, d, a, b⟩)
  | .fcmp .le d a b => some (none, ⟨5, 0x1B, d, a, b⟩)
  | .fcmp .gt d a b => some (none, ⟨5, 0x1C, d, a, b⟩)
  | .fcmp .ge d a b => some (none, ⟨5, 0x1D, d, a, b⟩)
  | .fcmp .un d a b => some (none, ⟨5, 0x1E, d, a, b⟩)
  | .fcmp .ord d a b => some (none, ⟨5, 0x1F, d, a, b⟩)
  | .fsel d a b => some (none, ⟨5, 0x20, d, a, b⟩)
  | .fdiv d a b => some (none, ⟨5, 0x21, d, a, b⟩)
  | .fscale d a b => some (none, ⟨5, 0x2F, d, a, b⟩)
  | .dot4E4m3 d a b => some (none, ⟨5, 0x32, d, a, b⟩)
  | .dot4E5m2 d a b => some (none, ⟨5, 0x33, d, a, b⟩)
  | .dot4I8 d a b => some (none, ⟨5, 0x34, d, a, b⟩)
  | .fsqrt d a => some (none, ⟨5, 0x22, d, a, 0⟩)
  | .frcp d a => some (none, ⟨5, 0x23, d, a, 0⟩)
  | .frsq d a => some (none, ⟨5, 0x24, d, a, 0⟩)
  | .fexp2 d a => some (none, ⟨5, 0x25, d, a, 0⟩)
  | .flog2 d a => some (none, ⟨5, 0x26, d, a, 0⟩)
  | .fsin d a => some (none, ⟨5, 0x27, d, a, 0⟩)
  | .fcos d a => some (none, ⟨5, 0x28, d, a, 0⟩)
  | .ftanh d a => some (none, ⟨5, 0x29, d, a, 0⟩)
  | .fclass d a => some (none, ⟨5, 0x2A, d, a, 0⟩)
  | .frndRne d a => some (none, ⟨5, 0x2B, d, a, 0⟩)
  | .frndRz d a => some (none, ⟨5, 0x2C, d, a, 0⟩)
  | .frndRd d a => some (none, ⟨5, 0x2D, d, a, 0⟩)
  | .frndRu d a => some (none, ⟨5, 0x2E, d, a, 0⟩)
  | .hfma2 .f16 d a b => some (none, ⟨5, 0x30, d, a, b⟩)
  | .hfma2 .bf16 d a b => some (none, ⟨5, 0x31, d, a, b⟩)
  | .faddF64 d a b => some (none, ⟨6, 0x00, d, a, b⟩)
  | .fsubF64 d a b => some (none, ⟨6, 0x01, d, a, b⟩)
  | .fmulF64 d a b => some (none, ⟨6, 0x02, d, a, b⟩)
  | .ffmaF64 d a b => some (none, ⟨6, 0x03, d, a, b⟩)
  | .fminF64 d a b => some (none, ⟨6, 0x04, d, a, b⟩)
  | .fmaxF64 d a b => some (none, ⟨6, 0x05, d, a, b⟩)
  | .fdivF64 d a b => some (none, ⟨6, 0x06, d, a, b⟩)
  | .fsqrtF64 d a => some (none, ⟨6, 0x07, d, a, 0⟩)
  | .fcmpF64 .eq d a b => some (none, ⟨6, 0x08, d, a, b⟩)
  | .fcmpF64 .ne d a b => some (none, ⟨6, 0x09, d, a, b⟩)
  | .fcmpF64 .lt d a b => some (none, ⟨6, 0x0A, d, a, b⟩)
  | .fcmpF64 .le d a b => some (none, ⟨6, 0x0B, d, a, b⟩)
  | .fcmpF64 .gt d a b => some (none, ⟨6, 0x0C, d, a, b⟩)
  | .fcmpF64 .ge d a b => some (none, ⟨6, 0x0D, d, a, b⟩)
  | .fcmpF64 .un d a b => some (none, ⟨6, 0x0E, d, a, b⟩)
  | .fcmpF64 .ord d a b => some (none, ⟨6, 0x0F, d, a, b⟩)
  | .frndF64 .rne d a => some (none, ⟨6, 0x10, d, a, 0⟩)
  | .frndF64 .rz d a => some (none, ⟨6, 0x11, d, a, 0⟩)
  | .frndF64 .rd d a => some (none, ⟨6, 0x12, d, a, 0⟩)
  | .frndF64 .ru d a => some (none, ⟨6, 0x13, d, a, 0⟩)
  | .fnegF64 d a => some (none, ⟨6, 0x14, d, a, 0⟩)
  | .fabsF64 d a => some (none, ⟨6, 0x15, d, a, 0⟩)
  | .fclassF64 d a => some (none, ⟨6, 0x16, d, a, 0⟩)
  | .fscaleF64 d a b => some (none, ⟨6, 0x17, d, a, b⟩)
  | .cvtqDec d a b => some (none, ⟨6, 0x18, d, a, b⟩)
  | .cvtqEnc d a b => some (none, ⟨6, 0x19, d, a, b⟩)
  | .cvtxIns y n r d a => some (none, ⟨6, 0x1A, d, a, cat 7 y.code (cat 5 n r.code)⟩)
  | .cvtxExt y n d a => some (none, ⟨6, 0x1B, d, a, cat 7 y.code (cat 5 n (0 : BitVec 3))⟩)
  | .flagr d => some (none, ⟨6, 0x1C, d, 0, 0⟩)
  | .flagc a => some (none, ⟨6, 0x1D, 0, a, 0⟩)
  | .rng d => some (none, ⟨6, 0x1E, d, 0, 0⟩)
  | .rngseed a b => some (none, ⟨6, 0x1F, 0, a, b⟩)
  | .cvt x dst src r d a => some (none, ⟨6, cat 6 (1 : BitVec 1) (cat 5 (BitVec.ofBool x) dst.code), d, a, cat 7 src.code r.code⟩)
  | .ld .dflt .b8 d a i => some (encS7 7 0x00 d a i)
  | .ld .dflt .b16 d a i => some (encS7 7 0x01 d a i)
  | .ld .dflt .b32 d a i => some (encS7 7 0x02 d a i)
  | .ld .dflt .b64 d a i => some (encS7 7 0x03 d a i)
  | .ld .dflt .b128 d a i => some (encS7 7 0x04 d a i)
  | .ld .own .b8 d a i => some (encS7 7 0x05 d a i)
  | .ld .own .b16 d a i => some (encS7 7 0x06 d a i)
  | .ld .own .b32 d a i => some (encS7 7 0x07 d a i)
  | .ld .own .b64 d a i => some (encS7 7 0x08 d a i)
  | .ld .own .b128 d a i => some (encS7 7 0x09 d a i)
  | .ld .si .b8 d a i => some (encS7 7 0x0A d a i)
  | .ld .si .b16 d a i => some (encS7 7 0x0B d a i)
  | .ld .si .b32 d a i => some (encS7 7 0x0C d a i)
  | .ld .si .b64 d a i => some (encS7 7 0x0D d a i)
  | .ld .si .b128 d a i => some (encS7 7 0x0E d a i)
  | .ld .nc .b8 d a i => some (encS7 7 0x0F d a i)
  | .ld .nc .b16 d a i => some (encS7 7 0x10 d a i)
  | .ld .nc .b32 d a i => some (encS7 7 0x11 d a i)
  | .ld .nc .b64 d a i => some (encS7 7 0x12 d a i)
  | .ld .nc .b128 d a i => some (encS7 7 0x13 d a i)
  | .st .dflt .b8 d a i => some (encS7 7 0x14 d a i)
  | .st .dflt .b16 d a i => some (encS7 7 0x15 d a i)
  | .st .dflt .b32 d a i => some (encS7 7 0x16 d a i)
  | .st .dflt .b64 d a i => some (encS7 7 0x17 d a i)
  | .st .dflt .b128 d a i => some (encS7 7 0x18 d a i)
  | .st .own .b8 d a i => some (encS7 7 0x19 d a i)
  | .st .own .b16 d a i => some (encS7 7 0x1A d a i)
  | .st .own .b32 d a i => some (encS7 7 0x1B d a i)
  | .st .own .b64 d a i => some (encS7 7 0x1C d a i)
  | .st .own .b128 d a i => some (encS7 7 0x1D d a i)
  | .st .wt .b8 d a i => some (encS7 7 0x1E d a i)
  | .st .wt .b16 d a i => some (encS7 7 0x1F d a i)
  | .st .wt .b32 d a i => some (encS7 7 0x20 d a i)
  | .st .wt .b64 d a i => some (encS7 7 0x21 d a i)
  | .st .wt .b128 d a i => some (encS7 7 0x22 d a i)
  | .st .nc .b8 d a i => some (encS7 7 0x23 d a i)
  | .st .nc .b16 d a i => some (encS7 7 0x24 d a i)
  | .st .nc .b32 d a i => some (encS7 7 0x25 d a i)
  | .st .nc .b64 d a i => some (encS7 7 0x26 d a i)
  | .st .nc .b128 d a i => some (encS7 7 0x27 d a i)
  | .lds .b8 d a i => some (encS7 7 0x28 d a i)
  | .lds .b16 d a i => some (encS7 7 0x29 d a i)
  | .lds .b32 d a i => some (encS7 7 0x2A d a i)
  | .lds .b64 d a i => some (encS7 7 0x2B d a i)
  | .lds .b128 d a i => some (encS7 7 0x2C d a i)
  | .sts .b8 d a i => some (encS7 7 0x2D d a i)
  | .sts .b16 d a i => some (encS7 7 0x2E d a i)
  | .sts .b32 d a i => some (encS7 7 0x2F d a i)
  | .sts .b64 d a i => some (encS7 7 0x30 d a i)
  | .sts .b128 d a i => some (encS7 7 0x31 d a i)
  | .ldx false d a i => some (encU7 7 0x32 d a i)
  | .ldx true d a i => some (encU7 7 0x33 d a i)
  | .stx false d a i => some (encU7 7 0x34 d a i)
  | .stx true d a i => some (encU7 7 0x35 d a i)
  | .pref d a i => some (encS7 8 0x00 d a i)
  | .cwb sc a b => some (none, ⟨8, 0x01, sc.code.setWidth 7, a, b⟩)
  | .cinv sc a b => some (none, ⟨8, 0x02, sc.code.setWidth 7, a, b⟩)
  | .cwbinv sc a b => some (none, ⟨8, 0x03, sc.code.setWidth 7, a, b⟩)
  | .icinv sc a b => some (none, ⟨8, 0x04, sc.code.setWidth 7, a, b⟩)
  | .lensld a i => some (encU7 8 0x05 0 a i)
  | .lensinv i => some (encU7 8 0x06 0 0 i)
  | .lensq d a i => some (encU7 8 0x07 d a i)
  | .copy 0 d a i => some (encU7 8 0x08 d a i)
  | .copy 1 d a i => some (encU7 8 0x09 d a i)
  | .copy 2 d a i => some (encU7 8 0x0A d a i)
  | .copy 3 d a i => some (encU7 8 0x0B d a i)
  | .copys 0 d a i => some (encU7 8 0x0C d a i)
  | .copys 1 d a i => some (encU7 8 0x0D d a i)
  | .copys 2 d a i => some (encU7 8 0x0E d a i)
  | .copys 3 d a i => some (encU7 8 0x0F d a i)
  | .copym 0 d a i => some (encU7 8 0x10 d a i)
  | .copym 1 d a i => some (encU7 8 0x11 d a i)
  | .copym 2 d a i => some (encU7 8 0x12 d a i)
  | .copym 3 d a i => some (encU7 8 0x13 d a i)
  | .qfence sc rel q => some (none, ⟨8, 0x14, 0, cat 7 sc.code (BitVec.ofBool rel), q⟩)
  | .cwait q => some (none, ⟨8, 0x15, 0, 0, q⟩)
  | .feset a i => some (encS7 8 0x16 0 a i)
  | .feclr a i => some (encS7 8 0x17 0 a i)
  | .cstore false d a b => some (none, ⟨8, 0x18, d, a, b⟩)
  | .cstore true d a b => some (none, ⟨8, 0x19, d, a, b⟩)
  | .xpand false d a b => some (none, ⟨8, 0x1A, d, a, b⟩)
  | .xpand true d a b => some (none, ⟨8, 0x1B, d, a, b⟩)
  | .gath false .f32 d a i => some (encU7 8 0x20 d a i)
  | .gath false .f16 d a i => some (encU7 8 0x21 d a i)
  | .gath false .bf16 d a i => some (encU7 8 0x22 d a i)
  | .gath false .e4m3 d a i => some (encU7 8 0x23 d a i)
  | .gath false .e5m2 d a i => some (encU7 8 0x24 d a i)
  | .gath false .i32 d a i => some (encU7 8 0x25 d a i)
  | .gath false .n32 d a i => some (encU7 8 0x26 d a i)
  | .gath false .f64 d a i => some (encU7 8 0x27 d a i)
  | .gath true .f32 d a i => some (encU7 8 0x28 d a i)
  | .gath true .f16 d a i => some (encU7 8 0x29 d a i)
  | .gath true .bf16 d a i => some (encU7 8 0x2A d a i)
  | .gath true .e4m3 d a i => some (encU7 8 0x2B d a i)
  | .gath true .e5m2 d a i => some (encU7 8 0x2C d a i)
  | .gath true .i32 d a i => some (encU7 8 0x2D d a i)
  | .gath true .n32 d a i => some (encU7 8 0x2E d a i)
  | .gath true .f64 d a i => some (encU7 8 0x2F d a i)
  | .scat .f32 d a i => some (encU7 8 0x30 d a i)
  | .scat .f16 d a i => some (encU7 8 0x31 d a i)
  | .scat .bf16 d a i => some (encU7 8 0x32 d a i)
  | .scat .e4m3 d a i => some (encU7 8 0x33 d a i)
  | .scat .e5m2 d a i => some (encU7 8 0x34 d a i)
  | .scat .i32 d a i => some (encU7 8 0x35 d a i)
  | .scat .n32 d a i => some (encU7 8 0x36 d a i)
  | .scat .f64 d a i => some (encU7 8 0x37 d a i)
  | .ldAcq .b8 sc d a => some (none, ⟨9, 0x00, d, a, sc.code.setWidth 7⟩)
  | .stRel .b8 sc d a => some (none, ⟨9, 0x05, d, a, sc.code.setWidth 7⟩)
  | .ldAcq .b16 sc d a => some (none, ⟨9, 0x01, d, a, sc.code.setWidth 7⟩)
  | .stRel .b16 sc d a => some (none, ⟨9, 0x06, d, a, sc.code.setWidth 7⟩)
  | .ldAcq .b32 sc d a => some (none, ⟨9, 0x02, d, a, sc.code.setWidth 7⟩)
  | .stRel .b32 sc d a => some (none, ⟨9, 0x07, d, a, sc.code.setWidth 7⟩)
  | .ldAcq .b64 sc d a => some (none, ⟨9, 0x03, d, a, sc.code.setWidth 7⟩)
  | .stRel .b64 sc d a => some (none, ⟨9, 0x08, d, a, sc.code.setWidth 7⟩)
  | .ldAcq .b128 sc d a => some (none, ⟨9, 0x04, d, a, sc.code.setWidth 7⟩)
  | .stRel .b128 sc d a => some (none, ⟨9, 0x09, d, a, sc.code.setWidth 7⟩)
  | .atom .add false d a b => some (none, ⟨9, 0x0A, d, a, b⟩)
  | .atom .add true d a b => some (none, ⟨9, 0x0B, d, a, b⟩)
  | .atom .and false d a b => some (none, ⟨9, 0x0C, d, a, b⟩)
  | .atom .and true d a b => some (none, ⟨9, 0x0D, d, a, b⟩)
  | .atom .or false d a b => some (none, ⟨9, 0x0E, d, a, b⟩)
  | .atom .or true d a b => some (none, ⟨9, 0x0F, d, a, b⟩)
  | .atom .xor false d a b => some (none, ⟨9, 0x10, d, a, b⟩)
  | .atom .xor true d a b => some (none, ⟨9, 0x11, d, a, b⟩)
  | .atom .exch false d a b => some (none, ⟨9, 0x12, d, a, b⟩)
  | .atom .exch true d a b => some (none, ⟨9, 0x13, d, a, b⟩)
  | .atom .min false d a b => some (none, ⟨9, 0x14, d, a, b⟩)
  | .atom .min true d a b => some (none, ⟨9, 0x15, d, a, b⟩)
  | .atom .max false d a b => some (none, ⟨9, 0x16, d, a, b⟩)
  | .atom .max true d a b => some (none, ⟨9, 0x17, d, a, b⟩)
  | .atom .fadd false d a b => some (none, ⟨9, 0x18, d, a, b⟩)
  | .atom .fadd true d a b => some (none, ⟨9, 0x19, d, a, b⟩)
  | .acas false d a b => some (none, ⟨9, 0x1A, d, a, b⟩)
  | .acas true d a b => some (none, ⟨9, 0x1B, d, a, b⟩)
  | .red .add false a b => some (none, ⟨9, 0x1C, 0, a, b⟩)
  | .red .add true a b => some (none, ⟨9, 0x1D, 0, a, b⟩)
  | .red .and false a b => some (none, ⟨9, 0x1E, 0, a, b⟩)
  | .red .and true a b => some (none, ⟨9, 0x1F, 0, a, b⟩)
  | .red .or false a b => some (none, ⟨9, 0x20, 0, a, b⟩)
  | .red .or true a b => some (none, ⟨9, 0x21, 0, a, b⟩)
  | .red .xor false a b => some (none, ⟨9, 0x22, 0, a, b⟩)
  | .red .xor true a b => some (none, ⟨9, 0x23, 0, a, b⟩)
  | .red .exch false a b => some (none, ⟨9, 0x24, 0, a, b⟩)
  | .red .exch true a b => some (none, ⟨9, 0x25, 0, a, b⟩)
  | .red .min false a b => some (none, ⟨9, 0x26, 0, a, b⟩)
  | .red .min true a b => some (none, ⟨9, 0x27, 0, a, b⟩)
  | .red .max false a b => some (none, ⟨9, 0x28, 0, a, b⟩)
  | .red .max true a b => some (none, ⟨9, 0x29, 0, a, b⟩)
  | .red .fadd false a b => some (none, ⟨9, 0x2A, 0, a, b⟩)
  | .red .fadd true a b => some (none, ⟨9, 0x2B, 0, a, b⟩)
  | .fenceAcq sc => some (none, ⟨9, 0x2C, sc.code.setWidth 7, 0, 0⟩)
  | .fenceRel sc => some (none, ⟨9, 0x2D, sc.code.setWidth 7, 0, 0⟩)
  | .fenceAcqrel sc => some (none, ⟨9, 0x2E, sc.code.setWidth 7, 0, 0⟩)
  | .waitvB32 d a b => some (none, ⟨9, 0x2F, d, a, b⟩)
  | .waitvB64 d a b => some (none, ⟨9, 0x30, d, a, b⟩)
  | .binit d a l => some (none, ⟨9, 0x31, d, a, l.setWidth 7⟩)
  | .barv d a l => some (none, ⟨9, 0x32, d, a, l.setWidth 7⟩)
  | .btest d a l => some (none, ⟨9, 0x35, d, a, l.setWidth 7⟩)
  | .barvr d a b => some (none, ⟨9, 0x33, d, a, b⟩)
  | .bwait d l => some (none, ⟨9, 0x34, d, 0, l.setWidth 7⟩)
  | .mma .e4m3e4m3 nw st z a => some (none, ⟨10, 0x00, cat 7 (BitVec.ofBool nw) (cat 6 st z), a, 0⟩)
  | .mma .e4m3e5m2 nw st z a => some (none, ⟨10, 0x01, cat 7 (BitVec.ofBool nw) (cat 6 st z), a, 0⟩)
  | .mma .e5m2e4m3 nw st z a => some (none, ⟨10, 0x02, cat 7 (BitVec.ofBool nw) (cat 6 st z), a, 0⟩)
  | .mma .e5m2e5m2 nw st z a => some (none, ⟨10, 0x03, cat 7 (BitVec.ofBool nw) (cat 6 st z), a, 0⟩)
  | .mma .i8i8 nw st z a => some (none, ⟨10, 0x04, cat 7 (BitVec.ofBool nw) (cat 6 st z), a, 0⟩)
  | .mma .bf16bf16 nw st z a => some (none, ⟨10, 0x05, cat 7 (BitVec.ofBool nw) (cat 6 st z), a, 0⟩)
  | .mma .f16f16 nw st z a => some (none, ⟨10, 0x06, cat 7 (BitVec.ofBool nw) (cat 6 st z), a, 0⟩)
  | .mma .f64f64 nw st z a => some (none, ⟨10, 0x07, cat 7 (BitVec.ofBool nw) (cat 6 st z), a, 0⟩)
  | .mmas false nw st z a => some (none, ⟨10, 0x10, cat 7 (BitVec.ofBool nw) (cat 6 st z), a, 0⟩)
  | .mmas true nw st z a => some (none, ⟨10, 0x11, cat 7 (BitVec.ofBool nw) (cat 6 st z), a, 0⟩)
  | .mmaq .e4m3 nw st z a => some (none, ⟨10, 0x14, cat 7 (BitVec.ofBool nw) (cat 6 st z), a, 0⟩)
  | .mmaq .e5m2 nw st z a => some (none, ⟨10, 0x15, cat 7 (BitVec.ofBool nw) (cat 6 st z), a, 0⟩)
  | .mmaq .bf16 nw st z a => some (none, ⟨10, 0x16, cat 7 (BitVec.ofBool nw) (cat 6 st z), a, 0⟩)
  | .mmal .e4m3 nw st z a c => some (none, ⟨10, 0x18, cat 7 (BitVec.ofBool nw) (cat 6 st z), a, c⟩)
  | .mmal .e5m2 nw st z a c => some (none, ⟨10, 0x19, cat 7 (BitVec.ofBool nw) (cat 6 st z), a, c⟩)
  | .mmal .bf16 nw st z a c => some (none, ⟨10, 0x1A, cat 7 (BitVec.ofBool nw) (cat 6 st z), a, c⟩)
  | .zclr k z => some (none, ⟨10, 0x1C, cat 7 k.code z, 0, 0⟩)
  | .zld k z a i => some (encS7 10 0x1D (cat 7 k.code z) a i)
  | .zmov d a i => some (encU7 10 0x1E d a i)
  | .zscale d a b => some (none, ⟨10, 0x1F, d, a, b⟩)
  | .zsto false d a i => some (encS7 10 0x20 d a i)
  | .zsto true d a i => some (encS7 10 0x21 d a i)
  | .zrel d => some (none, ⟨10, 0x22, d, 0, 0⟩)
  | .zwait d => some (none, ⟨10, 0x23, d, 0, 0⟩)
  | .spack d a => some (none, ⟨10, 0x24, d, a, 0⟩)
  | .strpub f st a b => some (none, ⟨10, 0x25, cat 7 f.code st, a, b⟩)
  | .strsub d i => some (encU14 10 0x26 d i)
  | .strend d => some (none, ⟨10, 0x27, d, 0, 0⟩)
  | .mstat d a i => some (encU7 10 0x28 d a i)
  | .kenc c d a => some (none, ⟨11, 0x00, d, a, c.setWidth 7⟩)
  | .kdec c d a => some (none, ⟨11, 0x01, d, a, c.setWidth 7⟩)
  | .kpar c d a => some (none, ⟨11, 0x02, d, a, c.setWidth 7⟩)
  | .kchld c j d a => some (none, ⟨11, 0x03, d, a, cat 7 j c⟩)
  | .kref m d a => some (none, ⟨11, 0x04, d, a, m.setWidth 7⟩)
  | .kcoars m d a => some (none, ⟨11, 0x05, d, a, m.setWidth 7⟩)
  | .kown m d a => some (none, ⟨11, 0x08, d, a, m.setWidth 7⟩)
  | .kcost m d a => some (none, ⟨11, 0x09, d, a, m.setWidth 7⟩)
  | .kcutq m d a => some (none, ⟨11, 0x0B, d, a, m.setWidth 7⟩)
  | .knbr f m d a => some (none, ⟨11, 0x06, d, a, cat 7 m f.code⟩)
  | .knext f m d a => some (none, ⟨11, 0x07, d, a, cat 7 m f.code⟩)
  | .krebal clr m d a => some (none, ⟨11, 0x0A, d, a, cat 7 (BitVec.ofBool clr) m⟩)
  | .kmeshCurve n d a => some (none, ⟨11, 0x0C, d, a, n.setWidth 7⟩)
  | .kmeshDef n d a => some (none, ⟨11, 0x0D, d, a, n.setWidth 7⟩)
  | .kmeshRel n d => some (none, ⟨11, 0x0E, d, 0, n.setWidth 7⟩)
  | .swbeg d a i => some (encU7 12 0x00 d a i)
  | .swnext => some (none, ⟨12, 0x01, 0, 0, 0⟩)
  | .swret a => some (none, ⟨12, 0x02, 0, a, 0⟩)
  | .swake d a i => some (encU7 12 0x03 d a i)
  | .swend ab d => some (none, ⟨12, 0x04, d, 0, (BitVec.ofBool ab).setWidth 7⟩)
  | .swstat d i => some (encU7 12 0x05 d 0 i)
  | .pour d a i => some (encS7 12 0x10 d a i)
  | .edgeq d a i => some (encU7 12 0x11 d a i)
  | .gangq d a i => some (encU7 12 0x12 d a i)
  | .ctlr d i => some (encU7 13 0x00 d 0 i)
  | .ctlw a i => some (encU7 13 0x01 0 a i)
  | .tlbinv d a b => some (none, ⟨13, 0x02, d, a, b⟩)
  | .eret => some (none, ⟨13, 0x03, 0, 0, 0⟩)
  | .preempt k d a => some (none, ⟨13, 0x04, d, a, (BitVec.ofBool k).setWidth 7⟩)
  | .ctxsv d a => some (none, ⟨13, 0x05, d, a, 0⟩)
  | .ctxld d a => some (none, ⟨13, 0x06, d, a, 0⟩)
  | .engrst a => some (none, ⟨13, 0x07, 0, a, 0⟩)
  | .evtq wt d => some (none, ⟨13, 0x08, d, 0, (BitVec.ofBool wt).setWidth 7⟩)
  | .tresume d a b => some (none, ⟨13, 0x09, d, a, b⟩)
  | .ill => some (none, ⟨15, 0x3F, 0x7F, 0x7F, 0x7F⟩)
  | .issueDecision => none
  | .warpStarvationBound => none
  | .pcStarvationBound => none
  | .resultReturn => none
  | .markerRelease => none
  | .mwaitRelease => none
  | .regroupFire => none
  | .lensEntryWrite => none
  | .lensEntryEmpty => none
  | .copyEntry => none
  | .copysEntry => none
  | .copymEntry => none
  | .prismServe => none
  | .homeRequest => none
  | .waitvRepoll => none
  | .pinEnd => none
  | .l1Eviction => none
  | .integrityError => none
  | .translationWalk => none
  | .faultRecordResume => none
  | .eventEnqueue => none
  | .eventRead => none
  | .launchQueueTake => none
  | .unitPlacement => none
  | .admissionDecision => none
  | .admissionOverdue => none
  | .candidateReserved => none
  | .taskSave => none
  | .heatRefill => none
  | .taskRetire => none
  | .retireResume => none
  | .matrixGrant => none
  | .passComplete => none
  | .grantAgeing => none
  | .tilePortPerform => none
  | .watchdogTrip => none
  | .passAbandon => none
  | .sweepStart => none
  | .cursorAdvance => none
  | .sweepWake => none
  | .sweepDispatch => none
  | .jobEnd => none
  | .rendezvousArrival => none
  | .replicaApply => none
  | .leafSwitch => none
  | .mirrorEntry => none
  | .mirrorRecall => none
  | .mirrorCopy => none
  | .mirrorSwitch => none
  | .snpInv => none
  | .snpData => none
  | .snpCur => none
  | .hostMemRead => none
  | .hostMemWrite => none
  | .peerRequest => none
  | .peerRequestTimeout => none
  | .routerArbitrate => none
  | .g2Ageing => none
  | .dieHalted => none
  | .lqputWrite => none
  | .lqctlWrite => none
  | .lqerrClear => none
  | .mbCreate => none
  | .mbDestroy => none
  | .mbHalt => none
  | .mbSave => none
  | .mbLoad => none
  | .mbTcmap => none
  | .mbMovepage => none
  | .mbBias => none
  | .mbTlbinv => none
  | .mbPowercap => none
  | .mbHeat => none
  | .mbEngreset => none
  | .mailboxAnswer => none
  | .mbstatClear => none
  | .engrstcWrite => none
  | .hbctlWrite => none
  | .hbcapWrite => none
  | .registerWrite => none
  | .pwrstatClear => none
  | .powerCapEnforce => none
  | .powerCapRestore => none
  | .thermalShutdown => none
  | .functionReset => none
  | .powerOn => none
  | .bootFetchRetry => none
  | .linkRetrainBegin => none
  | .linkRetrainDone => none
  | .linkRetire => none
  | .bootImageFetched => none
  | .diesBelow85C => none
  | .mbdoorWrite => none

/-- The LIMM and the word of an instruction with a marker bit. -/
def encode (s : Bool) (i : Instr) : Option (Option (BitVec 21) × BitVec 32) :=
  (encodeFields i).map fun p => (p.1, p.2.toWord s)

end Sys2Proof
end

