-- ==== Sys2Proof/Machine/Operands.lean ====
section
/-! DEFINITION. Operand forms: which register file and how many registers each field of a form names (06 R118, R119 and
the field tables of each class), the values an encoded field may hold (06 R129 step 3), and the repeats of a REP
(R114). -/

namespace Sys2Proof

/-- A register file (06 Table 6-6). -/
inductive File where
  | v | p | m | z | bp | special
deriving DecidableEq, Repr

/-- The number of entries of a file (06 Table 6-6). -/
def File.size : File → Nat
  | .v => 128 | .p => 8 | .m => 12 | .z => 8 | .bp => 24 | .special => 25

/-- A field of an instruction word that may name registers (R110). -/
inductive Field where
  | d | a | b
deriving DecidableEq, Repr

/-- One register operand: its field, its file, its first register and how many registers it names. Its number must be
a multiple of that count (R119). -/
structure Operand where
  field : Field
  file : File
  num : Nat
  count : Nat
deriving DecidableEq, Repr

/-- An operand of `n` vector registers. -/
def vec (f : Field) (r : Reg) (n : Nat) : Operand := ⟨f, .v, r.toNat, n⟩
/-- An operand of one entry of a file. -/
def one (f : Field) (k : File) (r : Reg) : Operand := ⟨f, k, r.toNat, 1⟩
/-- Registers of a 32-bit or a 64-bit operand (R119). -/
def pairN (p : Bool) : Nat := if p then 2 else 1
/-- Registers of an integer type (R178). -/
def intN : IntTy → Nat
  | .i32 | .n32 => 1
  | .i64 | .n64 => 2
/-- Registers of an access width (R119, 06 Table 6-18). -/
def widthN : Width → Nat
  | .b8 | .b16 | .b32 => 1
  | .b64 => 2
  | .b128 => 4
/-- Bytes of an access width (06 Table 6-18). -/
def Width.bytes : Width → Nat
  | .b8 => 1 | .b16 => 2 | .b32 => 4 | .b64 => 8 | .b128 => 16
/-- Whether a CVT type has 64 bits (R203). -/
def NumTy.is64 : NumTy → Bool
  | .f64 | .i64 | .n64 => true
  | .f32 | .f16 | .bf16 | .e4m3 | .e5m2 | .i32 | .n32 | .i16 | .n16 | .i8 | .n8 => false
/-- Data registers per lane of a stream format (14 Table 14-2). -/
def SFmt.regs : SFmt → Nat
  | .e4m3 | .e5m2 | .i8 | .bf16 | .f16 | .sE4m3 | .sE5m2 | .q4k64 | .lut4k64 => 4
  | .f64 => 8
  | .q4k32 | .lut4k32 => 2
/-- Whether a stream format has a metadata or scale register (14 Table 14-2). -/
def SFmt.hasB : SFmt → Bool
  | .e4m3 | .e5m2 | .i8 | .bf16 | .f16 | .f64 => false
  | .sE4m3 | .sE5m2 | .q4k64 | .q4k32 | .lut4k64 | .lut4k32 => true

/-- The register operands of an instruction (06 Tables 6-3 to 6-24; 09 Tables 9-1 to 9-6; 10 Tables 10-1, 10-2;
12 Table 12-1; 14 Table 14-1; 15 Table 15-3; 16 Table 16-3; 19 Table 19-1; 20 Table 20-9; 21 Table 21-3;
04 Table 4-7; 05 Table 5-3). -/
def Instr.operands : Instr → List Operand
  | .nop | .bra _ | .call _ | .exit | .yield | .rep _ _ _ _
  | .guard _ _ _ | .limm | .wbase _ | .wbaseAdd _ | .trap _ | .sysc _
  | .fbar | .ill | .wpart _ | .lensinv _ | .qfence _ _ _ | .cwait _
  | .fenceAcq _ | .fenceRel _ | .fenceAcqrel _ | .strsub _ _ | .strend _ | .swnext
  | .eret => []
  | .calli d a | .fsqrtF64 d a | .frndF64 _ d a | .fnegF64 d a | .fabsF64 d a | .kpar _ d a
  | .kchld _ _ d a | .krebal _ _ d a => [vec .d d 2, vec .a a 2]
  | .ret a | .jmpi a | .pref _ a _ | .lensld a _ | .feset a _ | .feclr a _
  | .ctlw a _ => [vec .a a 2]
  | .bcmp _ d _ | .movi d _ | .flagr d | .rng d | .kmeshRel _ d | .swend _ d
  | .swstat d _ => [vec .d d 1]
  | .add p d a b | .addc p d a b | .sub p d a b | .subb p d a b | .mul p d a b | .mad p d a b => [vec .d d (pairN p), vec .a a (pairN p), vec .b b (pairN p)]
  | .mulh _ d a b | .div _ d a b | .divTrap _ d a b | .rem _ d a b | .and d a b | .or d a b
  | .xor d a b | .andn d a b | .shl d a b | .shr d a b | .shra d a b | .rot d a b
  | .sel d a b | .bfx _ d a b | .bfi d a b | .shfl _ d a b | .faddF32 d a b | .faddF16 d a b
  | .faddBf16 d a b | .fsubF32 d a b | .fsubF16 d a b | .fsubBf16 d a b | .fmulF32 d a b | .fmulF16 d a b
  | .fmulBf16 d a b | .ffmaF32 d a b | .ffmaF16 d a b | .ffmaBf16 d a b | .fminF32 d a b | .fminF16 d a b
  | .fminBf16 d a b | .fmaxF32 d a b | .fmaxF16 d a b | .fmaxBf16 d a b | .fdiv d a b | .fscale d a b
  | .hfma2 _ d a b | .dot4E4m3 d a b | .dot4E5m2 d a b | .dot4I8 d a b | .cvtqDec d a b | .cvtqEnc d a b
  | .tresume d a b => [vec .d d 1, vec .a a 1, vec .b b 1]
  | .min t d a b | .max t d a b => [vec .d d (intN t), vec .a a (intN t), vec .b b (intN t)]
  | .abs d a | .neg d a | .not d a | .mulI d a _ | .andI d a _ | .orI d a _
  | .xorI d a _ | .rotI d a _ | .minIS d a _ | .minIU d a _ | .maxIS d a _ | .maxIU d a _
  | .popc d a | .clz d a | .ctz d a | .brev d a | .tjoin d a | .tleave d a
  | .wregrp d a | .groute d a | .wsort d a | .redw _ d a | .scanw _ d a | .fnegF32 d a
  | .fnegF16 d a | .fnegBf16 d a | .fabsF32 d a | .fabsF16 d a | .fabsBf16 d a | .fsqrt d a
  | .frcp d a | .frsq d a | .fexp2 d a | .flog2 d a | .fsin d a | .fcos d a
  | .ftanh d a | .fclass d a | .frndRne d a | .frndRz d a | .frndRd d a | .frndRu d a
  | .cvtxIns _ _ _ d a | .cvtxExt _ _ d a | .lensq d a _ | .spack d a | .mstat d a _ | .gangq d a _
  | .preempt _ d a => [vec .d d 1, vec .a a 1]
  | .shl64 d a b | .shr64 d a b | .shra64 d a b | .lea d a b | .fscaleF64 d a b => [vec .d d 2, vec .a a 2, vec .b b 1]
  | .addI p d a _ | .shlI p d a _ | .shrI p d a _ | .shraI p d a _ => [vec .d d (pairN p), vec .a a (pairN p)]
  | .leaI d a _ => [vec .d d 2, vec .a a 1]
  | .movi64 d _ | .ctlr d _ => [vec .d d 2]
  | .pset _ t d a b => [one .d .p d, vec .a a (intN t), vec .b b (intN t)]
  | .pand d a b | .por d a b | .pxor d a b => [one .d .p d, one .a .p a, one .b .p b]
  | .pnot d a => [one .d .p d, one .a .p a]
  | .pmovReg d a | .lcomp d a => [vec .d d 1, one .a .p a]
  | .pmovPred d a => [one .d .p d, vec .a a 1]
  | .smov d a => [vec .d d 1, one .a .special a]
  | .swr d a => [one .d .special d, vec .a a 1]
  | .mjoin d | .mleave d | .mwait d => [one .d .m d]
  | .mset d a => [one .d .m d, vec .a a 1]
  | .mread d a => [vec .d d 1, one .a .m a]
  | .match w d a => [vec .d d 1, vec .a a (pairN w)]
  | .vote v d a => [(match v with | .ballot => vec .d d 1 | .any | .all | .uni => one .d .p d), one .a .p a]
  | .fcmp _ d a b => [one .d .p d, vec .a a 1, vec .b b 1]
  | .fsel d a b => [vec .d d 1, vec .a a 1, one .b .p b]
  | .faddF64 d a b | .fsubF64 d a b | .fmulF64 d a b | .ffmaF64 d a b | .fminF64 d a b | .fmaxF64 d a b
  | .fdivF64 d a b | .waitvB64 d a b => [vec .d d 2, vec .a a 2, vec .b b 2]
  | .fcmpF64 _ d a b => [one .d .p d, vec .a a 2, vec .b b 2]
  | .fclassF64 d a | .kref _ d a | .kcoars _ d a | .kcost _ d a | .kmeshCurve _ d a | .kmeshDef _ d a
  | .swake d a _ | .pour d a _ | .edgeq d a _ => [vec .d d 1, vec .a a 2]
  | .flagc a | .swret a | .engrst a => [vec .a a 1]
  | .rngseed a b | .cwb _ a b | .cinv _ a b | .cwbinv _ a b | .icinv _ a b => [vec .a a 2, vec .b b 1]
  | .cvt _ dst src _ d a => [vec .d d (pairN dst.is64), vec .a a (pairN src.is64)]
  | .ld _ w d a _ | .st _ w d a _ | .lds w d a _ | .sts w d a _ | .ldAcq w _ d a | .stRel w _ d a => [vec .d d (widthN w), vec .a a 2]
  | .ldx w d a _ | .stx w d a _ => [vec .d d (pairN w), vec .a a 2]
  | .copy _ d a _ | .copys _ d a _ | .kdec _ d a => [vec .d d 4, vec .a a 2]
  | .copym _ d a _ => [vec .d d 4, vec .a a 4]
  | .cstore _ d a b | .xpand _ d a b => [vec .d d 1, vec .a a 4, one .b .p b]
  | .gath m t d a _ => [vec .d d (pairN (t == .f64)), vec .a a (if m then 2 else 4)]
  | .scat t d a _ => [vec .d d (pairN (t == .f64)), vec .a a 4]
  | .atom _ w d a b => [vec .d d (pairN w), vec .a a 2, vec .b b (pairN w)]
  | .acas w d a b => [vec .d d (pairN w), vec .a a 2, vec .b b (if w then 4 else 2)]
  | .red _ w a b => [vec .a a 2, vec .b b (pairN w)]
  | .waitvB32 d a b | .tlbinv d a b => [vec .d d 1, vec .a a 2, vec .b b 1]
  | .binit d a _ | .barv d a _ => [one .d .bp d, vec .a a 1]
  | .barvr d a b => [one .d .bp d, vec .a a 2, vec .b b 1]
  | .bwait d _ => [one .d .bp d]
  | .btest d a _ => [vec .d d 1, one .a .bp a]
  | .mma t _ _ z a => [one .d .z (z.setWidth 7), vec .a a (if t == .f64f64 then 16 else 8)]
  | .mmas _ _ _ z a | .mmaq _ _ _ z a => [one .d .z (z.setWidth 7), vec .a a 16]
  | .mmal _ _ _ z a c => [one .d .z (z.setWidth 7), vec .a a 16, vec .b c 1]
  | .zclr _ z => [one .d .z (z.setWidth 7)]
  | .zld _ z a _ => [one .d .z (z.setWidth 7), vec .a a 2]
  | .zmov d a _ => [vec .d d 8, one .a .z a]
  | .zscale d a b => [one .d .z d, vec .a a 2, vec .b b 2]
  | .zsto _ d a _ => [one .d .z d, vec .a a 2]
  | .zrel d | .zwait d => [one .d .z d]
  | .strpub f _ a b => [vec .a a f.regs] ++ (if f.hasB then [vec .b b 1] else [])
  | .kenc _ d a | .swbeg d a _ | .ctxsv d a | .ctxld d a => [vec .d d 2, vec .a a 4]
  | .knbr _ _ d a | .kown _ d a => [vec .d d 8, vec .a a 2]
  | .knext _ _ d a => [vec .d d 8, vec .a a 4]
  | .kcutq _ d a => [vec .d d 4, vec .a a 1]
  | .evtq _ d => [vec .d d 4]
  | .issueDecision | .warpStarvationBound | .pcStarvationBound | .resultReturn | .markerRelease | .mwaitRelease
  | .regroupFire | .lensEntryWrite | .lensEntryEmpty | .copyEntry | .copysEntry | .copymEntry
  | .prismServe | .homeRequest | .waitvRepoll | .pinEnd | .l1Eviction | .integrityError
  | .translationWalk | .faultRecordResume | .eventEnqueue | .eventRead | .launchQueueTake | .unitPlacement
  | .admissionDecision | .admissionOverdue | .candidateReserved | .taskSave | .heatRefill | .taskRetire
  | .retireResume | .matrixGrant | .passComplete | .grantAgeing | .tilePortPerform | .watchdogTrip
  | .passAbandon | .sweepStart | .cursorAdvance | .sweepWake | .sweepDispatch | .jobEnd
  | .rendezvousArrival | .replicaApply | .leafSwitch | .mirrorEntry | .mirrorRecall | .mirrorCopy
  | .mirrorSwitch | .snpInv | .snpData | .snpCur | .hostMemRead | .hostMemWrite
  | .peerRequest | .peerRequestTimeout | .routerArbitrate | .g2Ageing | .dieHalted | .lqputWrite
  | .lqctlWrite | .lqerrClear | .mbCreate | .mbDestroy | .mbHalt | .mbSave
  | .mbLoad | .mbTcmap | .mbMovepage | .mbBias | .mbTlbinv | .mbPowercap
  | .mbHeat | .mbEngreset | .mailboxAnswer | .mbstatClear | .engrstcWrite | .hbctlWrite
  | .hbcapWrite | .registerWrite | .pwrstatClear | .powerCapEnforce | .powerCapRestore | .thermalShutdown
  | .functionReset | .powerOn | .bootFetchRetry | .linkRetrainBegin | .linkRetrainDone | .linkRetire
  | .bootImageFetched | .diesBelow85C | .mbdoorWrite => []

/-- The immediate of a form and how its word carries it (R111): signed or unsigned, of 7 or 14 bits. -/
inductive ImmForm where
  | none | s7 (i : Imm) | u7 (i : Imm) | s14 (i : Imm) | u14 (i : Imm)
deriving DecidableEq, Repr

/-- The immediate of an instruction (R111). -/
def Instr.immForm : Instr → ImmForm
  | .nop | .bra _ | .call _ | .calli _ _ | .ret _ | .jmpi _
  | .exit | .yield | .rep _ _ _ _ | .guard _ _ _ | .limm | .fbar
  | .ill | .add _ _ _ _ | .addc _ _ _ _ | .sub _ _ _ _ | .subb _ _ _ _ | .mul _ _ _ _
  | .mulh _ _ _ _ | .mad _ _ _ _ | .div _ _ _ _ | .divTrap _ _ _ _ | .rem _ _ _ _ | .min _ _ _ _
  | .max _ _ _ _ | .abs _ _ | .neg _ _ | .and _ _ _ | .or _ _ _ | .xor _ _ _
  | .not _ _ | .andn _ _ _ | .shl _ _ _ | .shl64 _ _ _ | .shr _ _ _ | .shr64 _ _ _
  | .shra _ _ _ | .shra64 _ _ _ | .rot _ _ _ | .sel _ _ _ | .lea _ _ _ | .pset _ _ _ _ _
  | .pand _ _ _ | .por _ _ _ | .pxor _ _ _ | .pnot _ _ | .pmovReg _ _ | .pmovPred _ _
  | .bfx _ _ _ _ | .bfi _ _ _ | .popc _ _ | .clz _ _ | .ctz _ _ | .brev _ _
  | .smov _ _ | .swr _ _ | .tjoin _ _ | .tleave _ _ | .mjoin _ | .mleave _
  | .mwait _ | .mset _ _ | .mread _ _ | .wregrp _ _ | .groute _ _ | .wsort _ _
  | .lcomp _ _ | .match _ _ _ | .vote _ _ _ | .shfl _ _ _ _ | .redw _ _ _ | .scanw _ _ _
  | .faddF32 _ _ _ | .faddF16 _ _ _ | .faddBf16 _ _ _ | .fsubF32 _ _ _ | .fsubF16 _ _ _ | .fsubBf16 _ _ _
  | .fmulF32 _ _ _ | .fmulF16 _ _ _ | .fmulBf16 _ _ _ | .ffmaF32 _ _ _ | .ffmaF16 _ _ _ | .ffmaBf16 _ _ _
  | .fminF32 _ _ _ | .fminF16 _ _ _ | .fminBf16 _ _ _ | .fmaxF32 _ _ _ | .fmaxF16 _ _ _ | .fmaxBf16 _ _ _
  | .fnegF32 _ _ | .fnegF16 _ _ | .fnegBf16 _ _ | .fabsF32 _ _ | .fabsF16 _ _ | .fabsBf16 _ _
  | .fcmp _ _ _ _ | .fsel _ _ _ | .fdiv _ _ _ | .fsqrt _ _ | .frcp _ _ | .frsq _ _
  | .fexp2 _ _ | .flog2 _ _ | .fsin _ _ | .fcos _ _ | .ftanh _ _ | .fclass _ _
  | .frndRne _ _ | .frndRz _ _ | .frndRd _ _ | .frndRu _ _ | .fscale _ _ _ | .hfma2 _ _ _ _
  | .dot4E4m3 _ _ _ | .dot4E5m2 _ _ _ | .dot4I8 _ _ _ | .faddF64 _ _ _ | .fsubF64 _ _ _ | .fmulF64 _ _ _
  | .ffmaF64 _ _ _ | .fminF64 _ _ _ | .fmaxF64 _ _ _ | .fdivF64 _ _ _ | .fsqrtF64 _ _ | .fcmpF64 _ _ _ _
  | .frndF64 _ _ _ | .fnegF64 _ _ | .fabsF64 _ _ | .fclassF64 _ _ | .fscaleF64 _ _ _ | .cvtqDec _ _ _
  | .cvtqEnc _ _ _ | .cvtxIns _ _ _ _ _ | .cvtxExt _ _ _ _ | .flagr _ | .flagc _ | .rng _
  | .rngseed _ _ | .cvt _ _ _ _ _ _ | .cwb _ _ _ | .cinv _ _ _ | .cwbinv _ _ _ | .icinv _ _ _
  | .qfence _ _ _ | .cwait _ | .cstore _ _ _ _ | .xpand _ _ _ _ | .ldAcq _ _ _ _ | .stRel _ _ _ _
  | .atom _ _ _ _ _ | .acas _ _ _ _ | .red _ _ _ _ | .fenceAcq _ | .fenceRel _ | .fenceAcqrel _
  | .waitvB32 _ _ _ | .waitvB64 _ _ _ | .binit _ _ _ | .barv _ _ _ | .barvr _ _ _ | .bwait _ _
  | .btest _ _ _ | .mma _ _ _ _ _ | .mmas _ _ _ _ _ | .mmaq _ _ _ _ _ | .mmal _ _ _ _ _ _ | .zclr _ _
  | .zscale _ _ _ | .zrel _ | .zwait _ | .spack _ _ | .strpub _ _ _ _ | .strend _
  | .kenc _ _ _ | .kdec _ _ _ | .kpar _ _ _ | .kchld _ _ _ _ | .kref _ _ _ | .kcoars _ _ _
  | .knbr _ _ _ _ | .knext _ _ _ _ | .kown _ _ _ | .kcost _ _ _ | .krebal _ _ _ _ | .kcutq _ _ _
  | .kmeshCurve _ _ _ | .kmeshDef _ _ _ | .kmeshRel _ _ | .swnext | .swret _ | .swend _ _
  | .tlbinv _ _ _ | .eret | .preempt _ _ _ | .ctxsv _ _ | .ctxld _ _ | .engrst _
  | .evtq _ _ | .tresume _ _ _ | .issueDecision | .warpStarvationBound | .pcStarvationBound | .resultReturn
  | .markerRelease | .mwaitRelease | .regroupFire | .lensEntryWrite | .lensEntryEmpty | .copyEntry
  | .copysEntry | .copymEntry | .prismServe | .homeRequest | .waitvRepoll | .pinEnd
  | .l1Eviction | .integrityError | .translationWalk | .faultRecordResume | .eventEnqueue | .eventRead
  | .launchQueueTake | .unitPlacement | .admissionDecision | .admissionOverdue | .candidateReserved | .taskSave
  | .heatRefill | .taskRetire | .retireResume | .matrixGrant | .passComplete | .grantAgeing
  | .tilePortPerform | .watchdogTrip | .passAbandon | .sweepStart | .cursorAdvance | .sweepWake
  | .sweepDispatch | .jobEnd | .rendezvousArrival | .replicaApply | .leafSwitch | .mirrorEntry
  | .mirrorRecall | .mirrorCopy | .mirrorSwitch | .snpInv | .snpData | .snpCur
  | .hostMemRead | .hostMemWrite | .peerRequest | .peerRequestTimeout | .routerArbitrate | .g2Ageing
  | .dieHalted | .lqputWrite | .lqctlWrite | .lqerrClear | .mbCreate | .mbDestroy
  | .mbHalt | .mbSave | .mbLoad | .mbTcmap | .mbMovepage | .mbBias
  | .mbTlbinv | .mbPowercap | .mbHeat | .mbEngreset | .mailboxAnswer | .mbstatClear
  | .engrstcWrite | .hbctlWrite | .hbcapWrite | .registerWrite | .pwrstatClear | .powerCapEnforce
  | .powerCapRestore | .thermalShutdown | .functionReset | .powerOn | .bootFetchRetry | .linkRetrainBegin
  | .linkRetrainDone | .linkRetire | .bootImageFetched | .diesBelow85C | .mbdoorWrite => .none
  | .bcmp _ _ i | .wbaseAdd i | .movi _ i => .s14 i
  | .wbase i | .trap i | .sysc i | .movi64 _ i | .wpart i | .strsub _ i => .u14 i
  | .addI _ _ _ i | .mulI _ _ i | .andI _ _ i | .orI _ _ i | .xorI _ _ i | .minIS _ _ i
  | .minIU _ _ i | .maxIS _ _ i | .maxIU _ _ i | .ld _ _ _ _ i | .st _ _ _ _ i | .lds _ _ _ i
  | .sts _ _ _ i | .pref _ _ i | .feset _ i | .feclr _ i | .zld _ _ _ i | .zsto _ _ _ i
  | .pour _ _ i => .s7 i
  | .shlI _ _ _ i | .shrI _ _ _ i | .shraI _ _ _ i | .rotI _ _ i | .leaI _ _ i | .ldx _ _ _ i
  | .stx _ _ _ i | .lensld _ i | .lensinv i | .lensq _ _ i | .copy _ _ _ i | .copys _ _ _ i
  | .copym _ _ _ i | .gath _ _ _ _ i | .scat _ _ _ i | .zmov _ _ i | .mstat _ _ i | .swbeg _ _ i
  | .swake _ _ i | .swstat _ i | .edgeq _ _ i | .gangq _ _ i | .ctlr _ i | .ctlw _ i => .u7 i

/-- Whether some word, with or without a LIMM, carries an immediate (R111, R116): an RRI immediate is the sign
extension of its low 28 bits, or an unsigned imm7; an RI14 immediate is any value. -/
def ImmForm.encodable : ImmForm → Bool
  | .none | .s14 _ | .u14 _ => true
  | .s7 i | .u7 i => (i.setWidth 28).signExtend 32 = i

/-- Whether a special register may be written by SWR (06 Table 6-7). -/
def specialWritable (n : Nat) : Bool := n == 14 || n == 16 || (21 ≤ n && n ≤ 24)

/-- A lens number, 0 to 255 (Table 6-18 note). -/
def lensOk (i : Imm) : Bool := i.toNat ≤ 255

/-- Whether the encoded fields of an instruction hold values their entry allows (R129 step 3): ranges of immediates, lens numbers, queue
sets, stream numbers and selectors, and the combinations of CVT and CVTX that the decoder refuses too. -/
def Instr.fieldsOk (i : Instr) : Bool :=
  match i with
  | .leaI _ _ k => k.toNat ≤ 7                                     -- R177
  | .wpart k => k.toNat ≤ 4                                        -- R189
  | .ldx _ _ _ k | .stx _ _ _ k => k.toNat ≤ 63                    -- 12 Table 12-1
  | .pref d _ _ => d.toNat ≤ 2                                     -- R231, R237
  | .lensld _ k | .lensinv k | .lensq _ _ k | .copy _ _ _ k | .copys _ _ _ k | .copym _ _ _ k | .gath _ _ _ _ k
  | .scat _ _ _ k | .swbeg _ _ k | .swake _ _ k => lensOk k        -- R231, R334
  | .qfence sc rel q => q ≠ 0 && (rel || sc == .thread)            -- R247, R248
  | .cwait q => q ≠ 0                                              -- R247
  | .strsub d k => d.toNat ≤ 7 && 1 ≤ k.toNat && k.toNat ≤ 256     -- R294
  | .strend d => d.toNat ≤ 7                                       -- R280
  | .strpub f _ _ b => f.hasB || b == 0                            -- R293
  | .mstat _ _ k => k.toNat ≤ 5                                    -- 14 Table 14-1
  | .gangq _ _ k => k.toNat ≤ 5                                    -- 05 Table 5-3
  | .swstat _ k => k.toNat ≤ 4                                     -- 16 Table 16-3
  | .edgeq _ _ k => k.toNat ≤ 127                                  -- R83: the edge number
  | .zmov _ _ k => k.toNat ≤ 15                                    -- R289: the parts of some kind
  | .ctlr _ k | .ctlw _ k => k.toNat ≤ 13                          -- R425, R426
  | .cvt x dst _ _ _ _ => !x || dst == .e4m3 || dst == .e5m2       -- R203
  | .cvtxIns y n _ _ _ | .cvtxExt y n _ _ => n.toNat ≤ 1 || y == .e4m3 || y == .e5m2   -- R205
  | .swr d _ => specialWritable d.toNat || 25 ≤ d.toNat            -- R122; a number of 25 or more fails R119's check
  | _ => true

/-- R119: an operand's number is a multiple of its count and lies within its file. -/
def Operand.aligned (o : Operand) : Bool := o.num % o.count == 0 && o.num + o.count ≤ o.file.size

/-- R120: with `a` allocated registers and window base `wb`, an operand names only rows of the thread. -/
def Operand.inRows (a wb : Nat) (o : Operand) : Bool := o.file != .v || wb + o.num + o.count ≤ a

/-- R119 for every operand of an instruction. -/
def Instr.aligned (i : Instr) : Bool := i.operands.all Operand.aligned

/-- The word of repeat `j` of a REP: D + j·sD, A + j·sA, B + j·sB (R114). -/
def repWord (w : BitVec 32) (sD sA sB : Bool) (j : Nat) : BitVec 32 :=
  w + BitVec.ofNat 32 (j * ((if sD then 2 ^ 14 else 0) + (if sA then 2 ^ 7 else 0) + (if sB then 1 else 0)))

/-- The register operand that a field names, if it names one (R114: a register field). -/
def Instr.fieldOperand (i : Instr) (f : Field) : Option Operand := i.operands.find? fun o => o.field == f

/-- Whether a REP of `n` repeats steps a field past the last entry of its file (R114, cause REPOVF). -/
def Instr.repOverflow (i : Instr) (n : Nat) (sD sA sB : Bool) : Bool :=
  [(Field.d, sD), (Field.a, sA), (Field.b, sB)].any fun (f, s) =>
    s && (match i.fieldOperand f with
          | some o => o.num + (n - 1) ≥ o.file.size
          | none => false)

/-- Whether a REP steps a field that is no register field of its target (R114). -/
def Instr.repNotRegister (i : Instr) (sD sA sB : Bool) : Bool :=
  [(Field.d, sD), (Field.a, sA), (Field.b, sB)].any fun (f, s) => s && (i.fieldOperand f).isNone

/-- The operands of repeat `j` (R114). -/
def Operand.step (j : Nat) (sD sA sB : Bool) (o : Operand) : Operand :=
  let s := match o.field with | .d => sD | .a => sA | .b => sB
  if s then { o with num := o.num + j } else o

end Sys2Proof
end

