-- ==== Sys2Proof/Machine/Mem.lean ====
section
/-! DEFINITION. Memory as programs see it: bytes at their homes, poison (11 R228), L1 words, owner records and recalls
(18 R358 to R360), pins and retries (17 R351, R352), releases and acquires (17 R343), requests at the home slice (18
R359, Table 18-1), watches (19 R381) and the atomics of 19 Table 19-2. -/

namespace Sys2Proof.Machine

open Sys2Proof

/-! ## Bytes -/

/-- The byte at an address. -/
def Memory.read : List Host.Cell → Nat → Byte
  | [], _ => Memory.unlisted
  | c :: t, a => if a = c.1 then c.2 else if a < c.1 then Memory.unlisted else Memory.read t a

/-- Memory with one byte written, in canonical form. -/
def Memory.write : List Host.Cell → Nat → Byte → List Host.Cell
  | [], a, b => if b = Memory.unlisted then [] else [(a, b)]
  | c :: t, a, b =>
    if a < c.1 then (if b = Memory.unlisted then c :: t else (a, b) :: c :: t)
    else if a = c.1 then (if b = Memory.unlisted then t else (a, b) :: t)
    else c :: Memory.write t a b

/-- The `n` bytes from `a` as a little-endian number (R2). -/
def Memory.readN (m : List Host.Cell) (a : Nat) : Nat → Nat
  | 0 => 0
  | k + 1 => (Memory.read m a).toNat + 256 * Memory.readN m (a + 1) k

/-- Memory with `n` bytes written from `a`, little-endian (R2). -/
def Memory.writeN (m : List Host.Cell) (a : Nat) : Nat → Nat → List Host.Cell
  | 0, _ => m
  | k + 1, v => Memory.writeN (Memory.write m a (BitVec.ofNat 8 v)) (a + 1) k (v / 256)

/-- The aligned 32-bit words that a part of `n` bytes at `a` touches. -/
def wordKeys (a n : Nat) : List Nat := (upTo ((a + n + 3) / 4 - a / 4)).map fun i => a / 4 * 4 + 4 * i

/-- The 32-bit words of the aligned 64-bit words that a part touches. Copies are held and dropped in such pairs, so that one holds a
64-bit part as it stood at one moment (R350). -/
def pairKeys (a n : Nat) : List Nat := wordKeys (a / 8 * 8) ((a + n + 7) / 8 * 8 - a / 8 * 8)

/-- Whether any 64-bit word of the part is poisoned (R228). -/
def MemSys.poisoned (m : MemSys) (a n : Nat) : Bool := m.poison.any fun p => p < a + n && a < p + 8

/-- Poison ends where one write covers the 64-bit word wholly (R228). -/
def MemSys.unpoison (m : MemSys) (a n : Nat) : MemSys :=
  { m with poison := m.poison.filter fun p => !(a ≤ p && p + 8 ≤ a + n) }

/-! ## L1, owners and pins -/

/-- The L1 word of a core. -/
def MemSys.l1? (m : MemSys) (c w : Nat) : Option L1Word := m.l1.find? fun x => x.core == c && x.key == w

/-- L1 with one word put in place of any earlier one. -/
def MemSys.putL1 (m : MemSys) (x : L1Word) : MemSys :=
  { m with l1 := m.l1.filter (fun y => !(y.core == x.core && y.key == x.key)) ++ [x] }

/-- L1 with the words of a core that meet `p` dropped. -/
def MemSys.dropL1 (m : MemSys) (c : Nat) (p : L1Word → Bool) : MemSys :=
  { m with l1 := m.l1.filter fun y => !(y.core == c && p y) }

/-- The owner of a word, as its package and core (R358). -/
def MemSys.owner? (m : MemSys) (w : Nat) : Option (Nat × Nat) :=
  match m.owners.find? fun o => o.line == w / 128 * 128 && o.bits.getLsbD (w % 128 / 4) with
  | some o => some (o.pkg, o.core)
  | none => none

/-- The owner record of a line without the owned bit of a word (R358). -/
def MemSys.disown (m : MemSys) (w : Nat) : MemSys :=
  { m with owners := (m.owners.map fun o =>
      if o.line == w / 128 * 128 then { o with bits := BitVec.ofNat 32 (putBit o.bits.toNat (w % 128 / 4) false) } else o
      ).filter fun o => o.bits != 0 }

/-- Whether another than a core of a package owns words of a line. -/
def MemSys.othersLine (m : MemSys) (pkg c w : Nat) : Bool :=
  m.owners.any fun o => o.line == w / 128 * 128 && !(o.core == c && o.pkg == pkg)

/-- The owner record of a word set to a core (R358, R359); a line has one owner at most, and what another owns stays its own. -/
def MemSys.own (m : MemSys) (pkg c grain w : Nat) : MemSys :=
  let line := w / 128 * 128
  let bit := BitVec.ofNat 32 (2 ^ (w % 128 / 4))
  if m.othersLine pkg c w then m
  else if m.owners.any (fun o => o.line == line) then
    { m with owners := m.owners.map fun o => if o.line == line then { o with bits := o.bits ||| bit, grain := grain } else o }
  else { m with owners := m.owners ++ [{ line := line, pkg := pkg, core := c, grain := grain, bits := bit }] }

/-- Whether a pin covers a word (R351). -/
def Pin.covers (p : Pin) (w : Nat) : Bool := p.grain ≤ w && w < p.grain + p.size

/-- Whether an agent lies outside the scope of a pin (R342, R351): its core, or none for an access made on behalf of no
thread, by the host or by a peer. -/
def Pin.outside (p : Pin) (agent : Option Nat) : Bool :=
  match agent with
  | none => true
  | some c =>
    match p.scope with
    | .thread | .team | .core => c != p.core
    | .cluster => coreCluster c != coreCluster p.core
    | .die => coreDie c != coreDie p.core
    | .pkg | .sys => false

/-- Whether an access receives a retry (R351). -/
def MemSys.retry (m : MemSys) (agent : Option Nat) (a n : Nat) : Bool :=
  (wordKeys a n).any fun w => m.pins.any fun p => p.covers w && p.outside agent

/-- Whether a word is held pinned by its owner (R351), which yields it to no recall. -/
def MemSys.pinnedWord (m : MemSys) (w : Nat) : Bool := m.pins.any fun p => p.covers w && !p.atHome

/-- The word `old` with the bytes of a part that fall into it replaced. -/
def mergeWord (old : Word) (w a n v : Nat) : Word :=
  BitVec.ofNat 32 (natOfBytes ((upTo 4).map fun i =>
    if a ≤ w + i && w + i < a + n then BitVec.ofNat 8 (v / 256 ^ (w + i - a)) else BitVec.ofNat 8 (old.toNat / 256 ^ i)))

/-- A write of a core noted: by a thread of it where it makes the write, else as the core's where it is performed at the home. -/
def MemSys.note (m : MemSys) (c : Nat) (slot : Option Nat) (ws : List Nat) : MemSys :=
  { m with
    wrote := m.wrote.filter (fun x => !(x.core == c && x.slot == slot && ws.contains x.key))
      ++ ws.map fun w => { core := c, slot := slot, key := w, at_ := m.now }
    now := m.now + 1 }

/-- What a write of a core does to copies on its way to the home: its die's remote-data-cache copy is updated, and its sector's near
copy of the line is dropped (R218, R219). -/
def MemSys.passOut (m : MemSys) (c a n v : Nat) : MemSys :=
  { m with
    rdc := m.rdc.map fun x =>
      if x.unit == coreDie c && (wordKeys a n).contains x.key then { x with val := mergeWord x.val x.key a n v } else x
    near := m.near.filter fun x => !(x.unit == coreSector c && (wordKeys a n).any fun w => w / 128 == x.key / 128) }

/-- A word that its owner has written, written back to its home (R215, R343, R359). -/
def MemSys.bringHome (m : MemSys) (x : L1Word) : MemSys :=
  (({ m with cells := Memory.writeN m.cells x.key 4 x.val.toNat }.passOut x.core x.key 4 x.val.toNat)).note x.core none [x.key]

/-- The 64-bit words that lie wholly among some words lose their poison: one write covers them (R228). -/
def MemSys.cover (m : MemSys) (ws : List Nat) : MemSys :=
  { m with poison := m.poison.filter fun p => !(ws.contains p && ws.contains (p + 4)) }

/-- A recall of one word (R359, R360): the owner's written value is merged at the home, and its L1 word becomes a .si copy.
A pinned word is not yielded (R351). -/
def MemSys.recall (m : MemSys) (w : Nat) : MemSys :=
  match m.owner? w with
  | none => m
  | some (pkg, c) =>
    if m.pinnedWord w then m
    else if pkg != 0 then
      let old : Word := BitVec.ofNat 32 (Memory.readN m.cells w 4)
      { m with cells := Memory.writeN m.cells w 4 (Config.peerWord pkg c w old).toNat }.disown w
    else
      match m.l1? c w with
      | none => m.disown w
      | some x =>
        let m := if x.written then m.bringHome x else m
        (m.putL1 { x with hold := .si, written := false }).disown w

/-- The words of a list that a recall brings home written. -/
def MemSys.recalled (m : MemSys) (ws : List Nat) : List Nat :=
  ws.filter fun w => !m.pinnedWord w && match m.owner? w with
    | some (0, c) => (match m.l1? c w with | some x => x.written | none => false)
    | _ => false

/-- Some words with their partners in the aligned 64-bit words: one is recalled with the other, so that no home holds half of a 64-bit part
(R350). -/
def pairsOf (ws : List Nat) : List Nat := (ws.flatMap fun w => [w / 8 * 8, w / 8 * 8 + 4]).eraseDups

/-- Recalls of every word of a part. -/
def MemSys.recallAll (m : MemSys) (ws : List Nat) : MemSys :=
  ((pairsOf ws).foldl MemSys.recall m).cover (m.recalled (pairsOf ws))

/-- The newest value of a word at its home: the home's, or the pinned owner's, to whom the home forwards (R351). -/
def MemSys.wordNow (m : MemSys) (w : Nat) : Word :=
  match m.owner? w with
  | some (_, c) =>
    if m.pinnedWord w then
      match m.l1? c w with
      | some x => x.val
      | none => BitVec.ofNat 32 (Memory.readN m.cells w 4)
    else BitVec.ofNat 32 (Memory.readN m.cells w 4)
  | none => BitVec.ofNat 32 (Memory.readN m.cells w 4)

/-- The home's value of a part of `n` bytes, without a recall. -/
def MemSys.homeValue (m : MemSys) (a n : Nat) : Nat :=
  let ws := wordKeys a n
  natOfWords (ws.map m.wordNow) / 256 ^ (a % 4) % 256 ^ n

/-- A write performed at the home (Table 18-1): the words are recalled, then the bytes are written; a pinned owner takes
them in its L1 (R351). -/
def MemSys.homeWrite (m : MemSys) (a n v : Nat) : MemSys :=
  let m := m.recallAll (wordKeys a n)
  let m := (wordKeys a n).foldl (fun m w =>
    match m.owner? w with
    | some (_, c) =>
      (match m.l1? c w with
       | some x => m.putL1 { x with val := mergeWord x.val w a n v, written := true }
       | none => { m with cells := Memory.writeN m.cells w 4 (mergeWord (m.wordNow w) w a n v).toNat })
    | none => m) m
  let free := (wordKeys a n).filter fun w => (m.owner? w).isNone
  let m := if free.length = (wordKeys a n).length then { m with cells := Memory.writeN m.cells a n v }
    else free.foldl (fun m w => { m with cells := Memory.writeN m.cells w 4 (mergeWord (m.wordNow w) w a n v).toNat }) m
  m.unpoison a n

/-- What a write from a core does to copies on its way (Table 11-2, R218, R219): the core's shared L1 copy is updated as well. -/
def MemSys.onWay (m : MemSys) (c a n v : Nat) : MemSys :=
  let m : MemSys := { m with l1 := m.l1.map fun x =>
      if x.core == c && x.hold == .si && (wordKeys a n).contains x.key then { x with val := mergeWord x.val x.key a n v } else x }
  (m.passOut c a n v).note c none (wordKeys a n)

/-- The write-back of one word that its owner has written; the owner keeps it (R215, R343). -/
def MemSys.writeBackWord (m : MemSys) (x : L1Word) : MemSys :=
  if x.written then (m.bringHome x).putL1 { x with written := false } else m

/-- The write-back of every dirty word of a core that meets `p`. -/
def MemSys.writeBack (m : MemSys) (c : Nat) (p : L1Word → Bool) : MemSys :=
  let ws := m.l1.filter fun x => x.core == c && x.written && p x
  (ws.foldl MemSys.writeBackWord m).cover (ws.map (·.key))

/-- The first byte of the grain of an L1 word. -/
def L1Word.grainKey (x : L1Word) : Nat := x.key / x.grain * x.grain

/-- Words of a core dropped from its L1; the home forgets it as their owner. -/
def MemSys.discard (m : MemSys) (c : Nat) (p : L1Word → Bool) : MemSys :=
  let ws := (m.l1.filter fun x => x.core == c && x.hold == .own && p x).map (·.key)
  (ws.foldl MemSys.disown m).dropL1 c p

/-- The work of a release that writes back (R343): the dirty grains of a core go to their homes, and the core keeps none of them but
those it holds pinned (Table 11-2: kept until a release covering it; R351). -/
def MemSys.releaseWork (m : MemSys) (c : Nat) : MemSys :=
  let gs := ((m.l1.filter fun x => x.core == c && x.written).map fun x => (x.grainKey, x.grain)).eraseDups
  let kept := fun (x : L1Word) => m.pins.any fun p => p.core == c && !p.atHome && p.covers x.key
  (m.writeBack c fun _ => true).discard c fun x => gs.contains (x.grainKey, x.grain) && !kept x

/-- An eviction of one line of an L1 (R215): dirty words are written back, and the home forgets the owner. -/
def MemSys.evict (m : MemSys) (c line : Nat) : MemSys :=
  let inLine := fun (x : L1Word) => x.key / 512 == line / 512
  (m.writeBack c inLine).discard c inLine

/-- The lines that a core's L1 holds in the set of an address: 32 sets of 12 ways (R212, R215). -/
def MemSys.linesOf (m : MemSys) (c a : Nat) : List Nat :=
  ((m.l1.filter fun x => x.core == c && x.key / 512 % 32 == a / 512 % 32).map fun x => x.key / 512 * 512).eraseDups

/-- Room for a line in its set, by an eviction of an unspecified line without a pin (R215); `pick` chooses it. -/
def MemSys.makeRoom (m : MemSys) (c a : Nat) (pick : Nat) : Option MemSys :=
  let ls := m.linesOf c a
  if ls.contains (a / 512 * 512) || ls.length < 12 then some m
  else
    let ok := ls.filter fun l => !m.pins.any fun p => p.core == c && p.grain / 512 * 512 == l
    match ok[pick % ok.length]? with
    | some l => some (m.evict c l)
    | none => none

/-- Whether a page is in a mirror window, where no ownership is granted (18 Table 18-3): from its Recall phase on, and of a page that leaves host
bias from the start, since no device core owns a host line (R365). -/
def State.mirrored (s : State) (a : Nat) : Bool :=
  s.dev.mirrors.any fun r => (r.phase != .entry || (r.bias && r.oldHome == 4)) && r.page ≤ a && a < r.page + r.size

/-- Whether a watch stands on a word, which the home then grants to no owner (R381). -/
def MemSys.watched (m : MemSys) (w : Nat) : Bool :=
  m.watches.any fun x => x.registered && (wordKeys x.key x.width).contains w

/-- The aligned words of the grain of an address. -/
def grainWords (g a : Nat) : List Nat := (upTo (g / 4)).map fun i => a / g * g + 4 * i

/-- The aligned words of the 128-byte lines that hold the grain of an address. -/
def lineWords (g a : Nat) : List Nat := grainWords (Nat.max 128 g) a

/-- Whether a core holds pinned, in its L1, a word of the lines of a grain that another asks for (R351, R358). -/
def MemSys.pinnedElsewhere (m : MemSys) (c g a : Nat) : Bool :=
  (lineWords g a).any fun w => m.pinnedWord w && (match m.owner? w with | some o => o != (0, c) | none => false)

/-- The moment of the latest write of a core to some words that has been performed at their homes; 0 for none. -/
def MemSys.lastWrite (m : MemSys) (c : Nat) (ws : List Nat) : Nat :=
  (m.wrote.filter fun x => x.core == c && x.slot.isNone && ws.contains x.key).foldl (fun n x => Nat.max n x.at_) 0

/-- The moment of a core's last acquire. -/
def MemSys.lastAcquire (m : MemSys) (c : Nat) : Nat := match m.acquired.find? fun x => x.1 == c with | some x => x.2 | none => 0

/-- L1 with room for an address, and the state's free choices advanced when a line had to go. -/
def State.roomFor (s : State) (c a : Nat) : Option State :=
  let ls := s.mem.linesOf c a
  if ls.contains (a / 512 * 512) || ls.length < 12 then some s
  else
    let (k, s) := s.choose
    match s.mem.makeRoom c a k with
    | some m => some { s with mem := m }
    | none => none

/-- A fill of the grain of an address as a .si copy with the values of `val` (R215); words that the core holds stay, and
poisoned words are not filled. `at_` is the moment of the fill where it comes from the home, else 0 (R217); `pref` marks a fill by
PREF (R237). -/
def State.fillSi (s : State) (c g a : Nat) (val : Nat → Word) (pref : Bool) (at_ : Nat) : State :=
  match s.roomFor c a with
  | none => s
  | some s =>
    (grainWords g a).foldl (fun s w =>
      match s.mem.l1? c w with
      | some _ => s
      | none =>
        if s.mem.poisoned w 4 then s
        else s.updMem fun m => m.putL1 { core := c, key := w, val := val w, hold := .si, grain := g, pref := pref, filled := at_ }) s

/-- A grant of the grain of an address (Table 18-1): what another owns of its lines is recalled, since a line has one owner (R358),
the owner record is set, and the L1 holds the grain as owner. A watched word is not granted (R381). -/
def State.grantOwn (s : State) (c g a : Nat) : State :=
  match s.roomFor c a with
  | none => s
  | some s =>
    let s := s.updMem fun m => m.recallAll ((lineWords g a).filter fun w =>
      match m.owner? w with | some o => o != (0, c) | none => false)
    (grainWords g a).foldl (fun s w =>
      if s.mem.watched w || s.mem.poisoned w 4 || s.mem.owner? w == some (0, c) || s.mem.othersLine 0 c w then s
      else
        let m := s.mem.own 0 c g w
        { s with mem := m.putL1 { core := c, key := w, val := m.wordNow w, hold := .own, grain := g, filled := m.now } }) s

/-! ## Threads and their results -/

/-- A part of an outstanding result that its home has answered: its bytes join the value (R134). -/
def Thread.answer (t : Thread) (id shift v : Nat) (fl : BitVec 7) : Thread :=
  { t with pending := t.pending.map fun p =>
      if p.id == id then { p with val := p.val + v * 256 ^ shift, parts := p.parts - 1, flags := p.flags ||| fl } else p }

/-- The firing of watches by a write performed at the home (R381): each watched lane whose word no longer holds its
compare value receives it and is released. A lane outside the scope of a pin receives the first such value when the pin ends (R351). -/
def State.fireWatches (s : State) (a n : Nat) : State :=
  (s.mem.watches.filter fun w => w.registered && w.key < a + n && a < w.key + w.width).foldl (fun s w =>
    let v := w.missed.getD (s.mem.homeValue w.key w.width)
    if v == w.cmp then s
    else if s.mem.retry (some w.core) w.key w.width then
      s.updMem fun m => { m with watches := m.watches.map fun x => if x.id == w.id then { x with missed := some v } else x }
    else
        let s := s.updMem fun m => { m with watches := m.watches.filter fun x => x.id != w.id }
        s.updThread w.core w.slot fun t =>
          ((w.rows.zip (wordsOfNat w.rows.length v)).foldl (fun t rv => t.putRow rv.1 rv.2) t).release) s

/-- A write performed at the home by an agent of a core, or of none (Table 18-1): recall, write, and the watches. -/
def State.writeHome (s : State) (agent : Option Nat) (a n v : Nat) : State :=
  let m := s.mem.homeWrite a n v
  let m := match agent with
    | some c => m.onWay c a n v
    | none => m
  { s with mem := m }.fireWatches a n

/-- A write performed at the home by a unit that stands at a core's place, on behalf of no thread (R342): the copies on its way are changed as
by any write of its die and sector (R218, R219). -/
def State.writeUnit (s : State) (c a n v : Nat) : State := { s with mem := (s.mem.homeWrite a n v).passOut c a n v }.fireWatches a n

/-- An ordered read at the home (Table 18-1): the words are recalled, then the home's value is returned. -/
def State.readOrdered (s : State) (a n : Nat) : Nat × State :=
  let s := s.updMem fun m => m.recallAll (wordKeys a n)
  (s.mem.homeValue a n, s)

/-- The value of a word as its home gives it to a core (Table 18-1): what the core owns comes from its L1. -/
def MemSys.wordFor (m : MemSys) (c w : Nat) : Word :=
  match m.l1? c w with
  | some x => if x.hold == .own then x.val else m.wordNow w
  | none => m.wordNow w

/-- A plain read of an engine of a core (Table 18-1): words that the core owns from its L1, others the home's value. -/
def State.readEngine (s : State) (c a n : Nat) : Nat :=
  natOfWords ((wordKeys a n).map (s.mem.wordFor c)) / 256 ^ (a % 4) % 256 ^ n

/-- An ordered read at the home for a core (R348, Table 18-1): what others own of the words is recalled, and what the core owns comes
from its L1. -/
def State.readNewest (s : State) (c a n : Nat) : Nat × State :=
  let s := s.updMem fun m => m.recallAll ((wordKeys a n).filter fun w => m.owner? w != some (0, c))
  (s.readEngine c a n, s)

/-- A part that lies wholly in a core's L1 (R214), as owner only when `ownOnly`; copies that PREF filled answer no ordered
load (R237). -/
def MemSys.l1Value (m : MemSys) (c a n : Nat) (ownOnly : Bool) : Option Nat :=
  let ws := (wordKeys a n).map fun w => (m.l1? c w).filter fun x => x.hold == .own || !ownOnly
  if ws.all Option.isSome then
    some (natOfWords (ws.map fun x => match x with | some y => y.val | none => 0) / 256 ^ (a % 4) % 256 ^ n)
  else none

/-- A store into words that a core owns (R214): performed in its L1. -/
def MemSys.storeL1 (m : MemSys) (c a n v : Nat) : MemSys :=
  { m with l1 := m.l1.map fun x =>
      if x.core == c && (wordKeys a n).contains x.key then { x with val := mergeWord x.val x.key a n v, written := true } else x }

/-! ## Atomics (19 Table 19-2) -/

/-- The new value of the word of `n` bytes, and the flags of .fadd (R378). -/
def atomNew (o : AtomOp) (n m b : Nat) : Nat × BitVec 7 :=
  let w := 8 * n
  match o with
  | .add => ((m + b) % 2 ^ w, 0)
  | .and => (Nat.land m b, 0)
  | .or => (Nat.lor m b, 0)
  | .xor => (Nat.xor m b, 0)
  | .exch => (b, 0)
  | .min => (if sintN w m ≤ sintN w b then m else b, 0)
  | .max => (if sintN w m ≤ sintN w b then b else m, 0)
  | .fadd => if n = 8 then Fp.add .f64 .rne m b else Fp.add .f32 .rne m b

/-! ## Copies on the way (R217 to R219) -/

/-- A level's copy of a word under a tag: it and its partner in the aligned 64-bit word stand in the table of a unit. -/
def levelWord (l : List CacheWord) (unit tag w : Nat) : Option Word :=
  let at_ := fun (k : Nat) => l.find? fun x => x.unit == unit && x.tag == tag && x.key == k
  match at_ w, at_ (w / 8 * 8), at_ (w / 8 * 8 + 4) with
  | some x, some _, some _ => some x.val
  | _, _, _ => none

/-- The copy that answers a plain read of a word before its home does (R218, R219): a near copy of the core's sector, or the
remote-data cache of its die. -/
def MemSys.copyOf (m : MemSys) (c home w : Nat) : Option Word :=
  if home == coreDie c then levelWord m.near (coreSector c) home w else levelWord m.rdc (coreDie c) home w

/-- Whether a core owns a word of an aligned 64-bit word: what it reads of the other is then the home's (R350). -/
def MemSys.ownsPair (m : MemSys) (c w : Nat) : Bool := (pairsOf [w]).any fun x => m.owner? x == some (0, c)

/-- Where a plain read of a word is answered (R217 to R219): a word that the core owns in its L1, a copy on the way, or the home. -/
def MemSys.plainWord (m : MemSys) (c home w : Nat) : Word :=
  match m.copyOf c home w with
  | some v => if m.ownsPair c w then m.wordFor c w else v
  | none => m.wordFor c w

/-- Whether the home has a part in the answer to a plain read of a grain (R217): it has none where copies on the way answer every word that
the core does not own. -/
def MemSys.asksHome (m : MemSys) (c home g a : Nat) : Bool :=
  (grainWords g a).any fun w => (m.copyOf c home w).isNone && m.owner? w != some (0, c)

/-- A table of lines with some filled for a unit that holds `cap` of them, those of each tag counted apart: words that stand there or may not be
held are left, and the oldest line goes when there is no room. -/
def fillLines (cap unit tag : Nat) (ws : List Nat) (val : Nat → Word) (l : List CacheWord) : List CacheWord :=
  ws.foldl (fun l w =>
    if l.any fun x => x.unit == unit && x.tag == tag && x.key == w then l
    else
      let mine := l.filter fun x => x.unit == unit
      let held := (mine.map fun x => (x.key / 128, x.tag)).eraseDups
      let l := if held.contains (w / 128, tag) || held.length < cap then l
        else match mine.head? with
          | some o => l.filter fun x => !(x.unit == unit && x.tag == o.tag && x.key / 128 == o.key / 128)
          | none => l
      l ++ [{ unit := unit, key := w, val := val w, tag := tag }]) l

/-- Lines of a remote-data cache: 12 slices of 3 MiB (R212). -/
def rdcLines : Nat := 294912

/-- Lines that the slices of a sector may hold as near copies: 8 slices of 4 MiB, 4 of 16 ways (R212, R218). -/
def nearLines : Nat := 65536

/-- The remote-data cache of a core's die filled with the lines of a grain (R219). -/
def MemSys.fillRdc (m : MemSys) (c home g a : Nat) : MemSys :=
  { m with rdc := fillLines rdcLines (coreDie c) home ((lineWords g a).filter fun w => !m.poisoned w 4) m.wordNow m.rdc }

/-- Near copies of the lines of a grain homed on another sector of the core's die (R218). -/
def MemSys.fillNear (m : MemSys) (c home g a : Nat) : MemSys :=
  if home == coreDie c && sliceSector (homeSlice a) != coreSector c % 3 then
    let ws := (lineWords g a).filter fun w => !m.poisoned w 4 && !m.pins.any fun p => p.covers w
    { m with near := fillLines nearLines (coreSector c) home ws m.wordNow m.near }
  else m

/-- A line dropped whole from a table, that of its element at a position. -/
def dropLineAt (n : Nat) (l : List CacheWord) : List CacheWord :=
  match l[n]? with
  | some x => l.filter fun y => !(y.unit == x.unit && y.tag == x.tag && y.key / 128 == x.key / 128)
  | none => l

/-- The L1 of a peer cluster that may answer a plain read (R217): the predicted cluster's copies filled from the home after
the core's latest acquire, and after its latest write to them (R356); of a grain of which the core owns a word its own L1 answers (Table 18-1). -/
def MemSys.peer? (m : MemSys) (c g a : Nat) : Option Nat :=
  match m.predictor.find? fun p => p.1 == coreCluster c && p.2.1 == a / 512 % 64 with
  | none => none
  | some (_, _, cl) =>
    [0, 1, 2, 3].map (fun i => 4 * cl + i) |>.find? fun d =>
      d != c && (grainWords g a).all fun w =>
        match m.l1? d w with
        | some x => x.hold == .si && !x.pref && m.lastAcquire c < x.filled && m.lastWrite c [w] < x.filled && m.owner? w != some (0, c)
        | none => false

/-- The reply of a home names the cluster it last served the line to, and the predictor learns it (R217). -/
def MemSys.predict (m : MemSys) (c a : Nat) : MemSys :=
  match m.served.find? fun x => x.1 == a / 128 * 128 with
  | some (_, cl) =>
    { m with predictor := m.predictor.filter (fun (p : Nat × Nat × Nat) => !(p.1 == coreCluster c && p.2.1 == a / 512 % 64))
               ++ [(coreCluster c, a / 512 % 64, cl)] }
  | none => m

/-- A home serves a line to a cluster (R217). -/
def MemSys.serveTo (m : MemSys) (c a : Nat) : MemSys :=
  { m with served := m.served.filter (fun (x : Nat × Nat) => x.1 != a / 128 * 128) ++ [(a / 128 * 128, coreCluster c)] }

/-- A line passes through the 64-line staging buffer of its home slice (R226). -/
def MemSys.stage (m : MemSys) (home a : Nat) : MemSys :=
  let slice := home * 24 + homeSlice a
  let mine := (m.staging.filter fun x => x.1 == slice && x.2 != a / 128 * 128) ++ [(slice, a / 128 * 128)]
  { m with staging := m.staging.filter (fun (x : Nat × Nat) => x.1 != slice) ++ mine.drop (mine.length - 64) }

/-! ## Service of one request (R359) -/

/-- A plain load that misses the L1 (R214 to R219): the value, and the state with the grain filled. -/
def State.servePlain (s : State) (r : Req) : Nat × State :=
  let cutOut := fun (val : Nat → Word) => natOfWords ((wordKeys r.key r.width).map val) / 256 ^ (r.key % 4) % 256 ^ r.width
  match (if r.probe then s.mem.peer? r.core r.grain r.key else none) with
  | some d =>
    let val := fun w => match s.mem.l1? d w with | some x => x.val | none => s.mem.wordFor r.core w
    (cutOut val, s.fillSi r.core r.grain r.key val false 0)
  | none =>
    let val := s.mem.plainWord r.core r.home
    let copied := (grainWords r.grain r.key).any fun w => (s.mem.copyOf r.core r.home w).isSome
    let s' := s.fillSi r.core r.grain r.key val false (if copied then 0 else s.mem.now)
    if !s.mem.asksHome r.core r.home r.grain r.key then (cutOut val, s')
    else
      let s' := s'.updMem fun m => (if r.probe then m.predict r.core r.key else m).serveTo r.core r.key
      (cutOut val, s'.updMem fun m => if r.home == coreDie r.core then m.fillNear r.core r.home r.grain r.key
        else m.fillRdc r.core r.home r.grain r.key)

/-- A plain read, which may be answered without its home's newest value (R347): no ordered load, and none that asks for ownership. -/
def Req.isPlain (r : Req) : Bool :=
  match r.kind with
  | .load .si false | .load .na false => true
  | .load _ _ | .storeOwn | .storeWt | .storeNc | .atom _ | .acas _ => false

/-- The reply of a home to a plain read that it has served before (R216): the value that it read then. The L1 is filled with it only where
neither an acquire nor a write of the core has come between. -/
def State.reply (s : State) (r : Req) (at_ : Nat) (ws : List (Nat × Word)) : Nat × State :=
  let val := fun w => match ws.find? fun x => x.1 == w with | some x => x.2 | none => s.mem.wordFor r.core w
  let v := natOfWords ((wordKeys r.key r.width).map val) / 256 ^ (r.key % 4) % 256 ^ r.width
  let stale := s.mem.lastAcquire r.core ≥ at_ || s.mem.lastWrite r.core (grainWords r.grain r.key) ≥ at_
    || s.mem.poisoned (r.key / r.grain * r.grain) r.grain
  (v, if stale || r.kind == .load .na false then s else s.fillSi r.core r.grain r.key val false at_)

/-- Whether the words of two parts overlap. -/
def Req.meets (q : Req) (key n : Nat) : Bool :=
  q.key / 4 * 4 < (key + n + 3) / 4 * 4 && key / 4 * 4 < (q.key + q.width + 3) / 4 * 4

/-- Whether a request of a thread holds a later one of it back (R232, R375, R376). -/
def Req.holds (q r : Req) : Bool := q.meets r.key r.width || q.acq.isSome || (r.acq.isSome && q.pend == r.pend) || r.rel.isSome

/-- Whether an earlier request of its thread holds a request back: one to its words (R232), an LD.acq whose acquire is still to be
performed (R375), for an acquire the other parts of its load, and for a release every one (R376). -/
def State.heldBack (s : State) (r : Req) : Bool :=
  (splitFirst (fun (q : Req) => q.id == r.id) s.mem.reqs).1.any fun q =>
    q.core == r.core && q.slot == r.slot && q.holds r

/-- The writes that a thread has seen and that are still to be performed (R357). -/
def MemSys.seen (m : MemSys) (c k : Nat) : List Req :=
  m.reqs.filter fun q => m.early.any fun e => e.core == c && e.slot == k && e.req == q.id

/-- Whether a thread has seen a write to words of a part that is still to be performed: it reads none of them again before (R348). -/
def MemSys.seenHere (m : MemSys) (c k key n : Nat) : Bool := (m.seen c k).any fun q => q.meets key n

/-- Whether an .own request is performed as .si or as .wt (Table 18-3, R364, R365): on a page in a mirror window, and on host memory. -/
def State.noOwner (s : State) (home key : Nat) : Bool := s.mirrored key || home == 4

/-- Whether the home can serve a request now: it does not wait in a miss table, no retry holds it (R351), nothing before it of its
thread or of its instruction holds it back, and a grant would recall no pinned word. -/
def State.canServe (s : State) (r : Req) : Bool :=
  r.stall.isNone
  && !s.mem.retry (some r.core) r.key r.width
  && !s.heldBack r
  && !s.mem.seenHere r.core r.slot r.key r.width
  && !(r.after != 0 && s.mem.reqs.any fun q => q.id == r.after)
  && (match r.kind with
      | .storeOwn | .load .own _ => r.pin.isSome || s.noOwner r.home r.key || !s.mem.pinnedElsewhere r.core r.grain r.key
      | .load .si _ | .load .nc _ | .load .na _ | .storeWt | .storeNc | .atom _ | .acas _ => true)

/-- Whether a request reads memory, and so meets poison (R228). -/
def ReqKind.reads : ReqKind → Bool
  | .load _ _ | .atom _ | .acas _ => true
  | .storeOwn | .storeWt | .storeNc => false

/-- Threads stalled on a retry make their access again (R351, R352). -/
def State.wakeRetries (s : State) : State :=
  { s with threads := s.threads.map fun t => if t.status = .parked .retry then { t with status := .eligible } else t }

/-- The end of the pins of a core that meet `p` (R352): the pinned releases are widened to .sys, so the core's dirty grains
are written back, and the retried accesses proceed. -/
def State.endPins (s : State) (c : Nat) (p : Pin → Bool) : State :=
  let gone := s.mem.pins.filter fun x => x.core == c && p x
  if gone.isEmpty then s
  else
    let s := s.updMem fun m => { m with pins := m.pins.filter fun x => !(x.core == c && p x) }
    let s := s.updMem fun m => m.releaseWork c
    let s := gone.foldl (fun s x => s.fireWatches x.grain x.size) s
    s.wakeRetries

/-- The work of a release at a scope, once every earlier access of its thread has been performed (R343): at .cluster scope and wider the
dirty grains of its core are written back, and narrower pins of the core end (R352). -/
def State.releaseNow (s : State) (c : Nat) (sc : Scope) : State :=
  let s := s.endPins c fun p => Scope.ord p.scope < Scope.ord sc
  if Scope.ord sc ≥ 3 then s.updMem fun m => m.releaseWork c else s

/-- The work of an acquire of a core (R343, R216 to R219). -/
def MemSys.acquire (m : MemSys) (c : Nat) (sc : Scope) : MemSys :=
  let m := m.dropL1 c fun x => x.hold == .si
  let m := if Scope.ord sc ≥ 4 then { m with near := m.near.filter fun x => x.unit != coreSector c } else m
  if Scope.ord sc == 5 then { m with rdc := m.rdc.filter fun x => !(x.unit == coreDie c && x.tag ≤ 3) }
  else if Scope.ord sc == 6 then { m with rdc := m.rdc.filter fun x => x.unit != coreDie c }
  else m

/-- An acquire of a core, performed (R343): its moment is noted, and what its core wrote before it matters to no copy any more (R217). -/
def State.acquireCore (s : State) (c : Nat) (sc : Scope) : State :=
  s.updMem fun m =>
    { m.acquire c sc with
      acquired := m.acquired.filter (fun (x : Nat × Nat) => x.1 != c) ++ [(c, m.now)]
      wrote := m.wrote.filter fun x => x.core != c
      now := m.now + 1 }

/-- The threads whose end ends a pin of a thread (R352): itself and the members of its teams. -/
def State.pinGroup (s : State) (c k : Nat) : List Nat :=
  match s.thread? c k with
  | none => [k]
  | some t => (k :: (t.teams.filter (· != 255)).flatMap fun n =>
      match s.team? c n with
      | some m => m.members
      | none => []).eraseDups

/-- A pin of the grain of a release write (R351); a 17th pin ends the core's oldest first (R352). A pin that stands already, of the same
thread, grain, scope and group, is that of the later release write as well (assumption log 57). -/
def State.pin (s : State) (c k g a : Nat) (sc : Scope) (atHome : Bool) : State :=
  let grain := a / g * g
  let group := s.pinGroup c k
  if s.mem.pins.any fun p => p.core == c && p.slot == k && p.grain == grain && p.size == g && p.scope == sc && p.group == group
      && p.atHome == atHome then s
  else
    let s := if (s.mem.pins.filter fun p => p.core == c).length ≥ 16 then
        match (s.mem.pins.filter fun p => p.core == c).head? with
        | some o => s.endPins c fun p => p.id == o.id
        | none => s
      else s
    let (id, s) := s.newId
    let p : Pin := { id := id, core := c, slot := k, grain := grain, size := g, scope := sc, group := group, atHome := atHome }
    s.updMem fun m => { m with pins := m.pins ++ [p] }

/-- A release write that pins its grain (R351): performed as .own in L1, where the copies of its die and sector follow it (R347), or, on a watched word, in a mirror window or on a line
of which another core holds a word pinned, at the home, which then holds the pin. -/
def State.pinWrite (s : State) (c k g : Nat) (sc : Scope) (key n v : Nat) : State :=
  let home := fun (s : State) => (s.pin c k g key sc true).writeHome (some c) key n v
  if (wordKeys key n).any s.mem.watched || s.mirrored key || s.mem.pinnedElsewhere c g key then home s
  else
    let s := s.grantOwn c g key
    if (wordKeys key n).all fun w => s.mem.owner? w == some (0, c) then
      (s.updMem fun m => (m.storeL1 c key n v).passOut c key n v).pin c k g key sc false
    else home s

/-- A write of another core, on its way to a home of the package, that an ordered load of a thread may return although the home has not yet
performed it for every reader (R347, R357): nothing holds it back, it pins nothing, and the agenda lets the thread see it. -/
def State.forwarded (s : State) (c k key n : Nat) : Option Req :=
  s.mem.reqs.find? fun q =>
    (s.mem.forward.any fun e => e.core == c && e.slot == k && e.req == q.id) && q.core != c && q.key == key && q.width == n
      && q.home ≤ 3 && q.pin.isNone && !s.mirrored key && s.canServe q
      && (match q.kind with
          | .storeOwn | .storeWt | .storeNc => true
          | .load _ _ | .atom _ | .acas _ => false)

/-- A write seen early (R357): the release before it has done its work (R344, R376), and until the home has performed it the thread makes no
access but ordered loads of other words (assumption log 62). -/
def State.seeEarly (s : State) (c k : Nat) (q : Req) : State :=
  let s := match q.rel with | some sc => s.releaseNow q.core sc | none => s
  s.updMem fun m => { m with early := m.early ++ [{ core := c, slot := k, req := q.id }] }

/-- Whether a request is a load. -/
def ReqKind.isLoad : ReqKind → Bool
  | .load _ _ => true
  | .storeOwn | .storeWt | .storeNc | .atom _ | .acas _ => false

/-- The service of a request that can be served (Table 18-1): the value it returns, the flags it posts and the state. -/
def State.perform (s : State) (r : Req) : Nat × BitVec 7 × State :=
  let plain := fun (s : State) => match r.got with
    | some (at_, ws) => s.reply r at_ ws
    | none => s.servePlain r
  let ordered := fun (s : State) (fill : Bool) =>
    match s.mem.l1Value r.core r.key r.width true with
    | some v => (v, s)
    | none =>
      let (v, s) := s.readNewest r.core r.key r.width
      let s := s.updMem fun m => (m.dropL1 r.core fun x => x.hold == .si && (pairKeys r.key r.width).contains x.key).serveTo r.core r.key
      (v, if fill then s.fillSi r.core r.grain r.key (s.mem.wordFor r.core) false s.mem.now else s)
  match r.kind with
  | .load .own o =>
    if s.noOwner r.home r.key then
      let (v, s) := if o then ordered s true else plain s
      (v, 0, s)
    else
      let s := (s.grantOwn r.core r.grain r.key).updMem fun m => m.serveTo r.core r.key
      let (v, s) := if o then s.readNewest r.core r.key r.width else (s.readEngine r.core r.key r.width, s)
      (v, 0, s)
  | .load .si false =>
    let (v, s) := plain s
    (v, 0, s)
  | .load .na false =>
    (match r.got with
     | some (at_, ws) => let (v, s) := s.reply r at_ ws; (v, 0, s)
     | none => (s.readEngine r.core r.key r.width, 0, s))
  | .load .nc _ =>
    let (v, s) := s.readOrdered r.key r.width
    (v, 0, s)
  | .load .si true =>
    let (v, s) := ordered s true
    (v, 0, s)
  | .load .na true =>
    let (v, s) := ordered s false
    (v, 0, s)
  | .storeOwn | .storeWt | .storeNc =>
    (match r.pin with
     | some sc => (0, 0, s.pinWrite r.core r.slot r.grain sc r.key r.width r.data)
     | none =>
       if r.kind == .storeOwn && !s.noOwner r.home r.key then
         let s := s.grantOwn r.core r.grain r.key
         if (wordKeys r.key r.width).all fun w => s.mem.owner? w == some (0, r.core) && !s.mem.watched w then
           (0, 0, s.updMem fun m => m.storeL1 r.core r.key r.width r.data)
         else (0, 0, s.writeHome (some r.core) r.key r.width r.data)
       else (0, 0, s.writeHome (some r.core) r.key r.width r.data))
  | .atom o =>
    let (m, s) := s.readOrdered r.key r.width
    let (v, fl) := atomNew o r.width m r.data
    let s := match r.pin with | some sc => s.pin r.core r.slot r.grain r.key sc true | none => s
    (m, if r.post then fl else 0, s.writeHome (some r.core) r.key r.width v)
  | .acas cmp =>
    let (m, s) := s.readOrdered r.key r.width
    let pinned := fun (s : State) => match r.pin with | some sc => s.pin r.core r.slot r.grain r.key sc true | none => s
    (m, 0, if m == cmp then (pinned s).writeHome (some r.core) r.key r.width r.data else s)

/-- One more part of a result answered in each of some threads of a core (R257, R258). -/
def State.countRank (s : State) (c id : Nat) (ks : List Nat) : State :=
  if id = 0 then s else ks.foldl (fun s k => s.updThread c k fun t => t.answer id 0 0 0) s

/-- A thread stalled on an access that could not be performed makes it again. -/
def Thread.tryAgain (t : Thread) : Thread := if t.status = .parked .retry then { t with status := .eligible } else t

/-- The service of a request (R359): the release before it (R376), its performance, its answer joined to the result it fills (R134),
and the acquire behind it (R375). A thread that waits to make an access again tries it now. -/
def State.serve (s : State) (r : Req) : State :=
  let s := match r.rel with | some sc => s.releaseNow r.core sc | none => s
  let (v, fl, s) := s.perform r
  let s := s.updMem fun m =>
    let m := { m with reqs := m.reqs.filter (fun q => q.id != r.id), early := m.early.filter fun e => e.req != r.id }
    if r.na then m.stage r.home r.key else m
  let s := if r.pend == 0 then s else s.updThread r.core r.slot fun t => t.answer r.pend r.shift v fl
  let s := s.countRank r.core r.count r.lanes
  let s := match r.acq with | some sc => s.acquireCore r.core sc | none => s
  s.updThread r.core r.slot Thread.tryAgain

/-! ## Range operations (R235, R236) -/

/-- Whether a grain lies wholly in a range. -/
def wholly (rs : List KeyRun) (g n : Nat) : Bool := rs.any fun r => r.lo ≤ g && g + n ≤ r.hi

/-- Whether a grain lies at least partly in a range. -/
def partly (rs : List KeyRun) (g n : Nat) : Bool := rs.any fun r => r.lo < g + n && g < r.hi

/-- The words of a core's L1 that a range operation acts on: private memory and grains pinned by another core are left
(R235). -/
def MemSys.inRange (m : MemSys) (c : Nat) (rs : List KeyRun) (x : L1Word) : Bool :=
  !x.priv && partly rs x.grainKey x.grain && !m.pins.any fun p => p.core != c && p.covers x.key

/-- The shared copies that CINV and CWBINV drop (Table 12-2). -/
def MemSys.dropShared (m : MemSys) (c : Nat) (sc : Scope) (rs : List KeyRun) : MemSys :=
  let hit := fun (x : CacheWord) => partly rs (x.key / 128 * 128) 128
  let m := if Scope.ord sc ≥ 4 then { m with near := m.near.filter fun x => !(x.unit == coreSector c && hit x) } else m
  if sc == .pkg then { m with rdc := m.rdc.filter fun x => !(x.unit == coreDie c && x.tag ≤ 3 && hit x) }
  else if sc == .sys then { m with rdc := m.rdc.filter fun x => !(x.unit == coreDie c && hit x) }
  else m

/-- One range operation on the keys of a range (Table 12-2). A grain that the core holds pinned stays (R235). What CINV
discards counts as changed at this moment, so that no reply on its way and no peer gives it back (R355). -/
def MemSys.rangeOp (m : MemSys) (op : RangeOp) (c : Nat) (sc : Scope) (rs : List KeyRun) : MemSys :=
  let hit := m.inRange c rs
  let kept := fun (x : L1Word) => m.pins.any fun p => p.core == c && p.covers x.key
  match op with
  | .cwb => if Scope.ord sc ≥ 3 then m.writeBack c hit else m
  | .cinv =>
    let m := m.writeBack c fun x => hit x && (kept x || !wholly rs x.grainKey x.grain)
    let gone := (m.l1.filter fun x => x.core == c && x.written && hit x && !kept x).map (·.key)
    ((m.discard c fun x => hit x && !kept x).note c none gone).dropShared c sc rs
  | .cwbinv => ((m.writeBack c hit).discard c fun x => hit x && !kept x).dropShared c sc rs
  | .icinv =>
    let covers := fun (u : Nat) =>
      match sc with
      | .thread | .team | .core => u == c
      | .cluster => coreCluster u == coreCluster c
      | .die => coreDie u == coreDie c
      | .pkg | .sys => true
    { m with icache := m.icache.filter fun x => !(covers x.unit && partly rs x.key 4) }

/-- A range operation performed (R236). -/
def MemSys.performRange (m : MemSys) (r : RangeReq) : MemSys :=
  { m.rangeOp r.op r.core r.scope r.runs with ranges := m.ranges.filter fun x => x.id != r.id }

/-! ## Draining -/

/-- The earlier requests of a thread that meet `p`, served in their order (R343, R232); none when one of them cannot be
served now. `n` bounds their number. -/
def State.drain (s : State) (c k : Nat) (p : Req → Bool) : Nat → Option State
  | 0 => some s
  | n + 1 =>
    match s.mem.reqs.find? fun r => r.core == c && r.slot == k && p r with
    | none => some s
    | some r =>
      if s.canServe r && !(r.kind.reads && s.mem.poisoned r.key r.width) then State.drain (s.serve r) c k p n
      else none

/-- The range operations of a thread performed, once its earlier accesses have been (R236). -/
def State.performRanges (s : State) (c k : Nat) : State :=
  (s.mem.ranges.filter fun r => r.core == c && r.slot == k).foldl (fun s r => s.updMem fun m => m.performRange r) s

/-- All earlier requests of a thread, served, and its range operations performed (R343, R236). -/
def State.drainAll (s : State) (c k : Nat) : Option State :=
  (s.drain c k (fun _ => true) (s.mem.reqs.length + 1)).map fun s => s.performRanges c k

/-- Whether a request is a load, or reads as an atomic does (R377). -/
def Req.isLoad (r : Req) : Bool :=
  match r.kind with
  | .load _ _ | .atom _ | .acas _ => true
  | .storeOwn | .storeWt | .storeNc => false

/-- The requests of a thread, in their order, that its loads wait for: they themselves and what holds one of these back (R377). -/
def neededLoads (l : List Req) : List Req :=
  l.foldr (fun q acc => if q.isLoad || acc.any q.holds then q :: acc else acc) []

/-- All earlier loads of a thread, served, with what holds one of them back, and its range operations performed (R377, R236). -/
def State.drainLoads (s : State) (c k : Nat) : Option State :=
  let ids := (neededLoads (s.mem.reqs.filter fun r => r.core == c && r.slot == k)).map fun (r : Req) => r.id
  (s.drain c k (fun r => ids.contains r.id) (s.mem.reqs.length + 1)).map fun s => s.performRanges c k

/-- Earlier requests of a thread to the words of a part, served, so that its later access follows them (R232), and its LD.acq requests
(R375). -/
def State.drainPart (s : State) (c k a n : Nat) : Option State :=
  s.drain c k (fun r => r.meets a n || r.acq.isSome) (s.mem.reqs.length + 1)

/-- The home's reading for a plain read whose reply is then on its way (R216, R353). -/
def State.readHome (s : State) (id : Nat) : State :=
  match s.mem.reqs.find? fun r => r.id == id with
  | none => s
  | some r =>
    if !r.isPlain || r.got.isSome || !s.canServe r || s.mem.poisoned (r.key / r.grain * r.grain) r.grain then s
    else
      let ws := (grainWords r.grain r.key).map fun w => (w, s.mem.wordFor r.core w)
      s.updMem fun m =>
        let m : MemSys := { m with reqs := m.reqs.map fun q => if q.id == id then { q with got := some (m.now, ws) } else q }
        ((if r.probe then m.predict r.core r.key else m).serveTo r.core r.key)

/-- A plain read merged into a pending read of the same grain by another core (R353): both return the value of the pending read, which the
home has served. It is not merged where its thread has written to the grain since the pending read was issued, nor where its core has
acquired or written the grain since, which would hide that value from it (R347, R356). -/
def State.mergeRead (s : State) (into id : Nat) : State :=
  match s.mem.reqs.find? fun r => r.id == into, s.mem.reqs.find? fun r => r.id == id with
  | some p, some r =>
    let gw := grainWords r.grain r.key
    let own := s.mem.wrote.any fun x => x.core == r.core && x.slot == some r.slot && gw.contains x.key && p.at_ ≤ x.at_
    match p.got with
    | none => s
    | some (at_, ws) =>
      if !p.isPlain || !r.isPlain || r.got.isSome || p.core == r.core || p.grain != r.grain
          || p.key / p.grain != r.key / r.grain || own || !s.canServe r
          || p.at_ ≤ s.mem.lastAcquire r.core || at_ ≤ s.mem.lastWrite r.core gw
          || gw.any (fun w => s.mem.owner? w == some (0, r.core)) then s
      else s.updMem fun m => { m with reqs := m.reqs.map fun q => if q.id == id then { q with got := some (at_, ws) } else q }
  | _, _ => s

/-! ## Acquire and release (17 Table 17-2) -/

/-- Whether a thread has an LD.acq whose acquire is still to be performed: no later access of it is performed before (R375). -/
def State.acquiring (s : State) (c k : Nat) : Bool := s.mem.reqs.any fun q => q.core == c && q.slot == k && q.acq.isSome


/-- An acquire of a thread (R343): its first later load of each grain is ordered again (R348). -/
def State.acquire (s : State) (c k : Nat) (sc : Scope) : State :=
  (s.acquireCore c sc).updThread c k fun t => { t with grains := [] }

/-- The release of a thread (R343): its earlier accesses are performed, then the release does its work. None when an earlier access is
stalled. -/
def State.release (s : State) (c k : Nat) (sc : Scope) : Option State := (s.drainAll c k).map fun s => s.releaseNow c sc

end Sys2Proof.Machine
end

