-- ==== Sys2Proof/Machine/Walk.lean ====
section
/-! DEFINITION. Translation (20 R395 to R398), the translation-miss table (R397, R398), fault records (R399, R400), the
event arbiters (R407) and the request of a halt (R401, R393). -/

namespace Sys2Proof.Machine

open Sys2Proof

/-! ## Leaf entries (R396) -/

/-- The bytes of a page that a leaf at a level maps (20 Table 20-4). -/
def pageSize : Nat → Nat
  | 0 => 2 ^ 16
  | 1 => 2 ^ 21
  | _ => 2 ^ 30

/-- The coherence grain of a leaf's grain field; 0 for the reserved value (Table 20-5). -/
def grainOf : Nat → Nat
  | 0 => 32 | 1 => 128 | 2 => 512 | _ => 0

/-- The leaf of an entry at a level; none when it is malformed (R396). Reserved grain and home values are taken as malformed
(assumption log 8). -/
def Leaf.ofEntry (e level : Nat) : Option Leaf :=
  let size := pageSize level
  let pa := bitsOf e 55 16 * 2 ^ 16
  let home := bitsOf e 59 57
  if level ≥ 3 || bitsOf e 15 6 != 0 || pa % size != 0 || grainOf (bitsOf e 63 62) == 0 || home ≥ 6 then none
  else some { pa := pa, size := size, grain := grainOf (bitsOf e 63 62), rtype := bitsOf e 61 60, home := home,
              mir := bitOf e 56, sh := bitOf e 5, priv := bitOf e 4, x := bitOf e 3, ro := bitOf e 2 }

/-- The next table of a table entry at a level; none when it is malformed (R396). -/
def nextTable (e level : Nat) : Option Nat :=
  if level = 0 || bitsOf e 63 56 != 0 || bitsOf e 7 1 != 0 || (level ≥ 2 && bitsOf e 11 8 != 0) then none
  else some (bitsOf e 55 8 * 2 ^ 8)

/-- The key of a virtual address under a leaf: device, host or peer memory by the home, and device memory for a page shared
with the host in either bias (R364, R365, R367, R368). -/
def Leaf.key (l : Leaf) (va : Nat) : Nat :=
  let space := if l.sh || l.home ≤ 3 then 0 else if l.home = 4 then 1 else 2
  space * 2 ^ 56 + l.pa + va % l.size

/-- The reason why an access breaks the permissions of a leaf (R398, Table 20-6); 0 for none. -/
def Leaf.refuses (l : Leaf) (k : Access) (priv : Bool) : Nat :=
  if k == .write && l.ro then 2
  else if k == .fetch && !l.x then 3
  else if l.priv && !priv then 4
  else 0

/-- What a walk ends in. -/
inductive WalkRes where
  | ok (l : Leaf)
  | fault (reason : Nat)
  | retry                       -- an entry lies in a pinned grain (R351)
  | poison (key : Nat)          -- an entry is poisoned (R228)
deriving DecidableEq, Repr

/-- The walk from a table of a level (R395, R396): each entry is read as an ordered load at .sys scope (R397). -/
def State.walkAt (s : State) (va table : Nat) : Nat → WalkRes × State
  | 0 =>
    let a := table + 8 * (va / 2 ^ 16 % 32)
    if s.mem.retry none a 8 then (.retry, s) else if s.mem.poisoned a 8 then (.poison a, s) else
    let (e, s) := s.readOrdered a 8
    if !bitOf e 0 then (.fault 1, s)
    else if !bitOf e 1 then (.fault 5, s)
    else match Leaf.ofEntry e 0 with
      | some l => (.ok l, s)
      | none => (.fault 5, s)
  | level + 1 =>
    let a := table + 8 * (va / 2 ^ (21 + 9 * level) % 512)
    if s.mem.retry none a 8 then (.retry, s) else if s.mem.poisoned a 8 then (.poison a, s) else
    let (e, s) := s.readOrdered a 8
    if !bitOf e 0 then (.fault 1, s)
    else if bitOf e 1 then
      match Leaf.ofEntry e (level + 1) with
      | some l => (.ok l, s)
      | none => (.fault 5, s)
    else match nextTable e (level + 1) with
      | some t => s.walkAt va t level
      | none => (.fault 5, s)

/-- The walk of a virtual address in a context (R395). -/
def State.walk (s : State) (ctx va : Nat) : WalkRes × State :=
  if va / 2 ^ 48 ≠ 0 then (.fault 6, s)
  else match s.ctx? ctx with
    | none => (.fault 1, s)
    | some c => s.walkAt va c.ptroot.toNat 3

/-- A walk with the permissions of an access (R398). -/
def State.walkFor (s : State) (ctx va : Nat) (k : Access) (priv : Bool) : WalkRes × State :=
  match s.walk ctx va with
  | (.ok l, s) => if l.refuses k priv = 0 then (.ok l, s) else (.fault (l.refuses k priv), s)
  | r => r

/-! ## TLBs (R397) -/

/-- Whether a cached translation gives a page of a context. -/
def Xlate.hits (x : Xlate) (ctx va : Nat) : Bool := x.ctx == ctx && x.va ≤ va && va < x.va + x.leaf.size

/-- The cached translation of an address for a core: its L1 TLB, then its sector's shared TLB. -/
def State.cached (s : State) (c ctx va : Nat) : Option Xlate :=
  match s.mem.l1tlb.find? fun x => x.1 == c && x.2.hits ctx va with
  | some x => some x.2
  | none =>
    match s.mem.shtlb.find? fun x => x.1 == coreSector c && x.2.hits ctx va with
    | some x => some x.2
    | none => none

/-- A TLB of `cap` entries with one filled; the oldest goes when it is full. -/
def tlbFill (cap u : Nat) (x : Xlate) (l : List (Nat × Xlate)) : List (Nat × Xlate) :=
  let l := l.filter fun y =>
    !(y.1 == u && y.2.ctx == x.ctx && y.2.va < x.va + x.leaf.size && x.va < y.2.va + y.2.leaf.size)
  let mine := l.filter fun y => y.1 == u
  let l := if mine.length ≥ cap then
      match mine.head? with
      | some o => l.filter (· != o)
      | none => l
    else l
  l ++ [(u, x)]

/-- The fill of a core's TLBs by a walk. -/
def State.fillTlb (s : State) (c ctx va : Nat) (l : Leaf) : State :=
  let x : Xlate := { ctx := ctx, va := va / l.size * l.size, leaf := l }
  s.updMem fun m => { m with l1tlb := tlbFill 128 c x m.l1tlb, shtlb := tlbFill 4096 (coreSector c) x m.shtlb }

/-- Every cached translation of a context that overlaps a range, dropped (R362, R412). -/
def State.dropXlates (s : State) (ctx : Option Nat) (lo hi : Nat) : State :=
  let keep := fun (x : Nat × Xlate) =>
    !((match ctx with | some c => x.2.ctx == c | none => true) && x.2.va < hi && lo < x.2.va + x.2.leaf.size)
  s.updMem fun m => { m with l1tlb := m.l1tlb.filter keep, shtlb := m.shtlb.filter keep }

/-- A translation that the core holds and whose permissions allow the access (R397, R398). -/
def State.xlate (s : State) (c ctx va : Nat) (k : Access) (priv : Bool) : Option Xlate :=
  (s.cached c ctx va).filter fun x => x.leaf.refuses k priv == 0

/-! ## Events (R407) -/

/-- The code of an event kind (Table 20-8). -/
def EvKind.code : EvKind → Nat
  | .none => 0 | .fault => 1 | .double => 2 | .watchdog => 3 | .halted => 4 | .saved => 5 | .poison => 6 | .link => 7
  | .reset => 8 | .thermal => 9

/-- The four words of an event record (Table 20-8). -/
def Event.words (e : Event) : List Word :=
  [BitVec.ofNat 32 (e.src * 2 ^ 16 + e.ctx * 2 ^ 8 + e.kind.code), e.data, e.addr.setWidth 32, (e.addr >>> 32).setWidth 32]

/-- The record that EVTQ writes for an empty queue (R417). -/
def Event.empty : Event := { kind := .none, ctx := 255, src := 0, data := 0, addr := 0 }

/-- The arbiter of a die. -/
def State.arbiter (s : State) (d : Nat) : Arbiter :=
  match s.dev.arbiters.find? fun a => a.die == d with
  | some a => a
  | none => { die := d }

/-- The state with the arbiter of a die replaced. -/
def State.putArbiter (s : State) (a : Arbiter) : State :=
  s.updDev fun v => { v with arbiters := v.arbiters.filter (fun b => b.die != a.die) ++ [a] }

/-- A thread of a die that waits in EVTQ (R417), and whose context has not halted (R401). -/
def State.eventWaiter? (s : State) (d : Nat) : Option Thread :=
  s.threads.find? fun t => coreDie t.core == d && (match t.status with | .parked (.event _ _) => true | _ => false)
    && (match s.ctx? (s.ctxOf t) with | some c => c.phase == .running || c.phase == .halting | none => false)

/-- An arbiter's oldest event goes to a thread that waits for one (R417). -/
def State.deliverEvent (s : State) (d : Nat) : State :=
  match s.eventWaiter? d, (s.arbiter d).queue with
  | some t, e :: rest =>
    let id := match t.status with | .parked (.event _ i) => i | _ => 0
    let s := s.putArbiter { s.arbiter d with queue := rest }
    { s with threads := s.threads.map fun u =>
        match u.status with
        | .parked (.event row i) =>
          if i = id then (((upTo 4).zip e.words).foldl (fun v iw => v.putRow (row + iw.1) iw.2) u).release else u
        | _ => u }
  | _, _ => s

/-- An event raised on a die (R407): queued while there is room, else held by its source. -/
def State.raise (s : State) (d : Nat) (e : Event) : State :=
  let a := s.arbiter d
  let a := if a.queue.length < 256 && a.held.isEmpty then { a with queue := a.queue ++ [e] } else { a with held := a.held ++ [e] }
  (s.putArbiter a).deliverEvent d

/-! ## Halts (R401, R393) -/

/-- A pre-emption ends the stay of warps on a compound (R139): threads that have repeats still to run form replay groups later
(R140). -/
def State.leaveCompounds (s : State) (tasks : List Nat) : State :=
  { s with warps := s.warps.map fun w => if tasks.contains w.task then { w with cur := none } else w }

/-- A task's cycles counted up to a moment, and no further (R420). -/
def Task.stopCount (now : Nat) (t : Task) : Task :=
  { t with cycles := t.cycles + (match t.counting with | some m => now - m | none => 0), counting := none }

/-- The request of a halt of a context (R401, R413): nothing of it is issued or admitted from now on, and the cycles of its running tasks stand
(R420); a retire that has begun goes on (R422). -/
def State.requestHalt (s : State) (ctx : Nat) (kill : Bool) : State :=
  let s := s.updCtx ctx fun c =>
    { c with phase := if c.phase = .running then .halting else c.phase, kill := c.kill || kill
             haltAt := if c.phase = .running then s.dev.cycle else c.haltAt }
  let s := s.leaveCompounds ((s.tasks.filter fun t => t.ctx == ctx).map (·.id))
  let s : State := { s with tasks := s.tasks.map fun t => if t.ctx == ctx && t.phase == .running then t.stopCount s.dev.cycle else t }
  s.updEng fun g => { g with jobs := g.jobs.map fun j => if j.ctx == ctx then { j with halted := true } else j }

/-- A double fault (R393): no record is written, every core of the context halts, and DOUBLE is raised. -/
def State.doubleFault (s : State) (c ctx : Nat) : State :=
  (s.requestHalt ctx false).raise (coreDie c) { kind := .double, ctx := ctx, src := c, data := 0, addr := 0 }

/-! ## The miss table (R397 to R400) -/

/-- The entry of a die and a number. -/
def State.missAt (s : State) (d n : Nat) : Option Miss := s.mem.miss.find? fun m => m.die == d && m.num == n

/-- The state with a miss-table entry changed. -/
def State.updMiss (s : State) (d n : Nat) (f : Miss → Miss) : State :=
  s.updMem fun m => { m with miss := updWhere (fun x => x.die == d && x.num == n) f m.miss }

/-- The state without a miss-table entry. -/
def State.freeMiss (s : State) (d n : Nat) : State :=
  s.updMem fun m => { m with miss := m.miss.filter fun x => !(x.die == d && x.num == n) }

/-- The die's entry for a context, a page and a kind (R397); one that a TRESUME has answered is freed, but for its record and the lanes of saved
tasks (R406, R411). -/
def State.missFor (s : State) (d ctx page : Nat) (k : Access) : Option Miss :=
  s.mem.miss.find? fun m => m.die == d && m.ctx == ctx && m.page == page && m.kind == k && m.resume == 0

/-- The lowest free number of a die's 1,024 entries. -/
def State.freeMissNum (s : State) (d : Nat) : Option Nat :=
  (upTo 1024).find? fun n => (s.missAt d n).isNone

/-- A waiter joins the entry of its context, page and kind, or opens one; none when the table is full (R397). The fields of a
new entry are those of its first waiter. -/
def State.joinMiss (s : State) (e : Miss) (w : Waiter) : Option (Nat × State) :=
  match s.missFor e.die e.ctx e.page e.kind with
  | some m => some (m.num, s.updMiss m.die m.num fun m =>
      { m with waiters := if m.waiters.contains w then m.waiters else m.waiters ++ [w] })
  | none =>
    match s.freeMissNum e.die with
    | none => none
    | some n =>
      let (t, s) := s.newId
      some (n, s.updMem fun m => { m with miss := m.miss ++ [{ e with num := n, waiters := [w], order := t }] })

/-- The code of an access kind (Table 20-6). -/
def Access.code : Access → Nat
  | .read => 0 | .write => 1 | .fetch => 2 | .format => 3 | .mesh => 4 | .sweep => 5 | .poison => 6 | .link => 7
  | .system => 8

/-- The 32 bytes of a fault record (Table 20-6). -/
def Miss.record (m : Miss) : Nat :=
  m.va + 2 ^ 64 * (m.die * 2 ^ 10 + m.num) + 2 ^ 80 * ((if m.poison then 6 else m.kind.code) * 2 ^ 8 + m.reason * 2 ^ 12)
    + 2 ^ 96 * (m.core + m.ctx * 2 ^ 16) + 2 ^ 128 * m.slot + 2 ^ 160 * m.task + 2 ^ 192 * m.pc

/-- A write of `n` 8-byte words at a virtual address as .wt stores of a system access (R399): how it ends. -/
inductive SysWrite where
  | done (s : State)
  | fault (reason key : Nat) (s : State)
  | retry (s : State)

/-- On whose behalf an engine or a unit accesses memory: the core it stands at, the issuing thread if there is one, the context and the privilege
(R393); `unit` marks an access made on behalf of no thread although a thread's instruction asks for it (R342). -/
structure Origin where
  core : Nat
  slot : Option Nat
  ctx : Nat
  priv : Bool
  unit : Bool := false

/-- The core that an access is placed on (R342): that of the issuing thread; an access made on behalf of no thread lies in no .core or
.cluster instance. -/
def Origin.agent (o : Origin) : Option Nat := if o.unit then none else o.slot.map fun _ => o.core

/-- A write performed at the home for an engine or a unit (R342, Table 18-1). -/
def State.writeBy (s : State) (o : Origin) (a n v : Nat) : State :=
  match o.agent with
  | some c => s.writeHome (some c) a n v
  | none => s.writeUnit o.core a n v

/-- A system write of `n` bytes, within one page, as a unit or a core makes it (R89, R393). A poisoned table entry is met at the address that was
being translated (R228). -/
def State.sysWrite (s : State) (o : Origin) (va n v : Nat) : SysWrite :=
  match s.walkFor o.ctx va .write o.priv with
  | (.ok l, s) =>
    let a := l.key va
    if s.mem.retry o.agent a n then .retry s else .done (s.writeBy o a n v)
  | (.fault r, s) => .fault r va s
  | (.retry, s) => .retry s
  | (.poison _, s) => .fault 0 va s

/-- The record of an entry is written, or never will be: one that a TRESUME has answered meanwhile, and that no lane of a saved task waits in, is
then freed (R400, R411). -/
def State.recorded (s : State) (d n : Nat) : State :=
  match s.missAt d n with
  | some m => if m.resume != 0 && m.waiters.isEmpty then s.freeMiss d n else s.updMiss d n fun x => { x with phase := .recorded }
  | none => s

/-- The fault record of an entry (R399, R400): it waits while the fault queue is full or its write meets a retry; a write
that faults is a double fault of the context. -/
def State.writeRecord (s : State) (d n : Nat) : State :=
  match s.missAt d n with
  | none => s
  | some m =>
    match s.ctx? m.ctx with
    | none => s.freeMiss d n
    | some c =>
      if (c.fqput - c.fqget).toNat % 2 ^ 32 = c.fqsize.toNat then s.updMiss d n fun x => { x with phase := .queued }
      else
        let va := c.fqbase.toNat + 32 * (c.fqput.toNat % c.fqsize.toNat)
        match s.sysWrite { core := m.core, slot := some m.slot, ctx := m.ctx, priv := c.priv } va 32 m.record with
        | .fault _ _ s => (s.recorded d n).doubleFault m.core m.ctx
        | .retry s => s.updMiss d n fun x => { x with phase := .queued }
        | .done s =>
          let s := s.updMem fun q => q.releaseWork m.core
          let s := s.updCtx m.ctx fun c => { c with fqput := ((c.fqput + 1).setWidth 32).setWidth 64 }
          let s := s.recorded d n
          s.raise d { kind := .fault, ctx := m.ctx, src := m.core, data := BitVec.ofNat 32 (d * 2 ^ 10 + n), addr := c.fqbase }

/-- The oldest entry that still waits for its record has its turn first (R400). -/
def State.recordTurn (s : State) (d n : Nat) : State :=
  match s.missAt d n with
  | none => s
  | some m =>
    if s.mem.miss.any fun x => x.ctx == m.ctx && x.phase == .queued && x.order < m.order then
      s.updMiss d n fun x => { x with phase := .queued }
    else s.writeRecord d n

/-- A fault of an activity on its own kind of entry (R399): it joins the entry, and the first fault writes the record. The
entry's number, or none when the table is full. -/
def State.faultEntry (s : State) (e : Miss) (w : Waiter) : Option (Nat × State) :=
  let fresh := (s.missFor e.die e.ctx e.page e.kind).isNone
  match s.joinMiss e w with
  | none => none
  | some (n, s) =>
    if fresh then some (n, (s.updMiss e.die n fun x => { x with phase := .queued }).recordTurn e.die n)
    else some (n, s)

end Sys2Proof.Machine
end

