-- ==== Sys2Proof/WellFormed.lean ====
section
/-! DEFINITION. Well-formed instructions: what the checks of R129, steps 3 and 4, leave of the syntax, and the immediates
that a word can carry (R111, R116). -/

namespace Sys2Proof

/-- A well-formed instruction: its encoded fields hold values its entry allows (R129 step 3), its register operands
meet R119 (R129 step 4), and its immediate can be encoded (R111, R116). The rows a thread has allocated (R120) are a
matter of the state and are checked when the instruction issues. -/
def WellFormed (i : Instr) : Bool := i.fieldsOk && i.aligned && i.immForm.encodable

end Sys2Proof
end

