-- ==== Sys2Proof/Machine/Ops.lean ====
section
/-! DEFINITION. The frame around every instruction word: the checks of 06 R129, the execution mask (R140, R141), REP,
GUARD and the switch marker (R113 to R117), precise traps and the return from them (20 R390 to R393, R410), the end of a
thread (09 R169, 11 R223), teams and rendezvous points (07 R150, 19 R382 to R389), the queues of engines (12 R247 to
R250) and decrements of context words (16 R333, R338). -/

namespace Sys2Proof.Machine

open Sys2Proof

/-! ## Teams and rendezvous points -/

/-- The arrival count A of a point (R382). -/
def Point.a (p : Point) : Nat := p.arr.foldl (fun n x => n + x.1) 0

/-- The arrival scope of the phase now open: the widest scope of any arrival counted, at least .core (R382, R384). -/
def Point.scope (p : Point) : Scope := p.arr.foldl (fun c x => Scope.widen c x.2) .core

/-- The arrivals left when `n` counts are consumed from the front (R384). -/
def dropCounts (n : Nat) : List (Nat × Scope) → List (Nat × Scope)
  | [] => []
  | (k, c) :: t => if k ≤ n then dropCounts (n - k) t else (k - n, c) :: t

/-- The point after a phase completes, when A + S ≥ E (R384). -/
def Point.complete (p : Point) : Point :=
  { p with
    arr := if p.s ≤ p.e then dropCounts (p.e - p.s) p.arr else p.arr ++ [(p.s - p.e, .core)]
    p := p.p + 1
    last := p.last ++ [p.scope] }

/-- Whether an event at the point completes a phase (R384). -/
def Point.due (p : Point) : Bool := p.e != 0 && p.e ≤ p.a + p.s

/-- A point of a team. -/
def Team.point (t : Team) (n : Nat) : Point := t.points.getD n {}

/-- The team with a point changed. -/
def Team.updPoint (t : Team) (n : Nat) (f : Point → Point) : Team := { t with points := t.points.set n (f (t.point n)) }

/-- The seen count of a thread (R382). -/
def Thread.seenAt (t : Thread) (team point : Nat) : Word :=
  match t.seen.find? fun x => x.1 == (team, point) with
  | some x => x.2
  | none => 0

/-- A thread with a seen count set (R382). -/
def Thread.putSeen (t : Thread) (team point : Nat) (v : Word) : Thread :=
  { t with seen := t.seen.filter (fun x => x.1 != (team, point)) ++ [((team, point), v)] }

/-- The phases completed that a thread has not consumed: P − Q (R387). -/
def State.phasesAhead (s : State) (c k team point : Nat) : Nat :=
  match s.team? c team, s.thread? c k with
  | some t, some x => ((t.point point).p - x.seenAt team point).toNat
  | _, _ => 0

/-- One phase consumed by a thread (R387): its seen count rises and it acquires at the phase's arrival scope. -/
def State.consume (s : State) (c k team point : Nat) : State :=
  match s.team? c team with
  | none => s
  | some t =>
    let n := s.phasesAhead c k team point
    let l := (t.point point).last
    let sc := l.getD (l.length - n) .core
    let s := s.updThread c k fun x => x.putSeen team point (x.seenAt team point + 1)
    let most := t.members.foldl (fun m i => Nat.max m (s.phasesAhead c i team point)) 0
    let s := s.updTeam c team fun t => t.updPoint point fun p => { p with last := p.last.drop (p.last.length - most) }
    s.acquire c k sc

/-- Whether a thread waits in BWAIT on a point and its phase has completed (R387). -/
def State.bwaitDue (s : State) (t : Thread) : Bool :=
  match t.status with
  | .parked (.bwait team point) =>
    let n := s.phasesAhead t.core t.slot team point
    1 ≤ n && n < 2 ^ 31
  | _ => false

/-- The release of the BWAITs of a point that a completed phase satisfies (R384). -/
def State.releaseWaits (s : State) (c team point : Nat) : State :=
  (s.threads.filter fun t => t.core == c && t.status = .parked (.bwait team point) && s.bwaitDue t).foldl
    (fun s t => (s.consume c t.slot team point).updThread c t.slot Thread.release) s

/-- An event at a point (R384): at most one phase completes. -/
def State.pointEvent (s : State) (c team point : Nat) : State :=
  match s.team? c team with
  | none => s
  | some t =>
    if (t.point point).due then (s.updTeam c team fun t => t.updPoint point Point.complete).releaseWaits c team point
    else s

/-- An arrival at a point: its count and scope, as one event (R386). -/
def State.arrive (s : State) (c team point count : Nat) (sc : Scope) : State :=
  if count = 0 then s
  else (s.updTeam c team fun t => t.updPoint point fun p => { p with arr := p.arr ++ [(count, sc)] }).pointEvent c team point

/-- Whether the records of a task's teams outlive their members: it belongs to a gang of more than one (R100). -/
def State.keepsTeams (s : State) (task : Nat) : Bool :=
  match s.task? task with
  | none => false
  | some k =>
    match k.gang, s.ctx? k.ctx with
    | some (g, _), some c => c.gangs.any fun x => x.id == g && x.members.length > 1
    | _, _ => false

/-- A thread leaves a team (R150, R382, R383): it changes no count; a team without members is freed unless R100 keeps it, and
a sweep job of it is then that of no team. -/
def State.leaveTeam (s : State) (c k num : Nat) : State :=
  let s := s.updThread c k fun t =>
    { t with teams := t.teams.map (fun n => if n == num then 255 else n), seen := t.seen.filter fun x => x.1.1 != num }
  let s := s.updTeam c num fun t => { t with members := t.members.filter (· != k) }
  match s.team? c num with
  | none => s
  | some t =>
    if !t.members.isEmpty then s
    else if s.keepsTeams t.task then s.updTeam c num fun t => { t with kept := true }
    else
      let s := { s with teams := s.teams.filter fun t => !Team.is c num t }
      s.updEng fun g => { g with jobs := g.jobs.map fun j => if j.core == c && j.team == num then { j with team := 64 } else j }

/-- A thread joins a live team: the lowest free byte takes its number, and its seen counts start at each P (R382, R383). -/
def State.joinTeam (s : State) (c k num : Nat) : State :=
  match s.team? c num, s.thread? c k with
  | some t, some x =>
    let i := (x.teams.takeWhile (· != 255)).length
    let s := s.updTeam c num fun t => { t with members := t.members ++ [k] }
    s.updThread c k fun x =>
      (upTo 24).foldl (fun x p => x.putSeen num p (t.point p).p) { x with teams := x.teams.set i num }
  | _, _ => s

/-! ## Sweep elements (16 R325, R333, R337, R338) -/

/-- The element of a job at a storage position. -/
def Job.elem? (j : Job) (p : Nat) : Option Elem := j.elems.find? fun e => e.pos == p

/-- The job with the element at a position changed. -/
def Job.updElem (j : Job) (p : Nat) (f : Elem → Elem) : Job := { j with elems := updWhere (fun e => e.pos == p) f j.elems }

/-- The latest job of a core (R340). -/
def State.job? (s : State) (c : Nat) : Option Job := s.eng.jobs.find? fun j => j.core == c

/-- The state with the job of a core changed. -/
def State.updJob (s : State) (c : Nat) (f : Job → Job) : State :=
  s.updEng fun g => { g with jobs := updWhere (fun j => j.core == c) f g.jobs }

/-- The virtual address of the context word of a job's position (R45). -/
def Job.ctxAddr (j : Job) (p : Nat) : Nat := (Lens.ofWords j.snap).ctxAddr p

/-- The elements of running jobs registered for a word of memory (R325, R327): core and position. -/
def State.holders (s : State) (key : Nat) : List (Nat × Nat × Elem) :=
  (s.eng.jobs.filter fun j => j.running).flatMap fun j =>
    (j.elems.filter fun e => e.key == key && !e.abandoned).map fun e => (j.core, e.pos, e)

/-- One decrement of a context word at its home, as one atomic (R338): the old word, and the state. A decrement of an element
that is out is held for its SWRET; one that reaches 0 sends wakes. -/
def State.decrement (s : State) (c key amt : Nat) : Word × State :=
  let (n, s) := s.readOrdered key 4
  let w : Word := BitVec.ofNat 32 n
  match (s.holders key).find? fun h => h.2.2.out with
  | some (jc, p, _) => (w, s.updJob jc fun j => { j with held := j.held ++ [(p, amt)] })
  | none =>
    if cwState w ≠ 15 ∧ cwWait w = 1 ∧ 0 < amt then
      if amt < cwArg w then (w, s.writeHome (some c) key 4 (n - amt))
      else
        let s' := s.writeHome (some c) key 4 (cwState w * 2 ^ 28)
        (w, s'.updEng fun g => { g with wakes := g.wakes ++ (s.holders key).map fun h => { core := h.1, pos := h.2.1 } })
    else (w, s)

/-- The decrements owed to words that can be reached, in arrival order for each word (R333, R337). -/
def State.settleOwed (s : State) : State :=
  s.eng.owed.foldl (fun s h =>
    if s.mem.retry (some h.core) h.key 4 || s.mem.poisoned h.key 4 || (s.eng.owed.find? fun x => x.key == h.key) != some h then s
    else ((s.updEng fun g => { g with owed := g.owed.erase h }).decrement h.core h.key h.amt).2) s

/-- The decrements held for an element, applied in arrival order now that it is not out (R333, R337). -/
def State.applyHeld (s : State) (c p : Nat) : State :=
  match s.job? c with
  | none => s
  | some j =>
    match j.elem? p with
    | none => s
    | some e =>
      let mine := (j.held.filter fun h => h.1 == p).map fun h => ({ core := c, key := e.key, amt := h.2 } : Owed)
      let s := s.updJob c fun j => { j with held := j.held.filter fun h => h.1 != p }
      (s.updEng fun g => { g with owed := g.owed ++ mine }).settleOwed

/-- The element that a thread holds is abandoned (R333). -/
def State.abandon (s : State) (c k : Nat) : State :=
  match s.thread? c k with
  | none => s
  | some t =>
    match t.dispatch with
    | none => s
    | some r =>
      let s := s.updThread c k fun t => { t with dispatch := none }
      let s := s.updJob c fun j => j.updElem r.elem fun e => { e with out := false, abandoned := true }
      s.applyHeld c r.elem

/-- The task number of a thread: its special register task (06 Table 6-7). -/
def State.taskNum (s : State) (t : Thread) : Nat :=
  match s.task? t.task with
  | some k => k.index
  | none => 0

/-! ## The end of a thread (R169, R223) -/

/-- The live threads of a warp (R148). -/
def State.warpLive (s : State) (c w : Nat) : List Thread :=
  s.threads.filter fun t => t.core == c && t.warp == w && t.live

/-- A fresh entry at the tail of a queue, placed by some threads of a warp. -/
def State.enqueue (s : State) (c w : Nat) (q : QName) (item : QItem) (priv : Bool) (by_ : List Nat := []) : Nat × State :=
  let (id, s) := s.newId
  (id, s.updEng fun g => { g with queue := g.queue ++
    [{ id := id, core := c, warp := w, slots := by_, queue := q, item := item, priv := priv, since := s.dev.cycle }] })

/-- The entries of a queue (R247). -/
def State.queueLen (s : State) (c : Nat) (q : QName) : Nat := (s.eng.queue.filter fun e => e.core == c && e.queue == q).length

/-- The warp's qm of 16 entries is full (R281). -/
def State.qmFull (s : State) (L : Latch) : Bool := 16 ≤ s.queueLen L.core (.qm L.warp)

/-- What follows the end of a warp's last live thread (R296): its entries are performed, then its subscriptions end and its
names are released. -/
def State.warpEnd (s : State) (c w : Nat) : State :=
  if !(s.warpLive c w).isEmpty then s
  else
    match s.warp? c w with
    | none => s
    | some x =>
      let items := (x.subs.filter (!·.ended)).map (fun b => TileOp.strend b.stream)
        ++ ((upTo 8).filter fun z => (x.names.getD z {}).bound).map TileOp.zrel
      let s := s.updWarp c w fun x =>
        { x with subs := x.subs.map (fun b => { b with ended := true }),
                 names := x.names.map fun z => { z with bound := false } }
      items.foldl (fun s o => (s.enqueue c w (.qm w) (.tile o) false).2) s

/-- The pins of a core that end because their releasing thread and its team members have ended (R352). -/
def State.endDeadPins (s : State) (c : Nat) : State :=
  s.endPins c fun p => p.group.all fun k =>
    match s.thread? c k with
    | some t => !t.live
    | none => true

/-- Flags posted to the fsr of a warp (R38). -/
def State.post (s : State) (c w : Nat) (fl : BitVec 7) : State :=
  s.updWarp c w fun x => { x with fsr := x.fsr ||| fl, posted := x.posted ||| fl }

/-- The end of a thread, as exited or stopped (R169, R223): its outstanding results are discarded, its mask bits are
cleared, it leaves its teams, the element it holds is abandoned. -/
def State.endThread (s : State) (c k : Nat) (st : Status) : State :=
  match s.thread? c k with
  | none => s
  | some t =>
    let s := s.updWarp c t.warp fun w =>
      { w with masks := w.masks.map (fun m => BitVec.ofNat 32 (putBit m.toNat t.lane false)) }
    let s := s.post c t.warp (t.pending.foldl (fun f p => f ||| p.flags) 0)
    let s := (t.teams.filter (· != 255)).foldl (fun s n => s.leaveTeam c k n) s
    let s := s.abandon c k
    let s := s.updThread c k fun t =>
      { t with status := st, pending := [], guard := none, repLeft := 0, mark := false, seen := [] }
    (s.endDeadPins c).warpEnd c t.warp

/-- A stopped thread stands as an arrival on every point of its teams (R389). -/
def State.standOn (s : State) (c team : Nat) : State :=
  (upTo 24).foldl (fun s p =>
    (s.updTeam c team fun t => t.updPoint p fun q => { q with s := q.s + 1 }).pointEvent c team p) s

/-- A thread stopped by a violation or by TRESUME (R223, R389, R411). -/
def State.stopThread (s : State) (c k : Nat) : State :=
  match s.thread? c k with
  | none => s
  | some t =>
    let s := s.updTask t.task fun x =>
      { x with faultMask := match x.warps.findIdx? (· == k / 32) with
          | some i => x.faultMask.set i (BitVec.ofNat 32 (putBit (x.faultMask.getD i 0).toNat (k % 32) true))
          | none => x.faultMask }
    let s := (t.teams.filter (· != 255)).foldl (fun s n => s.standOn c n) s
    s.endThread c k .stopped

/-! ## Queues of engines (R247 to R250) -/

/-- Whether two entries stand in one queue. -/
def QEntry.sameQueue (a b : QEntry) : Bool := a.core == b.core && a.queue == b.queue

/-- Whether no earlier entry stands in the queue of the entry with a number. -/
def Eng.isHead (g : Eng) (id : Nat) : Bool :=
  let (before, rest) := splitFirst (fun (e : QEntry) => e.id == id) g.queue
  match rest.head? with
  | none => false
  | some e => !before.any e.sameQueue

/-- The places that a fence holds in its queues. -/
def Eng.fencePlaces (g : Eng) (n : Nat) : List QEntry := g.queue.filter fun e => e.item == .fence n

/-- A fence that every entry before it has passed (R249). -/
def Eng.fenceDue (g : Eng) (f : FenceRec) : Bool := (g.fencePlaces f.id).all fun e => g.isHead e.id

/-- The releases of a fence, thread by thread; none while an earlier access is stalled (R249). -/
def State.fenceRelease (s : State) (f : FenceRec) : List Nat → Option State
  | [] => some s
  | k :: ks =>
    match s.release f.core k f.scope with
    | some s => s.fenceRelease f ks
    | none => none

/-- Fences whose turn has come are performed, up to a number of them (R249). -/
def State.settleFences (s : State) : Nat → State
  | 0 => s
  | n + 1 =>
    match s.eng.fences.find? s.eng.fenceDue with
    | none => s
    | some f =>
      match (if f.rel then s.fenceRelease f f.slots else some s) with
      | none => s
      | some s =>
        State.settleFences (s.updEng fun g =>
          { g with fences := g.fences.filter (fun x => x.id != f.id), queue := g.queue.filter fun e => e.item != .fence f.id }) n

/-- A thread is released from a CWAIT or a ZWAIT; at a ZWAIT it notes whether its name is lost now (R250, R292). -/
def State.endWait (s : State) (name : Nat) (t : Thread) : Thread :=
  if name < 8 then
    let lost := match s.warp? t.core t.warp with
      | some w => let z := w.names.getD name {}; if z.bound then z.lost else none
      | none => none
    { t.release with zwait := some lost }
  else t.release

/-- Threads whose awaited entries have all been performed go on (R250, R292). -/
def State.settleWaits (s : State) : State :=
  { s with threads := s.threads.map fun t =>
      match t.status with
      | .parked (.queue ids name) => if s.eng.queue.any (fun e => ids.contains e.id) then t else s.endWait name t
      | _ => t }

/-- An entry is performed: it leaves its queue, and fences and waits that it held back are settled. -/
def State.entryDone (s : State) (id : Nat) : State :=
  let s := s.updEng fun g => { g with queue := g.queue.filter fun e => e.id != id }
  (s.settleFences (s.eng.fences.length + 1)).settleWaits

/-! ## The frame of a compound -/

/-- What a meaning answers: the state after its effect; a precise trap, with the cause and the info field of its record
(R390, Table 20-2); a word that cannot be accepted now (R137), with what it has set in motion; or one that has been accepted in part,
with the state after that part, whose rest waits (R246, R257); or a precise trap of some of the executing lanes, the others issuing the word
again. -/
inductive Res where
  | done (s : State)
  | trap (cause info : Nat)
  | stall (s : State)
  | hold (s : State)
  | trapSome (lanes : List Nat) (cause info : Nat)

/-- A word of class 13 (R128). -/
def Instr.isSystem : Instr → Bool
  | .ctlr .. | .ctlw .. | .tlbinv .. | .eret | .preempt .. | .ctxsv .. | .ctxld .. | .engrst .. | .evtq .. | .tresume .. => true
  | _ => false

/-- A word of class 0 (Table 6-11). -/
def Instr.isClass0 : Instr → Bool
  | .nop | .bra .. | .call .. | .calli .. | .ret .. | .jmpi .. | .exit | .yield | .bcmp .. | .rep .. | .guard .. | .limm
  | .wbase .. | .wbaseAdd .. | .trap .. | .sysc .. | .fbar => true
  | _ => false

/-- A control-transfer word of class 0, which ends a guard range (R115). -/
def Instr.endsGuard : Instr → Bool
  | .bra .. | .bcmp .. | .call .. | .calli .. | .ret .. | .jmpi .. | .exit => true
  | _ => false

/-- GUARD and ERET set the guard range of a thread themselves (R115, R410). -/
def Instr.setsGuard : Instr → Bool
  | .guard .. | .eret => true
  | _ => false

/-- The threads of a list of slots of the latch's core. -/
def State.at (s : State) (c : Nat) (ks : List Nat) : List Thread := ks.filterMap fun k => s.thread? c k

/-- The trapping threads: the execution mask, or the issue group when that is empty (R391). -/
def Latch.who (L : Latch) : List Nat := if L.exec.isEmpty then L.group else L.exec

/-- The operand checks of R119, R120 and R114 for the repeats from this one on: the cause of the first that fails. A LIMM between
REP and its target is no target (R117). -/
def checkOperands (i : Instr) (L : Latch) (ts : List Thread) : Option Nat :=
  let ok := fun (k : Nat) (sD sA sB : Bool) => i.operands.all fun o =>
    let o := o.step k sD sA sB
    o.aligned && ts.all fun t => o.inRows t.regs.length t.wb
  match L.rep with
  | none => if ok 0 false false false then none else some 1
  | some (_, sD, sA, sB) =>
    if i == .limm then none
    else if i.repNotRegister sD sA sB then some 1
    else if i.repOverflow (L.n - L.j) sD sA sB then some 3
    else if (upTo (L.n - L.j)).all fun k => ok k sD sA sB then none
    else some 1

/-- Steps 1 to 4 of R129 on a decoded word: the cause of the first fault. ILL fails step 1 (R127). -/
def State.check (s : State) (i : Instr) (L : Latch) : Option Nat :=
  let ts := s.at L.core L.who
  if i == .ill then some 1
  else if Instr.isSystem i && ts.any (fun t => !s.privileged t) then some 2
  else if !i.fieldsOk then some 1
  else if L.rep.isSome && (Instr.isSystem i || (Instr.isClass0 i && i != .limm)) then some 1
  else if (match i with | .guard .. => (s.at L.core L.group).any fun t => t.guard.isSome | _ => false) then some 1
  else checkOperands i L ts

/-- The group moves to the next repeat or past the compound (R114). -/
def Thread.advance (L : Latch) (t : Thread) : Thread :=
  if t.core == L.core && L.group.contains t.slot then
    if L.n ≤ L.j + 1 then { t with pc := L.at_ + 4, repLeft := 0 }
    else { t with pc := L.first, repLeft := L.n - (L.j + 1) }
  else t

/-- The state whose group has moved on. -/
def State.advance (s : State) (L : Latch) : State := { s with threads := s.threads.map (Thread.advance L) }

/-- Whether a thread waits at the compound to issue it again (R140). -/
def Thread.replays (L : Latch) (t : Thread) : Bool := t.pc == L.first && t.repLeft != 0

/-- The guard range of a thread counts the compound (R115): a control transfer ends it, GUARD and ERET have set it. -/
def Thread.countGuard (ends isGuard : Bool) (t : Thread) : Thread :=
  if isGuard then t
  else if ends then { t with guard := none }
  else match t.guard with
    | none => t
    | some g => { t with guard := if g.left ≤ 1 then none else some { g with left := g.left - 1 } }

/-- The switch marker parks a thread until it has no result outstanding (R113, R134), and the threads of its group with it, which leave it
together (assumption log 78). -/
def Thread.parkAtMarker (L : Latch) (t : Thread) : Thread :=
  if L.marker then
    match t.status with
    | .eligible => if t.pending.isEmpty && !L.waits then t else { t with status := .parked .marker, mates := L.group }
    | .parked _ => { t with mark := true }
    | .stopped | .exited | .unused => t
  else t

/-- A thread of the group after the compound's last word. -/
def Thread.passed (ends isGuard : Bool) (L : Latch) (t : Thread) : Thread :=
  if t.replays L then t else (t.countGuard ends isGuard).parkAtMarker L

/-- The end of a compound for a thread of its group. -/
def Thread.finish (i : Instr) (L : Latch) (t : Thread) : Thread :=
  if t.core == L.core && L.group.contains t.slot then t.passed (Instr.endsGuard i) (Instr.setsGuard i) L else t

/-- Whether a thread of the group has passed the compound with a result outstanding. -/
def State.groupWaits (s : State) (L : Latch) : Bool :=
  (s.at L.core L.group).any fun t => t.status == .eligible && !t.replays L && !t.pending.isEmpty

/-- The state without a compound being issued. -/
def State.unlatch (s : State) : State := { s with issue := none }

/-- The end of an issue slot: between repeats the warp stays on the compound (R139); after the last one the group is past
it. -/
def State.finish (s : State) (i : Instr) (L : Latch) : State :=
  if L.n ≤ L.j + 1 then
    let s := { s with threads := s.threads.map (Thread.finish i { L with waits := s.groupWaits L }) }
    (s.updWarp L.core L.warp fun w => { w with cur := none }).unlatch
  else
    let rest := L.group.filter fun k =>
      match s.thread? L.core k with
      | some t => t.status == .eligible && t.pc == L.first && t.repLeft == L.n - (L.j + 1)
      | none => false
    let (sD, sA, sB) := match L.rep with | some (_, x) => x | none => (false, false, false)
    let cur : Compound := { pc := L.first, next := L.at_ + 4, word := L.word, limm := L.limm, n := L.n, sD := sD, sA := sA,
                            sB := sB, j := L.j + 1, group := rest }
    (s.updWarp L.core L.warp fun w => { w with cur := if rest.isEmpty then none else some cur }).unlatch

/-- A word that its unit cannot accept now: nothing of it takes effect, and its warp is not eligible for it in this cycle
(R137), so that its decision does not count (R139). What the attempt set in motion in the memory system stays. -/
def State.stall (s t : State) (L : Latch) : State :=
  ({ s with mem := t.mem, freeCtr := t.freeCtr, idCtr := t.idCtr }.updWarp L.core L.warp
    fun w => { w with stalled := true, chosen := false, unchosen := L.before }).unlatch

/-- A word accepted in part (R246, R257): what has been done stays, its group stands at it again, and its warp is not eligible for the rest in
this cycle. -/
def State.hold (s t : State) (L : Latch) : State :=
  let back := fun (x : Thread) =>
    if x.core == L.core && L.group.contains x.slot && x.status == .eligible then
      match s.thread? L.core x.slot with
      | some y => { x with pc := y.pc, repLeft := y.repLeft }
      | none => x
    else x
  ({ t with threads := t.threads.map back }.updWarp L.core L.warp
    fun w => { w with stalled := true, chosen := false, unchosen := L.before }).unlatch

/-- The bits of the lanes of a list of threads. -/
def laneMask (ts : List Thread) : Nat := ts.foldl (fun m t => putBit m t.lane true) 0

/-- The trap record of a thread (Table 20-2). -/
def trapRecord (L : Latch) (t : Thread) (mask cause info : Nat) : Nat :=
  let rpc := if cause = 5 || cause = 6 then (L.at_ + 4).toNat else L.first.toNat
  let g := match t.guard with
    | none => 0
    | some g => 128 + (if g.g then 64 else 0) + g.left
  L.first.toNat + 2 ^ 64 * rpc + 2 ^ 128 * mask + 2 ^ 160 * cause + 2 ^ 176 * g
    + 2 ^ 184 * (if L.rep.isSome then L.n - L.j else 0) + 2 ^ 192 * info + 2 ^ 224 * L.word.toNat

/-- The address of the trap record of a thread (R392). -/
def trapAddr (c : Context) (t : Thread) : Nat := (c.trbase.toNat + 32 * (2048 * t.core + t.slot)) % 2 ^ 64

/-- The trap records of a list of threads, written one after another. -/
def State.writeTraps (s : State) (L : Latch) (c : Context) (mask cause info : Nat) : List Thread → SysWrite
  | [] => .done s
  | t :: ts =>
    match s.sysWrite { core := L.core, slot := some t.slot, ctx := c.num, priv := c.priv } (trapAddr c t) 32 (trapRecord L t mask cause info) with
    | .done s => s.writeTraps L c mask cause info ts
    | .fault r k s => .fault r k s
    | .retry s => .retry s

/-- A thread that enters its handler (R391 steps 2 and 3). -/
def Thread.enter (tvec : Pair) (t : Thread) : Thread :=
  { t with handler := true, guard := none, repLeft := 0, pc := tvec, zwait := none, midway := none }

/-- The threads of the group that do not trap pass the compound as masked lanes. -/
def State.passOthers (s : State) (L : Latch) : State :=
  { s with threads := s.threads.map fun t =>
      if t.core == L.core && L.group.contains t.slot && !L.who.contains t.slot
      then Thread.passed false false L { t with pc := L.at_ + 4, repLeft := 0 } else t }

/-- TAKING AN EXCEPTION: a precise trap (R390, R391), or a double fault (R393). While a trap record meets a retry, the trap
waits (R393). -/
def State.trap (s : State) (L : Latch) (cause info : Nat) : State :=
  let ts := s.at L.core L.who
  let ctx := match ts.head? with
    | some t => s.ctxOf t
    | none => 0
  let left := ((s.updWarp L.core L.warp fun w => { w with cur := none }).unlatch).passOthers L
  match s.ctx? ctx with
  | none => left
  | some c =>
    if ts.any (·.handler) || c.tvec == 0 || c.trbase == 0 then left.doubleFault L.core ctx
    else
      match left.writeTraps L c (laneMask (s.at L.core L.exec)) cause info ts with
      | .done t => { t with threads := t.threads.map fun x =>
          if x.core == L.core && L.who.contains x.slot then x.enter c.tvec else x }
      | .fault _ _ _ => left.doubleFault L.core ctx
      | .retry t => s.stall t L

/-- A word that places an entry in a queue, or whose accesses to memory are made while it executes: none of it comes before an acquire
of its threads that is still to be performed (R375). -/
def Instr.awaitsAcquire : Instr → Bool
  | .copy .. | .copys .. | .copym .. | .gath .. | .qfence .. | .mma .. | .mmas .. | .mmaq .. | .mmal .. | .zscale .. | .zclr ..
  | .lensld .. | .knext .. | .kcutq .. | .zld .. | .zmov .. | .zsto .. | .zrel .. | .zwait .. | .strend .. | .swbeg .. | .swnext | .swret .. | .swake .. | .swend ..
  | .cwb .. | .cinv .. | .cwbinv .. | .icinv .. | .kref .. | .kcoars .. | .knbr .. | .kown .. | .kcost .. | .krebal ..
  | .kmeshCurve .. | .kmeshDef .. | .kmeshRel .. | .pour .. => true
  | _ => false

/-- Whether an instruction may go on past a write that its thread has seen early (R357): an LD.acq. -/
def Instr.readsOn : Instr → Bool
  | .ldAcq .. => true
  | _ => false

/-- Whether a word waits for an acquire of one of its lanes (R375), or for a write that one of them has seen early (R357). -/
def State.awaits (s : State) (i : Instr) (L : Latch) : Bool :=
  L.exec.any fun k => (Instr.awaitsAcquire i && s.acquiring L.core k) || (!Instr.readsOn i && !(s.mem.seen L.core k).isEmpty)

/-- The FP64 arithmetic forms, which occupy the FP64 unit of their pipe for 2 cycles (R193). -/
def Instr.isFp64 : Instr → Bool
  | .faddF64 .. | .fsubF64 .. | .fmulF64 .. | .ffmaF64 .. | .fminF64 .. | .fmaxF64 .. | .fdivF64 .. | .fsqrtF64 ..
  | .fscaleF64 .. => true
  | _ => false

/-- The vector pipe of a word, as the number 2 · core + pipe (R137). -/
def Latch.pipe (L : Latch) : Nat := 2 * L.core + L.warp % 2

/-- Whether the FP64 unit that a word needs was taken by a word of the cycle before (R193). -/
def State.fp64Busy (s : State) (i : Instr) (L : Latch) : Bool :=
  Instr.isFp64 i && s.fp64.contains (L.pipe, s.dev.cycle - 1) && s.dev.cycle != 0

/-- A word takes the FP64 unit of its pipe, if it needs it (R193). -/
def State.takeFp64 (s : State) (i : Instr) (L : Latch) : State :=
  if Instr.isFp64 i then { s with fp64 := s.fp64.filter (fun x => x.1 != L.pipe) ++ [(L.pipe, s.dev.cycle)] } else s

/-- One word of a compound, with the meaning of its instruction (R129, R140, R141). -/
def State.run (s : State) (i : Instr) (L : Latch) (body : Latch → State → Res) : State :=
  match s.check i L with
  | some cause => s.trap L cause 0
  | none =>
    if s.fp64Busy i L then s.stall s L
    else if L.exec.isEmpty then ((s.advance L).finish i L).takeFp64 i L
    else if s.awaits i L then s.stall s L
    else match body L (s.advance L) with
      | .done t => (t.finish i L).takeFp64 i L
      | .trap cause info => s.trap L cause info
      | .stall t => s.stall t L
      | .hold t => s.hold t L
      | .trapSome ks cause info => s.trap { L with group := ks, exec := ks } cause info

/-- The step of an instruction word (R129). Outside an issue slot there is no word to execute. -/
def Ops.instr (i : Instr) (s : State) (body : Latch → State → Res) : Host.Outcome State Fault Refusal :=
  match s.issue with
  | none => .fault .noIssue
  | some L => .next (s.run i L body)

/-- The step of a prefix word: checked like any word, then kept in the latch for the word behind it (R114, R116, R117). -/
def Ops.pre (i : Instr) (s : State) (f : Latch → Latch) : Host.Outcome State Fault Refusal :=
  match s.issue with
  | none => .fault .noIssue
  | some L =>
    match s.check i L with
    | some cause => .next (s.trap L cause 0)
    | none => .next { s with issue := some { f L with at_ := L.at_ + 4 } }

/-! ## Executing lanes -/

/-- The threads of the execution mask, in ascending lane order. -/
def State.lanes (s : State) (L : Latch) : List Thread := s.at L.core L.exec

/-- The lowest executing lane. -/
def State.lowest (s : State) (L : Latch) : Option Thread := (s.lanes L).head?

/-- The state with every executing thread changed. -/
def State.mapExec (s : State) (L : Latch) (f : Thread → Thread) : State :=
  { s with threads := s.threads.map fun t => if t.core == L.core && L.exec.contains t.slot then f t else t }

/-- The warp of the latch. -/
def State.latchWarp (s : State) (L : Latch) : Option Warp := s.warp? L.core L.warp

/-- A result of each executing lane, outstanding until it returns (R134, R135). -/
def State.results (s : State) (L : Latch) (f : Thread → Pending) : State := s.mapExec L fun t => t.addPending (f t)

/-- The result of one value in `n` registers from vD. -/
def Thread.result (t : Thread) (d n v : Nat) (fl : BitVec 7) : Pending :=
  { id := 0, dests := t.rowsFrom d n, val := v, flags := fl }

/-- The result of one predicate. -/
def predResult (d : Nat) (b : Bool) (fl : BitVec 7) : Pending :=
  { id := 0, dests := [(.pred d, 0)], val := if b then 1 else 0, flags := fl }

/-- An arithmetic instruction: each executing lane computes a value from its own operands, read at issue, and writes it to
`n` registers from vD when it returns (R135, R165). -/
def Ops.alu (i : Instr) (d : Reg) (n : Nat) (s : State) (f : Thread → Fr) : Host.Outcome State Fault Refusal :=
  Ops.instr i s fun L s => .done (s.results L fun t => t.result d.toNat n (f t).1 (f t).2)

/-- An instruction that writes one predicate of each executing lane. -/
def Ops.test (i : Instr) (d : Reg) (s : State) (f : Thread → Bool × BitVec 7) : Host.Outcome State Fault Refusal :=
  Ops.instr i s fun L s => .done (s.results L fun t => predResult d.toNat (f t).1 (f t).2)

/-- A thread parks after its compound. -/
def State.park (s : State) (c k : Nat) (r : Park) : State := s.updThread c k fun t => { t with status := .parked r }

/-- A thread parks at its compound, to issue it again from this repeat on (R140). -/
def State.parkReplay (s : State) (L : Latch) (k : Nat) (r : Park) : State :=
  s.updThread L.core k fun t => { t with status := .parked r, pc := L.first, repLeft := L.n - L.j }

/-- Every executing thread parks at its compound. -/
def State.parkAll (s : State) (L : Latch) (r : Park) : State :=
  s.mapExec L fun t => { t with status := .parked r, pc := L.first, repLeft := L.n - L.j }

/-- The gang of a thread's task and its member index; none for a task outside a larger gang (R98, R190). -/
def State.gangOf (s : State) (t : Thread) : Option (Gang × Nat) :=
  match s.task? t.task with
  | none => none
  | some k =>
    match k.gang, s.ctx? k.ctx with
    | some (g, m), some c => (c.gangs.find? fun x => x.id == g).map fun x => (x, m)
    | _, _ => none

/-- The members of a thread's gang: 1 outside a larger gang (R103). -/
def State.gangSize (s : State) (t : Thread) : Nat :=
  match s.gangOf t with
  | some (g, _) => g.members.length
  | none => 1

/-- Where a member of a thread's gang stands. -/
inductive Member where
  | absent                            -- its index is at or above the gang's size
  | unstarted (gang : Nat)
  | at_ (core task : Nat)             -- started, and perhaps retired

/-- A member of a thread's gang (R99, R190). -/
def State.member (s : State) (t : Thread) (m : Nat) : Member :=
  match s.gangOf t with
  | none => if m = 0 then .at_ t.core t.task else .absent
  | some (g, _) =>
    match g.members[m]? with
    | none => .absent
    | some (task, .unstarted, _) => if task = t.task then .at_ t.core t.task else .unstarted g.id
    | some (task, _, core) => .at_ core task

/-- The context of the latch's threads. -/
def State.latchCtx (s : State) (L : Latch) : Nat :=
  match (s.at L.core L.group).head? with
  | some t => s.ctxOf t
  | none => 0

/-- The return from an exception for one thread, with the number its trap record holds (R410). -/
def Thread.leave (rec : Nat) (t : Thread) : Thread :=
  let epc := bitsOf rec 63 0
  let rpc := bitsOf rec 127 64
  let rep := bitsOf rec 191 184
  let gv := bitOf rec 183
  let left := bitsOf rec 179 176
  let same := rpc == epc
  { t with handler := false, pc := BitVec.ofNat 64 rpc, repLeft := if same then rep else 0
           guard := if same && gv && left != 0 then some { g := bitOf rec 182, left := left } else none }

end Sys2Proof.Machine
end

