-- ==== Sys2Proof/Machine/Fetch.lean ====
section
/-! DEFINITION. Fetching the words of a compound (06 R117, R130, R131), forming the latch of an issue slot (07 R139, R140),
and the transfers a core may make at any time (R130, 11 R217 to R219, 20 R397). -/

namespace Sys2Proof.Machine

open Sys2Proof

/-! ## Instruction cache -/

/-- The word of a core's instruction cache. -/
def MemSys.iword? (m : MemSys) (c key : Nat) : Option Word :=
  match m.icache.find? fun x => x.unit == c && x.key == key with
  | some x => some x.val
  | none => none

/-- The words that a 64 KiB instruction cache holds (R130). -/
def icacheWords : Nat := 16384

/-- The instruction cache of a core with a word filled; the oldest word goes when it is full. -/
def MemSys.fillIcache (m : MemSys) (c key : Nat) (v : Word) : MemSys :=
  let mine := m.icache.filter fun x => x.unit == c
  let l := if mine.length ≥ icacheWords then
      match mine.head? with
      | some o => m.icache.filter (· != o)
      | none => m.icache
    else m.icache
  { m with icache := l ++ [{ unit := c, key := key, val := v }] }

/-- What a fetch ends in. -/
inductive Fetch where
  | word (w : BitVec 32) (s : State)
  | wait (s : State)

/-- The miss-table entry of a page and a kind of access whose walk has ended in a fault: lanes that need it park in it
(R398). -/
def State.faulted (s : State) (c ctx va : Nat) (kind : Access) : Option Miss :=
  (s.missFor (coreDie c) ctx (va / 2 ^ 16) kind).filter fun m => m.phase != .walking

/-- Misses of a list of threads (R397): each joins its die's miss table, and those that find it full wait and issue
nothing. -/
def State.missAll (s : State) (L : Latch) (kind : Access) (vas : List (Nat × Nat)) : State :=
  vas.foldl (fun s kv =>
    match s.thread? L.core kv.1 with
    | none => s
    | some t =>
      let e : Miss :=
        { die := coreDie L.core, num := 0, ctx := s.ctxOf t, page := kv.2 / 2 ^ 16, kind := kind, unpriv := !s.privileged t,
          write := kind == .write, waiters := [], va := kv.2, pc := L.first.toNat, task := s.taskNum t,
          core := L.core, slot := kv.1 }
      let up := !s.privileged t
      match s.joinMiss e (.lane L.core kv.1 (if kind == .fetch then 0 else L.n - L.j)) with
      | some (n, s) => s.updMiss (coreDie L.core) n fun m => { m with unpriv := m.unpriv || up }
      | none => s) s

/-- Lanes that fault park at their compound in the entry of their page (R229, R398); `rep` is the repeats they keep, 0 for
those they have. -/
def State.parkFaults (s : State) (L : Latch) (kind : Access) (rep : Nat) (vas : List (Nat × Nat)) : State :=
  vas.foldl (fun s kv =>
    match s.thread? L.core kv.1 with
    | none => s
    | some t =>
      match s.faulted L.core (s.ctxOf t) kv.2 kind with
      | none => s
      | some m =>
        let w : Waiter := .lane L.core kv.1 0
        let s := s.updMiss m.die m.num fun m => { m with waiters := if m.waiters.contains w then m.waiters else m.waiters ++ [w] }
        s.updThread L.core kv.1 fun t =>
          { t with status := .parked (.fault m.die m.num false), pc := L.first, repLeft := if rep = 0 then t.repLeft else rep }) s

/-- Whether an access of a thread meets a page whose walk has faulted. -/
def State.meetsFault (s : State) (c : Nat) (kind : Access) (kv : Nat × Nat) : Bool :=
  match s.thread? c kv.1 with
  | none => false
  | some t => (s.faulted c (s.ctxOf t) kv.2 kind).isSome

/-- Poison met by a fetch or an access: the threads park with a record of kind poison (R228). Without room in the miss table
they wait. -/
def State.poisonPark (s : State) (L : Latch) (rep : Nat) (vas : List (Nat × Nat)) : State :=
  vas.foldl (fun s kv =>
    match s.thread? L.core kv.1 with
    | none => s
    | some t =>
      let e : Miss :=
        { die := coreDie L.core, num := 0, ctx := s.ctxOf t, page := kv.2 / 2 ^ 16, kind := .poison,
          unpriv := !s.privileged t, write := false, waiters := [], va := kv.2, pc := L.first.toNat, task := s.taskNum t,
          core := L.core, slot := kv.1 }
      match s.faultEntry e (.lane L.core kv.1 rep) with
      | some (n, s) =>
        s.updThread L.core kv.1 fun t =>
          { t with status := .parked (.fault (coreDie L.core) n false), pc := L.first, repLeft := if rep = 0 then t.repLeft else rep }
      | none => s) s

/-- The word at an address that was fetched ahead for a thread (R130). -/
def Thread.ahead? (t : Thread) (va : Nat) : Option (BitVec 32) := (t.fetched.find? fun f => f.1 == va).map (·.2)

/-- A thread without a word fetched ahead at an address. -/
def Thread.dropAhead (va : Nat) (t : Thread) : Thread := { t with fetched := t.fetched.filter fun f => f.1 != va }

/-- The threads of the issue group as they stand. -/
def State.groupOf (s : State) (L : Latch) : List Thread := s.at L.core L.group

/-- The word that was fetched ahead for every thread of a list; none when one of them has none, or another one (R131). -/
def aheadOf (ts : List Thread) (va : Nat) : Option (BitVec 32) :=
  match ts.head? with
  | none => none
  | some t => (t.ahead? va).filter fun w => ts.all fun u => u.ahead? va == some w

/-- The word at an address for the issue group (R130): a word fetched ahead, the instruction cache, or the home. Threads that
may not fetch from the page wait for its walk (R398); a pinned word or a poisoned one holds the group back. -/
def State.fetchAt (s : State) (L : Latch) (va : Nat) : Fetch :=
  let ts := s.groupOf L
  match aheadOf ts va with
  | some w => .word w { s with threads := s.threads.map fun t =>
      if t.core == L.core && L.group.contains t.slot then t.dropAhead va else t }
  | none =>
    let ctx := s.latchCtx L
    let bad := ts.filter fun t => (s.xlate L.core ctx va .fetch (s.privileged t)).isNone
    if !bad.isEmpty then
      let vas := bad.map fun t => (t.slot, va)
      .wait ((s.missAll L .fetch (vas.filter fun x => !s.meetsFault L.core .fetch x)).parkFaults L .fetch 0
        (vas.filter (s.meetsFault L.core .fetch)))
    else
      match s.cached L.core ctx va with
      | none => .wait s
      | some x =>
        let key := x.leaf.key va
        match s.mem.iword? L.core key with
        | some w => .word w s
        | none =>
          if s.mem.retry (some L.core) key 4 then .wait s
          else if s.mem.poisoned key 4 then .wait (s.poisonPark L 0 (ts.map fun t => (t.slot, va)))
          else
            let w := s.mem.wordNow key
            .word w (s.updMem fun m => m.fillIcache L.core key w)

/-- What a step does next: it runs an instruction in a state, or it is over. -/
inductive Next where
  | exec (i : Instr) (s : State)
  | now (s : State)

/-- A state whose group waits: the misses that it opened and the threads that it parked stay (R137, R398). -/
def State.waitIssue (s : State) (L : Latch) : State :=
  (s.updWarp L.core L.warp fun w => { w with stalled := true, chosen := false, unchosen := L.before }).unlatch

/-- The word that a repeat of a compound executes (R114): the target's fields stepped by the repeat's number; a LIMM is not
stepped. -/
def Latch.stepped (L : Latch) (w : BitVec 32) : BitVec 32 :=
  match L.rep with
  | some (_, sD, sA, sB) => if limmWord (limmImm w) == w then w else repWord w sD sA sB L.j
  | none => w

/-- The word of the latch, decoded (R117, R126 to R129). A word that no entry admits traps: cause PRIVILEGE for a word of
class 13 outside privileged mode, else ILLEGAL (R129 steps 1 to 3). -/
def State.decodeNext (s : State) (L : Latch) (w : BitVec 32) : Next :=
  let L := { L with word := w }
  let x := L.stepped w
  match decodeWord L.limm x with
  | .ok d => .exec d.instr { s with issue := some { L with marker := d.marker } }
  | .error _ =>
    let system := (Fields.ofWord x).cls == 13 && (s.at L.core L.who).any fun t => !s.privileged t
    .now (s.trap L (if system then 2 else 1) 0)

/-- The next word of the compound being issued. -/
def State.nextWord (s : State) (L : Latch) : Next :=
  match L.held with
  | some w => s.decodeNext L w
  | none =>
    match s.fetchAt L L.at_.toNat with
    | .word w s => s.decodeNext L w
    | .wait s => .now (s.waitIssue L)

/-! ## Issue slots (R137 to R140) -/

/-- The execution mask of a group: its eligible threads for which the guard holds, in ascending lane order (R140, R115). -/
def State.execMask (s : State) (c : Nat) (group : List Nat) : List Nat :=
  let ts := (s.at c group).filter fun t => t.status == .eligible && (match t.guard with | some g => g.g | none => true)
  (sortBy (fun (a b : Thread) => a.lane < b.lane) ts).map (·.slot)

/-- The latch of an issue group at a PC (R140); `left` is the repeats still to run of a replay group. -/
def State.open (s : State) (w : Warp) (pc : Pair) (group : List Nat) (left : Nat) : State :=
  { s with issue := some { core := w.core, warp := w.slot, first := pc, at_ := pc, group := group
                           exec := s.execMask w.core group, left := left, before := w.unchosen } }

/-- The latch of the next repeat of the compound a warp is on (R139). -/
def State.resume (s : State) (w : Warp) (k : Compound) : State :=
  let group := k.group.filter fun n =>
    match s.thread? w.core n with
    | some t => t.status == .eligible && t.pc == k.pc && t.repLeft == k.n - k.j
    | none => false
  let L : Latch :=
    { core := w.core, warp := w.slot, first := k.pc, at_ := k.next - 4, group := group, exec := s.execMask w.core group
      rep := some (k.n, k.sD, k.sA, k.sB), limm := k.limm, held := some k.word, j := k.j, n := k.n, before := w.unchosen }
  { s with issue := some L }

/-- Whether the compound that a warp is on still has a thread of its group (R139). -/
def State.curLive (s : State) (c : Nat) (k : Compound) : Bool :=
  k.group.any fun n =>
    match s.thread? c n with
    | some t => t.status == .eligible && t.pc == k.pc && t.repLeft == k.n - k.j
    | none => false

/-! ## Transfers that may be made at any time -/

/-- A thread with a word fetched ahead. -/
def Thread.putAhead (va : Nat) (w : BitVec 32) (t : Thread) : Thread :=
  let t := t.dropAhead va
  { t with fetched := t.fetched ++ [(va, w)] }

/-- A word fetched ahead for a thread, through the instruction cache as it stands (R130, R172). -/
def State.fetchAhead (s : State) (c k va : Nat) : State :=
  match s.thread? c k with
  | none => s
  | some t =>
    if va % 4 ≠ 0 || !t.live then s
    else match s.xlate c (s.ctxOf t) va .fetch (s.privileged t) with
    | none => s
    | some x =>
      let key := x.leaf.key va
      match s.mem.iword? c key with
      | some w => s.updThread c k (Thread.putAhead va w)
      | none =>
        if s.mem.retry (some c) key 4 || s.mem.poisoned key 4 then s
        else
          let w := s.mem.wordNow key
          (s.updMem fun m => m.fillIcache c key w).updThread c k (Thread.putAhead va w)

/-- The list without its element at a position. -/
def dropAt {α : Type} (n : Nat) (l : List α) : List α := l.take n ++ l.drop (n + 1)

/-- A warp may be chosen: it has an eligible thread, and the word it issued last found its unit ready (R137). -/
def State.warpEligible (s : State) (w : Warp) : Bool :=
  !w.stalled && !w.vacated && s.threads.any fun t => t.core == w.core && t.warp == w.slot && t.status == .eligible

/-- The wait condition of a warp on a mask (R143): every thread whose bit is set is parked at an MWAIT on it. A thread that has ended
still holds its lane, so a bit that MSET puts there keeps the condition from holding. -/
def State.mwaitHolds (s : State) (w : Warp) (k : Nat) : Bool :=
  s.threads.all fun t => !(t.core == w.core && t.warp == w.slot) || !(w.masks.getD k 0).toNat.testBit t.lane
    || t.status == .parked (.mwait k)

/-- The threads of a warp that are parked at an MWAIT on a mask go on, if its wait condition holds (R143). -/
def State.mwaitRelease (s : State) (w : Warp) (k : Nat) : State :=
  if s.mwaitHolds w k then
    { s with threads := s.threads.map fun t =>
        if t.core == w.core && t.warp == w.slot && t.status == .parked (.mwait k) then t.release else t }
  else s

/-- The wait conditions of every warp, evaluated at the end of a cycle (R143). -/
def State.settleMasks (s : State) : State :=
  s.warps.foldl (fun s w => (upTo 12).foldl (fun s k => s.mwaitRelease w k) s) s

end Sys2Proof.Machine
end

