-- ==== Sys2Proof/Machine/Access.lean ====
section
/-! DEFINITION. Memory accesses of lanes: addresses and translation faults (12 R229), the private window (11 R224, R225),
single-copy atomic parts (17 R350), request types (11 R214), loads and stores in flight and in L1 (R215, 17 R348), release
writes and pins (R351), the stream detector (R226) and scratchpad accesses (R221 to R223). -/

namespace Sys2Proof.Machine

open Sys2Proof

/-! ## Addresses -/

/-- The address of a memory operand [vA+e] of a thread: pair(vA) + sext(imm), modulo 2^64 (R229). -/
def Thread.addr (t : Thread) (a : Reg) (i : Imm) : Nat := (t.pair a.toNat + i.signExtend 64).toNat

/-- The offset of an address in the private window; none outside it (R224). -/
def windowOff (va : Nat) : Option Nat := if va / 2 ^ 48 = 0xFFFF then some (va % 2 ^ 48) else none

/-- Bytes of private memory of the threads of a context (R224). -/
def State.pbytes (s : State) (ctx : Nat) : Nat :=
  match s.ctx? ctx with
  | some c => c.pbytes
  | none => 0

/-- Whether an access is a violation of the private window (R225). -/
def State.windowBad (s : State) (t : Thread) (va n : Nat) : Bool :=
  match windowOff va with
  | some o => s.pbytes (s.ctxOf t) < o + n
  | none => false

/-- The key of a byte of private memory (R224): base + (o div 4)·4·T + 4t + (o mod 4), with the base that the distributor assigned to
the task at admission, in a space of keys that no page reaches (assumption log 27). -/
def State.privKey (s : State) (t : Thread) (o : Nat) : Nat :=
  let (base, n) := match s.task? t.task with | some k => (k.privBase, k.nthr) | none => (0, 1)
  3 * 2 ^ 56 + base + o / 4 * 4 * n + 4 * t.tid + o % 4

/-- One access of one lane. -/
structure LaneAcc where
  slot : Nat
  va : Nat
  width : Nat
deriving DecidableEq, Repr

/-- The pages' addresses that an access touches: its first and its last byte. -/
def LaneAcc.ends (x : LaneAcc) : List Nat := [x.va, (x.va + x.width - 1) % 2 ^ 64].eraseDups

/-- The accesses that have no translation which allows them, with the address that lacks it (R397, R398). The private window
needs none. -/
def State.untranslated (s : State) (c : Nat) (kind : Access) (xs : List LaneAcc) : List (Nat × Nat) :=
  xs.filterMap fun x =>
    match s.thread? c x.slot with
    | none => none
    | some t =>
      (x.ends.find? fun va => (windowOff va).isNone && (s.xlate c (s.ctxOf t) va kind (s.privileged t)).isNone).map fun va =>
        (x.slot, va)

/-- The accesses of a compound, once every walk has ended: until then the compound waits. Lanes whose walk faulted park, and
`k` goes on with the others, which its first argument tells (R229, R398). -/
def State.withPages (s : State) (L : Latch) (kind : Access) (xs : List LaneAcc) (k : (Thread → Bool) → State → Res) : Res :=
  let bad := s.untranslated L.core kind xs
  let gone := bad.filter (s.meetsFault L.core kind)
  if gone.length != bad.length then .stall (s.missAll L kind (bad.filter fun x => !s.meetsFault L.core kind x))
  else k (fun t => !gone.any fun x => x.1 == t.slot) (s.parkFaults L kind (L.n - L.j) gone)

/-- The single-copy atomic parts of a global access: offset and bytes (R350). -/
def partsOf (va n : Nat) : List (Nat × Nat) :=
  if va % n ≠ 0 then (upTo n).map fun i => (i, 1)
  else if n ≤ 8 then [(0, n)]
  else (upTo (n / 8)).map fun i => (8 * i, 8)

/-! ## Request types (Table 11-2, R214) -/

/-- The type of a load after the page's substitutions. -/
def Leaf.ldTy (l : Leaf) (q : LdReq) : LdTy :=
  if l.rtype = 3 then .nc
  else match q with
    | .dflt => (match l.rtype with | 0 => if l.ro then .si else .own | _ => .si)
    | .own => if l.ro then .si else .own
    | .si => .si
    | .nc => .nc

/-- The kind of a store after the page's substitutions. -/
def Leaf.stKind (l : Leaf) (q : StReq) : ReqKind :=
  if l.rtype = 3 then .storeNc
  else match q with
    | .dflt => if l.rtype = 0 then .storeOwn else .storeWt
    | .own => .storeOwn
    | .wt => .storeWt
    | .nc => .storeNc

/-- The stream detector of a core (R226): whether a plain access of `n` bytes is turned into no-allocate traffic, and the core's new
run. On the page of the access before, the grain behind its last grain continues a run. -/
def State.detect (s : State) (c : Nat) (l : Leaf) (key n : Nat) : Bool × State :=
  let grain := key / l.grain * l.grain
  let page := key / l.size * l.size
  let next := (key + n - 1) / l.grain * l.grain + l.grain
  let (last, at_, k) := match s.mem.detector.find? fun d => d.1 == c with
    | some (_, x) => x
    | none => (0, 0, 0)
  let runs := k != 0 && page == last && grain == at_
  let k' := if runs then k + 1 else 1
  (runs && 16 ≤ k, s.updMem fun m => { m with detector := m.detector.filter (fun d => d.1 != c) ++ [(c, page, next, k')] })

/-- Whether the detector counts a load (R226): plain, and of the .si or .nc kind after the page's substitutions. -/
def Leaf.countsLd (l : Leaf) (q : LdReq) (ordered : Bool) : Bool := !ordered && l.ldTy q != .own

/-- Whether the detector counts a store: of the .wt or .nc kind. -/
def Leaf.countsSt (l : Leaf) (q : StReq) : Bool := l.stKind q != .storeOwn

/-! ## Requests -/

/-- Whether an earlier request of a thread to the words of a part is outstanding. -/
def State.overlaps (s : State) (c k key n : Nat) : Bool :=
  s.mem.reqs.any fun q => q.core == c && q.slot == k && q.meets key n

/-- A request sent to its home (R359); the write of a thread is noted (R353). -/
def State.send (s : State) (r : Req) : State :=
  let (id, s) := s.newId
  s.updMem fun m =>
    let m := if r.kind.isLoad then m else m.note r.core (some r.slot) (wordKeys r.key r.width)
    { m with reqs := m.reqs ++ [{ r with id := id, since := s.dev.cycle, at_ := m.now }] }

/-- One more part of an outstanding result is awaited. -/
def Thread.expect (id : Nat) (t : Thread) : Thread :=
  { t with pending := t.pending.map fun p => if p.id == id then { p with parts := p.parts + 1 } else p }

/-- The grain of a part, as noted among those that a thread has loaded (R348). -/
def grainOfKey (l : Leaf) (key : Nat) : Nat := key / l.grain * l.grain

/-- What an access asks beside its read or write: no-allocate traffic (R226), a release before it (R376), a pin (R351), and as a rank of a
compaction (R257, R258) the request it comes after and the result that counts it, in each of `lanes`. -/
structure With where
  na : Bool := false
  rel : Option Scope := none
  pin : Option Scope := none
  after : Nat := 0
  count : Nat := 0
  lanes : List Nat := []

/-- A part of a rank comes after the parts before it (R257). -/
def State.chain (s : State) (w : With) : With :=
  if w.count = 0 then w
  else match s.mem.reqs.getLast? with
    | some r => if r.count = w.count then { w with after := r.id } else w
    | none => w

/-- One more part of a rank awaited by the results that count it. -/
def State.expectRank (s : State) (c : Nat) (w : With) : State :=
  if w.count = 0 then s else w.lanes.foldl (fun s k => s.updThread c k (Thread.expect w.count)) s

/-- One part of a load (R232, R348): answered in L1, or sent to its home. An ordered load is answered in the L1 only by words that the
core owns. -/
def State.loadPart (s : State) (c k ctx : Nat) (l : Leaf) (q : LdReq) (ordered : Bool) (w : With) (pid va n shift : Nat) : State :=
  let key := l.key va
  let ty := l.ldTy q
  let s := s.updThread c k fun t => t.expect pid
  let hit := if ty == .nc || s.overlaps c k key n || s.acquiring c k || w.count != 0 then none else s.mem.l1Value c key n (ordered || ty == .own)
  match hit with
  | some v => s.updThread c k fun t => t.answer pid shift v 0
  | none => (s.expectRank c w).send
      { id := 0, core := c, slot := k, ctx := ctx, kind := .load (if w.na && ty == .si then .na else ty) ordered, key := key,
        va := va, width := n, grain := l.grain, home := l.home, pend := pid, shift := shift, na := w.na, after := w.after,
        count := w.count, lanes := w.lanes, probe := !ordered && !w.na && ty == .si && !(q == .dflt && l.rtype == 2) }

/-- Whether a private access reads a poisoned word that the L1 does not hold (R228). -/
def State.privPoison (s : State) (t : Thread) (o n : Nat) : Bool :=
  (upTo n).any fun i =>
    let key := s.privKey t (o + i)
    (s.mem.l1? t.core (key / 4 * 4)).isNone && s.mem.poisoned key 1

/-- A private word in L1, filled from its backing memory, with its value (R225). -/
def State.privWord (s : State) (t : Thread) (key : Nat) : Word × State :=
  match s.mem.l1? t.core key with
  | some x => (x.val, s)
  | none =>
    let v : Word := BitVec.ofNat 32 (Memory.readN s.mem.cells key 4)
    match s.roomFor t.core key with
    | none => (v, s)
    | some s =>
      let x : L1Word := { core := t.core, key := key, val := v, hold := .own, priv := true, task := t.task }
      (v, s.updMem fun m => m.putL1 x)

/-- A private load of `n` bytes from an offset, byte by byte. -/
def State.privLoad (s : State) (t : Thread) (o : Nat) : Nat → Nat × State
  | 0 => (0, s)
  | n + 1 =>
    let key := s.privKey t o
    let (w, s) := s.privWord t (key / 4 * 4)
    let (v, s) := s.privLoad t (o + 1) n
    (w.toNat / 256 ^ (key % 4) % 256 + 256 * v, s)

/-- A private store of `n` bytes at an offset (R225): into L1, or where L1 has no room into its backing memory. -/
def State.privStore (s : State) (t : Thread) (o v : Nat) : Nat → State
  | 0 => s
  | n + 1 =>
    let key := s.privKey t o
    let w := key / 4 * 4
    if s.privPoison t o 1 then
      (s.updMem fun m => { m with cells := Memory.write m.cells key (BitVec.ofNat 8 v) }).privStore t (o + 1) (v / 256) n
    else
      let (old, s) := s.privWord t w
      let new := mergeWord old w key 1 (v % 256)
      let s := match s.mem.l1? t.core w with
        | some x => s.updMem fun m => m.putL1 { x with val := new, written := true }
        | none => s.updMem fun m => { m with cells := Memory.writeN m.cells w 4 new.toNat }
      s.privStore t (o + 1) (v / 256) n

/-- The cached translation of a lane's address. -/
def State.leafOf (s : State) (t : Thread) (va : Nat) : Option Leaf := (s.cached t.core (s.ctxOf t) va).map (·.leaf)

/-- The first leaf of an access of a lane, with its key. -/
def State.firstLeaf (s : State) (t : Thread) (va : Nat) : Option (Leaf × Nat) := (s.leafOf t va).map fun l => (l, l.key va)

/-- The grains of an access of a lane that its thread has not loaded since its last acquire (R348). -/
def State.freshGrains (s : State) (t : Thread) (va n : Nat) : List Nat :=
  ((partsOf va n).filterMap fun p =>
    match s.leafOf t ((va + p.1) % 2 ^ 64) with
    | some l => some (grainOfKey l (l.key ((va + p.1) % 2 ^ 64)))
    | none => none).eraseDups.filter fun g => !t.grains.contains g

/-- A private load whose words are poisoned (R228): its bytes are read at their backing memory, where each meets the poison. -/
def State.privPoisoned (s : State) (t : Thread) (va o n pid : Nat) : State :=
  (upTo n).foldl (fun s i =>
    (s.updThread t.core t.slot fun t => t.expect pid).send
      { id := 0, core := t.core, slot := t.slot, ctx := s.ctxOf t, kind := .load .nc true, key := s.privKey t (o + i), va := va + i
        width := 1, pend := pid, shift := i }) s

/-- A load of one lane (R232): its result is outstanding in the destinations given until every part has been answered. Whether it is
the ordered first load of a grain (R348), and whether it is no-allocate traffic (R226), is one matter for the whole access. -/
def State.loadLane (s : State) (c k : Nat) (q : LdReq) (va n : Nat) (dests : List (Dest × Nat)) (w : With := {}) : State :=
  match s.thread? c k with
  | none => s
  | some t =>
    let (pid, s) := s.newId
    match windowOff va with
    | some o =>
      if s.privPoison t o n then (s.updThread c k fun t => t.addPending { id := pid, dests := dests }).privPoisoned t va o n pid
      else
        let (v, s) := s.privLoad t o n
        s.updThread c k fun t => t.addPending { id := pid, dests := dests, val := v }
    | none =>
      let fresh := s.freshGrains t va n
      let s := s.updThread c k fun t => { t.addPending { id := pid, dests := dests } with grains := t.grains ++ fresh }
      let (na, s) := match s.firstLeaf t va with
        | some (l, key) => if l.countsLd q (fresh.contains (grainOfKey l key)) then s.detect c l key n else (false, s)
        | none => (false, s)
      (partsOf va n).foldl (fun s p =>
        let a := (va + p.1) % 2 ^ 64
        match s.leafOf t a with
        | some l =>
          let ordered := fresh.contains (grainOfKey l (l.key a))
          s.loadPart c k (s.ctxOf t) l q ordered { s.chain w with na := na && !ordered } pid a p.2 p.1
        | none => s) s

/-- The release of a thread by an instruction: its later writes are no longer release writes of an earlier fence (R377). -/
def State.releaseBy (s : State) (c k : Nat) (sc : Scope) : Option State :=
  (s.release c k sc).map fun s => s.updThread c k fun t => { t with relScope := none }

/-- Whether release writes at a scope pin (R351). -/
def Scope.pins : Scope → Bool
  | .core | .cluster => true
  | .thread | .team | .die | .pkg | .sys => false

/-- One part of a store (R232): in L1 when the core owns its words and nothing holds it back, else sent to its home. DESIGN CHOICE: lanes of one
word that write what the core owns do so at its issue, in ascending lane order (assumption log 53). -/
def State.storePart (s : State) (c k ctx : Nat) (l : Leaf) (kind : ReqKind) (va n v pend : Nat) (w : With) : State :=
  let key := l.key va
  if kind == .storeOwn && !s.overlaps c k key n && !s.acquiring c k && !(wordKeys key n).any s.mem.watched
      && w.rel.isNone && w.pin.isNone && w.count == 0
      && (wordKeys key n).all (fun w => s.mem.owner? w == some (0, c) && (s.mem.l1? c w).isSome) then
    s.updMem fun m => (m.storeL1 c key n v).note c (some k) (wordKeys key n)
  else
    let s := if pend = 0 then s else s.updThread c k (Thread.expect pend)
    (s.expectRank c w).send
      { id := 0, core := c, slot := k, ctx := ctx, kind := kind, key := key, va := va, width := n, data := v,
        grain := l.grain, home := l.home, pend := pend, na := w.na, rel := w.rel, pin := w.pin, after := w.after,
        count := w.count, lanes := w.lanes }

/-- A release write, once its request has been sent, is performed at once where nothing holds it back (R351, R376); else it waits, and the
thread goes on. -/
def State.serveLast (s : State) : State :=
  match s.mem.reqs.getLast? with
  | some r => if s.canServe r && !(r.kind.reads && s.mem.poisoned r.key r.width) then s.serve r else s
  | none => s

/-- What a store behind a fence is (R351, R377): each release write at a scope that pins does so, and on an .nc page or a page homed on the
host it is behind a release at .sys scope instead. -/
def Thread.storeWith (t : Thread) (l : Leaf) (w : With) : With :=
  match t.relScope with
  | some sc => if !Scope.pins sc then w else if l.rtype = 3 || l.home = 4 then { w with rel := some .sys } else { w with pin := some sc }
  | none => w

/-- A store of one lane (R232). -/
def State.storeLane (s : State) (c k : Nat) (q : StReq) (va n v pend : Nat) (w : With := {}) : State :=
  match s.thread? c k with
  | none => s
  | some t =>
    match windowOff va with
    | some o => s.privStore t o v n
    | none =>
      let (na, s) := match s.firstLeaf t va with
        | some (l, key) => if l.countsSt q then s.detect c l key n else (false, s)
        | none => (false, s)
      (partsOf va n).foldl (fun s p =>
        let a := (va + p.1) % 2 ^ 64
        match s.leafOf t a with
        | none => s
        | some l =>
          let w := t.storeWith l (s.chain w)
          let kind := if na && l.countsSt q then .storeWt else l.stKind q
          let s := s.storePart c k (s.ctxOf t) l kind a p.2 (v / 256 ^ p.1 % 256 ^ p.2) pend { w with na := na }
          if w.rel.isSome || w.pin.isSome then s.serveLast else s) s

/-- Lanes whose effect must wait for a pin to end issue their compound again; the others complete (R229, R351). -/
def State.eachLane (s : State) (L : Latch) (ts : List Thread) (f : State → Thread → Option State) : State :=
  ts.foldl (fun s t =>
    match f s t with
    | some s => s
    | none => s.parkReplay L t.slot .retry) s

/-- Threads that violate the private window or a scratchpad allocation are stopped (R223, R225). -/
def State.stopAll (s : State) (L : Latch) (ts : List Thread) : State :=
  ts.foldl (fun s t => s.stopThread L.core t.slot) s

/-- An ordered load of one part, performed now (R348): the value; a retry or an outstanding access that cannot be performed;
or poison. -/
inductive Ordered where
  | val (v : Nat) (s : State)
  | wait
  | poison

/-- An ordered load of a part at its home or from words that the core owns (R348), or of a write on its way to the home (R357). -/
def State.orderedPart (s : State) (c k : Nat) (l : Leaf) (va n : Nat) : Ordered :=
  let key := l.key va
  if s.mem.retry (some c) key n || s.mem.seenHere c k key n then .wait
  else match s.drainPart c k key n with
    | none => .wait
    | some s =>
      let s := s.updThread c k fun t =>
        { t with grains := if t.grains.contains (grainOfKey l key) then t.grains else t.grains ++ [grainOfKey l key] }
      match s.forwarded c k key n with
      | some q => .val (q.data % 256 ^ n) (s.seeEarly c k q)
      | none =>
      match s.mem.l1Value c key n true with
      | some v => .val v s
      | none =>
        if s.mem.poisoned key n then .poison
        else
          let (v, s) := s.readNewest c key n
          .val v (s.updMem fun m => m.serveTo c key)

/-- An ordered load of an access, part by part. -/
def State.orderedLoad (s : State) (c k : Nat) (t : Thread) (va : Nat) : List (Nat × Nat) → Ordered
  | [] => .val 0 s
  | p :: ps =>
    let a := (va + p.1) % 2 ^ 64
    match s.leafOf t a with
    | none => .wait
    | some l =>
      match s.orderedPart c k l a p.2 with
      | .val v s =>
        (match s.orderedLoad c k t va ps with
         | .val w s => .val (v * 256 ^ p.1 + w) s
         | .wait => .wait
         | .poison => .poison)
      | .wait => .wait
      | .poison => .poison

/-- A private load, performed now (R225, R228). -/
def State.privRead (s : State) (t : Thread) (o n : Nat) : Ordered :=
  if s.privPoison t o n then .poison
  else
    let (v, s) := s.privLoad t o n
    .val v s

/-! ## Scratchpad (R221 to R223) -/

/-- Bytes of a scratchpad line. -/
def lineBytes : Nat := 128

/-- Whether an access passes the allocation or is not aligned to its width (R223). -/
def Scratch.bad (x : Scratch) (o n : Nat) : Bool := o % n != 0 || lineBytes * x.lines < o + n

/-- The byte at an offset. -/
def Scratch.byte (x : Scratch) (o : Nat) : Byte := Memory.read x.bytes o

/-- The number of `n` bytes at an offset. -/
def Scratch.read (x : Scratch) (o n : Nat) : Nat := Memory.readN x.bytes o n

/-- A write of `n` bytes at an offset; the full/empty bits stay (R221). -/
def Scratch.write (x : Scratch) (o n v : Nat) : Scratch := { x with bytes := Memory.writeN x.bytes o n v }

/-- Whether a line is full. -/
def Scratch.isFull (x : Scratch) (line : Nat) : Bool := x.full.contains line

/-- A line's bit set or cleared. -/
def Scratch.putFull (x : Scratch) (line : Nat) (b : Bool) : Scratch :=
  { x with full := let l := x.full.filter (· != line); if b then insertBy (fun (a c : Nat) => a < c) line l else l }

/-- The scratchpad of a task. -/
def State.scratch (s : State) (task : Nat) : Scratch :=
  match s.task? task with
  | some k => k.scratch
  | none => {}

/-- The state with the scratchpad of a task changed. -/
def State.updScratch (s : State) (task : Nat) (f : Scratch → Scratch) : State :=
  s.updTask task fun k => { k with scratch := f k.scratch }

/-- A line becomes full: the threads parked on it issue their access again (R222, R251). -/
def State.fillLine (s : State) (task line : Nat) : State :=
  let s := s.updScratch task fun x => x.putFull line true
  { s with threads := s.threads.map fun t => if t.status == .parked (.line task line) then t.release else t }

/-- The first empty line that an access touches. -/
def Scratch.emptyLine (x : Scratch) (o n : Nat) : Option Nat :=
  ((upTo ((o + n - 1) / lineBytes - o / lineBytes + 1)).map fun i => o / lineBytes + i).find? fun l => !x.isFull l

/-- A scratchpad read of one lane (R222, R233): a violation stops the thread, an empty line parks it. -/
def State.scratchLoad (s : State) (L : Latch) (t : Thread) (task o n : Nat) (dests : List (Dest × Nat)) : State :=
  let x := s.scratch task
  if x.bad o n then s.stopThread L.core t.slot
  else match x.emptyLine o n with
    | some l => s.parkReplay L t.slot (.line task l)
    | none => s.updThread L.core t.slot fun t => t.addPending { id := 0, dests := dests, val := x.read o n }

/-- A scratchpad write of one lane (R233). -/
def State.scratchStore (s : State) (L : Latch) (t : Thread) (task o n v : Nat) : State :=
  if (s.scratch task).bad o n then s.stopThread L.core t.slot else s.updScratch task fun x => x.write o n v

end Sys2Proof.Machine
end

