-- ==== Sys2Proof/Machine/Engine.lean ====
section
/-! DEFINITION. Memory accesses that an engine makes on behalf of a thread or of a context (12 R243, R244; 17 R354; 20 R393,
R398), their faults (R399), the lens table as instructions meet it (02 R41, R50) and the fetch of one element through a
lens (R31 to R37, R45, R46). -/

namespace Sys2Proof.Machine

open Sys2Proof

/-- How an access of an engine ends: its value, with the flags of a conversion; a fault; a retry from a pinned grain; or a violation of the
private window of its thread (R225). -/
inductive EngRes where
  | val (v : Nat) (fl : BitVec 7) (s : State)
  | fault (kind : Access) (reason va : Nat) (s : State)
  | wait
  | stop

/-- One access after another. -/
def EngRes.bind (r : EngRes) (f : Nat → BitVec 7 → State → EngRes) : EngRes :=
  match r with
  | .val v fl s => f v fl s
  | .fault k reason va s => .fault k reason va s
  | .wait => .wait
  | .stop => .stop

/-- The thread in whose private window an access lies, and its offset there (R224, R229); an access of no thread lies in none. -/
def State.windowOf (s : State) (o : Origin) (va : Nat) : Option (Thread × Nat) :=
  if o.unit then none
  else match windowOff va, o.slot with
    | some off, some k => (s.thread? o.core k).map fun t => (t, off)
    | _, _ => none

/-- An engine's read of private memory (R224, R225). -/
def State.engPriv (s : State) (t : Thread) (off va n : Nat) : EngRes :=
  if s.windowBad t va n then .stop
  else match s.privRead t off n with
    | .val v s => .val v 0 s
    | .wait => .wait
    | .poison => .fault .poison 0 va s

/-- The writes that the issuing thread has in flight to a part are performed first (R243, R341). None while one is held
back. -/
def State.settleOwn (s : State) (o : Origin) (key n : Nat) : Option State :=
  match o.slot with
  | some k => s.drainPart o.core k key n
  | none => some s

/-- One single-copy atomic part of an engine read: a plain load, on an .nc page of type .nc, or with `newest` one that recalls (R214, Table
18-1). -/
def State.engPart (s : State) (o : Origin) (newest : Bool) (va n : Nat) : EngRes :=
  match s.windowOf o va with
  | some (t, off) => s.engPriv t off va n
  | none =>
  match s.walkFor o.ctx va .read o.priv with
  | (.fault r, s) => .fault .read r va s
  | (.retry, _) => .wait
  | (.poison _, s) => .fault .poison 0 va s
  | (.ok l, s) =>
    let key := l.key va
    if s.mem.retry o.agent key n then .wait
    else match s.settleOwn o key n with
      | none => .wait
      | some s =>
        if s.mem.poisoned key n then .fault .poison 0 va s
        else if l.rtype = 3 then
          let (v, s) := s.readOrdered key n
          .val v 0 s
        else if newest then
          match s.mem.l1Value o.core key n true with
          | some v => .val v 0 s
          | none =>
            let (v, s) := s.readNewest o.core key n
            .val v 0 s
        else .val (s.readEngine o.core key n) 0 s

/-- The parts of an engine read, lowest first. -/
def State.engParts (s : State) (o : Origin) (newest : Bool) (va : Nat) : List (Nat × Nat) → EngRes
  | [] => .val 0 0 s
  | p :: ps =>
    (s.engPart o newest ((va + p.1) % 2 ^ 64) p.2).bind fun v _ s =>
      (s.engParts o newest va ps).bind fun w _ s => .val (v * 256 ^ p.1 + w) 0 s

/-- An engine's read of `n` bytes: a plain load of the page's default type, .own read as .si (R243, R354). -/
def State.engRead (s : State) (o : Origin) (va n : Nat) : EngRes := s.engParts o false va (partsOf va n)

/-- An engine's read that returns the newest value. -/
def State.engReadNew (s : State) (o : Origin) (va n : Nat) : EngRes := s.engParts o true va (partsOf va n)

/-- The parts of an engine write. -/
def State.engWriteParts (s : State) (o : Origin) (va v : Nat) : List (Nat × Nat) → EngRes
  | [] => .val 0 0 s
  | p :: ps =>
    let a := (va + p.1) % 2 ^ 64
    match s.windowOf o a with
    | some (t, off) =>
      if s.windowBad t a p.2 then .stop else (s.privStore t off (v / 256 ^ p.1 % 256 ^ p.2) p.2).engWriteParts o va v ps
    | none =>
    match s.walkFor o.ctx a .write o.priv with
    | (.fault r, s) => .fault .write r a s
    | (.retry, _) => .wait
    | (.poison _, s) => .fault .poison 0 a s
    | (.ok l, s) =>
      let key := l.key a
      if s.mem.retry o.agent key p.2 then .wait
      else match s.settleOwn o key p.2 with
        | none => .wait
        | some s =>
          let s := match o.slot with
            | some k => s.updMem fun m => m.note o.core (some k) (wordKeys key p.2)
            | none => s
          (s.writeBy o key p.2 (v / 256 ^ p.1 % 256 ^ p.2)).engWriteParts o va v ps

/-- An engine's write of `n` bytes: a .wt store performed at its home (R244). -/
def State.engWrite (s : State) (o : Origin) (va n v : Nat) : EngRes := s.engWriteParts o va v (partsOf va n)

/-- A thread stands parked on a miss-table entry behind its compound, and returns to the park of its marker afterwards
(R134, R398). A thread parked for another reason stays so. -/
def Thread.parkBehind (die n : Nat) (t : Thread) : Thread :=
  match t.status with
  | .eligible => { t with status := .parked (.fault die n true) }
  | .parked .marker => { t with status := .parked (.fault die n true), mark := true }
  | .parked _ | .stopped | .exited | .unused => t

/-- A fault of an engine entry (R398, R399): its waiters join the die's miss table, and lanes among them park. Without room
there the entry tries again. -/
def State.engFault (s : State) (o : Origin) (ws : List Waiter) (slot task pc : Nat) (kind : Access) (reason va : Nat) : State :=
  let e : Miss :=
    { die := coreDie o.core, num := 0, ctx := o.ctx, page := va / 2 ^ 16, kind := kind, unpriv := !o.priv,
      write := kind == .write, waiters := [], reason := reason, va := va, pc := pc, task := task, core := o.core, slot := slot }
  match ws with
  | [] => s
  | w :: rest =>
    match s.faultEntry e w with
    | none => s
    | some (n, s) =>
      let s := s.updMiss e.die n fun m => { m with waiters := m.waiters ++ rest.filter fun x => !m.waiters.contains x }
      ws.foldl (fun s w =>
        match w with
        | .lane c k _ => s.updThread c k (Thread.parkBehind e.die n)
        | _ => s) s

/-- Whether an activity waits in a miss table. -/
def State.held (s : State) (w : Waiter) : Bool := s.mem.miss.any fun m => m.waiters.contains w

/-- The context and the task number of a task. -/
def State.taskCtx (s : State) (id : Nat) : Nat :=
  match s.task? id with
  | some t => t.ctx
  | none => 0

/-- Whether the queue entries of a task are performed: neither the task nor its context halts (R279, 20 R401). -/
def State.acting (s : State) (task : Nat) : Bool :=
  match s.task? task with
  | none => false
  | some t =>
    (match t.phase with | .running | .retiring _ => true | .waiting | .ready | .halting | .saved | .retired => false) &&
      (match s.ctx? t.ctx with | some c => c.phase == .running | none => false)

/-- The task of a warp. -/
def State.warpTask (s : State) (c w : Nat) : Nat :=
  match s.warp? c w with
  | some x => x.task
  | none => 0

/-- The task number that a fault record gives for a task (Table 20-6). -/
def State.taskIndex (s : State) (id : Nat) : Nat :=
  match s.task? id with
  | some t => t.index
  | none => 0

/-! ## The lens table as instructions meet it (R41, R50) -/

/-- The lens entry of a context. -/
def Context.lens (c : Context) (n : Nat) : LensEntry :=
  match c.lenses.find? fun e => e.num == n with
  | some e => e
  | none => { num := n, state := .empty }

/-- The lens entry of a number in a context. -/
def State.lens (s : State) (ctx n : Nat) : LensEntry :=
  match s.ctx? ctx with
  | some c => c.lens n
  | none => { num := n, state := .empty }

/-- The state with a lens entry replaced. -/
def State.putLens (s : State) (ctx : Nat) (e : LensEntry) : State :=
  s.updCtx ctx fun c => { c with lenses := c.lenses.filter (fun x => x.num != e.num) ++ [e] }

/-- An instruction that names a lens entry: it parks while the entry is loading, and raises a format fault when it is empty
(R41, R50). -/
def State.withLens (s : State) (L : Latch) (n : Nat) (f : Lens → List Word → Res) : Res :=
  let ctx := s.latchCtx L
  let e := s.lens ctx n
  match e.state with
  | .loading => .done (s.parkAll L (.lens ctx n))
  | .empty => .trap 12 0
  | .loaded => f (Lens.ofWords e.snap) e.snap

/-- The context of a queue entry of a core: that of the task of a copy, or of the warp that placed it. -/
def State.entryCtx (s : State) (e : QEntry) : Option Nat :=
  match e.item with
  | .copy c => some (s.taskCtx c.task)
  | .gath _ | .tile _ | .job | .fence _ => (s.warp? e.core e.warp).map fun w => s.taskCtx w.task

/-- Outstanding references to a lens entry (R50): queued copies, Prism requests, and the jobs of sweep engines that have not ended,
those that stand with the records of saved tasks too. -/
def State.lensRefs (s : State) (ctx n : Nat) : Nat :=
  let saved := s.tasks.filterMap fun t => t.image.map fun i => (t.ctx, i)
  let live := s.eng.queue.map fun e => (s.entryCtx e, e)
  let q := (live ++ saved.flatMap fun x => x.2.queue.map fun e => (some x.1, e)).foldl (fun k x =>
    if x.1 != some ctx then k
    else match x.2.item with
      | .copy c => if c.lens == n then k + 1 else k
      | .gath g => if g.lens == n && !g.again then k + g.lanes.length else k
      | .tile _ | .job | .fence _ => k) 0
  q + ((s.eng.jobs ++ saved.flatMap fun x => x.2.jobs).filter fun j => j.running && j.ctx == ctx && j.lens == n).length

/-! ## One element through a lens -/

/-- The element at a storage position, delivered as a type, read by `rd` (R31 to R37, R45, R46). A malformed header or LUT4
scale is a fault of kind format (R254). -/
def Lens.fetch (l : Lens) (rd : State → Nat → Nat → EngRes) (ty : Option ReqTy8) (book : List Word) (p : Nat) (s : State) :
    EngRes :=
  if l.isQ4 || l.isLut then
    (rd s (l.base + p / 2) 1).bind fun b _ s =>
      (rd s (l.sbase + p / 32) 1).bind fun scale _ s =>
        let code := if p % 2 = 0 then b % 16 else b / 16
        let give := fun (z : Nat) (s : State) =>
          let (v, fl) := l.fourBit code scale z book
          match ty with
          | none => EngRes.val code 0 s
          | some t =>
            let (n, fl') := Fp.ofValue (reqNum t) v
            EngRes.val (n % 256 ^ numBytes (reqNum t)) (fl ||| fl') s
        if l.isLut then
          if scale / 64 != 0 then .fault .format 0 (l.sbase + p / 32) s else give 0 s
        else if l.enc && scale / 64 == 0 then (rd s (l.zpbase + p / 32) 1).bind fun z _ s => give z s
        else give 0 s
  else
    let give := fun (r : EngRes) => r.bind fun bits _ s =>
      let (v, fl) := l.deliver ty bits
      EngRes.val v fl s
    if l.cmp then
      let h := l.sbase + 16 * (p / 64)
      (rd s h 8).bind fun map _ s =>
        (rd s (h + 8) 8).bind fun x _ s =>
          let ones := fun (n : Nat) => ((upTo n).filter fun i => map.testBit i).length
          if ones 64 != x % 2 ^ 16 || x / 2 ^ 16 % 2 ^ 16 != 0 then .fault .format 0 h s
          else if map.testBit (p % 64) then give (rd s (l.base + 16 * (x / 2 ^ 32) + l.eb * ones (p % 64)) l.eb)
          else .val (l.deliver ty 0).1 0 s
    else give (rd s (l.elemAddr p) l.eb)

end Sys2Proof.Machine
end

