-- ==== Sys2Proof/Machine/Route.lean ====
section
/-! DEFINITION. Routes (06 R123, R124, Table 6-9) and the route to a core (09 R190). -/

namespace Sys2Proof.Machine

open Sys2Proof

/-- A place that a route passes or ends at. -/
inductive Place where
  | port (die sector k : Nat)       -- a cluster port of a sector crossbar
  | stop (die s : Nat)              -- a ring stop
  | core (c : Nat)
  | slice (die sector s : Nat)
  | xdie (n : Nat)
deriving DecidableEq, Repr

/-- The cluster behind a port of a sector; none for a disabled port (R12). -/
def clusterAt (die sector k : Nat) : Option Nat :=
  (upTo 32).map (fun l => die * 32 + l) |>.find? fun c => clusterSector c == sector && clusterPort c == k

/-- The port of a core's cluster. -/
def portOfCore (c : Nat) : Place := .port (coreDie c) (clusterSector (coreCluster c)) (clusterPort (coreCluster c))

/-- The ring stop from which a ring turn starts: a port's is that of its sector (Table 6-9). -/
def Place.ring : Place → Option (Nat × Nat)
  | .port d s _ => some (d, s)
  | .stop d s => some (d, s)
  | .core _ | .slice _ _ _ | .xdie _ => none

/-- The sector at whose crossbar a place stands: a port's, or that of stops 0 to 2. -/
def Place.sector : Place → Option (Nat × Nat)
  | .port d s _ => some (d, s)
  | .stop d s => if s ≤ 2 then some (d, s) else none
  | .core _ | .slice _ _ _ | .xdie _ => none

/-- The bridge from a C-die to the next, as a number among the retired units (assumption log 10). -/
def bridgeUnit (die : Nat) : Nat := 16 + die
/-- The bridge from a C-die to its X-die, as a number among the retired units. -/
def xbridgeUnit (die : Nat) : Nat := 24 + die
/-- The C-die to which an M-stack, 0 to 7, is attached, and on which its memory is homed (01 R8). -/
def stackDie (stack : Nat) : Nat := stack / 2
/-- The base-die link of an M-stack (01 R18). -/
def baseUnit (stack : Nat) : Nat := 32 + stack
/-- The X-die on which a Korlas Link port lies (22 R433). -/
def portXdie (port : Nat) : Nat := port / 6
/-- A slice of a sector of a C-die. -/
def sliceUnit (die sector s : Nat) : Nat := 64 + 36 * die + 12 * sector + s
/-- A cluster port of a sector of a C-die. -/
def portUnit (die sector k : Nat) : Nat := 256 + 36 * die + 12 * sector + k
/-- A core of the package. -/
def coreUnit (c : Nat) : Nat := 512 + c
/-- Whether a number is that of a link or a bridge, which retrains and raises LINK (R408). -/
def isLink (n : Nat) : Bool := n < 12 || (16 ≤ n && n < 20) || (24 ≤ n && n < 28) || (32 ≤ n && n < 40)

/-- One turn with its argument at a place; none where Table 6-9 or R124 does not allow it. `gone` says which units firmware
has retired. -/
def turn (gone : Nat → Bool) (p : Place) (t arg : Nat) : Option Place :=
  match t with
  | 1 => (match p.sector with
    | some (d, s) => if arg ≤ 11 && (clusterAt d s arg).isSome && !gone (portUnit d s arg) then some (.port d s arg) else none
    | none => none)
  | 2 => p.ring.map fun x => .stop x.1 ((x.2 + 1) % 8)
  | 3 => p.ring.map fun x => .stop x.1 ((x.2 + 7) % 8)
  | 4 => (match p.ring with
    | some (d, _) => if gone (bridgeUnit d) then none else some (.stop ((d + 1) % 4) 6)
    | none => none)
  | 5 => (match p.ring with
    | some (d, _) => if gone (bridgeUnit ((d + 3) % 4)) then none else some (.stop ((d + 3) % 4) 3)
    | none => none)
  | 6 => (match p with
    | .port d s k => if arg ≤ 3 then (clusterAt d s k).bind fun c => if gone (coreUnit (4 * c + arg)) then none else some (.core (4 * c + arg))
      else none
    | .stop _ _ | .core _ | .slice _ _ _ | .xdie _ => none)
  | 7 => (match p.sector with
    | some (d, s) => if arg ≤ 11 && !gone (sliceUnit d s arg) then some (.slice d s arg) else none
    | none => none)
  | 8 => (match p.ring with
    | some (d, _) => if gone (xbridgeUnit d) then none else some (.xdie (d / 2))
    | none => none)
  | _ => none

/-- The nibbles of a route that are still to be read, walked from a place; none for a malformed route (R123, R124). -/
def walkRoute (gone : Nat → Bool) (p : Place) : List Nat → Option Place
  | [] => some p
  | 0 :: rest => if rest.all (· == 0) then some p else none
  | t :: rest =>
    if t = 1 || t = 6 || t = 7 then
      match rest with
      | [] => none
      | arg :: rest => match turn gone p t arg with
        | some q => walkRoute gone q rest
        | none => none
    else match turn gone p t 0 with
      | some q => walkRoute gone q rest
      | none => none

/-- The place that a route names from a core; none where R124 rejects it (R123). -/
def routePlace (gone : Nat → Bool) (c : Nat) (r : Word) : Option Place :=
  if r = 0 then some (.core c)
  else walkRoute gone (portOfCore c) ((upTo 8).map fun i => r.toNat / 16 ^ i % 16)

/-- The smaller of two routes. -/
def minRoute (a b : Option Nat) : Option Nat :=
  match a, b with
  | some x, some y => some (Nat.min x y)
  | some x, none => some x
  | none, y => y

/-- The smallest route of exactly `n` nibbles from a place to a core. Turn 1 is tried for the port of the core's cluster only:
a route of the fewest nibbles uses no other port. -/
def routesOf (gone : Nat → Bool) (dst : Nat) (p : Place) : Nat → Option Nat
  | 0 => none
  | 1 => none
  | n + 2 =>
    let port := fun (q : Place) => turn gone q 1 (clusterPort (coreCluster dst)) == some (portOfCore dst)
    let core := turn gone (portOfCore dst) 6 (dst % 4) == some (.core dst)
    let here := if n = 0 && p == portOfCore dst && core then some (6 + 16 * (dst % 4)) else none
    let port := if n = 2 && p != portOfCore dst && port p && core then
        some (1 + 16 * clusterPort (coreCluster dst) + 256 * (6 + 16 * (dst % 4))) else none
    [2, 3, 4, 5].foldl (fun best t =>
      match turn gone p t 0 with
      | some q => minRoute best ((routesOf gone dst q (n + 1)).map fun r => t + 16 * r)
      | none => best) (minRoute here port)

/-- The route from a core to a core (R190): the fewest nibbles, then the smallest number. DESIGN CHOICE: where no string that R124 accepts
reaches it, which R190 does not speak of, a free value (assumption log 83). -/
def routeTo (gone : Nat → Bool) (c dst : Nat) : Word :=
  if c = dst then 0
  else match (upTo 9).findSome? fun n => routesOf gone dst (portOfCore c) n with
    | some r => BitVec.ofNat 32 r
    | none => Config.noRoute c dst

/-- Which units firmware has retired (R124, R433). -/
def State.goneUnits (s : State) (n : Nat) : Bool := s.dev.retiredUnits.contains n

end Sys2Proof.Machine
end

