-- ==== Sys2Proof/Machine/Memory.lean ====
section
/-! DEFINITION. The loads and stores of class 7 (12 R232 to R234) and compaction (R257, R258). -/

namespace Sys2Proof.Machine

open Sys2Proof

/-- The data of a store of `n` registers from vD, cut to its width in bytes (R232). -/
def Thread.storeData (t : Thread) (d : Reg) (n bytes : Nat) : Nat :=
  natOfWords ((upTo n).map fun j => t.reg (d.toNat + j)) % 256 ^ bytes

/-- The executing lanes of a global access, split into those that violate the private window (R225) and the others. -/
def State.split (s : State) (L : Latch) (a : Reg) (i : Imm) (n : Nat) : List Thread × List Thread :=
  (s.lanes L).partition fun t => s.windowBad t (t.addr a i) n

/-- The accesses of lanes at their memory operands. -/
def accessesOf (ts : List Thread) (a : Reg) (i : Imm) (n : Nat) : List LaneAcc :=
  ts.map fun t => { slot := t.slot, va := t.addr a i, width := n }

/-- LD (R232). -/
def execLd (q : LdReq) (w : Width) (d a : Reg) (i : Imm) (s : State) : Host.Outcome State Fault Refusal :=
  Ops.instr (.ld q w d a i) s fun L s =>
    let (bad, good) := s.split L a i (Width.bytes w)
    s.withPages L .read (accessesOf good a i (Width.bytes w)) fun go s =>
      .done ((good.filter go).foldl (fun s t => s.loadLane L.core t.slot q (t.addr a i) (Width.bytes w) (t.rowsFrom d.toNat (widthN w)))
        (s.stopAll L bad))

/-- ST (R232): a store is no outstanding result. -/
def execSt (q : StReq) (w : Width) (d a : Reg) (i : Imm) (s : State) : Host.Outcome State Fault Refusal :=
  Ops.instr (.st q w d a i) s fun L s =>
    let (bad, good) := s.split L a i (Width.bytes w)
    s.withPages L .write (accessesOf good a i (Width.bytes w)) fun go s =>
      .done ((good.filter go).foldl (fun s t =>
        s.storeLane L.core t.slot q (t.addr a i) (Width.bytes w) (t.storeData d (widthN w) (Width.bytes w)) 0)
        (s.stopAll L bad))

/-! ## Scratchpad -/

/-- The scratchpad offset of an operand [vA+e] (R221, R233). -/
def Thread.offset (t : Thread) (a : Reg) (i : Imm) : Nat := (t.reg a.toNat + i).toNat

/-- LDS (R233). -/
def execLds (w : Width) (d a : Reg) (i : Imm) (s : State) : Host.Outcome State Fault Refusal :=
  Ops.instr (.lds w d a i) s fun L s =>
    .done ((s.lanes L).foldl (fun s t =>
      s.scratchLoad L t t.task (t.offset a i) (Width.bytes w) (t.rowsFrom d.toNat (widthN w))) s)

/-- STS (R233): the full/empty bit stays. -/
def execSts (w : Width) (d a : Reg) (i : Imm) (s : State) : Host.Outcome State Fault Refusal :=
  Ops.instr (.sts w d a i) s fun L s =>
    .done ((s.lanes L).foldl (fun s t =>
      s.scratchStore L t t.task (t.offset a i) (Width.bytes w) (t.storeData d (widthN w) (Width.bytes w))) s)

/-- The lowest executing lane whose route does not end at a core (R234, R124). -/
def State.badRoute (s : State) (L : Latch) (r : Reg) (core : Nat) : Option Thread :=
  (s.lanes L).find? fun t => routePlace s.goneUnits t.core (t.reg r.toNat) != some (.core core)

/-- The lane number of a thread found, or the lowest executing lane. -/
def State.laneOr (s : State) (L : Latch) (t : Option Thread) : Nat :=
  match t with
  | some t => t.lane
  | none => match s.lowest L with
    | some t => t.lane
    | none => 0

/-- An access to the scratchpad of a gang member, by route (R234): the routes are checked once the member has started; `f`
accesses the task found. -/
def State.remote (s : State) (L : Latch) (a : Reg) (m : Nat) (f : State → Thread → Nat → State) : Res :=
  match s.lowest L with
  | none => .done s
  | some t0 =>
    match s.member t0 m with
    | .absent => .trap 8 t0.lane
    | .unstarted g => .done (s.parkAll L (.member g m))
    | .at_ core task =>
      match s.badRoute L (a + 1) core with
      | some t => .trap 8 t.lane
      | none => .done ((s.lanes L).foldl (fun s t => f s t task) s)

/-- LDX (R234): an empty line parks the lane as under LDS. -/
def execLdx (w : Bool) (d a : Reg) (i : Imm) (s : State) : Host.Outcome State Fault Refusal :=
  Ops.instr (.ldx w d a i) s fun L s =>
    s.remote L a i.toNat fun s t task =>
      s.scratchLoad L t task (t.reg a.toNat).toNat (4 * pairN w) (t.rowsFrom d.toNat (pairN w))

/-- STX (R234). -/
def execStx (w : Bool) (d a : Reg) (i : Imm) (s : State) : Host.Outcome State Fault Refusal :=
  Ops.instr (.stx w d a i) s fun L s =>
    s.remote L a i.toNat fun s t task =>
      s.scratchStore L t task (t.reg a.toNat).toNat (4 * pairN w) (t.storeData d (pairN w) (4 * pairN w))

/-! ## Compaction (R257, R258) -/

/-- What ends the ranks of a compaction for now: all have been performed; one violates the private window, or does not translate; or one must
wait, for a grain that is pinned. -/
inductive RanksEnd where
  | all
  | violation
  | fault (va : Nat) (kind : Access) (reason : Nat)
  | wait

/-- How the translation of one access by a walk ends. -/
inductive Reach where
  | ok (s : State)
  | fault (va : Nat) (kind : Access) (reason : Nat) (s : State)
  | retry

/-- The translations of an access, walked one by one into the core's TLBs (R397, R398). -/
def State.reach (s : State) (t : Thread) (kind : Access) : List Nat → Reach
  | [] => .ok s
  | va :: vas =>
    if (windowOff va).isSome || (s.xlate t.core (s.ctxOf t) va kind (s.privileged t)).isSome then s.reach t kind vas
    else match s.walkFor (s.ctxOf t) va kind (s.privileged t) with
      | (.ok l, s) => (s.fillTlb t.core (s.ctxOf t) va l).reach t kind vas
      | (.fault r, s) => .fault va kind r s
      | (.retry, _) => .retry
      | (.poison _, s) => .fault va .poison 0 s

/-- Whether an earlier rank of a word, whose accesses carry an id, waits for the end of a pin (R351). -/
def State.rankHeld (s : State) (c id : Nat) : Bool :=
  s.mem.reqs.any fun r => r.core == c && r.count == id && s.mem.retry (some c) r.key r.width

/-- Whether an access of a thread would receive a retry (R351). -/
def State.rankRetry (s : State) (t : Thread) (va n : Nat) : Bool :=
  (partsOf va n).any fun p =>
    match s.leafOf t ((va + p.1) % 2 ^ 64) with
    | some l => s.mem.retry (some t.core) (l.key ((va + p.1) % 2 ^ 64)) p.2
    | none => false

/-- The ranks of a compaction from one on (R257, R258): each is translated once those before it are past every pin, and is then performed by `f`.
How far they got, and what ends them. -/
def State.ranks (s : State) (kind : Access) (base sz id : Nat) (f : State → Thread → Nat → State) : Nat → List Thread → Nat × RanksEnd × State
  | r, [] => (r, .all, s)
  | r, t :: ts =>
    let va := (base + r * sz) % 2 ^ 64
    if s.rankHeld t.core id then (r, .wait, s)
    else if s.windowBad t va sz then (r, .violation, s)
    else match s.reach t kind (LaneAcc.ends { slot := t.slot, va := va, width := sz }) with
      | .retry => (r, .wait, s)
      | .fault va kind' reason s => (r, .fault va kind' reason, s)
      | .ok s =>
        if s.rankRetry t va sz then (r, .wait, s)
        else (f s t va).ranks kind base sz id f (r + 1) ts

/-- The count of a compaction for every live executing lane (R257): outstanding until the accesses that carry the word's id are performed. -/
def State.countRanks (s : State) (L : Latch) (d : Reg) (id k : Nat) : State :=
  let n := (s.mem.reqs.filter fun r => r.core == L.core && r.count == id).length
  s.mapExec L fun t =>
    if t.live then { t.addPending { id := id, parts := n, dests := t.rowsFrom d.toNat 1, val := k } with midway := none } else t

/-- What an earlier attempt at a compaction has done: nothing where its participants are others (assumption log 75). -/
def State.ranksDone (s : State) (L : Latch) (ts : List Thread) : Option Midway :=
  ((s.lanes L).findSome? fun t => t.midway).filter fun m => m.lanes == ts.map fun (t : Thread) => t.lane

/-- CSTORE and XPAND (R257, R258): every executing lane receives the count; a violation stops the thread of its rank; a fault parks every
executing lane behind the instruction; a rank that must wait holds the word there, with the ranks below it done. -/
def State.compact (s : State) (L : Latch) (kind : Access) (d a b : Reg) (sz : Nat)
    (f : With → State → Thread → Nat → State) : Res :=
  let ts := (s.lanes L).filter fun t => t.pred b.toNat
  let base := match ts.head? with
    | some t => (t.pair a.toNat).toNat
    | none => 0
  let (m, s) : Midway × State := match s.ranksDone L ts with
    | some m => (m, s)
    | none =>
      let (id, s) := s.newId
      ({ id := id, lanes := ts.map fun (t : Thread) => t.lane }, s)
  let (k, e, s) := s.ranks kind base sz m.id (f { count := m.id, lanes := L.exec }) m.ranks (ts.drop m.ranks)
  let held := fun (s : State) => s.mapExec L fun t => { t with midway := some { m with ranks := k } }
  match e with
  | .all => .done (s.countRanks L d m.id k)
  | .wait => .hold (held s)
  | .violation => .done ((match ts[k]? with | some t => s.stopThread L.core t.slot | none => s).countRanks L d m.id k)
  | .fault va kind' reason =>
    match ts[k]? with
    | none => .done s
    | some t =>
      let e : Miss :=
        { die := coreDie L.core, num := 0, ctx := s.ctxOf t, page := va / 2 ^ 16, kind := kind', unpriv := !s.privileged t,
          write := kind' == .write, waiters := [], reason := reason, va := va, pc := L.first.toNat, task := s.taskNum t,
          core := L.core, slot := t.slot }
      match s.faultEntry e (.lane L.core t.slot 0) with
      | none => .hold (held s)
      | some (n, s) =>
        let s := (s.lanes L).foldl (fun s u => s.updMiss e.die n fun m =>
          { m with waiters := if m.waiters.contains (.lane L.core u.slot 0) then m.waiters else m.waiters ++ [.lane L.core u.slot 0] }) s
        .done ((s.countRanks L d m.id k).mapExec L fun t => { t with status := .parked (.fault e.die n true) })

/-- CSTORE (R257). -/
def execCstore (w : Bool) (d a b : Reg) (s : State) : Host.Outcome State Fault Refusal :=
  Ops.instr (.cstore w d a b) s fun L s =>
    s.compact L .write d a b (4 * pairN w) fun x s t va =>
      s.storeLane L.core t.slot .dflt va (4 * pairN w) (t.opnd w (a.toNat + 2)) 0 x

/-- XPAND (R258). -/
def execXpand (w : Bool) (d a b : Reg) (s : State) : Host.Outcome State Fault Refusal :=
  Ops.instr (.xpand w d a b) s fun L s =>
    s.compact L .read d a b (4 * pairN w) fun x s t va =>
      s.loadLane L.core t.slot .dflt va (4 * pairN w) (t.rowsFrom (a.toNat + 2) (pairN w)) x

end Sys2Proof.Machine
end

