-- ==== Sys2Proof/Machine/Copy.lean ====
section
/-! DEFINITION. Copy channels (12 R241 to R246), queue fences and waits (R247 to R250) and full/empty bits (R251). -/

namespace Sys2Proof.Machine

open Sys2Proof

/-! ## COPY, COPYS, COPYM at issue -/

/-- The operands of one lane's copy (R241). -/
structure CopyArg where
  t : Thread
  coords : List Int
  off : Nat
  ctl : Nat
  mask : Nat

/-- The operands that a lane gives. -/
def Thread.copyArg (t : Thread) (d a : Reg) (many : Bool) : CopyArg :=
  { t := t, coords := (upTo 4).map fun k => (t.reg (d.toNat + k)).toInt
    off := (t.reg a.toNat).toNat, ctl := (t.reg (a.toNat + 1)).toNat
    mask := if many then (t.pair (a.toNat + 2)).toNat else 0 }

/-- The delivered type of a control word; none for raw (R241). -/
def copyTy (ctl : Nat) : Option ReqTy8 := if ctl % 16 = 15 then none else some (reqOf (ctl % 16))

/-- Whether a control word is reserved (R241). -/
def badCtl (ctl : Nat) : Bool := ctl / 16 != 0 || (8 ≤ ctl % 16 && ctl % 16 ≤ 14)

/-- The bytes of a copy's tile (R242). -/
def Lens.tileBytes (l : Lens) (ty : Option ReqTy8) : Nat := l.tileCount * l.sz ty

/-- Entries that a queue of a core holds. -/
def State.queued (s : State) (c : Nat) (q : QName) : Nat :=
  (s.eng.queue.filter fun e => e.core == c && e.queue == q).length

/-- The members that a receiver mask names. -/
def maskMembers (mask : Nat) : List Nat := (upTo 64).filter fun m => mask.testBit m

/-- The tasks and cores of a COPYM's receivers (R245); none where one has not started or does not exist. -/
def State.receivers (s : State) (t : Thread) (mask : Nat) : Option (List (Nat × Nat)) :=
  (maskMembers mask).foldr (fun m r =>
    match r, s.member t m with
    | some l, .at_ core task => some ((task, core) :: l)
    | _, _ => none) (some [])

/-- The first unstarted member that a mask names. -/
def State.unstarted (s : State) (t : Thread) (mask : Nat) : Option (Nat × Nat) :=
  (maskMembers mask).findSome? fun m =>
    match s.member t m with
    | .unstarted g => some (g, m)
    | .absent | .at_ _ _ => none

/-- Whether a copy is a violation in some scratchpad that it names (R242, R245). -/
def State.copyBad (s : State) (l : Lens) (x : CopyArg) (tasks : List Nat) : Bool :=
  let ty := copyTy x.ctl
  x.off % l.sz ty != 0 || tasks.any fun k => lineBytes * (s.scratch k).lines < x.off + l.tileBytes ty

/-- One entry of a channel, placed by a lane; a violation stops the lane's thread instead (R242). -/
def State.placeCopy (s : State) (L : Latch) (q : Nat) (l : Lens) (n : Nat) (snap : List Word) (op : CopyOp) (x : CopyArg)
    (tasks : List Nat) : State :=
  if s.copyBad l x tasks then s.stopThread L.core x.t.slot
  else (s.enqueue L.core L.warp (.q q)
    (.copy { op := op, slot := x.t.slot, task := x.t.task, lens := n, snap := snap, coords := x.coords, off := x.off,
             ty := copyTy x.ctl, pc := L.first.toNat }) (s.privileged x.t) [x.t.slot]).2

/-- The lens that an earlier attempt at a copy found at issue, when it has placed the entries of some lanes (R50, R246). -/
def State.copySnap (s : State) (L : Latch) : Option (List Word) := ((s.lanes L).findSome? fun t => t.midway).map fun m => m.snap

/-- The entries of a copy's lanes, in ascending lane order, while the channel has room (R246): where it is full the rest of the word waits. -/
def State.placeLanes (s : State) (L : Latch) (q : Nat) (snap : List Word) (place : State → CopyArg → State) : List CopyArg → Res
  | [] => .done (s.mapExec L fun t => { t with midway := none })
  | x :: xs =>
    if (match x.t.midway with | some m => m.placed | none => false) then s.placeLanes L q snap place xs
    else if 16 ≤ s.queued L.core (.q q) then
      .hold (s.mapExec L fun t => if t.status == .eligible then { t with midway := some (t.midway.getD { snap := snap }) } else t)
    else ((place s x).updThread L.core x.t.slot fun t =>
      { t with midway := if t.status == .eligible then some { placed := true, snap := snap } else none }).placeLanes L q snap place xs

/-- The checks of a copy and its entries (R241, R242, R246): nothing is queued before every lane has passed. `place` acts for a lane with the
lens of the issue. -/
def State.copyIssue (s : State) (L : Latch) (q n : Nat) (xs : List CopyArg) (ok : Lens → Bool) (place : Lens → List Word → State → CopyArg → State)
    (bad : CopyArg → Bool := fun _ => false) : Res :=
  let go := fun (l : Lens) (snap : List Word) =>
    if xs.any fun x => badCtl x.ctl then Res.trap 1 0
    else if l.cmp || l.isLut || (l.isQ4 && xs.any fun x => (copyTy x.ctl).isNone) || !ok l then .trap 12 0
    else match xs.find? bad with
      | some x => .trap 8 x.t.lane
      | none => if 16 ≤ s.queued L.core (.q q) then .stall s else s.placeLanes L q snap (place l snap) xs
  match s.copySnap L with
  | some snap => go (Lens.ofWords snap) snap
  | none => s.withLens L n go

/-- COPY (R241 to R243). -/
def execCopy (q : BitVec 2) (d a : Reg) (i : Imm) (s : State) : Host.Outcome State Fault Refusal :=
  Ops.instr (.copy q d a i) s fun L s =>
    s.copyIssue L q.toNat i.toNat ((s.lanes L).map fun t => t.copyArg d a false) (fun _ => true) fun l snap s x =>
      s.placeCopy L q.toNat l i.toNat snap .copy x [x.t.task]

/-- COPYS (R244): a .q4 or read-only lens is a format fault. -/
def execCopys (q : BitVec 2) (d a : Reg) (i : Imm) (s : State) : Host.Outcome State Fault Refusal :=
  Ops.instr (.copys q d a i) s fun L s =>
    s.copyIssue L q.toNat i.toNat ((s.lanes L).map fun t => t.copyArg d a false) (fun l => !l.isQ4 && !l.ro) fun l snap s x =>
      s.placeCopy L q.toNat l i.toNat snap .copys x [x.t.task]

/-- COPYM (R245): a mask beyond the gang is a ROUTE fault; the lanes that name an unstarted member park. -/
def execCopym (q : BitVec 2) (d a : Reg) (i : Imm) (s : State) : Host.Outcome State Fault Refusal :=
  Ops.instr (.copym q d a i) s fun L s =>
    s.copyIssue L q.toNat i.toNat ((s.lanes L).map fun t => t.copyArg d a true) (fun _ => true)
      (fun l snap s x =>
        match s.unstarted x.t x.mask with
        | some (g, m) => s.parkReplay L x.t.slot (.member g m)
        | none => match s.receivers x.t x.mask with
          | some rs => s.placeCopy L q.toNat l i.toNat snap (.copym x.mask) x (rs.map (·.1))
          | none => s)
      fun x => x.mask == 0 || 2 ^ s.gangSize x.t ≤ x.mask

/-! ## The channels -/

/-- The write pointer of a channel raised by bytes (R243). -/
def State.addWptr (s : State) (c q n : Nat) : State :=
  let v : Word := (match s.eng.wptr.find? fun x => x.1 == 4 * c + q with | some x => x.2 | none => 0) + BitVec.ofNat 32 n
  s.updEng fun g => { g with wptr := g.wptr.filter (fun x => x.1 != 4 * c + q) ++ [(4 * c + q, v)] }

/-- The head of a channel. -/
def State.channelHead (s : State) (c q : Nat) : Option QEntry :=
  s.eng.queue.find? fun e => e.core == c && e.queue == .q q

/-- The state with the copy of a queue entry changed. -/
def State.updCopy (s : State) (id : Nat) (f : CopyJob → CopyJob) : State :=
  s.updEng fun g => { g with queue := g.queue.map fun e =>
    if e.id == id then (match e.item with
      | .copy c => { e with item := .copy (f c) }
      | .gath _ | .tile _ | .job | .fence _ => e) else e }

/-- Bytes of an element land in a scratchpad (R243): a line becomes full with the entry's last byte in it. -/
def State.land (s : State) (task off n v last : Nat) : State :=
  let s := s.updScratch task fun x => x.write off n v
  if (off + n) % lineBytes = 0 || off + n = last then s.fillLine task (off / lineBytes) else s

/-- The end of an entry: its flags are posted to its warp and it leaves the queue (R242). -/
def State.copyDone (s : State) (e : QEntry) (fl : BitVec 7) : State := (s.post e.core e.warp fl).entryDone e.id

/-- How the work of an entry at one byte of its tile ends: how many bytes it delivers, and the element's value. -/
inductive Elem1 where
  | ok (n v : Nat) (fl : BitVec 7) (s : State)
  | fault (kind : Access) (reason va : Nat) (s : State)
  | wait
  | stop

/-- A byte of a COPY or COPYM (R242, R243, R245): its element is read once, at its first byte, and its bytes land in each receiver's
scratchpad one by one (R246). `v` is the value that the element's earlier bytes came from. -/
def State.copyIn (s : State) (o : Origin) (q : Nat) (l : Lens) (c : CopyJob) (tasks : List Nat) (i v : Nat) : Elem1 :=
  let sz := l.sz c.ty
  let give := fun (v : Nat) (fl : BitVec 7) (s : State) =>
    Elem1.ok 1 v fl (tasks.foldl (fun s k =>
      (s.land k (c.off + i) 1 (v / 256 ^ (i % sz) % 256) (c.off + l.tileBytes c.ty)).addWptr o.core q 1) s)
  if i % sz ≠ 0 then give v 0 s
  else match l.place (l.tileCoords c.coords (i / sz)) with
    | none => give (l.fillValue c.ty) 0 s
    | some p =>
      match l.fetch (fun s va n => s.engRead o va n) c.ty [] p s with
      | .val v fl s => give v fl s
      | .fault k reason va s => .fault k reason va s
      | .wait => .wait
      | .stop => .stop

/-- An element of a COPYS (R244): its scratchpad line must be full; it is written as one store, and one out of range is skipped. -/
def State.copyOut (s : State) (o : Origin) (q : Nat) (l : Lens) (c : CopyJob) (i : Nat) : Elem1 :=
  let sz := l.sz c.ty
  let off := c.off + i
  let x := s.scratch c.task
  if (x.emptyLine off sz).isSome then .wait
  else match l.place (l.tileCoords c.coords (i / sz)) with
    | none => .ok sz 0 0 (s.addWptr o.core q sz)
    | some p =>
      let (v, fl) := l.accept c.ty (x.read off sz)
      match s.engWrite o (l.elemAddr p) l.eb v with
      | .val _ _ s => .ok sz 0 fl (s.addWptr o.core q sz)
      | .fault k reason va s => .fault k reason va s
      | .wait => .wait
      | .stop => .stop

/-- The bytes of an entry from one on, in destination order (R243). A fault or a wait holds the channel there (R398); an element in the private
window beyond its bytes stops the thread and ends the entry (R225; assumption log 75); the entry ends with its last byte. -/
def State.copyRun (s : State) (o : Origin) (q : Nat) (l : Lens) (e : QEntry) (c : CopyJob) (f : State → Nat → Nat → Elem1) :
    Nat → Nat → Nat → BitVec 7 → State
  | 0, i, v, fl =>
    if l.tileBytes c.ty ≤ i then s.copyDone e fl else s.updCopy e.id fun c => { c with done := i, value := v, flags := fl }
  | n + 1, i, v, fl =>
    if l.tileBytes c.ty ≤ i then s.copyDone e fl
    else
      let kept := fun (s : State) => s.updCopy e.id fun c => { c with done := i, value := v, flags := fl }
      match f s i v with
      | .ok k v fl' s => s.copyRun o q l e c f n (i + k) v (fl ||| fl')
      | .wait => kept s
      | .stop => ((match s.thread? o.core c.slot with | some t => if t.live then s.stopThread o.core c.slot else s | none => s)).entryDone e.id
      | .fault k reason va s =>
        (kept s).engFault o [.copy e.id] c.slot (s.taskIndex c.task) c.pc k reason va

/-- A channel performs `n` bytes of its head entry, or all that are left for 0, when it is of a kind (R243 to R246); a COPYS passes whole
elements. It stands still while the entry's task or context halts (R246, R401; assumption log 59). -/
def State.channel (s : State) (c q n : Nat) (kind : CopyOp → Bool) : State :=
  match s.channelHead c q with
  | none => s
  | some e =>
    match e.item with
    | .copy j =>
      if !kind j.op || s.held (.copy e.id) || !s.acting j.task then s
      else
        let l := Lens.ofWords j.snap
        let o : Origin := { core := c, slot := some j.slot, ctx := s.taskCtx j.task, priv := e.priv }
        let f : State → Nat → Nat → Elem1 := match j.op with
          | .copy => fun s i v => s.copyIn o q l j [j.task] i v
          | .copys => fun s i _ => s.copyOut o q l j i
          | .copym mask => fun s i v =>
            let ks := match s.thread? c j.slot with
              | some t => (match s.receivers { t with task := j.task } mask with | some rs => rs.map (·.1) | none => [])
              | none => []
            s.copyIn o q l j ks i v
        s.copyRun o q l e j f (if n = 0 then l.tileBytes j.ty - j.done else n) j.done j.value j.flags
    | .gath _ | .tile _ | .job | .fence _ => s

/-- COPY_ENTRY (R243). -/
def execCopyEntry (s : State) : Host.Outcome State Fault Refusal :=
  .next (s.channel s.arg.x s.arg.y s.arg.n fun o => o == .copy)

/-- COPYS_ENTRY (R244). -/
def execCopysEntry (s : State) : Host.Outcome State Fault Refusal :=
  .next (s.channel s.arg.x s.arg.y s.arg.n fun o => o == .copys)

/-- COPYM_ENTRY (R245). -/
def execCopymEntry (s : State) : Host.Outcome State Fault Refusal :=
  .next (s.channel s.arg.x s.arg.y s.arg.n fun o => match o with | .copym _ => true | .copy | .copys => false)

/-! ## Fences and waits -/

/-- The queues that a set names (R247). -/
def queueSet (L : Latch) (q : BitVec 7) : List QName :=
  (upTo 7).filterMap fun i =>
    if !q.getLsbD i then none
    else match i with
      | 4 => some (.qm L.warp)
      | 5 => some .qs
      | 6 => some (.qg L.warp)
      | n => some (.q n)

/-- QFENCE (R248, R249); it waits for room in a full qm (R281). -/
def execQfence (sc : Scope) (rel : Bool) (q : BitVec 7) (s : State) : Host.Outcome State Fault Refusal :=
  Ops.instr (.qfence sc rel q) s fun L s =>
    if (queueSet L q).contains (.qm L.warp) && s.qmFull L then .stall s
    else
    let (id, s) := s.newId
    let s := (queueSet L q).foldl (fun s n => (s.enqueue L.core L.warp n (.fence id) false L.exec).2) s
    let s := s.updEng fun g => { g with fences := g.fences ++ [{ id := id, core := L.core, rel := rel, scope := sc, slots := L.exec }] }
    .done ((s.settleFences (s.eng.fences.length + 1)).settleWaits)

/-- Whether a thread that is now in a warp placed an entry (R250); an entry that no thread placed is its warp's. -/
def State.placedBy (s : State) (e : QEntry) (c w : Nat) : Bool :=
  e.core == c && (if e.slots.isEmpty then e.warp == w else e.slots.any fun k => match s.thread? c k with | some t => t.warp == w | none => false)

/-- CWAIT (R250). -/
def execCwait (q : BitVec 7) (s : State) : Host.Outcome State Fault Refusal :=
  Ops.instr (.cwait q) s fun L s =>
    let names := queueSet L q
    let ids := (s.eng.queue.filter fun e => s.placedBy e L.core L.warp && names.contains e.queue).map (·.id)
    .done (if ids.isEmpty then s else s.mapExec L fun t => { t with status := .parked (.queue ids 8) })

/-! ## Full/empty bits -/

/-- FESET (R251). -/
def execFeset (a : Reg) (i : Imm) (s : State) : Host.Outcome State Fault Refusal :=
  Ops.instr (.feset a i) s fun L s =>
    .done ((s.lanes L).foldl (fun s t =>
      let o := t.offset a i
      if lineBytes * (s.scratch t.task).lines ≤ o then s.stopThread L.core t.slot else s.fillLine t.task (o / lineBytes)) s)

/-- FECLR (R251). -/
def execFeclr (a : Reg) (i : Imm) (s : State) : Host.Outcome State Fault Refusal :=
  Ops.instr (.feclr a i) s fun L s =>
    .done ((s.lanes L).foldl (fun s t =>
      let o := t.offset a i
      if lineBytes * (s.scratch t.task).lines ≤ o then s.stopThread L.core t.slot
      else s.updScratch t.task fun x => x.putFull (o / lineBytes) false) s)

end Sys2Proof.Machine
end

