-- ==== Sys2Proof/Machine/Sync.lean ====
section
/-! DEFINITION. Class 9: ordered loads, releasing stores, fences, atomics, WAITV and rendezvous points (19 R373 to R389). -/

namespace Sys2Proof.Machine

open Sys2Proof

/-! ## Ordered loads, releasing stores and fences -/

/-- One lane's ordered load (R348): `f` goes on with its value; where it must wait, `g` says what becomes of the lane; poison parks the
lane with a record (R228). -/
def State.orderedLane (s : State) (L : Latch) (t : Thread) (va n : Nat) (f : Nat → State → State) (g : State → State) : State :=
  match (match windowOff va with
    | some o => s.privRead t o n
    | none => if s.acquiring t.core t.slot then .wait else s.orderedLoad L.core t.slot t va (partsOf va n)) with
  | .val v s => f v s
  | .wait => g s
  | .poison => s.poisonPark L (L.n - L.j) [(t.slot, va)]

/-- The load of an LD.acq that must wait (R375): its parts are sent to their homes as ordered loads, the acquire follows the last of them,
and the thread goes on. -/
def State.sendAcq (s : State) (t : Thread) (sc : Scope) (va n : Nat) (dests : List (Dest × Nat)) : State :=
  let (pid, s) := s.newId
  let s := s.updThread t.core t.slot fun t => { t.addPending { id := pid, dests := dests } with grains := [] }
  let ps := partsOf va n
  ps.zipIdx.foldl (fun s p =>
    let a := (va + p.1.1) % 2 ^ 64
    match s.leafOf t a with
    | none => s
    | some l => (s.updThread t.core t.slot (Thread.expect pid)).send
        { id := 0, core := t.core, slot := t.slot, ctx := s.ctxOf t, kind := .load (l.ldTy .dflt) true, key := l.key a, va := a
          width := p.1.2, grain := l.grain, home := l.home, pend := pid, shift := p.1.1
          acq := if p.2 + 1 = ps.length then some sc else none }) s

/-- LD.acq (R375): an ordered load, then an acquire. -/
def execLdAcq (w : Width) (sc : Scope) (d a : Reg) (s : State) : Host.Outcome State Fault Refusal :=
  Ops.instr (.ldAcq w sc d a) s fun L s =>
    let (bad, good) := s.split L a 0 (Width.bytes w)
    s.withPages L .read (accessesOf good a 0 (Width.bytes w)) fun go s =>
      .done ((good.filter go).foldl (fun s t => s.orderedLane L t (t.addr a 0) (Width.bytes w)
        (fun v s => (s.updThread L.core t.slot fun t => t.addPending (t.result d.toNat (widthN w) v 0)).acquire L.core t.slot sc)
        (fun s => s.sendAcq t sc (t.addr a 0) (Width.bytes w) (t.rowsFrom d.toNat (widthN w))))
        (s.stopAll L bad))

/-- The release of an instruction whose store is made at once, or that has none: a request that writes nothing and stands for the release
where it must wait (R376). -/
def State.sendRelease (s : State) (t : Thread) (sc : Scope) : State :=
  (s.send { id := 0, core := t.core, slot := t.slot, ctx := s.ctxOf t, kind := .storeNc, key := 0, va := 0, width := 0
            rel := some sc }).serveLast

/-- One lane of ST.rel (R376): its release, then its store; where either must wait they are sent to the home, and the thread goes on. On an
.nc page, and on a page homed on the host, the release is one at .sys scope and pins nothing (R351). -/
def State.storeRelease (s : State) (t : Thread) (sc : Scope) (va n v : Nat) : State :=
  let s := s.updThread t.core t.slot fun t => { t with relScope := none }
  match windowOff va with
  | some o => (s.sendRelease t sc).privStore t o v n
  | none =>
    let far := (partsOf va n).any fun p => match s.leafOf t ((va + p.1) % 2 ^ 64) with
      | some l => l.rtype == 3 || l.home == 4
      | none => false
    let sc := if far then .sys else sc
    (partsOf va n).foldl (fun s p =>
      let a := (va + p.1) % 2 ^ 64
      match s.leafOf t a with
      | none => s
      | some l => (s.storePart t.core t.slot (s.ctxOf t) l (l.stKind .dflt) a p.2 (v / 256 ^ p.1 % 256 ^ p.2) 0
          { rel := some sc, pin := if Scope.pins sc then some sc else none }).serveLast) s

/-- ST.rel (R376). -/
def execStRel (w : Width) (sc : Scope) (d a : Reg) (s : State) : Host.Outcome State Fault Refusal :=
  Ops.instr (.stRel w sc d a) s fun L s =>
    let (bad, good) := s.split L a 0 (Width.bytes w)
    s.withPages L .write (accessesOf good a 0 (Width.bytes w)) fun go s =>
      .done ((good.filter go).foldl (fun s t =>
        s.storeRelease t sc (t.addr a 0) (Width.bytes w) (t.storeData d (widthN w) (Width.bytes w))) (s.stopAll L bad))

/-- The acquire of a fence (R377): earlier loads have returned first. -/
def State.fenceAcquire (s : State) (t : Thread) (sc : Scope) : Option State :=
  (s.drainLoads t.core t.slot).map fun s => s.acquire t.core t.slot sc

/-- The release of a fence (R377): the thread's later writes are release writes, up to its next release. -/
def State.fenceRel (s : State) (t : Thread) (sc : Scope) : Option State :=
  (s.release t.core t.slot sc).map fun s => s.updThread t.core t.slot fun t => { t with relScope := some sc }

/-- FENCE.acq (R377). -/
def execFenceAcq (sc : Scope) (s : State) : Host.Outcome State Fault Refusal :=
  Ops.instr (.fenceAcq sc) s fun L s => .done (s.eachLane L (s.lanes L) fun s t => s.fenceAcquire t sc)

/-- FENCE.rel (R377). -/
def execFenceRel (sc : Scope) (s : State) : Host.Outcome State Fault Refusal :=
  Ops.instr (.fenceRel sc) s fun L s => .done (s.eachLane L (s.lanes L) fun s t => s.fenceRel t sc)

/-- FENCE.acqrel (R377): acquire first. -/
def execFenceAcqrel (sc : Scope) (s : State) : Host.Outcome State Fault Refusal :=
  Ops.instr (.fenceAcqrel sc) s fun L s =>
    .done (s.eachLane L (s.lanes L) fun s t => (s.fenceAcquire t sc).bind fun s => s.fenceRel t sc)

/-! ## Atomics -/

/-- The lowest executing lane whose address is not a multiple of the width, or lies in the private window (R374). -/
def State.misaligned (s : State) (L : Latch) (a : Reg) (n : Nat) : Option Thread :=
  (s.lanes L).find? fun t => t.addr a 0 % n != 0 || (windowOff (t.addr a 0)).isSome

/-- The atomic of one lane (R378 to R380): a request to the home. Behind a fence that pins its write pins its grain at the home (R351,
R377). -/
def State.atomLane (s : State) (t : Thread) (kind : ReqKind) (va n data pend : Nat) (post : Bool) : State :=
  match s.leafOf t va with
  | none => s
  | some l =>
    let w := t.storeWith l {}
    let s := s.send
      { id := 0, core := t.core, slot := t.slot, ctx := s.ctxOf t, kind := kind, key := l.key va, va := va, width := n,
        data := data, grain := l.grain, home := l.home, pend := pend, post := post, rel := w.rel, pin := w.pin }
    if w.rel.isSome || w.pin.isSome then s.serveLast else s

/-- The atomics of the executing lanes, with results in `n` registers from vD or none (R378 to R380). -/
def State.atoms (s : State) (L : Latch) (a : Reg) (w : Bool) (dest : Option Reg) (post : Bool)
    (f : Thread → ReqKind × Nat) : Res :=
  let n := 4 * pairN w
  match s.misaligned L a n with
  | some t => .trap 10 t.lane
  | none => s.withPages L .write (accessesOf (s.lanes L) a 0 n) fun go s =>
    .done (((s.lanes L).filter go).foldl (fun s t =>
      let (kind, data) := f t
      match dest with
      | none => s.atomLane t kind (t.addr a 0) n data 0 false
      | some d =>
        let (id, s) := s.newId
        let s := s.updThread L.core t.slot fun t =>
          t.addPending { id := id, parts := 1, dests := t.rowsFrom d.toNat (pairN w) }
        s.atomLane t kind (t.addr a 0) n data id post) s)

/-- ATOM (R378): .fadd posts flags. -/
def execAtom (o : AtomOp) (w : Bool) (d a b : Reg) (s : State) : Host.Outcome State Fault Refusal :=
  Ops.instr (.atom o w d a b) s fun L s =>
    s.atoms L a w (some d) (o == .fadd) fun t => (.atom o, t.opnd w b.toNat)

/-- ACAS (R380). -/
def execAcas (w : Bool) (d a b : Reg) (s : State) : Host.Outcome State Fault Refusal :=
  Ops.instr (.acas w d a b) s fun L s =>
    s.atoms L a w (some d) false fun t => (.acas (t.opnd w b.toNat), t.opnd w (b.toNat + pairN w))

/-- RED (R379). -/
def execRed (o : AtomOp) (w : Bool) (a b : Reg) (s : State) : Host.Outcome State Fault Refusal :=
  Ops.instr (.red o w a b) s fun L s => s.atoms L a w none false fun t => (.atom o, t.opnd w b.toNat)

/-! ## WAITV -/

/-- Watches on the home slice of a key whose page has a home (R213, R381). -/
def MemSys.sliceWatches (m : MemSys) (home key : Nat) : Nat :=
  (m.watches.filter fun w => w.registered && w.home == home && homeSlice w.key == homeSlice key).length

/-- A lane whose word holds its compare value registers a watch and parks; where the table is full it will repeat its load
(R381). -/
def State.watch (s : State) (L : Latch) (t : Thread) (l : Leaf) (va n cmp : Nat) (d : Reg) : State :=
  let key := l.key va
  let (id, s) := s.newId
  let w : Watch :=
    { id := id, core := L.core, slot := t.slot, key := key, width := n, cmp := cmp, home := l.home
      rows := (upTo (n / 4)).map fun i => t.wb + d.toNat + i, registered := s.mem.sliceWatches l.home key < 64
      since := s.dev.cycle, pc := L.first, rep := L.n - L.j, guard := t.guard }
  let s := s.updMem fun m => { m.recallAll (wordKeys key n) with watches := m.watches ++ [w] }
  s.park L.core t.slot (.waitv id)

/-- WAITV on words of `n` bytes (R381). -/
def Ops.waitv (i : Instr) (w : Bool) (d a b : Reg) (s : State) : Host.Outcome State Fault Refusal :=
  let n := 4 * pairN w
  Ops.instr i s fun L s =>
    match s.misaligned L a n with
    | some t => .trap 10 t.lane
    | none => s.withPages L .read (accessesOf (s.lanes L) a 0 n) fun go s =>
      .done (((s.lanes L).filter go).foldl (fun s t => s.orderedLane L t (t.addr a 0) n
        (fun v s =>
          if v != t.opnd w b.toNat then s.updThread L.core t.slot fun t => t.addPending (t.result d.toNat (pairN w) v 0)
          else match s.leafOf t (t.addr a 0) with
            | some l => s.watch L t l (t.addr a 0) n v d
            | none => s)
        (fun s => s.parkReplay L t.slot .retry)) s)

/-- WAITV.b32 (R381). -/
def execWaitvB32 (d a b : Reg) (s : State) : Host.Outcome State Fault Refusal := Ops.waitv (.waitvB32 d a b) false d a b s

/-- WAITV.b64 (R381). -/
def execWaitvB64 (d a b : Reg) (s : State) : Host.Outcome State Fault Refusal := Ops.waitv (.waitvB64 d a b) true d a b s

/-- A lane parked in WAITV stands at its compound again, to issue it from its start. -/
def State.reissue (s : State) (w : Watch) : State :=
  let s := s.updMem fun m => { m with watches := m.watches.filter fun x => x.id != w.id }
  s.updThread w.core w.slot fun t =>
    if t.status == .parked (.waitv w.id) then
      { t with status := .eligible, pc := w.pc, repLeft := w.rep, guard := w.guard, mark := false }
    else t

/-- WAITV_REPOLL (R381): every 1,024 cycles a lane that found the watch table full makes its ordered load again. -/
def execWaitvRepoll (s : State) : Host.Outcome State Fault Refusal :=
  .next (match s.mem.watches.find? fun w => w.core == s.arg.x && w.slot == s.arg.y && !w.registered with
    | some w => if w.since + 1024 ≤ s.dev.cycle then s.reissue w else s
    | none => s)

/-! ## Rendezvous points -/

/-- The team that a slot of a thread names (R383). -/
def Thread.teamIn (t : Thread) (l : BitVec 2) : Nat := t.teams.getD l.toNat 255

/-- Whether a slot of some executing lane names no team (R383). -/
def State.noTeam (s : State) (L : Latch) (l : BitVec 2) : Bool := (s.lanes L).any fun t => t.teamIn l == 255

/-- BINIT (R385): once, with the operands of the lowest executing lane. -/
def execBinit (d a : Reg) (l : BitVec 2) (s : State) : Host.Outcome State Fault Refusal :=
  Ops.instr (.binit d a l) s fun L s =>
    match s.lowest L with
    | none => .done s
    | some t =>
      let n := t.num a
      match s.team? L.core (t.teamIn l) with
      | none => .trap 11 0
      | some team =>
        let e := (team.point d.toNat).e
        if n = 0 || 65535 < n || (e != 0 && e != n) then .trap 11 0
        else if e = n then .done s
        else .done ((s.updTeam L.core team.num fun t => t.updPoint d.toNat fun p => { p with e := n }).pointEvent
          L.core team.num d.toNat)

/-- An arrival of one lane (R386): its release, then the arrival, which is on its way to its point. A release that must wait holds the
arrival back, and not the thread. -/
def State.sendArrival (s : State) (t : Thread) (inst core team point count : Nat) : State :=
  let sc := narrowest t.core core
  let s := s.updThread t.core t.slot fun t => { t with relScope := none }
  let (rel, s) := match s.release t.core t.slot sc with
    | some s => (none, s)
    | none => (some sc, s)
  let (id, s) := s.newId
  s.updEng fun g => { g with arrivals := g.arrivals ++
    [{ id := id, src := t.core, slot := t.slot, core := core, team := team, point := point, count := count, scope := sc, rel := rel
       mark := id, inst := inst, since := s.dev.cycle }] }

/-- Whether an arrival can be performed (R386): the requests that its release covers have been performed, and no lower lane of its
instruction is still to arrive at its point. -/
def State.mayArrive (s : State) (x : Arrival) : Bool :=
  !(x.rel.isSome && s.mem.reqs.any fun r => r.core == x.src && r.slot == x.slot && r.id < x.mark)
  && !s.eng.arrivals.any fun y => y.inst == x.inst && y.id < x.id && y.core == x.core && y.team == x.team && y.point == x.point

/-- An arrival performed (R386): the release that waited for it, then its event; on a team that is not live it is discarded. -/
def State.landArrival (s : State) (x : Arrival) : State :=
  let s := match x.rel with | some sc => s.releaseNow x.src sc | none => s
  (s.updEng fun g => { g with arrivals := g.arrivals.filter fun y => y.id != x.id }).arrive x.core x.team x.point x.count x.scope

/-- The arrivals of one BARV, which reach the point of their own core at once where nothing holds them back. -/
def State.landInst (s : State) (inst : Nat) : State :=
  (s.eng.arrivals.filter fun x => x.inst == inst).foldl (fun s x => if s.mayArrive x then s.landArrival x else s) s

/-- BARV (R386): lane by lane, a release at .core scope, then the arrival. -/
def execBarv (d a : Reg) (l : BitVec 2) (s : State) : Host.Outcome State Fault Refusal :=
  Ops.instr (.barv d a l) s fun L s =>
    if s.noTeam L l then .trap 11 0
    else if (s.lanes L).any fun t => 65535 < t.num a then .trap 1 0
    else
      let (inst, s) := s.newId
      .done ((s.lanes L).foldl (fun s t =>
        if t.num a = 0 then s
        else (s.sendArrival t inst L.core (t.teamIn l) d.toNat (t.num a)).landInst inst) s)

/-- Whether BARVR's operands of a lane raise a ROUTE fault (R386): its member has started, or does not exist. -/
def State.barvrBad (s : State) (a : Reg) (t : Thread) : Bool :=
  let w := t.num (a + 1)
  w / 2 ^ 14 != 0 || match s.member t (bitsOf w 13 8) with
    | .absent => true
    | .unstarted _ => false
    | .at_ core _ => routePlace s.goneUnits t.core (t.reg a.toNat) != some (.core core)

/-- BARVR (R386). -/
def execBarvr (d a b : Reg) (s : State) : Host.Outcome State Fault Refusal :=
  Ops.instr (.barvr d a b) s fun L s =>
    match (s.lanes L).find? (s.barvrBad a) with
    | some t => .trap 8 t.lane
    | none =>
      if (s.lanes L).any fun t => 65535 < t.num b then .trap 1 0
      else
        let (inst, s) := s.newId
        .done ((s.lanes L).foldl (fun s t =>
          let w := t.num (a + 1)
          match s.member t (bitsOf w 13 8) with
          | .absent => s
          | .unstarted g => s.parkReplay L t.slot (.member g (bitsOf w 13 8))
          | .at_ core _ => if t.num b = 0 then s else s.sendArrival t inst core (w % 256) d.toNat (t.num b)) s)

/-- RENDEZVOUS_ARRIVAL (R386): an arrival reaches its point; on a team that is not live it is discarded. -/
def execRendezvousArrival (s : State) : Host.Outcome State Fault Refusal :=
  .next (match s.eng.arrivals.find? fun a => a.id == s.arg.x with
    | none => s
    | some x => if s.mayArrive x then s.landArrival x else s)

/-- BWAIT (R387): a phase already complete releases the thread at once. -/
def execBwait (d : Reg) (l : BitVec 2) (s : State) : Host.Outcome State Fault Refusal :=
  Ops.instr (.bwait d l) s fun L s =>
    if s.noTeam L l then .trap 11 0
    else .done ((s.lanes L).foldl (fun s t =>
      let n := s.phasesAhead L.core t.slot (t.teamIn l) d.toNat
      if 1 ≤ n && n < 2 ^ 31 then s.consume L.core t.slot (t.teamIn l) d.toNat
      else s.park L.core t.slot (.bwait (t.teamIn l) d.toNat)) s)

/-- BTEST (R388). -/
def execBtest (d a : Reg) (l : BitVec 2) (s : State) : Host.Outcome State Fault Refusal :=
  Ops.instr (.btest d a l) s fun L s =>
    if s.noTeam L l then .trap 11 0
    else .done (s.results L fun t =>
      t.result d.toNat 1 (Nat.min 65535 (s.phasesAhead L.core t.slot (t.teamIn l) a.toNat)) 0)

end Sys2Proof.Machine
end

