-- ==== Sys2Proof/Machine/MemSteps.lean ====
section
/-! DEFINITION. The steps of the memory system that no word names: requests at their homes (18 R359, 11 R228), pins (17
R352), evictions (11 R215), integrity errors (R227), walks and fault records (20 R398 to R400), events (R407), mirror windows
(18 R361 to R364), the host and peer packages (R365 to R369). -/

namespace Sys2Proof.Machine

open Sys2Proof

/-! ## Requests -/

/-- A request whose read met poison, or whose link is lost: its lane parks with a record, and the request waits for TRESUME
(R228, R369). -/
def State.stallReq (s : State) (r : Req) (kind : Access) : State :=
  match s.thread? r.core r.slot with
  | none => s
  | some t =>
    let e : Miss :=
      { die := coreDie r.core, num := 0, ctx := r.ctx, page := r.va / 2 ^ 16, kind := kind, unpriv := !s.privileged t
        write := !r.kind.reads, waiters := [], va := r.va, pc := t.pc.toNat, task := s.taskNum t, core := r.core, slot := r.slot }
    match s.faultEntry e (.lane r.core r.slot 0) with
    | none => s
    | some (n, s) =>
      let s := s.updMem fun m => { m with reqs := m.reqs.map fun q => if q.id == r.id then { q with stall := some (e.die, n) } else q }
      s.updThread r.core r.slot (Thread.parkBehind e.die n)

/-- A range operation that is still to be performed is performed (R235, R236): an ICINV only behind the earlier CWBs and CWBINVs of its
thread. -/
def State.rangeStep (s : State) (id : Nat) : State :=
  match s.mem.ranges.find? fun r => r.id == id with
  | none => s
  | some r =>
    if r.op == .icinv && s.mem.ranges.any fun q => q.id < id && q.core == r.core && q.slot == r.slot && (q.op == .cwb || q.op == .cwbinv) then s
    else s.updMem fun m => m.performRange r

/-- HOME_REQUEST (R359): the home serves a request that nothing holds back, or a range operation is performed (R236). -/
def execHomeRequest (s : State) : Host.Outcome State Fault Refusal :=
  .next (match s.mem.reqs.find? fun r => r.id == s.arg.x with
    | none => s.rangeStep s.arg.x
    | some r =>
      if !s.canServe r then s
      else if r.kind.reads && s.mem.poisoned r.key r.width then s.stallReq r .poison
      else s.serve r)

/-- Cycles of 10 ms (R11). -/
def tenMs : Nat := 10500000

/-! ## Links -/

/-- The state with a Korlas Link port changed. -/
def State.updPort (s : State) (n : Nat) (f : Port → Port) : State :=
  if 12 ≤ n then s
  else
    let p := match s.dev.ports.find? fun p => p.num == n with
      | some p => p
      | none => { num := n }
    s.updDev fun d => { d with ports := d.ports.filter (fun q => q.num != n) ++ [f p] }

/-- The C-die whose arbiter receives the LINK events of a port or link: for a port one of the two that are bridged to its X-die (01 R9, 22
R433; assumption log 43). -/
def linkArbiter (n : Nat) : Nat := if n < 12 then 2 * portXdie n + Config.linkDie n % 2 else Config.linkDie n % 4

/-- LINK raised for a port or link, with its cause (R408, Table 20-8). -/
def State.raiseLink (s : State) (n cause : Nat) : State :=
  s.raise (linkArbiter n)
    { kind := .link, ctx := 255, src := n, data := BitVec.ofNat 32 (n % 2 ^ 16 + cause * 2 ^ 16), addr := 0 }

/-- A link begins to retrain, unless it does already or is retired (R408). -/
def State.retrain (s : State) (n : Nat) : State :=
  if s.dev.links.any (fun l => l.1 == n) || s.dev.retiredUnits.contains n then s
  else ((s.updDev fun d => { d with links := d.links ++ [(n, d.cycle)] }).updPort n fun p => { p with state := 1 }).raiseLink n 0

/-- PEER_REQUEST_TIMEOUT (R369): a peer request without response for 10 ms parks its lane, and the port raises LINK. It happens once the
link has retrained, on a port that is not retired. -/
def execPeerRequestTimeout (s : State) : Host.Outcome State Fault Refusal :=
  .next (match s.mem.reqs.find? fun r => r.id == s.arg.x with
    | none => s
    | some r =>
      if r.home != 5 || r.stall.isSome || s.dev.cycle < r.since + tenMs || s.dev.links.any (fun l => l.1 == s.arg.y)
          || s.goneUnits s.arg.y then s
      else (s.stallReq r .link).raise (coreDie r.core)
        { kind := .link, ctx := r.ctx, src := s.arg.y, data := BitVec.ofNat 32 (s.arg.y % 2 ^ 16 + 3 * 2 ^ 16), addr := 0 })

/-- PIN_END (R352): pins whose releasing thread and team members have all ended. -/
def execPinEnd (s : State) : Host.Outcome State Fault Refusal := .next (s.endDeadPins s.arg.x)

/-- L1_EVICTION (R215): a line without a pinned grain. -/
def execL1Eviction (s : State) : Host.Outcome State Fault Refusal :=
  let line := s.arg.y / 512 * 512
  .next (if s.mem.pins.any fun p => p.core == s.arg.x && p.grain / 512 * 512 == line then s
    else s.updMem fun m => m.evict s.arg.x line)

/-- Whether a word of a core's L1 lies in the 32-byte sector of an address. -/
def L1Word.inSector (x : L1Word) (c a : Nat) : Bool := x.core == c && x.key / 32 == a / 32

/-- A parity error in an L1 (Table 11-4): a clean sector is fetched again from the homes; words that a pin keeps from the core leave the L1, to
be fetched when it ends (R351). -/
def MemSys.refetch (m : MemSys) (c a : Nat) : MemSys :=
  let m := m.discard c fun x => x.inSector c a && m.retry (some c) x.key 4
  { m with l1 := m.l1.map fun x => if x.inSector c a then { x with val := m.wordNow x.key } else x }

/-- The words of a poisoned 64-bit word leave the L1 that held them. -/
def MemSys.lose (m : MemSys) (c word : Nat) : MemSys := m.discard c fun x => x.key / 8 == word / 8

/-- The failed transfers in a row of a word at a hop (R227). -/
def State.failed (s : State) (hop word : Nat) : Nat :=
  match s.dev.retries.find? fun x => x.1 == hop && x.2.1 == word with
  | some x => x.2.2
  | none => 0

/-- The failed transfers in a row of a word at a hop set; none are kept as 0. -/
def State.setFailed (s : State) (hop word n : Nat) : State :=
  s.updDev fun d =>
    let l := d.retries.filter fun (x : Nat × Nat × Nat) => !(x.1 == hop && x.2.1 == word)
    { d with retries := if n = 0 then l else l ++ [(hop, word, n)] }

/-- A hop counts a correction or a piece of poison (R228). -/
def State.countHop (s : State) (hop : Nat) : State :=
  let n := match s.dev.hops.find? fun h => h.1 == hop with
    | some h => h.2
    | none => 0
  s.updDev fun d => { d with hops := d.hops.filter (fun h => h.1 != hop) ++ [(hop, n + 1)] }

/-- The C-die of the place of a hop: that of an M-stack for hops 0 to 2, else the die itself (R8, Table 11-4). -/
def hopDie (hop n : Nat) : Nat := if hop ≤ 2 then stackDie n else n

/-- A word marked poisoned by a hop, which raises POISON (R228, R408). -/
def State.markPoison (s : State) (hop word ctx src die : Nat) : State :=
  (s.updMem fun m => { m with poison := insertNat word m.poison }).raise die
    { kind := .poison, ctx := ctx, src := src, data := BitVec.ofNat 32 hop, addr := BitVec.ofNat 64 (word % 2 ^ 56) }

/-- INTEGRITY_ERROR (R227, R228, Table 11-4). A parity error of L1 refetches a clean sector and poisons the word of a dirty one. An
uncorrectable error of a base-die link (hop 1) or of a flit (hop 3), of the fabric or of Korlas Link (R369), retrains the link, and poisons the word once 8
retries of it have failed; one of another hop poisons the word at once. Any other error is corrected, or mended by a retry. The DRAM die,
the base-die link and the memory-side cache (hops 0 to 2) are those of an M-stack (R18). -/
def execIntegrityError (s : State) : Host.Outcome State Fault Refusal :=
  let a := s.arg
  let word := a.y / 8 * 8
  let s := s.countHop a.x
  .next (if a.x = 5 then
      (if s.mem.l1.any fun x => x.inSector a.n a.y && x.written then
        (s.updMem fun m => m.lose a.n word).markPoison a.x word a.z a.n (coreDie a.n)
      else s.updMem fun m => m.refetch a.n a.y)
    else if !a.flag0 then s.setFailed a.x word 0
    else if a.x = 1 || a.x = 3 then
      let n := s.failed a.x word
      if n < 8 then
        let link := if a.x = 1 then baseUnit a.n else a.v.toNat
        let s := s.setFailed a.x word (n + 1)
        if isLink link then s.retrain link else s
      else (s.setFailed a.x word 0).markPoison a.x word a.z a.n (hopDie a.x a.n)
    else s.markPoison a.x word a.z a.n (hopDie a.x a.n))

/-! ## Walks, fault records and events -/

/-- The cores whose lanes wait in an entry. -/
def Miss.cores (m : Miss) : List Nat :=
  (m.waiters.filterMap fun w => match w with | .lane c _ _ => some c | _ => none).eraseDups

/-- Whether a waiter of an entry whose walk has faulted faults with it: an engine's or the distributor's access does, and a lane that still
waits at its compound and has no translation that lets it go on (R398). -/
def State.faultsWith (s : State) (m : Miss) (w : Waiter) : Bool :=
  match w with
  | .lane c k _ => (match s.thread? c k with
    | some t => t.status == .eligible && (s.xlate c m.ctx m.va m.kind (s.privileged t)).isNone
    | none => false)
  | .copy _ | .gath _ | .tile _ | .sweep _ | .pour _ _ | .queue _ | .retire _ | .completion _ _ | .switch _ _ _ | .jobEnd _
  | .save _ | .gone _ _ _ => true

/-- The record fields of an entry whose first faulting waiter is a lane (Table 20-6). -/
def State.faultOf (s : State) (m : Miss) (ws : List Waiter) : Miss :=
  match ws with
  | .lane c k _ :: _ => (match s.thread? c k with
    | some t => { m with core := c, slot := k, pc := t.pc.toNat, task := s.taskNum t }
    | none => m)
  | _ => m

/-- A walk that ends in a fault (R398): its faulting lanes park at their compound, and a record is written in the order of the faults
(R400). -/
def State.walkFault (s : State) (m : Miss) (reason : Nat) (poison : Bool) : State :=
  let ws := m.waiters.filter (s.faultsWith m)
  if ws.isEmpty then s.freeMiss m.die m.num
  else
    let (id, s) := s.newId
    let s := s.updMiss m.die m.num fun x =>
      { s.faultOf x ws with phase := .queued, reason := reason, poison := poison, waiters := ws, order := id }
    let s := ws.foldl (fun s w =>
      match w with
      | .lane c k rep => s.updThread c k fun t =>
        { t with status := .parked (.fault m.die m.num false), repLeft := if rep = 0 then t.repLeft else rep }
      | _ => s) s
    s.recordTurn m.die m.num

/-- TRANSLATION_WALK (R398): the TLBs of the waiting cores are filled, or the walk ends in a fault; an entry in a pinned grain
holds it. -/
def execTranslationWalk (s : State) : Host.Outcome State Fault Refusal :=
  .next (match s.missAt s.arg.x s.arg.y with
    | none => s
    | some m =>
      if m.phase != .walking then s
      else match s.walk m.ctx m.va with
        | (.ok l, s) =>
          let s := m.cores.foldl (fun s c => s.fillTlb c m.ctx m.va l) s
          let reason := l.refuses m.kind (!m.unpriv)
          if reason = 0 then s.freeMiss m.die m.num else s.walkFault m reason false
        | (.fault r, s) => s.walkFault m r false
        | (.retry, _) => s
        | (.poison _, s) => s.walkFault m 0 true)

/-- FAULT_RECORD_RESUME (R400): records that waited for room are written in the order of their faults. -/
def execFaultRecordResume (s : State) : Host.Outcome State Fault Refusal :=
  let q := sortBy (fun (a b : Miss) => a.order < b.order) (s.mem.miss.filter fun m => m.ctx == s.arg.x && m.phase == .queued)
  .next (q.foldl (fun s m => s.recordTurn m.die m.num) s)

/-- EVENT_ENQUEUE (R407): an event that its source holds enters the queue once there is room. -/
def execEventEnqueue (s : State) : Host.Outcome State Fault Refusal :=
  let a := s.arbiter s.arg.x
  .next (match a.held with
    | [] => s
    | e :: rest =>
      if a.queue.length < 256 then (s.putArbiter { a with queue := a.queue ++ [e], held := rest }).deliverEvent s.arg.x else s)

/-- EVENT_READ (R407): Adeing takes the oldest event. -/
def execEventRead (s : State) : Host.Outcome State Fault Refusal :=
  let a := s.arbiter s.arg.x
  .next (match a.queue with
    | [] => s.updDev fun d => { d with eventOut := none }
    | e :: rest => (s.putArbiter { a with queue := rest }).updDev fun d => { d with eventOut := some e })

/-! ## The host and peer packages -/

/-- A snoop of the host drops a line of the remote-data caches (R365): one of host memory, or of a host-shared page, which stands there under
its device address with the host as its home (R367). -/
def State.dropHostLine (s : State) (pa : Nat) : State :=
  let line := pa / 64 * 64
  s.updMem fun m => { m with rdc := m.rdc.filter fun x =>
    !((2 ^ 56 + line ≤ x.key && x.key < 2 ^ 56 + line + 64) || (x.tag == 4 && line ≤ x.key && x.key < line + 64)) }

/-- SNPINV (R365). -/
def execSnpInv (s : State) : Host.Outcome State Fault Refusal := .next (s.dropHostLine s.arg.x)

/-- SNPDATA (R365). -/
def execSnpData (s : State) : Host.Outcome State Fault Refusal := .next (s.dropHostLine s.arg.x)

/-- SNPCUR (R365): the line stays. -/
def execSnpCur (s : State) : Host.Outcome State Fault Refusal := .next s

/-- Whether host accesses to device memory complete with poison: after a thermal shutdown (R436). -/
def State.dead (s : State) : Bool := s.dev.boot == .shutdown || s.dev.boot == .held

/-- HOST_MEM_READ (R366): a .nc read at the home; it stalls on a pinned grain, and poison is delivered as poison. -/
def execHostMemRead (s : State) : Host.Outcome State Fault Refusal :=
  let a := s.arg
  .next (if s.dead || s.mem.poisoned a.x a.y then s.updDev fun d => { d with hostRead := [], hostPoison := true }
    else if s.mem.retry none a.x a.y then s
    else
      let (v, s) := s.readOrdered a.x a.y
      s.updDev fun d => { d with hostRead := bytesOfNat a.y v, hostPoison := false })

/-- HOST_MEM_WRITE (R366): a .nc write at the home. -/
def execHostMemWrite (s : State) : Host.Outcome State Fault Refusal :=
  let a := s.arg
  .next (if s.dead || s.mem.retry none a.x a.data.length then s else s.writeHome none a.x a.data.length (natOfBytes a.data))

/-- An atomic of a peer package, performed at the home (R349, R368): `f` gives the new value; the old one is the response. -/
def State.peerAtomic (s : State) (a n : Nat) (f : Nat → Nat) : State :=
  if s.mem.retry none a n || s.mem.poisoned a n then s
  else
    let (m, s) := s.readOrdered a n
    (s.writeHome none a n (f m)).updDev fun d => { d with peerRead := bytesOfNat n m }

/-- A grant of a grain to a core of a peer package (R359, R368): what another owns of its lines is recalled, and no word is granted that is
watched or poisoned; in a mirror window the home's value is read and nothing granted. -/
def State.peerOwn (s : State) (pkg core g a : Nat) : State :=
  let ws := lineWords g a
  if ws.any fun w => s.mem.retry none w 4 then s
  else
    let s := if s.mirrored a then s
      else s.updMem fun m =>
        ((grainWords g a).filter fun w => !m.watched w && !m.poisoned w 4).foldl (fun m w => m.own pkg core g w)
          (m.recallAll (ws.filter fun w => match m.owner? w with | some o => o != (pkg, core) | none => false))
    s.updDev fun d => { d with peerRead := bytesOfNat g (s.mem.homeValue (a / g * g) g) }

/-- PEER_REQUEST (R368): served by Table 18-1; the owner record of a grant carries the requesting package. A retry is
answered across the link. -/
def execPeerRequest (s : State) : Host.Outcome State Fault Refusal :=
  let a := s.arg
  .next (if s.dead then s
    else match a.kind with
    | .read =>
      if s.mem.retry none a.z a.n || s.mem.poisoned a.z a.n then s
      else
        let (v, s) := s.readOrdered a.z a.n
        s.updDev fun d => { d with peerRead := bytesOfNat a.n v }
    | .write => if s.mem.retry none a.z a.data.length then s else s.writeHome none a.z a.data.length (natOfBytes a.data)
    | .own => s.peerOwn (a.x + 1) a.y (if a.n = 32 || a.n = 512 then a.n else 128) a.z
    | .atom o => s.peerAtomic a.z a.n fun m => (atomNew o a.n m a.v.toNat).1
    | .acas => s.peerAtomic a.z a.n fun m => if m == natOfBytes a.data then a.v.toNat % 256 ^ a.n else m)

end Sys2Proof.Machine
end

