-- ==== Sys2Proof/Machine/Mirror.lean ====
section
/-! DEFINITION. Mirror windows (18 R361 to R363): page entries as the agent that opens a window rewrites them, and the phases
of a window. -/

namespace Sys2Proof.Machine

open Sys2Proof

/-- An entry with its home and mir fields set (R362). -/
def setHome (e home : Nat) (mir : Bool) : Nat :=
  e - bitsOf e 59 56 * 2 ^ 56 + home * 2 ^ 57 + (if mir then 2 ^ 56 else 0)

/-- The address, the entry and the level of the leaf entry that maps an address, from a table of a level; each entry as it is now,
wherever software has written it, and a leaf as `see` shows it. -/
def State.leafAt (s : State) (see : Nat → Nat) (va table : Nat) : Nat → Option (Nat × Nat × Nat)
  | 0 =>
    let a := table + 8 * (va / 2 ^ 16 % 32)
    let e := (s.readOrdered a 8).1
    if bitOf e 0 && bitOf e 1 && (Leaf.ofEntry (see e) 0).isSome then some (a, see e, 0) else none
  | level + 1 =>
    let a := table + 8 * (va / 2 ^ (21 + 9 * level) % 512)
    let e := (s.readOrdered a 8).1
    if !bitOf e 0 then none
    else if bitOf e 1 then (if (Leaf.ofEntry (see e) (level + 1)).isSome then some (a, see e, level + 1) else none)
    else match nextTable e (level + 1) with
      | some t => s.leafAt see va t level
      | none => none

/-- The leaf entry of an address in a context, as `see` shows it (R362). -/
def State.leafEntryBy (s : State) (see : Nat → Nat) (ctx va : Nat) : Option (Nat × Nat × Nat) :=
  match s.ctx? ctx with
  | some c => if va / 2 ^ 48 = 0 then s.leafAt see va c.ptroot.toNat 3 else none
  | none => none

/-- The leaf entry of an address in a context (R362). -/
def State.leafEntry (s : State) (ctx va : Nat) : Option (Nat × Nat × Nat) := s.leafEntryBy id ctx va

/-- Every cached translation of a page dropped, in every TLB of the package (R362). -/
def State.dropPage (s : State) (page size : Nat) : State :=
  let keep := fun (x : Nat × Xlate) => !(x.2.leaf.pa < page + size && page < x.2.leaf.pa + x.2.leaf.size)
  s.updMem fun m => { m with l1tlb := m.l1tlb.filter keep, shtlb := m.shtlb.filter keep }

/-- The window of a page. -/
def State.mirror? (s : State) (page : Nat) : Option Mirror := s.dev.mirrors.find? fun r => r.page == page

/-- The state with the window of a page changed. -/
def State.updMirror (s : State) (page : Nat) (f : Mirror → Mirror) : State :=
  s.updDev fun d => { d with mirrors := updWhere (fun r => r.page == page) f d.mirrors }

/-- The owned words of a page. -/
def MemSys.ownedIn (m : MemSys) (page size : Nat) : List Nat :=
  (m.owners.filter fun o => page ≤ o.line && o.line < page + size).flatMap fun o =>
    ((upTo 32).filter fun i => o.bits.getLsbD i).map fun i => o.line + 4 * i

/-- MIRROR_RECALL (R361): owned words are recalled; those in pinned grains once their pins end. -/
def execMirrorRecall (s : State) : Host.Outcome State Fault Refusal :=
  .next (match s.mirror? s.arg.x with
    | none => s
    | some r =>
      if r.phase == .copy then s
      else (s.updMem fun m => m.recallAll (m.ownedIn r.page r.size)).updMirror r.page fun r => { r with phase := .recall })

/-- Whether the host has answered RdOwnNoData for every 64-byte line of a page that leaves host bias (R364). -/
def Mirror.hostDone (r : Mirror) : Bool := !(r.bias && r.oldHome == 4) || decide (r.size ≤ 64 * r.answered)

/-- The host's answers for lines of a page whose window is in its Recall phase (R364). -/
def State.hostAnswer (s : State) (page lines : Nat) : State :=
  s.updMirror page fun r => if r.phase == .recall then { r with answered := r.answered + lines } else r

/-- MIRROR_COPY (R361): once no word of the page is owned, and the host holds no line of it (R364), its lines are at both homes. -/
def execMirrorCopy (s : State) : Host.Outcome State Fault Refusal :=
  .next (match s.mirror? s.arg.x with
    | none => s
    | some r =>
      if r.phase == .recall && (s.mem.ownedIn r.page r.size).isEmpty && r.hostDone then s.updMirror r.page fun r => { r with phase := .copy }
      else s)

/-- The leaf entries that a window rewrites (R362), as `see` shows them: that of its address, and others that reach the page. -/
def State.windowEntries (s : State) (see : Nat → Nat) (ctx page : Nat) (vas : List Nat) : List (Nat × Nat) :=
  (vas.filterMap fun va => (s.leafEntryBy see ctx va).bind fun x =>
    match Leaf.ofEntry x.2.1 x.2.2 with
    | some l => if l.pa = page then some (x.1, x.2.1) else none
    | none => none).eraseDups

/-- The entries of a window written with a home and a mirror state, each by an ACAS that alters only these fields (R362). -/
def State.writeEntries (s : State) (home : Nat) (mir : Bool) (l : List (Nat × Nat)) : State :=
  l.foldl (fun s x =>
    let (e, s) := s.readOrdered x.1 8
    s.writeHome none x.1 8 (setHome e home mir)) s

/-- The copies of a page in the near copies and the remote-data caches dropped: they stand there under the home that they came from. -/
def MemSys.dropCopies (m : MemSys) (page size : Nat) : MemSys :=
  let keep := fun (x : CacheWord) => !(page ≤ x.key && x.key < page + size)
  { m with near := m.near.filter keep, rdc := m.rdc.filter keep }

/-- The requests on a page that are still to be performed go to its home after a window. -/
def MemSys.rehome (m : MemSys) (page size home : Nat) : MemSys :=
  { m with reqs := m.reqs.map fun q => if page ≤ q.key && q.key < page + size then { q with home := home } else q }

/-- The end of a window (R361, R362): mir is cleared and the new home alone is authoritative, whatever software has written to these two fields
meanwhile. None while an entry is pinned. -/
def State.endWindow (s : State) (r : Mirror) : Option State :=
  let es := s.windowEntries (fun e => setHome e r.newHome true) r.ctx r.page (r.va :: r.also)
  if es.any fun x => s.mem.retry none x.1 8 then none
  else some ((((s.writeEntries r.newHome false es).dropPage r.page r.size).updMem fun m =>
      (m.dropCopies r.page r.size).rehome r.page r.size r.newHome).updDev fun d =>
    { d with mirrors := d.mirrors.filter fun x => x.page != r.page })

end Sys2Proof.Machine
end

