-- ==== Sys2Proof/Machine/Keys.lean ====
section
/-! DEFINITION. Keys and curves (03 R53 to R59, R67, R72), key arithmetic (15 R303), leaves as a mesh instruction reads them
(03 Table 3-6) and cut tables (R66, R67, R313, R314, R317). -/

namespace Sys2Proof.Machine

open Sys2Proof

/-! ## Keys -/

/-- The level of a key (R53). -/
def keyLevel (k : Nat) : Nat := k / 2 ^ 58

/-- The path of a key (R53). -/
def keyPath (k : Nat) : Nat := k % 2 ^ 58

/-- The sort value of a key (R55). -/
def sortValue (k : Nat) : Nat := keyPath k * 64 + keyLevel k

/-- Whether a key is well-formed for a mesh of a curve (R54). -/
def Curve.keyOk (c : Curve) (k : Nat) : Bool :=
  keyLevel k ≤ c.maxlev && keyPath k % 2 ^ (58 - keyLevel k * c.d) == 0 && k < 2 ^ 64

/-- Digit i of a key, from 1 (R53). -/
def Curve.digit (c : Curve) (k i : Nat) : Nat := keyPath k / 2 ^ (58 - i * c.d) % 2 ^ c.d

/-- The entry of the state table: next state and digit (R57). -/
def Curve.entry (c : Curve) (s q : Nat) : Nat × Nat := c.table.getD (s * 2 ^ c.d + q) (0, 0)

/-- The coordinates of a tuple, x first. -/
def coordAt (xs : List Nat) (a : Nat) : Nat := xs.getD a 0

/-- The quadrant of coordinates at a bit (R58). -/
def Curve.quadrant (c : Curve) (xs : List Nat) (bit : Nat) : Nat :=
  (upTo c.d).foldl (fun q a => q + (if (coordAt xs a).testBit bit then 2 ^ a else 0)) 0

/-- The digits of a key of coordinates from a state on, `n` levels left of `l` (R58). -/
def Curve.pathOf (c : Curve) (xs : List Nat) (l s : Nat) : Nat → Nat
  | 0 => 0
  | n + 1 =>
    let (next, digit) := c.entry s (c.quadrant xs n)
    digit * 2 ^ (58 - (l - n) * c.d) + c.pathOf xs l next n

/-- The key of coordinates at a level (R58). -/
def Curve.keyOf (c : Curve) (xs : List Nat) (l : Nat) : Nat := l * 2 ^ 58 + c.pathOf xs l 0 l

/-- The quadrant of a state that has a digit (R58). -/
def Curve.quadOf (c : Curve) (s digit : Nat) : Nat :=
  match (upTo (2 ^ c.d)).find? fun q => (c.entry s q).2 == digit with
  | some q => q
  | none => 0

/-- The coordinates of a key: its digits walked from level `i` on (R58). -/
def Curve.walkKey (c : Curve) (k s i : Nat) (xs : List Nat) : Nat → List Nat
  | 0 => xs
  | n + 1 =>
    let q := c.quadOf s (c.digit k i)
    c.walkKey k (c.entry s q).1 (i + 1) (xs.mapIdx fun a x => 2 * x + (if q.testBit a then 1 else 0)) n

/-- The coordinates of a well-formed key; z is 0 in two dimensions (R303). -/
def Curve.coords (c : Curve) (k : Nat) : List Nat := c.walkKey k 0 1 [0, 0, 0] (keyLevel k)

/-- The no-key value (R303). -/
def noKey : Nat := 2 ^ 64 - 1

/-- KENC (R303): coordinates x, y, z and the level. -/
def Curve.kenc (c : Curve) (xs : List Nat) (l : Nat) : Nat :=
  if c.maxlev < l || xs.any (fun x => 2 ^ l ≤ x) || (c.d == 2 && coordAt xs 2 != 0) then noKey else c.keyOf xs l

/-- KPAR (R303). -/
def Curve.kpar (c : Curve) (k : Nat) : Nat :=
  if keyLevel k = 0 || !c.keyOk k then noKey
  else
    let u := 2 ^ (58 - (keyLevel k - 1) * c.d)
    (keyLevel k - 1) * 2 ^ 58 + keyPath k / u * u

/-- KCHLD (R303). -/
def Curve.kchld (c : Curve) (k i : Nat) : Nat :=
  if 2 ^ c.d ≤ i || c.maxlev ≤ keyLevel k || !c.keyOk k then noKey
  else (keyLevel k + 1) * 2 ^ 58 + keyPath k + i * 2 ^ (58 - (keyLevel k + 1) * c.d)

/-- Whether the cell of `a` contains that of `b`, or is it (R55). -/
def Curve.contains (c : Curve) (a b : Nat) : Bool :=
  keyLevel a ≤ keyLevel b &&
    (let u := 2 ^ (58 - keyLevel a * c.d); keyPath a / u == keyPath b / u)

/-- Whether a face lies in the curve's dimensionality (Table 15-1). -/
def Curve.hasFace (c : Curve) (f : Nat) : Bool := f < 2 * c.d

/-- The face opposite a face (R302). -/
def opposite (f : Nat) : Nat := if f % 2 = 0 then f + 1 else f - 1

/-- The cell across a face of a cell, and whether a periodic face was crossed; none at a wall (R306). -/
def Curve.across (c : Curve) (k f : Nat) : Option (Nat × Bool) :=
  let l := keyLevel k
  let xs := c.coords k
  let a := f / 2
  let x := coordAt xs a
  let edge := if f % 2 = 0 then x = 0 else x + 1 = 2 ^ l
  let y := if f % 2 = 0 then (x + 2 ^ l - 1) % 2 ^ l else (x + 1) % 2 ^ l
  if edge then (if c.faces.testBit f then some (c.keyOf (xs.set a y) l, true) else none)
  else some (c.keyOf (xs.set a y) l, false)

/-- Whether a cell inside a cell touches a face of it (R306). -/
def Curve.touches (c : Curve) (cell k f : Nat) : Bool :=
  let h := 2 ^ (keyLevel k - keyLevel cell)
  let lo := coordAt (c.coords cell) (f / 2) * h
  coordAt (c.coords k) (f / 2) == (if f % 2 = 0 then lo else lo + h - 1)

/-! ## Curve records (R57, R59) -/

/-- A curve of a record's header and table entries (Table 3-2). -/
def Curve.ofRecord (ctx n hdr : Nat) (entries : List Nat) : Curve :=
  { ctx := ctx, num := n, d := if bitOf hdr 0 then 3 else 2, minlev := bitsOf hdr 20 16, maxlev := bitsOf hdr 25 21
    faces := bitsOf hdr 15 10, bal := bitOf hdr 9, table := entries.map fun e => (bitsOf e 8 3, bitsOf e 2 0) }

/-- The states of a header. -/
def curveStates (hdr : Nat) : Nat := bitsOf hdr 31 26

/-- The table entries of a record. -/
def curveEntries (hdr : Nat) : Nat := curveStates hdr * 2 ^ (if bitOf hdr 0 then 3 else 2)

/-- The checks of the header (R59). -/
def curveHeaderOk (hdr hi : Nat) : Bool :=
  let two := !bitOf hdr 0
  hi == 0 && hdr / 2 ^ 32 == 0 && bitsOf hdr 8 1 == 0 && 1 ≤ curveStates hdr && curveStates hdr ≤ 48
  && bitsOf hdr 25 21 ≤ (if two then 29 else 19) && bitsOf hdr 20 16 ≤ bitsOf hdr 25 21
  && !(two && (bitOf hdr 14 || bitOf hdr 15))
  && bitOf hdr 10 == bitOf hdr 11 && bitOf hdr 12 == bitOf hdr 13 && bitOf hdr 14 == bitOf hdr 15

/-- The checks of the table (R59): reserved bits, digits, next states, and the digits of a state a permutation. -/
def curveTableOk (hdr : Nat) (entries : List Nat) : Bool :=
  let n := 2 ^ (if bitOf hdr 0 then 3 else 2)
  entries.all (fun e => e < 2 ^ 9 && bitsOf e 2 0 < n && bitsOf e 8 3 < curveStates hdr)
  && (upTo (curveStates hdr)).all fun s => (upTo n).all fun q => ((entries.drop (n * s)).take n).any fun e => bitsOf e 2 0 == q

/-! ## Leaves -/

/-- A leaf record as it was read (Table 3-6), with its place in the leaf store. -/
structure LeafRec where
  seg : Nat
  idx : Nat
  key : Nat
  slot : Nat
  mig : Bool
  res : Nat
  user : Nat
  cost : Nat
deriving DecidableEq, Repr

/-- The leaf record of 16 bytes. -/
def LeafRec.ofBytes (seg idx v : Nat) : LeafRec :=
  { seg := seg, idx := idx, key := v % 2 ^ 64, slot := bitsOf v 95 64, mig := bitOf v 96, res := bitsOf v 103 97
    user := bitsOf v 111 104, cost := bitsOf v 127 112 }

/-- The 16 bytes of a leaf record. -/
def LeafRec.bytes (r : LeafRec) : Nat :=
  r.key + 2 ^ 64 * r.slot + (if r.mig then 2 ^ 96 else 0) + 2 ^ 97 * r.res + 2 ^ 104 * r.user + 2 ^ 112 * r.cost

/-- The checks that a mesh instruction makes of a record it reads (R64). -/
def LeafRec.ok (r : LeafRec) (c : Curve) (nslots : Nat) : Bool := r.res == 0 && r.slot < nslots && c.keyOk r.key

/-- Leaves in curve order (R55). -/
def sortLeaves (l : List LeafRec) : List LeafRec := sortBy (fun (a b : LeafRec) => sortValue a.key < sortValue b.key) l

/-- The leaf whose cell contains a cell, or is it. -/
def Curve.leafOver (c : Curve) (l : List LeafRec) (k : Nat) : Option LeafRec := l.find? fun r => c.contains r.key k

/-- The leaf of a key. -/
def leafWithKey (l : List LeafRec) (k : Nat) : Option LeafRec := l.find? fun r => r.key == k

/-- The leaves inside a cell that touch a face of it, in curve order (R306). -/
def Curve.onFace (c : Curve) (l : List LeafRec) (cell f : Nat) : List LeafRec :=
  sortLeaves (l.filter fun r => c.contains cell r.key && c.touches cell r.key f)

/-- Whether some face neighbour of a cell is a coarser leaf (R304 step 7). -/
def Curve.coarserBy (c : Curve) (l : List LeafRec) (k n : Nat) : Bool :=
  (upTo (2 * c.d)).any fun f =>
    match c.across k f with
    | some (m, _) => (match c.leafOver l m with | some r => keyLevel r.key + n < keyLevel k | none => false)
    | none => false

/-- Whether a leaf outside a cell that shares a face with it is more than one level finer (R304 step 7). -/
def Curve.finerBy (c : Curve) (l : List LeafRec) (k : Nat) : Bool :=
  (upTo (2 * c.d)).any fun f =>
    match c.across k f with
    | some (m, _) => (c.onFace l m (opposite f)).any fun r => !c.contains k r.key && keyLevel k + 1 < keyLevel r.key
    | none => false

/-- Whether leaves are 2:1 balanced (R72). -/
def Curve.balanced (c : Curve) (l : List LeafRec) : Bool := l.all fun r => !c.coarserBy l r.key 1

/-- Whether leaves in curve order tile the domain from a position on (R63). -/
def Curve.tiles (c : Curve) (at_ : Nat) : List LeafRec → Bool
  | [] => at_ == 2 ^ 58
  | r :: t => keyPath r.key == at_ && c.tiles (at_ + 2 ^ (58 - keyLevel r.key * c.d)) t

/-! ## Cuts -/

/-- The last of a list that meets a test. -/
def lastThat {α : Type} (p : α → Bool) (l : List α) : Option α := l.reverse.find? p

/-- The owner of a key under the current keys (R67). -/
def CutTable.owner (t : CutTable) (k : Nat) : Nat :=
  match lastThat (fun (c : Cut) => sortValue c.key ≤ sortValue k) t.cuts with
  | some c => c.own
  | none => 0

/-- The key that a cut had before a move still under way (R314, R317). -/
def Cut.before (c : Cut) : Nat := if c.st then c.oldKey else c.key

/-- The owner of a key under the keys in force before the move (R317). -/
def CutTable.oldOwner (t : CutTable) (k : Nat) : Nat :=
  match lastThat (fun (c : Cut) => sortValue c.before ≤ sortValue k) t.cuts with
  | some c => c.own
  | none => 0

/-- Whether the old and new sort values of a cut bracket a key, the lower bound inclusive (R314, R317). -/
def Cut.brackets (c : Cut) (k : Nat) : Bool :=
  let a := sortValue c.oldKey
  let b := sortValue c.key
  Nat.min a b ≤ sortValue k && sortValue k < Nat.max a b

/-- MOV of a key (R317). -/
def CutTable.moving (t : CutTable) (k : Nat) : Bool :=
  t.owner k != t.oldOwner k && t.cuts.any fun c => c.st && c.brackets k

/-- The 16 bytes of a cut record as KCUTQ returns it (Table 3-7). -/
def Cut.bytes (c : Cut) : Nat :=
  c.key + 2 ^ 64 * c.own + (if c.st then 2 ^ 79 + 2 ^ 80 * c.old else 0) + 2 ^ 96 * c.ver

/-- The checks of the cut records at KMESH.def (R67), from an entry on; `prev` is the sort value before it plus 1. -/
def cutsOk (c : Curve) (segs : List Seg) (prev : Nat) : List Nat → Bool
  | [] => true
  | r :: t =>
    let k := r % 2 ^ 64
    let own := bitsOf r 72 64
    r / 2 ^ 73 == 0 && c.keyOk k && prev ≤ sortValue k
    && (match segs[own / 128]? with | some g => 0 < g.lcap | none => false)
    && cutsOk c segs (sortValue k + 1) t

/-- Rank of each leaf of a stretch (R313): `n` ranges, costs in curve order. -/
def ranks (n total : Nat) : Nat → List Nat → List Nat
  | _, [] => []
  | p, c :: t => Nat.min (n - 1) ((2 * n * p + n * c) / (2 * total)) :: ranks n total (p + c) t

/-- The leaves that begin the ranges after the first of a stretch (R313). -/
def rangeStarts (n : Nat) (costs : List Nat) : List Nat :=
  let len := costs.length
  let sum := costs.foldl (· + ·) 0
  let (costs, total) := if sum = 0 then (costs.map fun _ => 1, len) else (costs, sum)
  let rs := ranks n total 0 costs
  ((upTo (n - 1)).foldl (fun (x : List Nat × Nat) i =>
    let m := i + 1
    let a := (rs.takeWhile fun r => r < m).length
    let s := Nat.min (Nat.max a (x.2 + 1)) (len - n + m)
    (x.1 ++ [s], s)) ([], 0)).1

/-- The new keys of the cuts (R313): each stretch, a fixed cut with the movable ones after it, divided by the costs of its
leaves; none when a stretch has fewer leaves than ranges. `cuts` are the keys with whether each is movable. -/
def newKeys (leaves : List LeafRec) : List (Nat × Bool) → Option (List Nat)
  | [] => some []
  | (k, true) :: t => (newKeys leaves t).map fun l => k :: l
  | (k, false) :: t =>
    let movable := (t.takeWhile fun c => c.2).length
    let hi := match t.find? fun c => !c.2 with
      | some c => sortValue c.1
      | none => 2 ^ 64
    let mine := leaves.filter fun r => sortValue k ≤ sortValue r.key && sortValue r.key < hi
    if mine.length < movable + 1 then none
    else
      let starts := (rangeStarts (movable + 1) (mine.map (·.cost))).map fun i =>
        match mine[i]? with
        | some r => r.key
        | none => 0
      (newKeys leaves t).map fun l => k :: (starts ++ l.drop movable)

end Sys2Proof.Machine
end

