-- ==== Sys2Proof/Machine/Int.lean ====
section
/-! DEFINITION. The meanings of classes 1 to 3: integer arithmetic (09 R173 to R177), comparison, predicates and bit fields
(R178 to R180). -/

namespace Sys2Proof.Machine

open Sys2Proof

/-- Bits of a 32-bit or a pair form (R173). -/
def bitsN (p : Bool) : Nat := if p then 64 else 32

/-- A number modulo 2^w. -/
def modW (w : Nat) (n : Nat) : Nat := n % 2 ^ w

/-- An integer modulo 2^w. -/
def modI (w : Nat) (i : Int) : Nat := (i % (2 ^ w : Nat)).toNat

/-- A value without flags (R165). -/
def plain (n : Nat) : Fr := (n, 0)

/-- SHL, SHR and SHRA (R175): the amount is the whole of b. -/
def shiftL (w a n : Nat) : Nat := if w ≤ n then 0 else modW w (a * 2 ^ n)
/-- SHR (R175). -/
def shiftR (w a n : Nat) : Nat := if w ≤ n then 0 else a / 2 ^ n
/-- SHRA (R175). -/
def shiftA (w a n : Nat) : Nat := modI w (sintN w a / (2 ^ (if w ≤ n then w else n) : Nat))

/-- A rotation to the left by n mod 32 (R173). -/
def rotL (a n : Nat) : Nat := let k := n % 32; modW 32 (a * 2 ^ k) + a / 2 ^ (32 - k)

/-- Whether a type has 64 bits. -/
def wideTy : IntTy → Bool
  | .i64 | .n64 => true
  | .i32 | .n32 => false

/-- A number read in an integer type (R173, R178). -/
def readTy (t : IntTy) (n : Nat) : Int :=
  match t with
  | .i32 => sintN 32 n
  | .n32 => (n % 2 ^ 32 : Nat)
  | .i64 => sintN 64 n
  | .n64 => (n % 2 ^ 64 : Nat)

/-- The smaller or the larger of two numbers in a type (R173). -/
def minTy (t : IntTy) (a b : Nat) : Nat := if readTy t b < readTy t a then b else a
/-- The larger of two numbers in a type (R173). -/
def maxTy (t : IntTy) (a b : Nat) : Nat := if readTy t a < readTy t b then b else a

/-- Bits [63:32] of the exact product (R173). -/
def mulHigh (u : DivTy) (a b : Nat) : Nat :=
  match u with
  | .i32 => modI 32 (sintN 32 a * sintN 32 b / (2 ^ 32 : Nat))
  | .n32 => a * b / 2 ^ 32

/-- The quotient truncated toward zero, 0xFFFF_FFFF for a zero divisor (R174). -/
def quotient (u : DivTy) (a b : Nat) : Nat :=
  if b = 0 then 0xFFFFFFFF
  else match u with
    | .i32 => modI 32 (Int.tdiv (sintN 32 a) (sintN 32 b))
    | .n32 => a / b

/-- The remainder with the sign of the dividend, the dividend for a zero divisor (R174). -/
def remainder (u : DivTy) (a b : Nat) : Nat :=
  if b = 0 then a
  else match u with
    | .i32 => modI 32 (Int.tmod (sintN 32 a) (sintN 32 b))
    | .n32 => a % b

/-- A pair of a thread as a number. -/
def Thread.wide (t : Thread) (r : Reg) : Nat := (t.pair r.toNat).toNat

/-- A condition of PSET (R178). -/
def PCond.holds (c : PCond) (a b : Int) : Bool :=
  match c with
  | .eq => a == b
  | .ne => a != b
  | .lt => a < b
  | .le => a ≤ b
  | .gt => b < a
  | .ge => b ≤ a

/-- The bits c of a field at offset o of width w, cut at bit 31 (R179). -/
def fieldBits (o w : Nat) : Nat := if 32 ≤ o || w == 0 then 0 else Nat.min w (32 - o)

/-- BFX (R179): `x` extends the sign from the highest bit extracted. -/
def extractField (x : Bool) (a b : Nat) : Nat :=
  let o := b % 64
  let c := fieldBits o (b / 256 % 64)
  let f := a / 2 ^ o % 2 ^ c
  if c = 0 then 0 else if x then modI 32 (sintN c f) else f

/-- The bits that BFI writes, by its vB (R179). -/
def insertBits (b : Nat) : Nat := fieldBits (b % 64) (b / 256 % 64)

/-- BFI of at least one bit (R179). -/
def insertField (d a b : Nat) : Nat :=
  let o := b % 64
  let c := insertBits b
  d - (d / 2 ^ o % 2 ^ c) * 2 ^ o + (a % 2 ^ c) * 2 ^ o

/-- The number of set bits among the lowest n (R180). -/
def popcount (a : Nat) : Nat → Nat
  | 0 => 0
  | n + 1 => popcount a n + (if a.testBit n then 1 else 0)

/-- Leading zero bits of the lowest n; n when there is none set (R180). -/
def leadingZeros (a : Nat) : Nat → Nat
  | 0 => 0
  | n + 1 => if a.testBit n then 0 else 1 + leadingZeros a n

/-- Trailing zero bits of 32; 32 for 0 (R180). -/
def trailingZeros (a : Nat) : Nat :=
  match (upTo 32).find? fun i => a.testBit i with
  | some i => i
  | none => 32

/-- The 32 bits in reverse order (R180). -/
def reverseBits (a : Nat) : Nat := (upTo 32).foldl (fun r i => if a.testBit i then r + 2 ^ (31 - i) else r) 0

/-- ADD (R173, Table 9-2). -/
def execAdd (p : Bool) (d : Reg) (a : Reg) (b : Reg) (s : State) : Host.Outcome State Fault Refusal :=
  Ops.alu (.add p d a b) d (pairN p) s fun t => plain (modW (bitsN p) (t.opnd p a.toNat + t.opnd p b.toNat))

/-- ADDC (R173): the carry out. -/
def execAddc (p : Bool) (d : Reg) (a : Reg) (b : Reg) (s : State) : Host.Outcome State Fault Refusal :=
  Ops.alu (.addc p d a b) d (pairN p) s fun t => plain ((t.opnd p a.toNat + t.opnd p b.toNat) / 2 ^ bitsN p)

/-- SUB (R173). -/
def execSub (p : Bool) (d : Reg) (a : Reg) (b : Reg) (s : State) : Host.Outcome State Fault Refusal :=
  Ops.alu (.sub p d a b) d (pairN p) s fun t => plain (modI (bitsN p) ((t.opnd p a.toNat : Int) - t.opnd p b.toNat))

/-- SUBB (R173): the unsigned borrow. -/
def execSubb (p : Bool) (d : Reg) (a : Reg) (b : Reg) (s : State) : Host.Outcome State Fault Refusal :=
  Ops.alu (.subb p d a b) d (pairN p) s fun t => plain (if t.opnd p a.toNat < t.opnd p b.toNat then 1 else 0)

/-- MUL (R173). -/
def execMul (p : Bool) (d : Reg) (a : Reg) (b : Reg) (s : State) : Host.Outcome State Fault Refusal :=
  Ops.alu (.mul p d a b) d (pairN p) s fun t => plain (modW (bitsN p) (t.opnd p a.toNat * t.opnd p b.toNat))

/-- MULH (R173). -/
def execMulh (u : DivTy) (d : Reg) (a : Reg) (b : Reg) (s : State) : Host.Outcome State Fault Refusal :=
  Ops.alu (.mulh u d a b) d 1 s fun t => plain (mulHigh u (t.num a) (t.num b))

/-- MAD (R173). -/
def execMad (p : Bool) (d : Reg) (a : Reg) (b : Reg) (s : State) : Host.Outcome State Fault Refusal :=
  Ops.alu (.mad p d a b) d (pairN p) s fun t => plain (modW (bitsN p) (t.opnd p a.toNat * t.opnd p b.toNat + t.opnd p d.toNat))

/-- DIV (R174). -/
def execDiv (u : DivTy) (d : Reg) (a : Reg) (b : Reg) (s : State) : Host.Outcome State Fault Refusal :=
  Ops.alu (.div u d a b) d 1 s fun t => plain (quotient u (t.num a) (t.num b))

/-- DIV.trap (R174): a zero divisor in any executing lane writes no lane and traps with cause DIVZERO. -/
def execDivTrap (u : DivTy) (d : Reg) (a : Reg) (b : Reg) (s : State) : Host.Outcome State Fault Refusal :=
  Ops.instr (.divTrap u d a b) s fun L s =>
    if (s.lanes L).any fun t => t.num b == 0 then .trap 7 0
    else .done (s.results L fun t => t.result d.toNat 1 (quotient u (t.num a) (t.num b)) 0)

/-- REM (R174). -/
def execRem (u : DivTy) (d : Reg) (a : Reg) (b : Reg) (s : State) : Host.Outcome State Fault Refusal :=
  Ops.alu (.rem u d a b) d 1 s fun t => plain (remainder u (t.num a) (t.num b))

/-- MIN (R173). -/
def execMin (ty : IntTy) (d : Reg) (a : Reg) (b : Reg) (s : State) : Host.Outcome State Fault Refusal :=
  Ops.alu (.min ty d a b) d (intN ty) s fun t => plain (minTy ty (t.opnd (wideTy ty) a.toNat) (t.opnd (wideTy ty) b.toNat))

/-- MAX (R173). -/
def execMax (ty : IntTy) (d : Reg) (a : Reg) (b : Reg) (s : State) : Host.Outcome State Fault Refusal :=
  Ops.alu (.max ty d a b) d (intN ty) s fun t => plain (maxTy ty (t.opnd (wideTy ty) a.toNat) (t.opnd (wideTy ty) b.toNat))

/-- ABS (R173): ABS of 0x8000_0000 is 0x8000_0000. -/
def execAbs (d : Reg) (a : Reg) (s : State) : Host.Outcome State Fault Refusal :=
  Ops.alu (.abs d a) d 1 s fun t => plain (modW 32 (sintN 32 (t.num a)).natAbs)

/-- NEG (R173). -/
def execNeg (d : Reg) (a : Reg) (s : State) : Host.Outcome State Fault Refusal :=
  Ops.alu (.neg d a) d 1 s fun t => plain (modI 32 (-(t.num a : Int)))

/-- AND (R173). -/
def execAnd (d : Reg) (a : Reg) (b : Reg) (s : State) : Host.Outcome State Fault Refusal :=
  Ops.alu (.and d a b) d 1 s fun t => plain (Nat.land (t.num a) (t.num b))

/-- OR (R173). -/
def execOr (d : Reg) (a : Reg) (b : Reg) (s : State) : Host.Outcome State Fault Refusal :=
  Ops.alu (.or d a b) d 1 s fun t => plain (Nat.lor (t.num a) (t.num b))

/-- XOR (R173). -/
def execXor (d : Reg) (a : Reg) (b : Reg) (s : State) : Host.Outcome State Fault Refusal :=
  Ops.alu (.xor d a b) d 1 s fun t => plain (Nat.xor (t.num a) (t.num b))

/-- NOT (R173). -/
def execNot (d : Reg) (a : Reg) (s : State) : Host.Outcome State Fault Refusal :=
  Ops.alu (.not d a) d 1 s fun t => plain (2 ^ 32 - 1 - t.num a)

/-- ANDN (R173). -/
def execAndn (d : Reg) (a : Reg) (b : Reg) (s : State) : Host.Outcome State Fault Refusal :=
  Ops.alu (.andn d a b) d 1 s fun t => plain (Nat.land (t.num a) (2 ^ 32 - 1 - t.num b))

/-- SHL (R175). -/
def execShl (d : Reg) (a : Reg) (b : Reg) (s : State) : Host.Outcome State Fault Refusal :=
  Ops.alu (.shl d a b) d 1 s fun t => plain (shiftL 32 (t.num a) (t.num b))

/-- SHL on a pair (R173, R175). -/
def execShl64 (d : Reg) (a : Reg) (b : Reg) (s : State) : Host.Outcome State Fault Refusal :=
  Ops.alu (.shl64 d a b) d 2 s fun t => plain (shiftL 64 (t.wide a) (t.num b))

/-- SHR (R175). -/
def execShr (d : Reg) (a : Reg) (b : Reg) (s : State) : Host.Outcome State Fault Refusal :=
  Ops.alu (.shr d a b) d 1 s fun t => plain (shiftR 32 (t.num a) (t.num b))

/-- SHR on a pair (R173, R175). -/
def execShr64 (d : Reg) (a : Reg) (b : Reg) (s : State) : Host.Outcome State Fault Refusal :=
  Ops.alu (.shr64 d a b) d 2 s fun t => plain (shiftR 64 (t.wide a) (t.num b))

/-- SHRA (R175). -/
def execShra (d : Reg) (a : Reg) (b : Reg) (s : State) : Host.Outcome State Fault Refusal :=
  Ops.alu (.shra d a b) d 1 s fun t => plain (shiftA 32 (t.num a) (t.num b))

/-- SHRA on a pair (R173, R175). -/
def execShra64 (d : Reg) (a : Reg) (b : Reg) (s : State) : Host.Outcome State Fault Refusal :=
  Ops.alu (.shra64 d a b) d 2 s fun t => plain (shiftA 64 (t.wide a) (t.num b))

/-- ROT (R173). -/
def execRot (d : Reg) (a : Reg) (b : Reg) (s : State) : Host.Outcome State Fault Refusal :=
  Ops.alu (.rot d a b) d 1 s fun t => plain (rotL (t.num a) (t.num b))

/-- SEL (R173): d selects bit by bit. -/
def execSel (d : Reg) (a : Reg) (b : Reg) (s : State) : Host.Outcome State Fault Refusal :=
  Ops.alu (.sel d a b) d 1 s fun t => plain (Nat.lor (Nat.land (t.num a) (t.num d)) (Nat.land (t.num b) (2 ^ 32 - 1 - t.num d)))

/-- LEA (R173). -/
def execLea (d : Reg) (a : Reg) (b : Reg) (s : State) : Host.Outcome State Fault Refusal :=
  Ops.alu (.lea d a b) d 2 s fun t => plain (modI 64 ((t.wide a : Int) + sintN 32 (t.num b)))

/-- ADD with an immediate (R176). -/
def execAddI (p : Bool) (d : Reg) (a : Reg) (i : Imm) (s : State) : Host.Outcome State Fault Refusal :=
  Ops.alu (.addI p d a i) d (pairN p) s fun t => plain (modI (bitsN p) ((t.opnd p a.toNat : Int) + i.toInt))

/-- MUL with an immediate (R176). -/
def execMulI (d : Reg) (a : Reg) (i : Imm) (s : State) : Host.Outcome State Fault Refusal :=
  Ops.alu (.mulI d a i) d 1 s fun t => plain (modI 32 ((t.num a : Int) * i.toInt))

/-- AND with an immediate (R176). -/
def execAndI (d : Reg) (a : Reg) (i : Imm) (s : State) : Host.Outcome State Fault Refusal :=
  Ops.alu (.andI d a i) d 1 s fun t => plain (Nat.land (t.num a) i.toNat)

/-- OR with an immediate (R176). -/
def execOrI (d : Reg) (a : Reg) (i : Imm) (s : State) : Host.Outcome State Fault Refusal :=
  Ops.alu (.orI d a i) d 1 s fun t => plain (Nat.lor (t.num a) i.toNat)

/-- XOR with an immediate (R176). -/
def execXorI (d : Reg) (a : Reg) (i : Imm) (s : State) : Host.Outcome State Fault Refusal :=
  Ops.alu (.xorI d a i) d 1 s fun t => plain (Nat.xor (t.num a) i.toNat)

/-- SHL by an immediate (R175, R176). -/
def execShlI (p : Bool) (d : Reg) (a : Reg) (i : Imm) (s : State) : Host.Outcome State Fault Refusal :=
  Ops.alu (.shlI p d a i) d (pairN p) s fun t => plain (shiftL (bitsN p) (t.opnd p a.toNat) i.toNat)

/-- SHR by an immediate (R175, R176). -/
def execShrI (p : Bool) (d : Reg) (a : Reg) (i : Imm) (s : State) : Host.Outcome State Fault Refusal :=
  Ops.alu (.shrI p d a i) d (pairN p) s fun t => plain (shiftR (bitsN p) (t.opnd p a.toNat) i.toNat)

/-- SHRA by an immediate (R175, R176). -/
def execShraI (p : Bool) (d : Reg) (a : Reg) (i : Imm) (s : State) : Host.Outcome State Fault Refusal :=
  Ops.alu (.shraI p d a i) d (pairN p) s fun t => plain (shiftA (bitsN p) (t.opnd p a.toNat) i.toNat)

/-- ROT by an immediate (R176). -/
def execRotI (d : Reg) (a : Reg) (i : Imm) (s : State) : Host.Outcome State Fault Refusal :=
  Ops.alu (.rotI d a i) d 1 s fun t => plain (rotL (t.num a) i.toNat)

/-- MIN.i32 with an immediate (R176). -/
def execMinIS (d : Reg) (a : Reg) (i : Imm) (s : State) : Host.Outcome State Fault Refusal :=
  Ops.alu (.minIS d a i) d 1 s fun t => plain (minTy .i32 (t.num a) i.toNat)

/-- MIN.n32 with an immediate (R176). -/
def execMinIU (d : Reg) (a : Reg) (i : Imm) (s : State) : Host.Outcome State Fault Refusal :=
  Ops.alu (.minIU d a i) d 1 s fun t => plain (minTy .n32 (t.num a) i.toNat)

/-- MAX.i32 with an immediate (R176). -/
def execMaxIS (d : Reg) (a : Reg) (i : Imm) (s : State) : Host.Outcome State Fault Refusal :=
  Ops.alu (.maxIS d a i) d 1 s fun t => plain (maxTy .i32 (t.num a) i.toNat)

/-- MAX.n32 with an immediate (R176). -/
def execMaxIU (d : Reg) (a : Reg) (i : Imm) (s : State) : Host.Outcome State Fault Refusal :=
  Ops.alu (.maxIU d a i) d 1 s fun t => plain (maxTy .n32 (t.num a) i.toNat)

/-- LEA with an immediate shift (R176, R177): pair(vD) + (sext64(vA) << s). -/
def execLeaI (d : Reg) (a : Reg) (i : Imm) (s : State) : Host.Outcome State Fault Refusal :=
  Ops.alu (.leaI d a i) d 2 s fun t => plain (modI 64 ((t.wide d : Int) + sintN 32 (t.num a) * (2 ^ i.toNat : Nat)))

/-- MOVI (R176). -/
def execMovi (d : Reg) (i : Imm) (s : State) : Host.Outcome State Fault Refusal :=
  Ops.alu (.movi d i) d 1 s fun _ => plain (i.toNat)

/-- MOVI.n64 (R176, R177). -/
def execMovi64 (d : Reg) (i : Imm) (s : State) : Host.Outcome State Fault Refusal :=
  Ops.alu (.movi64 d i) d 2 s fun _ => plain (i.toNat)

/-- PSET (R178). -/
def execPset (c : PCond) (ty : IntTy) (d : Reg) (a : Reg) (b : Reg) (s : State) : Host.Outcome State Fault Refusal :=
  Ops.test (.pset c ty d a b) d s fun t => (PCond.holds c (readTy ty (t.opnd (wideTy ty) a.toNat)) (readTy ty (t.opnd (wideTy ty) b.toNat)), 0)

/-- PAND (R178). -/
def execPand (d : Reg) (a : Reg) (b : Reg) (s : State) : Host.Outcome State Fault Refusal :=
  Ops.test (.pand d a b) d s fun t => (t.pred a.toNat && t.pred b.toNat, 0)

/-- POR (R178). -/
def execPor (d : Reg) (a : Reg) (b : Reg) (s : State) : Host.Outcome State Fault Refusal :=
  Ops.test (.por d a b) d s fun t => (t.pred a.toNat || t.pred b.toNat, 0)

/-- PXOR (R178). -/
def execPxor (d : Reg) (a : Reg) (b : Reg) (s : State) : Host.Outcome State Fault Refusal :=
  Ops.test (.pxor d a b) d s fun t => (t.pred a.toNat != t.pred b.toNat, 0)

/-- PNOT (R178). -/
def execPnot (d : Reg) (a : Reg) (s : State) : Host.Outcome State Fault Refusal :=
  Ops.test (.pnot d a) d s fun t => (!t.pred a.toNat, 0)

/-- PMOV from a predicate to a register (R178). -/
def execPmovReg (d : Reg) (a : Reg) (s : State) : Host.Outcome State Fault Refusal :=
  Ops.alu (.pmovReg d a) d 1 s fun t => plain (if t.pred a.toNat then 0xFFFFFFFF else 0)

/-- PMOV from a register to a predicate (R178). -/
def execPmovPred (d : Reg) (a : Reg) (s : State) : Host.Outcome State Fault Refusal :=
  Ops.test (.pmovPred d a) d s fun t => (t.num a != 0, 0)

/-- BFX (R179). -/
def execBfx (x : Bool) (d : Reg) (a : Reg) (b : Reg) (s : State) : Host.Outcome State Fault Refusal :=
  Ops.alu (.bfx x d a b) d 1 s fun t => plain (extractField x (t.num a) (t.num b))

/-- BFI (R179): a field of no bits writes nothing. -/
def execBfi (d : Reg) (a : Reg) (b : Reg) (s : State) : Host.Outcome State Fault Refusal :=
  Ops.instr (.bfi d a b) s fun L s => .done (s.mapExec L fun t =>
    if insertBits (t.num b) = 0 then t
    else t.addPending (t.result d.toNat 1 (insertField (t.num d) (t.num a) (t.num b)) 0))

/-- POPC (R180). -/
def execPopc (d : Reg) (a : Reg) (s : State) : Host.Outcome State Fault Refusal :=
  Ops.alu (.popc d a) d 1 s fun t => plain (popcount (t.num a) 32)

/-- CLZ (R180). -/
def execClz (d : Reg) (a : Reg) (s : State) : Host.Outcome State Fault Refusal :=
  Ops.alu (.clz d a) d 1 s fun t => plain (leadingZeros (t.num a) 32)

/-- CTZ (R180). -/
def execCtz (d : Reg) (a : Reg) (s : State) : Host.Outcome State Fault Refusal :=
  Ops.alu (.ctz d a) d 1 s fun t => plain (trailingZeros (t.num a))

/-- BREV (R180). -/
def execBrev (d : Reg) (a : Reg) (s : State) : Host.Outcome State Fault Refusal :=
  Ops.alu (.brev d a) d 1 s fun t => plain (reverseBits (t.num a))

end Sys2Proof.Machine
end

