-- ==== Sys2Proof/Machine/Warp.lean ====
section
/-! DEFINITION. The thread, warp, mask and team instructions of class 4 (09 R181 to R183, R188 to R190; 07 R142 to R144,
R148 to R150). -/

namespace Sys2Proof.Machine

open Sys2Proof

/-- The channel write pointer of a core (R243). -/
def State.wptr (s : State) (c q : Nat) : Word :=
  match s.eng.wptr.find? fun x => x.1 == 4 * c + q with
  | some x => x.2
  | none => 0

/-- The word of the special register team (06 Table 6-7, R383). -/
def teamWord (t : Thread) : Nat := natOfBytes ((upTo 4).map fun i => BitVec.ofNat 8 (t.teams.getD i 255))

/-- The value of a special register as a thread reads it (06 Table 6-7). -/
def State.special (s : State) (t : Thread) (n : Nat) : Nat :=
  let key := match s.task? t.task with | some k => k.key | none => 0
  let w := s.warp? t.core t.warp
  match n with
  | 0 => t.tid
  | 1 => t.lane
  | 2 => t.warp
  | 3 => teamWord t
  | 4 => s.taskNum t
  | 5 => key % 2 ^ 32
  | 6 => key / 2 ^ 32 % 2 ^ 32
  | 7 => t.core
  | 8 => coreCluster t.core
  | 9 => coreDie t.core
  | 10 => packageNumber
  | 11 => s.dev.cycle % 2 ^ 32
  | 12 => (t.clock >>> 32).toNat
  | 13 => t.wb
  | 14 => (match w with | some w => w.wpart | none => 0)
  | 15 => (match w with | some w => w.fsr.toNat | none => 0)
  | 16 => (match w with | some w => w.frm | none => 0)
  | 17 | 18 | 19 | 20 => (s.wptr t.core (n - 17)).toNat
  | 21 | 22 | 23 | 24 => (t.rngWord (n - 21)).toNat
  | _ => 0

/-- SMOV (R181): clocklo captures the whole count for the thread. -/
def execSmov (d a : Reg) (s : State) : Host.Outcome State Fault Refusal :=
  Ops.instr (.smov d a) s fun L s =>
    let now := BitVec.ofNat 64 s.dev.cycle
    let s' := s.results L fun t => t.result d.toNat 1 (s.special t a.toNat) 0
    .done (if a.toNat = 11 then s'.mapExec L fun t => { t with clock := now } else s')

/-- The write of a per-warp register with the value of the lowest executing lane, at issue (R136, R181). -/
def setWarpReg (L : Latch) (s : State) (v : Nat) (f : Nat → Warp → Warp) : Res :=
  if v ≤ 4 then .done (s.updWarp L.core L.warp (f v)) else .trap 1 0

/-- The vA of the lowest executing lane. -/
def State.lowestNum (s : State) (L : Latch) (a : Reg) : Nat :=
  match s.lowest L with
  | some t => t.num a
  | none => 0

/-- SWR (R181): wpart and frm at issue, the generator words as results. -/
def execSwr (d a : Reg) (s : State) : Host.Outcome State Fault Refusal :=
  Ops.instr (.swr d a) s fun L s =>
    match d.toNat with
    | 14 => setWarpReg L s (s.lowestNum L a) fun v w => { w with wpart := v }
    | 16 => setWarpReg L s (s.lowestNum L a) fun v w => { w with frm := v }
    | n => .done (s.results L fun t => { id := 0, dests := [(.rng (n - 21), 0)], val := t.num a })

/-- WPART (R189). -/
def execWpart (i : Imm) (s : State) : Host.Outcome State Fault Refusal :=
  Ops.instr (.wpart i) s fun L s => setWarpReg L s i.toNat fun v w => { w with wpart := v }

/-! ## Teams -/

/-- The lowest team number without a live team on a core; none when all 64 are live (R150, R182). -/
def State.freeTeam (s : State) (c : Nat) : Option Nat := (upTo 64).find? fun n => (s.team? c n).isNone

/-- Whether a thread is in four teams (R150). -/
def Thread.inFour (t : Thread) : Bool := t.teams.all (· != 255)

/-- TJOIN for one lane; `made` is the team that this issue created (R182). -/
def State.tjoinLane (s : State) (c k : Nat) (v : Nat) (made : Option Nat) : Nat × State :=
  match s.thread? c k with
  | none => (0, s)
  | some t =>
    let fresh := v == 0xFFFFFFFF
    match (if fresh then made else some v) with
    | none => (0xFFFFFFFF, s)
    | some n =>
      match s.team? c n with
      | none => (0xFFFFFFFD, s)
      | some team =>
        let mine := team.members.any fun m => match s.thread? c m with | some u => u.task == t.task | none => false
        if 64 ≤ n || (!fresh && !mine) then (0xFFFFFFFD, s)
        else if team.members.contains k then (n, s)
        else if t.inFour then (0xFFFFFFFE, s)
        else (n, s.joinTeam c k n)

/-- A status in vD of one thread. -/
def State.answerLane (s : State) (c k : Nat) (d : Reg) (n : Nat) : State :=
  s.updThread c k fun t => t.addPending (t.result d.toNat 1 n 0)

/-- TJOIN (R182): lanes in ascending order; those that ask for a new team share one, made only if one of them can join it. -/
def execTjoin (d a : Reg) (s : State) : Host.Outcome State Fault Refusal :=
  Ops.instr (.tjoin d a) s fun L s =>
    let ts := s.lanes L
    let wanted := ts.any fun t => t.num a == 0xFFFFFFFF && !t.inFour
    let made := if wanted then s.freeTeam L.core else none
    let task := match ts.head? with | some t => t.task | none => 0
    let s := match made with
      | some n => { s with teams := s.teams ++ [{ core := L.core, num := n, task := task, members := [], points := List.replicate 24 {} }] }
      | none => s
    .done (ts.foldl (fun s t =>
      let (r, s) := s.tjoinLane L.core t.slot (t.num a) made
      s.answerLane L.core t.slot d r) s)

/-- TLEAVE (R182). -/
def execTleave (d a : Reg) (s : State) : Host.Outcome State Fault Refusal :=
  Ops.instr (.tleave d a) s fun L s =>
    .done ((s.lanes L).foldl (fun s t =>
      if t.num a != 255 && t.teams.contains (t.num a) then (s.leaveTeam L.core t.slot (t.num a)).answerLane L.core t.slot d 0
      else s.answerLane L.core t.slot d 0xFFFFFFFD) s)

/-! ## Lane masks -/

/-- A mask of a warp. -/
def Warp.mask (w : Warp) (n : Nat) : Word := w.masks.getD n 0

/-- A warp with a mask written. -/
def Warp.putMask (n : Nat) (v : Word) (w : Warp) : Warp := { w with masks := w.masks.set n v }

/-- The bits of the executing lanes. -/
def State.execBits (s : State) (L : Latch) : Word := BitVec.ofNat 32 (laneMask (s.lanes L))

/-- MJOIN (R183). -/
def execMjoin (d : Reg) (s : State) : Host.Outcome State Fault Refusal :=
  Ops.instr (.mjoin d) s fun L s =>
    let bits := s.execBits L
    .done (s.updWarp L.core L.warp fun w => w.putMask d.toNat (w.mask d.toNat ||| bits))

/-- MLEAVE (R183). -/
def execMleave (d : Reg) (s : State) : Host.Outcome State Fault Refusal :=
  Ops.instr (.mleave d) s fun L s =>
    let bits := s.execBits L
    .done (s.updWarp L.core L.warp fun w => w.putMask d.toNat (w.mask d.toNat &&& ~~~bits))

/-- MWAIT (R143): each executing thread parks; the wait condition is evaluated at the end of the cycle. -/
def execMwait (d : Reg) (s : State) : Host.Outcome State Fault Refusal :=
  Ops.instr (.mwait d) s fun L s => .done (s.mapExec L fun t => { t with status := .parked (.mwait d.toNat) })

/-- MSET (R183). -/
def execMset (d a : Reg) (s : State) : Host.Outcome State Fault Refusal :=
  Ops.instr (.mset d a) s fun L s =>
    let v := BitVec.ofNat 32 (s.lowestNum L a)
    .done (s.updWarp L.core L.warp (Warp.putMask d.toNat v))

/-- MREAD (R183). -/
def execMread (d a : Reg) (s : State) : Host.Outcome State Fault Refusal :=
  Ops.instr (.mread d a) s fun L s =>
    let v := match s.latchWarp L with | some w => (w.mask a.toNat).toNat | none => 0
    .done (s.results L fun t => t.result d.toNat 1 v 0)

/-- WREGRP (R188): members park for the regroup of their team; others receive 0 at once. -/
def execWregrp (d a : Reg) (s : State) : Host.Outcome State Fault Refusal :=
  Ops.instr (.wregrp d a) s fun L s => .done (s.mapExec L fun t =>
    if t.num a ≤ 63 && t.teams.contains (t.num a) then { t with status := .parked (.wregrp (t.num a) (t.wb + d.toNat)) }
    else t.addPending (t.result d.toNat 1 0 0))

/-- GROUTE (R190): the route to a member, from the gang's route table; a lane whose member has not started parks (R99). -/
def execGroute (d a : Reg) (s : State) : Host.Outcome State Fault Refusal :=
  Ops.instr (.groute d a) s fun L s =>
    .done ((s.lanes L).foldl (fun s t =>
      match s.member t (t.num a) with
      | .absent => s.answerLane L.core t.slot d 0xFFFFFFFF
      | .unstarted g => s.parkReplay L t.slot (.member g (t.num a))
      | .at_ c _ => s.answerLane L.core t.slot d (routeTo s.goneUnits L.core c).toNat) s)

/-! ## Releases -/

/-- MWAIT_RELEASE (R143). -/
def execMwaitRelease (s : State) : Host.Outcome State Fault Refusal :=
  .next (match s.warp? s.arg.x s.arg.y with
    | none => s
    | some w => s.mwaitRelease w s.arg.z)

/-- The warps of a regroup group of a core that hold a live thread of a team (R148). -/
def State.participants (s : State) (c g team : Nat) : List Warp :=
  sortBy (fun (a b : Warp) => a.slot < b.slot) (s.warps.filter fun w => w.core == c && w.slot / 16 == g &&
    (s.warpLive c w.slot).any fun t => t.teams.contains team)

/-- The row that a survivor's count lands in. -/
def Thread.regrpRow (t : Thread) : Nat :=
  match t.status with
  | .parked (.wregrp _ row) => row
  | _ => 0

/-- Whether a regroup fires: every live thread of the team in the group's warps is parked at a WREGRP that names it (R148). -/
def State.regroupDue (s : State) (c g team : Nat) : Bool :=
  let ps := s.participants c g team
  !ps.isEmpty && ps.all fun w => (s.warpLive c w.slot).all fun t => !t.teams.contains team ||
    (match t.status with | .parked (.wregrp n _) => n == team | _ => false)

/-- Whether the survivors of a regroup form new warps (R148): tile operations, STREND and fences in qm are no requests. -/
def State.regroupForms (s : State) (c team : Nat) (ps : List Warp) : Bool :=
  let ts := ps.flatMap fun w => s.warpLive c w.slot
  ts.all (fun t => t.teams.contains team) && ts.all (fun t => some t.pc == ts.head?.map (·.pc))
  && ps.all fun w => w.subs.isEmpty && w.names.all (fun z => !z.bound)
      && !s.eng.queue.any fun e => e.core == c && e.queue == .qm w.slot && e.isRequest

/-- The places of survivors: thread slot, result warp and lane, participant by participant in ascending lane order (R149). -/
def placeSurvivors (ts : List Thread) : List (Nat × Nat × Nat) :=
  (ts.foldl (fun (x : List (Nat × Nat × Nat) × List Nat) t =>
    let col := t.slot % 32
    let r := x.2.getD col 0
    (x.1 ++ [(t.slot, r, col)], x.2.set col (r + 1))) ([], List.replicate 32 0)).1

/-- Survivors released where no warp is formed (R148). -/
def State.regroupNone (s : State) (c team : Nat) (g : Nat) : State :=
  { s with threads := s.threads.map fun t =>
      match t.status with
      | .parked (.wregrp n row) =>
        if t.core == c && t.warp / 16 == g && n == team then (t.putRow row 0).release else t
      | _ => t }

/-- The new warps of a regroup (R149). Threads of its warps that have ended hold no lane any more. -/
def State.regroupInto (s : State) (c : Nat) (ps : List Warp) : State :=
  let ts := ps.flatMap fun w => sortBy (fun (a b : Thread) => a.lane < b.lane) (s.warpLive c w.slot)
  let pl := placeSurvivors ts
  let n := pl.foldl (fun m x => Nat.max m (x.2.1 + 1)) 0
  let p0 := ps.head?
  let slotOf := fun (r : Nat) => match ps[r]? with | some w => w.slot | none => 0
  let fsr := ps.foldl (fun f w => f ||| w.fsr) 0
  let posted := ps.foldl (fun f w => f ||| w.posted) 0
  let age := leastOf (ps.map (·.age))
  let bits := fun (r k : Nat) => pl.foldl (fun m x =>
    if x.2.1 == r then
      match ts.find? fun t => t.slot == x.1 with
      | some t =>
        let old := match ps.find? fun w => w.slot == t.warp with | some w => (w.mask k).toNat.testBit t.lane | none => false
        putBit m x.2.2 old
      | none => m
    else m) 0
  let s := { s with threads := s.threads.map fun t =>
      match (if t.core == c then pl.find? fun x => x.1 == t.slot else none) with
      | some x => { (t.putRow t.regrpRow (BitVec.ofNat 32 n)).release with warp := slotOf x.2.1, lane := x.2.2 }
      | none => if t.core == c && !t.live && ps.any (fun w => w.slot == t.warp) then { t with lane := 32 } else t }
  (upTo ps.length).foldl (fun s r =>
    s.updWarp c (slotOf r) fun w =>
      if r < n then
        { w with masks := (upTo 12).map fun k => BitVec.ofNat 32 (bits r k), fsr := fsr, posted := posted, age := age
                 wpart := match p0 with | some p => p.wpart | none => w.wpart
                 frm := match p0 with | some p => p.frm | none => w.frm }
      else { w with vacated := true }) s

/-- REGROUP_FIRE (R148, R149). -/
def execRegroupFire (s : State) : Host.Outcome State Fault Refusal :=
  let c := s.arg.x
  let ps := s.participants c s.arg.y s.arg.z
  .next (if s.regroupDue c s.arg.y s.arg.z then
      if s.regroupForms c s.arg.z ps then s.regroupInto c ps else s.regroupNone c s.arg.z s.arg.y
    else s)

end Sys2Proof.Machine
end

