-- ==== Sys2Proof/Machine/LensTab.lean ====
section
/-! DEFINITION. The lens-table instructions and the steps that finish them (12 R238 to R240; 02 R48 to R51). -/

namespace Sys2Proof.Machine

open Sys2Proof

/-- Whether a team of a thread holds a running sweep job on a lens entry (R51). -/
def State.teamJob (s : State) (c : Nat) (ts : List Thread) (ctx n : Nat) : Bool :=
  s.eng.jobs.any fun j => j.running && j.core == c && j.ctx == ctx && j.lens == n && ts.any fun t => t.teams.contains j.team

/-- The executing threads park on an entry that becomes loading (R50, R238, R239). -/
def State.startLoad (s : State) (L : Latch) (e : LensEntry) (snap : Option (List Word)) : State :=
  let ctx := s.latchCtx L
  let s := s.putLens ctx { e with state := .loading, queue :=
    [{ core := L.core, slots := L.exec, snap := snap, pc := L.first, rep := L.n - L.j
       guards := (s.lanes L).map fun (t : Thread) => t.guard }] }
  s.mapExec L fun t => { t with status := .parked (.lensOwn ctx e.num) }

/-- Whether a mesh number names a live mesh of a context. -/
def State.meshLive (s : State) (ctx n : Nat) : Bool := s.eng.meshes.any fun m => m.ctx == ctx && m.num == n

/-- LENSLD (R238): one ordered load of the record by the lowest executing lane; a refused record is a format fault. On a loading entry it
parks before its other checks are made (R50; assumption log 58). DESIGN CHOICE: a record that violates the private window stops every executing
thread (assumption log 80). -/
def execLensld (a : Reg) (i : Imm) (s : State) : Host.Outcome State Fault Refusal :=
  Ops.instr (.lensld a i) s fun L s =>
    let ctx := s.latchCtx L
    let ts := s.lanes L
    let e := s.lens ctx i.toNat
    match s.lowest L with
    | none => .done s
    | some t =>
      if e.state == .loading then .done (s.parkAll L (.lens ctx i.toNat))
      else if s.teamJob L.core ts ctx i.toNat then .trap 12 0
      else
        let va := (t.pair a.toNat).toNat / 64 * 64
        if (windowOff va).isSome && s.windowBad t va 64 then .done (s.stopAll L ts)
        else s.withPages L .read (ts.map fun u => { slot := u.slot, va := va, width := 64 }) fun go s =>
          if !go t then .done s else
          let r := match windowOff va with
            | some o => s.privRead t o 64
            | none => s.orderedLoad L.core t.slot t va ((upTo 8).map fun k => (8 * k, 8))
          match r with
          | .wait => .done (s.parkAll L .retry)
          | .poison => .done (s.poisonPark L (L.n - L.j) (ts.map fun u => (u.slot, va)))
          | .val v s =>
            let ws := wordsOfNat 16 v
            if (Lens.ofWords ws).recordOk (s.meshLive ctx) then .done (s.startLoad L e (some ws)) else .trap 12 0

/-- LENSINV (R239). -/
def execLensinv (i : Imm) (s : State) : Host.Outcome State Fault Refusal :=
  Ops.instr (.lensinv i) s fun L s =>
    let ctx := s.latchCtx L
    let e := s.lens ctx i.toNat
    match e.state with
    | .loading => .done (s.parkAll L (.lens ctx i.toNat))
    | .empty => .done s
    | .loaded => if s.teamJob L.core (s.lanes L) ctx i.toNat then .trap 12 0 else .done (s.startLoad L e none)

/-- The code of a lens state (R240). -/
def LensState.code : LensState → Nat
  | .empty => 0 | .loaded => 1 | .loading => 2

/-- LENSQ (R240): a selector of 64 never parks. -/
def execLensq (d a : Reg) (i : Imm) (s : State) : Host.Outcome State Fault Refusal :=
  Ops.instr (.lensq d a i) s fun L s =>
    let ctx := s.latchCtx L
    let e := s.lens ctx i.toNat
    .done ((s.lanes L).foldl (fun s t =>
      let sel := t.num a
      if sel = 64 then
        s.answerLane L.core t.slot d (e.state.code + 2 ^ 16 * Nat.min 65535 (s.lensRefs ctx i.toNat))
      else if e.state == .loading then s.parkReplay L t.slot (.lens ctx i.toNat)
      else if sel < 64 && sel % 4 == 0 then
        s.answerLane L.core t.slot d (if e.state == .loaded then (e.snap.getD (sel / 4) 0).toNat else 0)
      else s.answerLane L.core t.slot d 0xFFFFFFFF) s)

/-! ## The steps that finish a load or an emptying -/

/-- The tag of the Prism lines filled through a lens entry of a context. -/
def prismTag (ctx n : Nat) : Nat := 256 * ctx + n

/-- Whether a LENSLD or LENSINV that waits for its entry is stopped by a halt: it is then not performed (R51, Table 20-7). -/
def State.waitHalts (s : State) (w : LensWait) : Bool :=
  w.slots.any fun k => match s.thread? w.core k with
    | some t => !s.acting t.task
    | none => false

/-- The entry at the head of a loading entry's queue takes effect once earlier references have drained (R50, R239); `write`
says which of the two kinds may. -/
def State.lensSettle (s : State) (ctx n : Nat) (write : Bool) : State :=
  let e := s.lens ctx n
  match e.state, e.queue with
  | .loading, w :: _ =>
    if s.lensRefs ctx n != 0 || w.snap.isSome != write || s.waitHalts w then s
    else
      let s := match w.snap with
        | some ws => s.putLens ctx { num := n, state := .loaded, snap := ws }
        | none => s.updCtx ctx fun c => { c with lenses := c.lenses.filter fun x => x.num != n }
      let s := s.updEng fun g => { g with prism := g.prism.filter fun x => x.tag != prismTag ctx n }
      { s with threads := s.threads.map fun t =>
          if t.status == .parked (.lens ctx n) || t.status == .parked (.lensOwn ctx n) then t.release else t }
  | _, _ => s

/-- LENS_ENTRY_WRITE (R50, R238). -/
def execLensEntryWrite (s : State) : Host.Outcome State Fault Refusal := .next (s.lensSettle s.arg.x s.arg.y true)

/-- LENS_ENTRY_EMPTY (R239). -/
def execLensEntryEmpty (s : State) : Host.Outcome State Fault Refusal := .next (s.lensSettle s.arg.x s.arg.y false)

end Sys2Proof.Machine
end

