-- ==== Sys2Proof/Machine/Mesh.lean ====
section
/-! DEFINITION. Class 11 (15 R299 to R314): key arithmetic, and the mesh instructions, each performed whole at its issue as
one step of its mesh's order. -/

namespace Sys2Proof.Machine

open Sys2Proof

/-! ## Meshes and descriptors -/

/-- The curve descriptor of a context; none when it is empty (R56). -/
def State.curve? (s : State) (ctx n : Nat) : Option Curve := s.eng.curves.find? fun c => c.ctx == ctx && c.num == n

/-- The live mesh of a context (R61). -/
def State.mesh? (s : State) (ctx n : Nat) : Option Mesh := s.eng.meshes.find? fun m => m.ctx == ctx && m.num == n

/-- The state with a mesh changed. -/
def State.updMesh (s : State) (ctx n : Nat) (f : Mesh → Mesh) : State :=
  s.updEng fun g => { g with meshes := updWhere (fun m => m.ctx == ctx && m.num == n) f g.meshes }

/-- Whether a pour node over a mesh has tasks that have not retired (R84). -/
def State.nodeBusy (s : State) (ctx n : Nat) : Bool :=
  match s.ctx? ctx with
  | none => false
  | some c => c.pours.any fun p => (p.nodes.zip p.nstates).any fun x => x.1.sp && x.1.mesh == n && x.2.retired < x.2.n

/-- Whether a KREBAL on the mesh is in flight (R316): until no cut is MOVING in any die's replica and its threads have their answer. -/
def Mesh.flying (m : Mesh) : Bool := m.inFlight || !m.msgs.isEmpty || !m.waiter.isEmpty

/-- Whether KREF and KCOARS answer BUSY: a pour node, or a running job over a curve-keyed lens of the mesh (R84, R330). -/
def State.meshBusy (s : State) (ctx n : Nat) : Bool :=
  s.nodeBusy ctx n || s.eng.jobs.any fun j => j.running && j.ctx == ctx &&
    (let l := Lens.ofWords j.snap; l.order == 2 && l.mesh == n)

/-- The cut table as a die's replica holds it (R69). -/
def Mesh.rep (m : Mesh) (die : Nat) : CutTable := m.reps.getD die m.table

/-! ## Accesses of a Curve Unit (R64, R311) -/

/-- How a mesh instruction ends for a lane: its result, as a number of words; a fault of its accesses; a retry from a pinned
grain; a wait for a migrating leaf (R304); or a violation of the private window by the record's address (R225). -/
inductive MeshRes where
  | val (v : Nat) (s : State)
  | fault (kind : Access) (reason va : Nat) (s : State)
  | wait
  | mig (keys : List Nat)
  | stop

/-- One part of a Curve Unit read, at the word's home (R64, Table 18-1). -/
def State.curvePart (s : State) (o : Origin) (va n : Nat) (k : Nat → State → MeshRes) : MeshRes :=
  match s.walkFor o.ctx va .read o.priv with
  | (.fault r, s) => .fault .mesh r va s
  | (.retry, _) => .wait
  | (.poison _, s) => .fault .poison 0 va s
  | (.ok l, s) =>
    let key := l.key va
    if s.mem.retry none key n then .wait
    else match s.settleOwn o key n with
      | none => .wait
      | some s =>
        if s.mem.poisoned key n then .fault .poison 0 va s
        else
          let (v, s) := s.readOrdered key n
          k v s

/-- A Curve Unit read of `n` 8-byte words from an address. -/
def State.curveRead (s : State) (o : Origin) (va : Nat) : Nat → (Nat → State → MeshRes) → MeshRes
  | 0, k => k 0 s
  | n + 1, k => s.curvePart o (va % 2 ^ 64) 8 fun v s => s.curveRead o (va + 8) n fun w s => k (v + 2 ^ 64 * w) s

/-- A Curve Unit write of `n` bytes, all within one 8-byte word, at the word's home (R64). It is hb-before what follows in the issuing thread,
whose core keeps no older copy (R347). -/
def State.curveWrite (s : State) (o : Origin) (va n v : Nat) (k : State → MeshRes) : MeshRes :=
  let va := va % 2 ^ 64
  match s.walkFor o.ctx va .write o.priv with
  | (.fault r, s) => .fault .mesh r va s
  | (.retry, _) => .wait
  | (.poison _, s) => .fault .poison 0 va s
  | (.ok l, s) =>
    let key := l.key va
    if s.mem.retry none key n then .wait
    else match s.settleOwn o key n with
      | none => .wait
      | some s => k (s.writeHome (some o.core) key n v)

/-- Writes one after another: address, bytes and value. -/
def State.curveWrites (s : State) (o : Origin) (k : State → MeshRes) : List (Nat × Nat × Nat) → MeshRes
  | [] => k s
  | w :: ws => s.curveWrite o w.1 w.2.1 w.2.2 fun s => s.curveWrites o k ws

/-- The leaves of a segment from an index on (R64). -/
def State.readSeg (s : State) (o : Origin) (g : Seg) (d i : Nat) (acc : List LeafRec) (k : List LeafRec → State → MeshRes) :
    Nat → MeshRes
  | 0 => k acc s
  | n + 1 => s.curveRead o (g.lbase + 16 * i) 2 fun v s => s.readSeg o g d (i + 1) (acc ++ [LeafRec.ofBytes d i v]) k n

/-- The leaves of every segment from one on. -/
def State.readSegs (s : State) (o : Origin) (d : Nat) (acc : List LeafRec) (k : List LeafRec → State → MeshRes) :
    List Seg → MeshRes
  | [] => k acc s
  | g :: gs => s.readSeg o g d 0 acc (fun l s => s.readSegs o (d + 1) l k gs) g.lcount

/-- The leaves of a mesh in curve order; REJECT when a record is malformed (R64). -/
def State.leaves (s : State) (o : Origin) (m : Mesh) (c : Curve) (reject : State → MeshRes) (k : List LeafRec → State → MeshRes) :
    MeshRes :=
  s.readSegs o 0 [] (fun l s => if l.all fun r => r.ok c m.nslots then k (sortLeaves l) s else reject s) m.segs

/-- The entries of a free-slot stack, from its bottom (R63, R65). -/
def State.readStack (s : State) (o : Origin) (base i : Nat) (acc : List Nat) (k : List Nat → State → MeshRes) : Nat → MeshRes
  | 0 => k acc s
  | n + 1 => s.curvePart o ((base + 4 * i) % 2 ^ 64) 4 fun v s => s.readStack o base (i + 1) (acc ++ [v]) k n

/-- A record at the address in a register, read as LENSLD reads one (R49, R312): of `n` 8-byte words. -/
def State.recordRead (s : State) (o : Origin) (t : Thread) (va n : Nat) (k : Nat → State → MeshRes) : MeshRes :=
  match windowOff va with
  | some off =>
    if s.windowBad t va (8 * n) then .stop
    else match s.privRead t off (8 * n) with
      | .val v s => k v s
      | .wait => .wait
      | .poison => .fault .poison 0 va s
  | none => s.curveRead o va n k

/-- A write to a record at an address that an instruction was given, as recordRead reads one (R312). -/
def State.recordWrite (s : State) (o : Origin) (t : Thread) (va n v : Nat) (k : State → MeshRes) : MeshRes :=
  match windowOff va with
  | some off => if s.windowBad t va n then .stop else k (s.privStore t off v n)
  | none => s.curveWrite o va n v k

/-- Writes to records one after another: address, bytes and value. -/
def State.recordWrites (s : State) (o : Origin) (t : Thread) (k : State → MeshRes) : List (Nat × Nat × Nat) → MeshRes
  | [] => k s
  | w :: ws => s.recordWrite o t (w.1 % 2 ^ 64) w.2.1 w.2.2 fun s => s.recordWrites o t k ws

/-! ## Lanes -/

/-- On whose behalf a Curve Unit works for a thread (R393). -/
def State.originOf (s : State) (t : Thread) : Origin :=
  { core := t.core, slot := some t.slot, ctx := s.ctxOf t, priv := s.privileged t }

/-- Lanes whose accesses fault park at their compound in one entry of the die's miss table (R311). -/
def State.meshPark (s : State) (L : Latch) (ts : List Thread) (kind : Access) (reason va : Nat) : State :=
  ts.foldl (fun s t =>
    let e : Miss :=
      { die := coreDie L.core, num := 0, ctx := s.ctxOf t, page := va / 2 ^ 16, kind := kind, unpriv := !s.privileged t,
        write := false, waiters := [], reason := reason, va := va, pc := L.first.toNat, task := s.taskNum t, core := L.core
        slot := t.slot }
    match s.faultEntry e (.lane L.core t.slot (L.n - L.j)) with
    | some (n, s) => s.parkReplay L t.slot (.fault (coreDie L.core) n false)
    | none => s.parkReplay L t.slot .retry) s

/-- The end of a mesh instruction for some lanes: its result in `n` registers from `d`, as an outstanding result (R299). DESIGN CHOICE: a record
that violates the private window stops all of them (assumption log 80). -/
def State.meshEnd (s : State) (L : Latch) (ts : List Thread) (d : Reg) (n mesh : Nat) (r : MeshRes) : State :=
  match r with
  | .val v s' => ts.foldl (fun s t => s.updThread L.core t.slot fun t => t.addPending (t.result d.toNat n v 0)) s'
  | .fault k reason va _ => s.meshPark L ts k reason va
  | .wait => ts.foldl (fun s t => s.parkReplay L t.slot .retry) s
  | .mig keys => ts.foldl (fun s t => s.parkReplay L t.slot (.mig (s.ctxOf t) mesh keys)) s
  | .stop => s.stopAll L ts

/-- A mesh instruction that acts for each executing lane, in ascending lane order (R299); with `n` = 0 it writes no register. -/
def Ops.meshLanes (i : Instr) (d : Reg) (n mesh : Nat) (s : State) (f : Latch → Thread → State → MeshRes) :
    Host.Outcome State Fault Refusal :=
  Ops.instr i s fun L s => .done ((s.lanes L).foldl (fun s t =>
    match n, f L t s with
    | 0, .val _ s' => s'
    | _, r => s.meshEnd L [t] d n mesh r) s)

/-- A mesh instruction that acts once, for its lowest executing lane (R299). -/
def Ops.meshOnce (i : Instr) (d : Reg) (n mesh : Nat) (s : State) (f : Latch → Thread → State → MeshRes) :
    Host.Outcome State Fault Refusal :=
  Ops.instr i s fun L s =>
    match s.lowest L with
    | none => .done s
    | some t => .done (s.meshEnd L (s.lanes L) d n mesh (f L t s))

/-! ## Key arithmetic (R303) -/

/-- Key arithmetic: none of it reads memory; `none` is the answer of an empty descriptor. -/
def Ops.keyOp (i : Instr) (c : BitVec 4) (d : Reg) (n none : Nat) (s : State) (f : Curve → Thread → Nat) :
    Host.Outcome State Fault Refusal :=
  Ops.instr i s fun L s =>
    .done (s.results L fun t => t.result d.toNat n (match s.curve? (s.latchCtx L) c.toNat with
      | some k => f k t
      | Option.none => none) 0)

/-- KENC (R303). -/
def execKenc (c : BitVec 4) (d a : Reg) (s : State) : Host.Outcome State Fault Refusal :=
  Ops.keyOp (.kenc c d a) c d 2 noKey s fun k t =>
    let x := fun (i : Nat) => (t.reg (a.toNat + i)).toNat
    k.kenc [x 0, x 1, x 2] (x 3)

/-- KDEC (R303). -/
def execKdec (c : BitVec 4) (d a : Reg) (s : State) : Host.Outcome State Fault Refusal :=
  Ops.keyOp (.kdec c d a) c d 4 (2 ^ 128 - 1) s fun k t =>
    let key := (t.pair a.toNat).toNat
    if k.keyOk key then
      let xs := k.coords key
      coordAt xs 0 + 2 ^ 32 * (coordAt xs 1 + 2 ^ 32 * (coordAt xs 2 + 2 ^ 32 * keyLevel key))
    else 2 ^ 128 - 1

/-- KPAR (R303). -/
def execKpar (c : BitVec 4) (d a : Reg) (s : State) : Host.Outcome State Fault Refusal :=
  Ops.keyOp (.kpar c d a) c d 2 noKey s fun k t => k.kpar (t.pair a.toNat).toNat

/-- KCHLD (R303). -/
def execKchld (c : BitVec 4) (j : BitVec 3) (d a : Reg) (s : State) : Host.Outcome State Fault Refusal :=
  Ops.keyOp (.kchld c j d a) c d 2 noKey s fun k t => k.kchld (t.pair a.toNat).toNat j.toNat

/-! ## Refine and coarsen (R304, R305) -/

/-- The records of a segment, by index. -/
def segRecs (l : List LeafRec) (d : Nat) : List LeafRec :=
  sortBy (fun (a b : LeafRec) => a.idx < b.idx) (l.filter fun r => r.seg == d)

/-- The writes that put records from an index of a segment on. -/
def putRecs (g : Seg) (from_ : Nat) (rs : List LeafRec) : List (Nat × Nat × Nat) :=
  ((rs.mapIdx fun i r => (i, r)).drop from_).flatMap fun x =>
    let a := g.lbase + 16 * x.1
    [(a, 8, x.2.bytes % 2 ^ 64), (a + 8, 8, x.2.bytes / 2 ^ 64)]

/-- The state with the counts of a segment changed. -/
def State.putSeg (s : State) (ctx n d : Nat) (f : Seg → Seg) : State :=
  s.updMesh ctx n fun m => { m with segs := match m.segs[d]? with | some g => m.segs.set d (f g) | none => m.segs }

/-- The 2^d child keys of a key. -/
def Curve.children (c : Curve) (k : Nat) : List Nat := (upTo (2 ^ c.d)).map (c.kchld k)

/-- Whether a list holds one value only. -/
def allSame (l : List Nat) : Bool := l.all fun x => x == l.getD 0 0

/-- KREF of a leaf (R305). -/
def State.refine (s : State) (o : Origin) (m : Mesh) (c : Curve) (l : List LeafRec) (r : LeafRec) : MeshRes :=
  let n := 2 ^ c.d
  match m.segs[r.seg]? with
  | none => .val 5 s
  | some g =>
    if g.scount < n - 1 then .val 3 s
    else if g.lcap < g.lcount + (n - 1) then .val 9 s
    else s.readStack o g.sbase (g.scount - (n - 1)) [] (fun top s =>
      if top.any fun x => m.nslots ≤ x then .val 7 s
      else
        let slots := r.slot :: top.reverse
        let kids := (upTo n).map fun i =>
          { r with key := c.kchld r.key i, slot := slots.getD i 0, mig := false, res := 0
                   cost := r.cost / n + (if i = 0 then r.cost % n else 0) }
        let recs := segRecs l r.seg
        let recs := recs.take r.idx ++ kids ++ recs.drop (r.idx + 1)
        s.curveWrites o (fun s => .val 0 (s.putSeg m.ctx m.num r.seg fun g =>
          { g with lcount := g.lcount + (n - 1), scount := g.scount - (n - 1) })) (putRecs g r.idx recs)) (n - 1)

/-- KCOARS of the children of a key (R305, R448). -/
def State.coarsen (s : State) (o : Origin) (m : Mesh) (c : Curve) (l : List LeafRec) (k : Nat) (kids : List LeafRec) : MeshRes :=
  let n := 2 ^ c.d
  match kids with
  | [] => .val 5 s
  | r :: rest =>
    match m.segs[r.seg]? with
    | none => .val 5 s
    | some g =>
      let cost := kids.foldl (fun x y => x + y.cost) 0
      let parent : LeafRec := { r with key := k, mig := false, res := 0, cost := Nat.min 65535 cost }
      let recs := segRecs l r.seg
      let recs := recs.take r.idx ++ parent :: recs.drop (r.idx + n)
      let pushes := rest.mapIdx fun i x => (g.sbase + 4 * (g.scount + i), 4, x.slot)
      s.curveWrites o (fun s => .val 0 (s.putSeg m.ctx m.num r.seg fun g =>
        { g with lcount := g.lcount - (n - 1), scount := g.scount + (n - 1) })) (pushes ++ putRecs g r.idx recs)

/-- KREF and KCOARS of one lane: the checks in their order (R304), then the change. REJECT for a malformed leaf record or stack entry (R64)
stands where the records and the entries are read: behind BADKEY, and behind FULL (assumption log 71). -/
def State.reshape (s : State) (up : Bool) (t : Thread) (n k : Nat) : MeshRes :=
  let o := s.originOf t
  match s.mesh? o.ctx n with
  | none => .val 6 s
  | some m =>
    match s.curve? o.ctx m.desc with
    | none => .val 6 s
    | some c =>
      if !c.keyOk k then .val 4 s
      else s.leaves o m c (fun s => .val 7 s) fun l s =>
        let kids := if up then (c.children k).filterMap (leafWithKey l) else (leafWithKey l k).toList
        if kids.length != (if up then 2 ^ c.d else 1) then .val 5 s
        else if kids.any (·.mig) then .mig ((kids.filter (·.mig)).map (·.key))
        else if s.meshBusy o.ctx n then .val 2 s
        else if (if up then keyLevel k < c.minlev else keyLevel k = c.maxlev) then .val 10 s
        else if !allSame ((k :: c.children k).map (m.rep (coreDie t.core)).owner) then .val 11 s
        else if c.bal && (if up then c.finerBy l k else c.coarserBy l k 0) then .val 1 s
        else match kids with
          | [] => .val 5 s
          | r :: _ => if up then s.coarsen o m c l k kids else s.refine o m c l r

/-- KREF (R304, R305). -/
def execKref (m : BitVec 3) (d a : Reg) (s : State) : Host.Outcome State Fault Refusal :=
  Ops.meshLanes (.kref m d a) d 1 m.toNat s fun _ t s => s.reshape false t m.toNat (t.pair a.toNat).toNat

/-- KCOARS (R304, R305). -/
def execKcoars (m : BitVec 3) (d a : Reg) (s : State) : Host.Outcome State Fault Refusal :=
  Ops.meshLanes (.kcoars m d a) d 1 m.toNat s fun _ t s => s.reshape true t m.toNat (t.pair a.toNat).toNat

/-! ## Lookups (R306 to R310) -/

/-- The eight words of a result group (Table 15-2). -/
def groupWords (key w2 slot w4 route oroute ver : Nat) : Nat :=
  key + 2 ^ 64 * (w2 + 2 ^ 32 * (slot + 2 ^ 32 * (w4 + 2 ^ 32 * (route + 2 ^ 32 * (oroute + 2 ^ 32 * ver)))))

/-- A result group without a result (R301): a status other than OK, BOUNDARY, or END. -/
def emptyGroup (w2 : Nat) : Nat := groupWords 0 w2 (2 ^ 32 - 1) 0 (2 ^ 32 - 1) (2 ^ 32 - 1) 0

/-- The result group of a status other than OK (R301). DESIGN CHOICE: rel, count, W and MOV, of which R301 says nothing there, are free (assumption
log 82). -/
def noGroup (st : Nat) : Nat := emptyGroup (st + 16 * (Config.emptyFields st % 2 ^ 12))

/-- The result group of a key (R301, R317). -/
def State.group (s : State) (t : Thread) (m : Mesh) (key slot rel count : Nat) (wrap : Bool) : Nat :=
  let rep := m.rep (coreDie t.core)
  let own := rep.owner key
  let old := rep.oldOwner key
  let mov := rep.moving key
  let old := if mov then old else own
  let route := fun (c : Nat) => (routeTo s.goneUnits t.core c).toNat
  groupWords key (16 * rel + (if mov then 64 else 0) + (if wrap then 128 else 0) + 256 * Nat.min count 255) slot
    (own + 2 ^ 16 * old) (route own) (route old) (rep.ver % 2 ^ 32)

/-- The slot word of no leaf (R306). -/
def noSlot : Nat := 2 ^ 32 - 1

/-- A lookup of one lane: the checks common to KNBR, KNEXT and KOWN (R300, R304). -/
def State.lookup (s : State) (t : Thread) (n k : Nat) (face : Option Nat)
    (f : Mesh → Curve → List LeafRec → State → Nat) : MeshRes :=
  let o := s.originOf t
  match s.mesh? o.ctx n with
  | none => .val (noGroup 6) s
  | some m =>
    match s.curve? o.ctx m.desc with
    | none => .val (noGroup 6) s
    | some c =>
      if !c.keyOk k || (match face with | some g => !c.hasFace g | none => false) then .val (noGroup 4) s
      else s.leaves o m c (fun s => .val (noGroup 7) s) fun l s => .val (f m c l s) s

/-- The number of a face (R302). -/
def Face.num : Face → Nat
  | .xm => 0 | .xp => 1 | .ym => 2 | .yp => 3 | .zm => 4 | .zp => 5

/-- KNBR (R306). -/
def execKnbr (f : Face) (m : BitVec 3) (d a : Reg) (s : State) : Host.Outcome State Fault Refusal :=
  Ops.meshLanes (.knbr f m d a) d 8 m.toNat s fun _ t s =>
    let k := (t.pair a.toNat).toNat
    s.lookup t m.toNat k (some (Face.num f)) fun m c l s =>
      match c.across k (Face.num f) with
      | none => emptyGroup (16 * 3)
      | some (n, wrap) =>
        match c.leafOver l n with
        | some r => s.group t m r.key r.slot (if keyLevel r.key = keyLevel k then 0 else 1) 1 wrap
        | none => s.group t m n noSlot 2 (c.onFace l n (opposite (Face.num f))).length wrap

/-- KNEXT (R307). -/
def execKnext (f : Face) (m : BitVec 3) (d a : Reg) (s : State) : Host.Outcome State Fault Refusal :=
  Ops.meshLanes (.knext f m d a) d 8 m.toNat s fun _ t s =>
    let k := (t.pair a.toNat).toNat
    let i := (t.reg (a.toNat + 2)).toNat
    s.lookup t m.toNat k (some (Face.num f)) fun m c l s =>
      let on := match c.leafOver l k with
        | some r => [r]
        | none => c.onFace l k (opposite (Face.num f))
      match on[i]? with
      | some r => s.group t m r.key r.slot 2 on.length false
      | none => noGroup 8

/-- KOWN (R308). -/
def execKown (m : BitVec 3) (d a : Reg) (s : State) : Host.Outcome State Fault Refusal :=
  Ops.meshLanes (.kown m d a) d 8 m.toNat s fun _ t s =>
    let k := (t.pair a.toNat).toNat
    s.lookup t m.toNat k none fun m _ l s =>
      s.group t m k (match leafWithKey l k with | some r => r.slot | none => noSlot) 0 1 false

/-- An amount added to the cost of the leaf over a cell, with saturation (R70, R310); for a retire of the leaf with exactly that key, whatever the
other records hold (R419 step 4). -/
def State.addCost (s : State) (o : Origin) (n k amt : Nat) (exact : Bool) : MeshRes :=
  match s.mesh? o.ctx n with
  | none => .val 0 s
  | some m =>
    match s.curve? o.ctx m.desc with
    | none => .val 0 s
    | some c =>
      if !c.keyOk k then .val 0 s
      else
        let read := fun (k : List LeafRec → State → MeshRes) =>
          if exact then s.readSegs o 0 [] (fun l s => k (sortLeaves (l.filter fun r => r.ok c m.nslots)) s) m.segs
          else s.leaves o m c (fun s => .val 0 s) k
        read fun l s =>
        match (if exact then leafWithKey l k else c.leafOver l k), m.segs with
        | some r, gs =>
          (match gs[r.seg]? with
           | some g => s.curveWrites o (fun s => .val 0 s) [(g.lbase + 16 * r.idx + 14, 2, Nat.min 65535 (r.cost + amt))]
           | none => .val 0 s)
        | none, _ => .val 0 s

/-- KCOST (R310). -/
def execKcost (m : BitVec 3) (d a : Reg) (s : State) : Host.Outcome State Fault Refusal :=
  Ops.meshLanes (.kcost m d a) d 0 m.toNat s fun _ t s =>
    s.addCost (s.originOf t) m.toNat (t.pair a.toNat).toNat (Nat.min (t.num d) 65535) false

/-- KCUTQ (R309): the issuing die's replica. -/
def execKcutq (m : BitVec 3) (d a : Reg) (s : State) : Host.Outcome State Fault Refusal :=
  Ops.instr (.kcutq m d a) s fun L s =>
    .done (s.results L fun t =>
      let j := t.num a
      t.result d.toNat 4 (match s.mesh? (s.ctxOf t) m.toNat with
        | none => 2 ^ 128 - 1
        | some x =>
          let r := x.rep (coreDie L.core)
          if j = 2 ^ 32 - 1 then
            r.ver % 2 ^ 32 + 2 ^ 32 * (r.cuts.length + 2 ^ 32 * ((if r.cuts.any (·.st) then 1 else 0) + 2 ^ 32 * r.left))
          else match r.cuts[j]? with
            | some c => c.bytes
            | none => 2 ^ 128 - 1) 0)

/-! ## Defining and releasing (R312) -/

/-- The state with a curve descriptor loaded (R56). -/
def State.putCurve (s : State) (c : Curve) : State :=
  s.updEng fun g => { g with curves := g.curves.filter (fun x => !(x.ctx == c.ctx && x.num == c.num)) ++ [c] }

/-- KMESH.curve (R56 to R59, R312). -/
def execKmeshCurve (n : BitVec 4) (d a : Reg) (s : State) : Host.Outcome State Fault Refusal :=
  Ops.meshOnce (.kmeshCurve n d a) d 1 0 s fun _ t s =>
    let o := s.originOf t
    let va := (t.pair a.toNat).toNat
    if va % 16 != 0 || s.eng.meshes.any (fun m => m.ctx == o.ctx && m.desc == n.toNat) then .val 7 s
    else s.recordRead o t va 2 fun h s =>
      let hdr := h % 2 ^ 64
      if !curveHeaderOk hdr (h / 2 ^ 64) then .val 7 s
      else
        let k := curveEntries hdr
        s.recordRead o t ((va + 16) % 2 ^ 64) (k / 4) fun v s =>
          let entries := (upTo k).map fun i => v / 2 ^ (16 * i) % 2 ^ 16
          if !curveTableOk hdr entries then .val 7 s
          else .val 0 (s.putCurve (Curve.ofRecord o.ctx n.toNat hdr entries))

/-- The segment of a descriptor's 32 bytes (Table 3-5). -/
def Seg.ofBytes (v : Nat) : Seg :=
  { lbase := v % 2 ^ 64, lcap := bitsOf v 95 64, lcount := bitsOf v 127 96, sbase := bitsOf v 191 128
    scap := bitsOf v 223 192, scount := bitsOf v 255 224 }

/-- The checks of a segment descriptor (R63, Table 3-5). -/
def Seg.ok (g : Seg) (nslots : Nat) : Bool :=
  g.lbase % 16 == 0 && g.sbase % 4 == 0 && g.lcount ≤ g.lcap && g.scount ≤ g.scap && !(0 < g.lcap && g.scap < nslots)

/-- The slots that the stacks of every segment hold (R63). -/
def State.readStacks (s : State) (o : Origin) (acc : List Nat) (k : List Nat → State → MeshRes) : List Seg → MeshRes
  | [] => k acc s
  | g :: gs => s.readStack o g.sbase 0 acc (fun l s => s.readStacks o l k gs) g.scount

/-- The checks of the leaves and stacks at KMESH.def (R63). DESIGN CHOICE: a segment whose records do not stand in ascending curve order, which
Table 3-5 supposes and R63's list does not name, is accepted: the checks are made on the sorted leaves (assumption log 85). -/
def leavesOk (c : Curve) (t : CutTable) (nslots : Nat) (l : List LeafRec) (held : List Nat) : Bool :=
  let slots := l.map (·.slot) ++ held
  l.all (fun r => r.res == 0 && !r.mig && c.keyOk r.key && c.minlev ≤ keyLevel r.key && r.seg == t.owner r.key / 128)
  && c.tiles 0 (sortLeaves l) && slots.all (fun x => x < nslots) && slots.eraseDups.length == slots.length
  && (!c.bal || c.balanced l)

/-- KMESH.def (R61 to R63, R67, R312). A count outside its field's range in Tables 3-4 and 3-5 is refused too (assumption log 16). -/
def execKmeshDef (n : BitVec 3) (d a : Reg) (s : State) : Host.Outcome State Fault Refusal :=
  Ops.meshOnce (.kmeshDef n d a) d 1 n.toNat s fun _ t s =>
    let o := s.originOf t
    let va := (t.pair a.toNat).toNat
    if va % 64 != 0 || (s.mesh? o.ctx n.toNat).isSome then .val 7 s
    else s.recordRead o t va 8 fun v s =>
      let w := v % 2 ^ 64
      let cuts := bitsOf v 127 64
      let segs := bitsOf v 191 128
      let nslots := bitsOf v 223 192
      let ncut := bitsOf w 26 16
      match s.curve? o.ctx (w % 16) with
      | none => .val 7 s
      | some c =>
        if v / 2 ^ 224 != 0 || w / 2 ^ 27 != 0 || bitsOf w 15 4 != 0 || ncut = 0 || 1024 < ncut || nslots = 0
            || cuts % 16 != 0 || segs % 8 != 0 then .val 7 s
        else s.recordRead o t segs 16 fun sv s =>
          let gs := (upTo 4).map fun i => Seg.ofBytes (sv / 2 ^ (256 * i) % 2 ^ 256)
          if !gs.all (fun g => g.ok nslots) then .val 7 s
          else s.recordRead o t cuts (2 * ncut) fun cv s =>
            let recs := (upTo ncut).map fun i => cv / 2 ^ (128 * i) % 2 ^ 128
            if recs.getD 0 0 % 2 ^ 64 != 0 || !cutsOk c gs 0 recs then .val 7 s
            else
              let t : CutTable := { cuts := recs.map fun r => { key := r % 2 ^ 64, own := bitsOf r 72 64 } }
              s.readSegs o 0 [] (fun l s => s.readStacks o [] (fun held s =>
                if !leavesOk c t nslots l held then .val 7 s
                else .val 0 (s.updEng fun g => { g with meshes := g.meshes ++
                  [{ ctx := o.ctx, num := n.toNat, cutsVa := cuts, segsVa := segs, nslots := nslots, desc := w % 16
                     segs := gs, table := t, reps := List.replicate 4 t }] })) gs) gs

/-- Whether a lens entry that is not empty names a mesh (R61); an entry that is still loading, or a LENSLD that waits for it, counts
(assumption log 70). -/
def State.lensNames (s : State) (ctx n : Nat) : Bool :=
  let names := fun (ws : List Word) => let l := Lens.ofWords ws; l.order == 2 && l.mesh == n
  match s.ctx? ctx with
  | none => false
  | some c => c.lenses.any fun e =>
      (e.state != .empty && names e.snap) || e.queue.any fun w => match w.snap with | some ws => names ws | none => false

/-- The writes of a release into the records given at definition (R312). -/
def Mesh.image (m : Mesh) : List (Nat × Nat × Nat) :=
  (m.segs.mapIdx fun i g => [(m.segsVa + 32 * i + 12, 4, g.lcount), (m.segsVa + 32 * i + 28, 4, g.scount)]).flatten ++
    (m.table.cuts.mapIdx fun i c => [(m.cutsVa + 16 * i, 8, c.key), (m.cutsVa + 16 * i + 8, 8, c.own)]).flatten

/-- KMESH.rel (R61, R312). -/
def execKmeshRel (n : BitVec 3) (d : Reg) (s : State) : Host.Outcome State Fault Refusal :=
  Ops.meshOnce (.kmeshRel n d) d 1 n.toNat s fun _ t s =>
    let o := s.originOf t
    match s.mesh? o.ctx n.toNat with
    | none => .val 6 s
    | some m =>
      if s.lensNames o.ctx n.toNat || m.flying || s.nodeBusy o.ctx n.toNat then .val 2 s
      else s.recordWrites o t (fun s => .val 0 (s.updEng fun g =>
        { g with meshes := g.meshes.filter fun x => !(x.ctx == o.ctx && x.num == n.toNat) })) m.image

end Sys2Proof.Machine
end

