-- ==== Sys2Proof/Machine/MeshSteps.lean ====
section
/-! DEFINITION. Rebalancing (15 R313 to R316, 27 R451, R452): KREBAL, the messages to the replicas, the switches of migrating
leaves, and the mirror windows that they open and end (18 R361, R362). -/

namespace Sys2Proof.Machine

open Sys2Proof

/-! ## Replicas (R69, R314) -/

/-- A switch message to every die: the cut table as it now stands. -/
def State.sendTable (s : State) (ctx n : Nat) : State :=
  s.updMesh ctx n fun m => { m with msgs := m.msgs ++ (upTo 4).map fun d => (d, m.table) }

/-- Whether every replica has the latest version and every window asked for has begun (R314, R451). -/
def State.rebalDone (s : State) (m : Mesh) : Bool :=
  m.reps.all (fun r => r.ver == m.table.ver) && !s.dev.starts.any fun x => x.ctx == m.ctx && x.mesh == some m.num

/-- The threads parked in KREBAL receive OK and the version (R314). -/
def State.settleRebal (s : State) (ctx n : Nat) : State :=
  match s.mesh? ctx n with
  | none => s
  | some m =>
    if m.waiter.isEmpty || !s.rebalDone m then s
    else
      let s := m.waiter.foldl (fun s w => s.updThread w.1 w.2.1 fun t =>
        let t := t.answer w.2.2 0 (2 ^ 32 * (m.table.ver % 2 ^ 32)) 0
        if t.status = .parked (.rebal ctx n) then t.release else t) s
      s.updMesh ctx n fun m => { m with waiter := [] }

/-! ## Cuts and costs -/

/-- Cuts without a migrating leaf left become STABLE (R316). -/
def Mesh.settle (m : Mesh) : Mesh :=
  let cuts := m.table.cuts.mapIdx fun j c => if c.st && !m.migr.any (fun x => x.cut == j) then { c with st := false, old := 0 } else c
  { m with table := { m.table with cuts := cuts, left := m.migr.length } }

/-- The writes that set the cost of leaves to 0 (R316). -/
def zeroCosts (segs : List Seg) (l : List LeafRec) : List (Nat × Nat × Nat) :=
  l.filterMap fun r => (segs[r.seg]?).map fun g => (g.lbase + 16 * r.idx + 14, 2, 0)

/-- Whether a KREBAL comes to its end (R316): no cut is MOVING in any replica, and its threads have their answer. -/
def Mesh.closable (m : Mesh) : Bool := m.inFlight && !m.table.cuts.any (·.st) && m.msgs.isEmpty && m.waiter.isEmpty

/-- The waiter of the accesses that end a KREBAL: a key that no leaf has. -/
def noLeaf : Nat := 2 ^ 64

/-- The end of a KREBAL (R316): its version is STABLE, the costs of the leaves as they now stand are cleared if that was asked for, and it is no
longer in flight, in one step. A fault of the accesses is a system access's, which is always made again (R89). -/
def State.closeRebal (s : State) (ctx n : Nat) : State :=
  match s.mesh? ctx n with
  | none => s
  | some m =>
    if !m.closable || s.held (.switch ctx n noLeaf) then s
    else
      let fin := fun (s : State) => s.updMesh ctx n fun m => { m with inFlight := false, clear := false }
      if !m.clear then fin s
      else
        let o : Origin := { core := 0, slot := none, ctx := ctx, priv := match s.ctx? ctx with | some c => c.priv | none => false }
        match s.readSegs o 0 [] (fun l s => s.curveWrites o (fun s => .val 0 (fin s)) (zeroCosts m.segs l)) m.segs with
        | .val _ s => s
        | .fault _ r va _ => s.engFault o [.switch ctx n noLeaf] 0 (2 ^ 32 - 1) 0 .system r va
        | .wait | .mig _ | .stop => s

/-- REPLICA_APPLY (R69): a die's replica applies the oldest message on its way to it. -/
def execReplicaApply (s : State) : Host.Outcome State Fault Refusal :=
  let d := s.arg.z
  .next (match s.mesh? s.arg.x s.arg.y with
    | none => s
    | some m =>
      let (before, rest) := splitFirst (fun (x : Nat × CutTable) => x.1 == d) m.msgs
      match rest with
      | [] => s
      | x :: rest =>
        ((s.updMesh m.ctx m.num fun m => { m with reps := m.reps.set d x.2, msgs := before ++ rest }).settleRebal m.ctx m.num).closeRebal m.ctx m.num)

/-! ## Block pages (R315) -/

/-- The bytes that the elements and the context words of a slot take under a lens (R315, R45): first and last. A slot at or past the lens's
extent has none (R44, R47). -/
def Lens.slotSpans (l : Lens) (slot : Nat) : List (Nat × Nat) :=
  let p0 := slot * l.strideK 1
  let p1 := p0 + l.extK 0 - 1
  let elems := if l.isQ4 || l.isLut then (l.base + p0 / 2, l.base + p1 / 2) else (l.elemAddr p0, l.elemAddr p1 + l.eb - 1)
  if l.extK 1 ≤ slot then [] else if l.ctx = 0 then [elems] else [elems, (l.ctxAddr p0, l.ctxAddr p1 + 3)]

/-- The lenses of a context that are curve-keyed over a mesh (R315). DESIGN CHOICE: an entry that is still loading counts, by the record that it holds
(assumption log 70). -/
def State.keyedLenses (s : State) (ctx n : Nat) : List Lens :=
  match s.ctx? ctx with
  | none => []
  | some c => (c.lenses.filterMap fun e =>
      if e.state == .empty then none else some (Lens.ofWords e.snap)).filter fun l => l.order == 2 && l.mesh == n

/-- The pages of a slot: each with its entry, its virtual address and its leaf (R315). A page without a valid entry is none. -/
def State.slotPages (s : State) (ctx : Nat) (ls : List Lens) (slot : Nat) : List (Nat × Nat × Leaf) :=
  let granules := ((ls.flatMap fun l => l.slotSpans slot).flatMap fun x =>
    (upTo (x.2 / 2 ^ 16 + 1 - x.1 / 2 ^ 16)).map fun i => x.1 / 2 ^ 16 + i).eraseDups
  granules.filterMap fun g =>
    (s.leafEntry ctx (g * 2 ^ 16)).bind fun x => (Leaf.ofEntry x.2.1 x.2.2).map fun l => (x.1, g * 2 ^ 16, l)

/-- The slots of a mesh's leaves as their records stand (R64); a record whose page has no valid entry is passed over. -/
def State.slotsOf (s : State) (m : Mesh) : List Nat × State :=
  (m.segs.flatMap fun g => (upTo g.lcount).map fun i => (g.lbase + 16 * i + 8) % 2 ^ 64).foldl (fun x va =>
    match (x.2.leafEntry m.ctx va).bind fun e => Leaf.ofEntry e.2.1 e.2.2 with
    | some l =>
      let (v, s) := x.2.readOrdered (l.key va) 4
      (x.1 ++ [v], s)
    | none => x) ([], s)

/-- The pages, by their first byte, on which a block of another mesh has data (R315). -/
def State.otherPages (s : State) (m : Mesh) : List Nat × State :=
  (s.eng.meshes.filter fun x => !(x.ctx == m.ctx && x.num == m.num)).foldl (fun x n =>
    let ls := x.2.keyedLenses n.ctx n.num
    if ls.isEmpty then x
    else
      let (slots, s) := x.2.slotsOf n
      (x.1 ++ slots.flatMap (fun k => (s.slotPages n.ctx ls k).map fun y => y.2.2.pa), s)) ([], s)

/-- The pages that enter a window (R315), each with one of its leaves: every block on them migrates to owners on one die, which is not their home.
`kept` are those with blocks of other meshes. -/
def windowPages (blocks : List (Nat × List (Nat × Nat × Leaf))) (kept : List Nat) (die : Nat → Option Nat) : List (Leaf × Nat) :=
  let all := blocks.flatMap fun b => b.2.map fun x => x.2.2
  (((all.map fun l => l.pa).eraseDups).filter fun pa => !kept.contains pa).filterMap fun pa =>
    let dies := ((blocks.filter fun b => b.2.any fun x => x.2.2.pa == pa).map fun b => die b.1).eraseDups
    match all.find? (fun l => l.pa == pa), dies with
    | some l, [some d] => if l.home ≤ 3 && l.home != d then some (l, d) else none
    | _, _ => none

/-- The window asked for on a page (R362): one of its virtual addresses, and the others through other entries. -/
def windowStart (ctx mesh : Nat) (pages : List (Nat × Nat × Leaf)) (l : Leaf) (d : Nat) : Option MirStart :=
  let mine := pages.filter fun x => x.2.2.pa == l.pa
  match mine with
  | [] => none
  | x :: rest => some { ctx := ctx, va := x.2.1, newHome := d, mesh := some mesh
                        also := ((rest.filter fun y => y.1 != x.1).map fun y => y.2.1).eraseDups }

/-! ## KREBAL (R313, R314) -/

/-- The lowest-numbered moved cut whose old and new sort values bracket a key (R314). -/
def cutFor (cuts : List Cut) (k : Nat) : Nat := (cuts.takeWhile fun c => !(c.st && c.brackets k)).length

/-- The cut table of version v + 1 (R314). -/
def CutTable.move (t : CutTable) (keys : List Nat) : CutTable :=
  { t with
    ver := t.ver + 1
    cuts := (t.cuts.zip keys).map fun x =>
      if x.1.key = x.2 then x.1
      else { x.1 with key := x.2, ver := (t.ver + 1) % 2 ^ 32, st := true, old := t.owner x.2, oldKey := x.1.key } }

/-- The leaves that each segment would hold (R314). -/
def segCounts (t : CutTable) (l : List LeafRec) (d : Nat) : Nat := (l.filter fun r => t.owner r.key / 128 == d).length

/-- The mark of an answer that installs a version: the thread then waits for the replicas. -/
def installed : Nat := 2 ^ 64

/-- The install of new keys (R314): the table, the MIG bits, the windows and the switch messages. -/
def State.install (s : State) (o : Origin) (m : Mesh) (l : List LeafRec) (t : CutTable) (clear : Bool) : MeshRes :=
  let moving := l.filter fun r => t.owner r.key != m.table.owner r.key
  let ls := s.keyedLenses m.ctx m.num
  let blocks := l.map fun r => (r.slot, s.slotPages m.ctx ls r.slot)
  let die := fun (slot : Nat) => (moving.find? fun r => r.slot == slot).map fun r => t.owner r.key / 128
  let (kept, s) := s.otherPages m
  let pages := windowPages blocks kept die
  let starts := pages.filterMap fun x => windowStart m.ctx m.num (blocks.flatMap (·.2)) x.1 x.2
  let migr := moving.map fun r =>
    ({ key := r.key, from_ := m.table.owner r.key, cut := cutFor t.cuts r.key, slot := r.slot
       pages := match blocks.find? fun b => b.1 == r.slot with
         | some b => ((b.2.map fun x => x.2.2.pa).filter fun pa => pages.any fun x => x.1.pa == pa).eraseDups
         | none => [] } : Migrant)
  let marks := moving.filterMap fun r => (m.segs[r.seg]?).map fun g => (g.lbase + 16 * r.idx + 12, 1, 1)
  s.curveWrites o (fun s =>
    let s := s.updDev fun d => { d with starts := d.starts ++ starts }
    let s := s.updMesh m.ctx m.num fun x =>
      { x with table := { t with left := migr.length }, inFlight := true, clear := clear, migr := migr }
    let s := s.sendTable m.ctx m.num
    let s := (s.updMesh m.ctx m.num Mesh.settle).sendTable m.ctx m.num
    .val (installed + 2 ^ 32 * (t.ver % 2 ^ 32)) s) marks

/-- KREBAL for its lowest executing lane (R313, R314). -/
def State.rebalance (s : State) (t : Thread) (n va : Nat) (clear : Bool) : MeshRes :=
  let o := s.originOf t
  s.recordRead o t (va / 8 * 8) 16 fun mask s =>
    match s.mesh? o.ctx n with
    | none => .val 6 s
    | some m =>
      match s.curve? o.ctx m.desc with
      | none => .val 6 s
      | some c =>
        let ver := 2 ^ 32 * ((m.rep (coreDie t.core)).ver % 2 ^ 32)
        if m.flying then .val (ver + 2) s
        else if mask % 2 != 0 || mask / 2 ^ m.table.cuts.length != 0 then .val (ver + 12) s
        else s.leaves o m c (fun s => .val (ver + 7) s) fun l s =>
          match newKeys l (m.table.cuts.mapIdx fun j c => (c.key, mask.testBit j)) with
          | none => .val (ver + 13) s
          | some keys =>
            if keys == m.table.cuts.map (·.key) then .val ver s
            else
              let new := m.table.move keys
              if (m.segs.mapIdx fun d g => decide (g.lcap < segCounts new l d)).any id then .val (ver + 9) s
              else s.install o m l new clear

/-- KREBAL (R313, R314): after an install its threads park until the replicas have it. -/
def execKrebal (clr : Bool) (m : BitVec 3) (d a : Reg) (s : State) : Host.Outcome State Fault Refusal :=
  Ops.instr (.krebal clr m d a) s fun L s =>
    match s.lowest L with
    | none => .done s
    | some t =>
      let ctx := s.ctxOf t
      match s.rebalance t m.toNat (t.pair a.toNat).toNat clr with
      | .val v s' =>
        if v < installed then .done (s.meshEnd L (s.lanes L) d 2 m.toNat (.val v s'))
        else .done (((s.lanes L).foldl (fun s t =>
          let (id, s) := s.newId
          let s := s.updThread L.core t.slot fun t =>
            { t.addPending { id := id, parts := 1, dests := t.rowsFrom d.toNat 2 } with status := .parked (.rebal ctx m.toNat) }
          s.updMesh ctx m.toNat fun m => { m with waiter := m.waiter ++ [(L.core, t.slot, id)] }) s').settleRebal ctx m.toNat)
      | .fault k r va s' => .done (s.meshEnd L (s.lanes L) d 2 m.toNat (.fault k r va s'))
      | .wait => .done (s.meshEnd L (s.lanes L) d 2 m.toNat .wait)
      | .mig ks => .done (s.meshEnd L (s.lanes L) d 2 m.toNat (.mig ks))
      | .stop => .done (s.meshEnd L (s.lanes L) d 2 m.toNat .stop)

/-! ## The switch of a migrating leaf (R316, R452) -/

/-- The mesh that a task's node is over; none for a task of a linear node. -/
def State.taskMesh (s : State) (t : Task) : Option Nat :=
  match (s.ctx? t.ctx).bind fun c => c.pours.find? fun p => p.id == t.pour with
  | some p => (p.nodes[t.node]?).bind fun n => if n.sp then some n.mesh else none
  | none => none

/-- The pin count of a migrating leaf (R316): tasks on the core that owned it before the move. -/
def State.pinCount (s : State) (m : Mesh) (x : Migrant) : Nat :=
  (s.tasks.filter fun t => t.pinned && t.ctx == m.ctx && t.key == x.key && t.core == x.from_
    && s.taskMesh t == some m.num).length

/-- The windows on which a migrating leaf is the last, ended; none while one of them cannot end yet: it has not begun, its copy
is not complete, or its entry is pinned (R316, R361). -/
def State.endWindows (s : State) (m : Mesh) (k : Nat) : List Nat → Option State
  | [] => some s
  | pa :: rest =>
    if m.migr.any fun x => x.key != k && x.pages.contains pa then s.endWindows m k rest
    else if s.dev.starts.any fun x => x.ctx == m.ctx && x.mesh == some m.num && !(s.windowEntries id x.ctx pa [x.va]).isEmpty then none
    else match s.mirror? pa with
      | none => s.endWindows m k rest
      | some r =>
        if r.phase != .copy then none
        else match s.endWindow r with
          | some s => s.endWindows m k rest
          | none => none

/-- The writes that switch a leaf's record (R316, R452): in its segment its MIG bit is cleared; to another segment it moves in
curve order, the gap is closed and the source's former last record is zeroed. -/
def switchWrites (m : Mesh) (l : List LeafRec) (r : LeafRec) (dst : Nat) : List (Nat × Nat × Nat) :=
  match m.segs[r.seg]?, m.segs[dst]? with
  | some g, some h =>
    if r.seg = dst then [(g.lbase + 16 * r.idx + 12, 1, 2 * r.res)]
    else
      let src := (segRecs l r.seg).filter fun x => x.idx != r.idx
      let tgt := segRecs l dst
      let i := (tgt.takeWhile fun x => sortValue x.key < sortValue r.key).length
      let last := g.lbase + 16 * (g.lcount - 1)
      putRecs h i (tgt.take i ++ { r with mig := false } :: tgt.drop i) ++ putRecs g r.idx src ++ [(last, 8, 0), (last + 8, 8, 0)]
  | _, _ => []

/-- The mesh after a leaf's switch: counts, migrants, cuts. -/
def Mesh.switched (m : Mesh) (k src dst : Nat) : Mesh :=
  let bump := fun (l : List Seg) (d : Nat) (f : Nat → Nat) =>
    match l[d]? with
    | some g => l.set d { g with lcount := f g.lcount }
    | none => l
  let segs := if src = dst then m.segs else bump (bump m.segs src (· - 1)) dst (· + 1)
  Mesh.settle { m with segs := segs, migr := m.migr.filter fun x => x.key != k }

/-- Bytes at an address of a context as its tables and its memory now stand; none for a page without a valid entry. -/
def State.bytesNow (s : State) (ctx va n : Nat) : Option Nat :=
  (s.leafEntry ctx va).bind fun x => (Leaf.ofEntry x.2.1 x.2.2).map fun l => (s.readOrdered (l.key va) n).1

/-- Whether the record of some leaf with one of these keys has MIG set, as the records now stand (R64, R304). -/
def State.stillMig (s : State) (m : Mesh) (keys : List Nat) : Bool :=
  m.segs.any fun g => (upTo g.lcount).any fun i =>
    let va := (g.lbase + 16 * i) % 2 ^ 64
    match s.bytesNow m.ctx va 8, s.bytesNow m.ctx (va + 12) 1 with
    | some k, some b => keys.contains k && bitOf b 0
    | _, _ => false

/-- The threads parked in KREF or KCOARS whose leaves have MIG clear, whoever cleared it: they check again (R304). -/
def State.wakeMig (s : State) : State :=
  { s with threads := s.threads.map fun t =>
      match t.status with
      | .parked (.mig ctx n keys) =>
        let moving := match s.mesh? ctx n with | some m => s.stillMig m keys | none => false
        if moving then t else { t with status := .eligible }
      | .eligible | .parked _ | .stopped | .exited | .unused => t }

/-- The switch of a migrating leaf whose pin count is zero, as one step of the mesh order (R316). -/
def State.switchLeaf (s : State) (o : Origin) (m : Mesh) (x : Migrant) : MeshRes :=
  match s.endWindows m x.key x.pages with
  | none => .wait
  | some s => s.readSegs o 0 [] (fun l s =>
      let dst := m.table.owner x.key / 128
      let r? := l.find? fun r => r.key == x.key && r.slot == x.slot
      let src := match r? with | some r => r.seg | none => dst
      let writes := match r? with | some r => switchWrites m l r dst | none => []
      s.curveWrites o (fun s =>
        let s := (s.updMesh m.ctx m.num fun m => m.switched x.key src dst).sendTable m.ctx m.num
        .val 0 s.wakeMig) writes) m.segs

/-- LEAF_SWITCH (R316); for no migrating leaf, the end of the KREBAL. A fault of its accesses is a system access's, in the miss table of the old owner's die (R89). -/
def execLeafSwitch (s : State) : Host.Outcome State Fault Refusal :=
  let ctx := s.arg.x
  let n := s.arg.y
  let k := s.arg.z
  .next (match s.mesh? ctx n with
    | none => s
    | some m =>
      match m.migr.find? fun x => x.key == k with
      | none => s.closeRebal ctx n
      | some x =>
        if s.pinCount m x != 0 || s.held (.switch ctx n k) then s
        else
          let priv := match s.ctx? ctx with | some c => c.priv | none => false
          let o : Origin := { core := x.from_, slot := none, ctx := ctx, priv := priv }
          match s.switchLeaf o m x with
          | .val _ s => s
          | .fault _ r va _ => s.engFault o [.switch ctx n k] 0 (2 ^ 32 - 1) 0 .system r va
          | .wait | .mig _ | .stop => s)

/-! ## Mirror windows (18 R361, R362) -/

/-- MIRROR_ENTRY (R361, R362): a window asked for begins, unless its page is in a window or its home has no free record. A
page without a valid entry keeps its home. -/
def execMirrorEntry (s : State) : Host.Outcome State Fault Refusal :=
  .next (match s.dev.starts.find? fun x => x.ctx == s.arg.x && x.va == s.arg.y && x.newHome == s.arg.z with
    | none => s
    | some x =>
      let fin := fun (s : State) =>
        let s := s.updDev fun d => { d with starts := d.starts.erase x }
        match x.mesh with
        | some n => (s.settleRebal x.ctx n).closeRebal x.ctx n
        | none => s
      match s.leafEntry x.ctx x.va with
      | none => fin s
      | some (_, e, level) =>
        match Leaf.ofEntry e level with
        | none => fin s
        | some l =>
          let es := s.windowEntries id x.ctx l.pa (x.va :: x.also)
          if s.dev.mirrors.any fun r => r.page == l.pa then s
          else if l.home == x.newHome then fin s
          else if 16 ≤ (s.dev.mirrors.filter fun r => r.oldHome == l.home).length
              || es.any (fun y => s.mem.retry none y.1 8) then s
          else
            let s := (s.writeEntries x.newHome true es).dropPage l.pa l.size
            fin (s.updDev fun d => { d with mirrors := d.mirrors ++
              [{ page := l.pa, size := l.size, ctx := x.ctx, va := x.va, oldHome := l.home, newHome := x.newHome
                 phase := .entry, mesh := x.mesh, bias := x.bias, also := x.also }] }))

/-- MIRROR_SWITCH (R361, R362): once the copy is complete and the migrating blocks with data on the page have switched. -/
def execMirrorSwitch (s : State) : Host.Outcome State Fault Refusal :=
  .next (match s.mirror? s.arg.x with
    | none => s
    | some r =>
      let blocks := match r.mesh with
        | none => false
        | some n => s.eng.meshes.any fun m => m.ctx == r.ctx && m.num == n && m.migr.any fun x => x.pages.contains r.page
      if r.phase != .copy || blocks then s
      else match s.endWindow r with
        | some s => s
        | none => s)

end Sys2Proof.Machine
end

