-- ==== Sys2Proof/Machine/Cache.lean ====
section
/-! DEFINITION. Prefetch and the maintenance of caches (12 R235 to R237). -/

namespace Sys2Proof.Machine

open Sys2Proof

/-! ## Ranges -/

/-- The keys of a range of virtual addresses, page by page; pages that do not translate hold nothing (R235). None while a
table entry meets a retry. `n` bounds the pages. -/
def State.rangeKeys (s : State) (ctx lo hi : Nat) : Nat → Option (List KeyRun × State)
  | 0 => some ([], s)
  | n + 1 =>
    if hi ≤ lo then some ([], s)
    else match s.walk ctx lo with
      | (.ok l, s) =>
        let stop := Nat.min hi (lo / l.size * l.size + l.size)
        (s.rangeKeys ctx stop hi n).map fun x =>
          ({ lo := l.key lo, hi := l.key lo + (stop - lo), home := l.home } :: x.1, x.2)
      | (.retry, _) => none
      | (_, s) => s.rangeKeys ctx (lo / 2 ^ 16 * 2 ^ 16 + 2 ^ 16) hi n

/-- The range operation of one lane (R235, R236): its earlier accesses are performed first. It is performed at some later moment. None while an
access is held back. -/
def State.rangeLane (s : State) (op : RangeOp) (sc : Scope) (a b : Reg) (t : Thread) : Option State :=
  let lo := (t.pair a.toNat).toNat
  let n := (t.reg b.toNat).toNat
  match s.drainAll t.core t.slot with
  | none => none
  | some s =>
    (s.rangeKeys (s.ctxOf t) lo (lo + n) (n / 2 ^ 16 + 2)).map fun x =>
      let (id, s) := x.2.newId
      s.updMem fun m => { m with ranges := m.ranges ++
        [{ id := id, core := t.core, slot := t.slot, ctx := s.ctxOf t, op := op, scope := sc, va := lo, size := n, runs := x.1 }] }

/-- The range operations. -/
def Ops.range (i : Instr) (op : RangeOp) (sc : Scope) (a b : Reg) (s : State) : Host.Outcome State Fault Refusal :=
  Ops.instr i s fun L s => .done (s.eachLane L (s.lanes L) fun s t => s.rangeLane op sc a b t)

/-- CWB (R235). -/
def execCwb (sc : Scope) (a b : Reg) (s : State) : Host.Outcome State Fault Refusal := Ops.range (.cwb sc a b) .cwb sc a b s

/-- CINV (R235). -/
def execCinv (sc : Scope) (a b : Reg) (s : State) : Host.Outcome State Fault Refusal := Ops.range (.cinv sc a b) .cinv sc a b s

/-- CWBINV (R235). -/
def execCwbinv (sc : Scope) (a b : Reg) (s : State) : Host.Outcome State Fault Refusal :=
  Ops.range (.cwbinv sc a b) .cwbinv sc a b s

/-- ICINV (R235). -/
def execIcinv (sc : Scope) (a b : Reg) (s : State) : Host.Outcome State Fault Refusal :=
  Ops.range (.icinv sc a b) .icinv sc a b s

/-- The prefetch of one lane (R237); one that does not translate, or meets poison or a pin, is dropped. Level 1 fills the remote-data
cache of the caller's die; the home slice and the memory-side cache hold nothing that a program can tell from the home (R220). -/
def State.prefetch (s : State) (level va : Nat) (t : Thread) : State :=
  match s.walkFor (s.ctxOf t) va .read (s.privileged t) with
  | (.ok l, s) =>
    let key := l.key va
    if l.rtype = 3 || s.mem.retry (some t.core) key 1 || s.mem.poisoned (key / l.grain * l.grain) l.grain then s
    else if level = 0 then s.fillSi t.core l.grain key (s.mem.plainWord t.core l.home) true 0
    else if level = 1 && l.home != coreDie t.core then s.updMem fun m => m.fillRdc t.core l.home l.grain key
    else s
  | (_, s) => s

/-- PREF (R237). -/
def execPref (d a : Reg) (i : Imm) (s : State) : Host.Outcome State Fault Refusal :=
  Ops.instr (.pref d a i) s fun L s =>
    .done ((s.lanes L).foldl (fun s t => s.prefetch d.toNat (t.addr a i) t) s)

end Sys2Proof.Machine
end

