-- ==== Sys2Proof/Machine/Lanes.lean ====
section
/-! DEFINITION. The instructions of class 4 that act across the lanes of a tile (07 R144 to R147; 09 R184 to R187). -/

namespace Sys2Proof.Machine

open Sys2Proof

/-- Lanes of a tile (R144). -/
def State.tileSize (s : State) (L : Latch) : Nat :=
  match s.latchWarp L with
  | some w => 2 ^ (w.wpart + 1)
  | none => 32

/-- The executing threads of a thread's tile, in ascending lane order (R145). -/
def tileOf (size : Nat) (ts : List Thread) (t : Thread) : List Thread := ts.filter fun u => u.lane / size == t.lane / size

/-- A result computed from the executing threads of each thread's tile. -/
def Ops.tile (i : Instr) (s : State) (f : List Thread → Nat → Thread → Pending) : Host.Outcome State Fault Refusal :=
  Ops.instr i s fun L s =>
    let n := s.tileSize L
    let ts := s.lanes L
    .done (s.results L fun t => f (tileOf n ts t) n t)

/-- MATCH (R184, R146). -/
def execMatch (w : Bool) (d a : Reg) (s : State) : Host.Outcome State Fault Refusal :=
  Ops.tile (.match w d a) s fun us _ t =>
    t.result d.toNat 1 (laneMask (us.filter fun u => u.opnd w a.toNat == t.opnd w a.toNat)) 0

/-- VOTE (R184). -/
def execVote (v : VoteMode) (d a : Reg) (s : State) : Host.Outcome State Fault Refusal :=
  Ops.tile (.vote v d a) s fun us _ t =>
    let set := us.filter fun u => u.pred a.toNat
    match v with
    | .ballot => t.result d.toNat 1 (laneMask set) 0
    | .any => predResult d.toNat (!set.isEmpty) 0
    | .all => predResult d.toNat (set.length == us.length) 0
    | .uni => predResult d.toNat (set.isEmpty || set.length == us.length) 0

/-- The source lane of a shuffle (R185): `b` is the first lane of the tile, `n` its size. -/
def shflSource (m : ShflMode) (b n l sel : Nat) : Option Nat :=
  match m with
  | .idx => if n ≤ sel then none else some (b + sel)
  | .up => if l - b < sel then none else some (l - sel)
  | .down => if b + n ≤ l + sel then none else some (l + sel)
  | .xor => let j := Nat.xor l sel; if b ≤ j && j < b + n then some j else none

/-- SHFL (R185). -/
def execShfl (m : ShflMode) (d a b : Reg) (s : State) : Host.Outcome State Fault Refusal :=
  Ops.tile (.shfl m d a b) s fun us n t =>
    let src := match shflSource m (t.lane / n * n) n t.lane (t.num b) with
      | some j => us.find? fun (u : Thread) => u.lane == j
      | none => none
    t.result d.toNat 1 (match src with | some u => u.num a | none => t.num a) 0

/-- One operation of REDW and SCANW (R186). -/
def redOp (o : RedOp) (r : Rnd) (a b : Nat) : Fr :=
  match o with
  | .addI32 => plain (modW 32 (a + b))
  | .addF32 => Fp.add .f32 r a b
  | .minI32 => plain (minTy .i32 a b)
  | .maxI32 => plain (maxTy .i32 a b)
  | .minF32 => Fp.minMax .f32 false a b
  | .maxF32 => Fp.minMax .f32 true a b
  | .and => plain (Nat.land a b)
  | .or => plain (Nat.lor a b)

/-- One level of the pairwise tree: values or absent ones, combined two by two (R186). -/
def treeLevel (op : Nat → Nat → Fr) : List (Option Nat) → List (Option Nat) × BitVec 7
  | some a :: some b :: t =>
    let (l, fl) := treeLevel op t
    let (v, f) := op a b
    (some v :: l, f ||| fl)
  | some a :: none :: t => let (l, fl) := treeLevel op t; (some a :: l, fl)
  | none :: b :: t => let (l, fl) := treeLevel op t; (b :: l, fl)
  | [a] => ([a], 0)
  | [] => ([], 0)

/-- The tree of a tile of 2^k positions (R186). -/
def tree (op : Nat → Nat → Fr) : Nat → List (Option Nat) → Option Nat × BitVec 7
  | 0, l => (l.headD none, 0)
  | k + 1, l =>
    let (m, f) := treeLevel op l
    let (v, g) := tree op k m
    (v, f ||| g)

/-- The values of a tile by position, absent where no executing thread stands or the position lies above `top` (R186). -/
def tileValues (us : List Thread) (a : Reg) (b n top : Nat) : List (Option Nat) :=
  (upTo n).map fun i => if b + i ≤ top then (us.find? fun u => u.lane == b + i).map (·.num a) else none

/-- The rounding mode in force for a warp (R25). -/
def State.frmOf (s : State) : Rnd :=
  match s.issue with
  | some L => (match s.latchWarp L with | some w => rndOfFrm w.frm | none => .rne)
  | none => .rne

/-- REDW (R186). -/
def execRedw (o : RedOp) (d a : Reg) (s : State) : Host.Outcome State Fault Refusal :=
  let r := s.frmOf
  Ops.tile (.redw o d a) s fun us n t =>
    let (v, fl) := tree (redOp o r) (Nat.log2 n) (tileValues us a (t.lane / n * n) n (t.lane / n * n + n))
    t.result d.toNat 1 (match v with | some x => x | none => 0) fl

/-- SCANW (R186). -/
def execScanw (o : RedOp) (d a : Reg) (s : State) : Host.Outcome State Fault Refusal :=
  let r := s.frmOf
  Ops.tile (.scanw o d a) s fun us n t =>
    let (v, fl) := tree (redOp o r) (Nat.log2 n) (tileValues us a (t.lane / n * n) n t.lane)
    t.result d.toNat 1 (match v with | some x => x | none => 0) fl

/-- The new lanes of executing threads that take the positions of their tile in a new order (R147): thread slots and lanes. -/
def reorder (size : Nat) (ts : List Thread) (lt : Thread → Thread → Bool) : List (Nat × Nat) :=
  (upTo (32 / size)).flatMap fun i =>
    let us := ts.filter fun t => t.lane / size == i
    ((sortBy lt us).map (·.slot)).zip (us.map (·.lane))

/-- The lane of a thread after a reordering; its own where the reordering does not name it. -/
def newLane (pl : List (Nat × Nat)) (t : Thread) : Nat :=
  match pl.find? fun x => x.1 == t.slot with
  | some x => x.2
  | none => t.lane

/-- A mask whose bits of the threads `ts` move with them (R142). -/
def moveMask (ts : List Thread) (pl : List (Nat × Nat)) (m : Word) : Word :=
  BitVec.ofNat 32 (ts.foldl (fun n t => putBit n (newLane pl t) (m.toNat.testBit t.lane)) m.toNat)

/-- Threads moved to new lanes with their mask bits (R142, R147). DESIGN CHOICE: under a REP the new lanes hold from the next repeat on (assumption
log 84). -/
def State.moveLanes (s : State) (L : Latch) (pl : List (Nat × Nat)) : State :=
  let ts := s.lanes L
  (s.mapExec L fun t => { t with lane := newLane pl t }).updWarp L.core L.warp fun w =>
    { w with masks := w.masks.map (moveMask ts pl) }

/-- WSORT (R147, R187): each executing thread receives its new lane. -/
def execWsort (d a : Reg) (s : State) : Host.Outcome State Fault Refusal :=
  Ops.instr (.wsort d a) s fun L s =>
    let pl := reorder (s.tileSize L) (s.lanes L) fun (t u : Thread) => t.num a < u.num a
    .done ((s.moveLanes L pl).results L fun t => t.result d.toNat 1 t.lane 0)

/-- LCOMP (R147, R187): each executing lane receives the number of threads that went to the low positions of its tile. -/
def execLcomp (d a : Reg) (s : State) : Host.Outcome State Fault Refusal :=
  Ops.instr (.lcomp d a) s fun L s =>
    let n := s.tileSize L
    let ts := s.lanes L
    let pl := reorder n ts fun (t u : Thread) => t.pred a.toNat && !u.pred a.toNat
    let count := fun (t : Thread) => ((tileOf n ts t).filter fun u => u.pred a.toNat).length
    .done ((s.results L fun t => t.result d.toNat 1 (count t) 0).moveLanes L pl)

end Sys2Proof.Machine
end

