-- ==== Sys2Proof/Machine/Float.lean ====
section
/-! DEFINITION. The meanings of class 5: FP32, FP16 and BF16 arithmetic (10 R191, R194 to R202). -/

namespace Sys2Proof.Machine

open Sys2Proof

/-- The low bits of a register that a format reads (R191). -/
def Thread.lowNum (t : Thread) (f : Fmt) (r : Reg) : Nat := t.num r % 2 ^ f.width

/-- A form of one exactly rounded result, in the mode held in frm (R194, R26): `g` takes the mode and the thread. -/
def Ops.rounded (i : Instr) (d : Reg) (n : Nat) (s : State) (g : Rnd → Thread → Fr) : Host.Outcome State Fault Refusal :=
  let r := s.frmOf
  Ops.alu i d n s (g r)

/-- An approximate function (R200): where the enclosure does not decide the result it is a free value (assumption log 6). -/
def Ops.approx (i : Instr) (d a : Reg) (s : State) (f : Nat → Ap) : Host.Outcome State Fault Refusal :=
  Ops.instr i s fun L s =>
    .done ((s.lanes L).foldl (fun s t =>
      let (v, fl) := f (t.num a)
      match v with
      | some n => s.updThread L.core t.slot fun t => t.addPending (t.result d.toNat 1 n fl)
      | none =>
        let (w, s) := s.free
        s.updThread L.core t.slot fun t => t.addPending (t.result d.toNat 1 (w.toNat % 2 ^ 32) fl)) s)

/-- FNEG on a bit pattern (R196). -/
def flipSign (f : Fmt) (n : Nat) : Nat := if n.testBit (f.width - 1) then n - 2 ^ (f.width - 1) else n + 2 ^ (f.width - 1)
/-- FABS on a bit pattern (R196). -/
def clearSign (f : Fmt) (n : Nat) : Nat := n % 2 ^ (f.width - 1)

/-- HFMA2 on two registers (R201). -/
def hfma2 (f : Fmt) (r : Rnd) (d a b : Nat) : Fr :=
  let half := fun (n h : Nat) => n / 2 ^ (16 * h) % 2 ^ 16
  let lo := Fp.fma f r (half a 0) (half b 0) (half d 0)
  let hi := Fp.fma f r (half a 1) (half b 1) (half d 1)
  (lo.1 + 2 ^ 16 * hi.1, lo.2 ||| hi.2)

/-- The packed type of HFMA2 (R201). -/
def fmtA : FmtA → Fmt
  | .f16 => .f16
  | .bf16 => .bf16

/-- FADD.f32 (R194). -/
def execFaddF32 (d : Reg) (a : Reg) (b : Reg) (s : State) : Host.Outcome State Fault Refusal :=
  Ops.rounded (.faddF32 d a b) d 1 s fun r t => Fp.add .f32 r (t.lowNum .f32 a) (t.lowNum .f32 b)

/-- FADD.f16 (R194). -/
def execFaddF16 (d : Reg) (a : Reg) (b : Reg) (s : State) : Host.Outcome State Fault Refusal :=
  Ops.rounded (.faddF16 d a b) d 1 s fun r t => Fp.add .f16 r (t.lowNum .f16 a) (t.lowNum .f16 b)

/-- FADD.bf16 (R194). -/
def execFaddBf16 (d : Reg) (a : Reg) (b : Reg) (s : State) : Host.Outcome State Fault Refusal :=
  Ops.rounded (.faddBf16 d a b) d 1 s fun r t => Fp.add .bf16 r (t.lowNum .bf16 a) (t.lowNum .bf16 b)

/-- FSUB.f32 (R194). -/
def execFsubF32 (d : Reg) (a : Reg) (b : Reg) (s : State) : Host.Outcome State Fault Refusal :=
  Ops.rounded (.fsubF32 d a b) d 1 s fun r t => Fp.sub .f32 r (t.lowNum .f32 a) (t.lowNum .f32 b)

/-- FSUB.f16 (R194). -/
def execFsubF16 (d : Reg) (a : Reg) (b : Reg) (s : State) : Host.Outcome State Fault Refusal :=
  Ops.rounded (.fsubF16 d a b) d 1 s fun r t => Fp.sub .f16 r (t.lowNum .f16 a) (t.lowNum .f16 b)

/-- FSUB.bf16 (R194). -/
def execFsubBf16 (d : Reg) (a : Reg) (b : Reg) (s : State) : Host.Outcome State Fault Refusal :=
  Ops.rounded (.fsubBf16 d a b) d 1 s fun r t => Fp.sub .bf16 r (t.lowNum .bf16 a) (t.lowNum .bf16 b)

/-- FMUL.f32 (R194). -/
def execFmulF32 (d : Reg) (a : Reg) (b : Reg) (s : State) : Host.Outcome State Fault Refusal :=
  Ops.rounded (.fmulF32 d a b) d 1 s fun r t => Fp.mul .f32 r (t.lowNum .f32 a) (t.lowNum .f32 b)

/-- FMUL.f16 (R194). -/
def execFmulF16 (d : Reg) (a : Reg) (b : Reg) (s : State) : Host.Outcome State Fault Refusal :=
  Ops.rounded (.fmulF16 d a b) d 1 s fun r t => Fp.mul .f16 r (t.lowNum .f16 a) (t.lowNum .f16 b)

/-- FMUL.bf16 (R194). -/
def execFmulBf16 (d : Reg) (a : Reg) (b : Reg) (s : State) : Host.Outcome State Fault Refusal :=
  Ops.rounded (.fmulBf16 d a b) d 1 s fun r t => Fp.mul .bf16 r (t.lowNum .bf16 a) (t.lowNum .bf16 b)

/-- FFMA.f32 (R194): one rounding of a × b + d. -/
def execFfmaF32 (d : Reg) (a : Reg) (b : Reg) (s : State) : Host.Outcome State Fault Refusal :=
  Ops.rounded (.ffmaF32 d a b) d 1 s fun r t => Fp.fma .f32 r (t.lowNum .f32 a) (t.lowNum .f32 b) (t.lowNum .f32 d)

/-- FFMA.f16 (R194): one rounding of a × b + d. -/
def execFfmaF16 (d : Reg) (a : Reg) (b : Reg) (s : State) : Host.Outcome State Fault Refusal :=
  Ops.rounded (.ffmaF16 d a b) d 1 s fun r t => Fp.fma .f16 r (t.lowNum .f16 a) (t.lowNum .f16 b) (t.lowNum .f16 d)

/-- FFMA.bf16 (R194): one rounding of a × b + d. -/
def execFfmaBf16 (d : Reg) (a : Reg) (b : Reg) (s : State) : Host.Outcome State Fault Refusal :=
  Ops.rounded (.ffmaBf16 d a b) d 1 s fun r t => Fp.fma .bf16 r (t.lowNum .bf16 a) (t.lowNum .bf16 b) (t.lowNum .bf16 d)

/-- FMIN.f32 (R195). -/
def execFminF32 (d : Reg) (a : Reg) (b : Reg) (s : State) : Host.Outcome State Fault Refusal :=
  Ops.alu (.fminF32 d a b) d 1 s fun t => Fp.minMax .f32 false (t.lowNum .f32 a) (t.lowNum .f32 b)

/-- FMIN.f16 (R195). -/
def execFminF16 (d : Reg) (a : Reg) (b : Reg) (s : State) : Host.Outcome State Fault Refusal :=
  Ops.alu (.fminF16 d a b) d 1 s fun t => Fp.minMax .f16 false (t.lowNum .f16 a) (t.lowNum .f16 b)

/-- FMIN.bf16 (R195). -/
def execFminBf16 (d : Reg) (a : Reg) (b : Reg) (s : State) : Host.Outcome State Fault Refusal :=
  Ops.alu (.fminBf16 d a b) d 1 s fun t => Fp.minMax .bf16 false (t.lowNum .bf16 a) (t.lowNum .bf16 b)

/-- FMAX.f32 (R195). -/
def execFmaxF32 (d : Reg) (a : Reg) (b : Reg) (s : State) : Host.Outcome State Fault Refusal :=
  Ops.alu (.fmaxF32 d a b) d 1 s fun t => Fp.minMax .f32 true (t.lowNum .f32 a) (t.lowNum .f32 b)

/-- FMAX.f16 (R195). -/
def execFmaxF16 (d : Reg) (a : Reg) (b : Reg) (s : State) : Host.Outcome State Fault Refusal :=
  Ops.alu (.fmaxF16 d a b) d 1 s fun t => Fp.minMax .f16 true (t.lowNum .f16 a) (t.lowNum .f16 b)

/-- FMAX.bf16 (R195). -/
def execFmaxBf16 (d : Reg) (a : Reg) (b : Reg) (s : State) : Host.Outcome State Fault Refusal :=
  Ops.alu (.fmaxBf16 d a b) d 1 s fun t => Fp.minMax .bf16 true (t.lowNum .bf16 a) (t.lowNum .bf16 b)

/-- FNEG.f32 (R196). -/
def execFnegF32 (d : Reg) (a : Reg) (s : State) : Host.Outcome State Fault Refusal :=
  Ops.alu (.fnegF32 d a) d 1 s fun t => plain (flipSign .f32 (t.lowNum .f32 a))

/-- FNEG.f16 (R196). -/
def execFnegF16 (d : Reg) (a : Reg) (s : State) : Host.Outcome State Fault Refusal :=
  Ops.alu (.fnegF16 d a) d 1 s fun t => plain (flipSign .f16 (t.lowNum .f16 a))

/-- FNEG.bf16 (R196). -/
def execFnegBf16 (d : Reg) (a : Reg) (s : State) : Host.Outcome State Fault Refusal :=
  Ops.alu (.fnegBf16 d a) d 1 s fun t => plain (flipSign .bf16 (t.lowNum .bf16 a))

/-- FABS.f32 (R196). -/
def execFabsF32 (d : Reg) (a : Reg) (s : State) : Host.Outcome State Fault Refusal :=
  Ops.alu (.fabsF32 d a) d 1 s fun t => plain (clearSign .f32 (t.lowNum .f32 a))

/-- FABS.f16 (R196). -/
def execFabsF16 (d : Reg) (a : Reg) (s : State) : Host.Outcome State Fault Refusal :=
  Ops.alu (.fabsF16 d a) d 1 s fun t => plain (clearSign .f16 (t.lowNum .f16 a))

/-- FABS.bf16 (R196). -/
def execFabsBf16 (d : Reg) (a : Reg) (s : State) : Host.Outcome State Fault Refusal :=
  Ops.alu (.fabsBf16 d a) d 1 s fun t => plain (clearSign .bf16 (t.lowNum .bf16 a))

/-- FCMP.f32 (R197). -/
def execFcmp (c : FCond) (d : Reg) (a : Reg) (b : Reg) (s : State) : Host.Outcome State Fault Refusal :=
  Ops.test (.fcmp c d a b) d s fun t => Fp.cmp .f32 c (t.num a) (t.num b)

/-- FSEL (R196): lanes whose predicate is clear keep vD and have no result. -/
def execFsel (d : Reg) (a : Reg) (b : Reg) (s : State) : Host.Outcome State Fault Refusal :=
  Ops.instr (.fsel d a b) s fun L s => .done (s.mapExec L fun t =>
    if t.pred b.toNat then t.addPending (t.result d.toNat 1 (t.num a) 0) else t)

/-- FDIV.f32 (R194). -/
def execFdiv (d : Reg) (a : Reg) (b : Reg) (s : State) : Host.Outcome State Fault Refusal :=
  Ops.rounded (.fdiv d a b) d 1 s fun r t => Fp.div .f32 r (t.num a) (t.num b)

/-- FSQRT.f32 (R194). -/
def execFsqrt (d : Reg) (a : Reg) (s : State) : Host.Outcome State Fault Refusal :=
  Ops.rounded (.fsqrt d a) d 1 s fun r t => Fp.sqrt .f32 r (t.num a)

/-- FRCP (R200). -/
def execFrcp (d : Reg) (a : Reg) (s : State) : Host.Outcome State Fault Refusal :=
  Ops.approx (.frcp d a) d a s Fp.rcp

/-- FRSQ (R200). -/
def execFrsq (d : Reg) (a : Reg) (s : State) : Host.Outcome State Fault Refusal :=
  Ops.approx (.frsq d a) d a s Fp.rsq

/-- FEXP2 (R200). -/
def execFexp2 (d : Reg) (a : Reg) (s : State) : Host.Outcome State Fault Refusal :=
  Ops.approx (.fexp2 d a) d a s Fp.exp2

/-- FLOG2 (R200). -/
def execFlog2 (d : Reg) (a : Reg) (s : State) : Host.Outcome State Fault Refusal :=
  Ops.approx (.flog2 d a) d a s Fp.log2

/-- FSIN (R200). -/
def execFsin (d : Reg) (a : Reg) (s : State) : Host.Outcome State Fault Refusal :=
  Ops.approx (.fsin d a) d a s (Fp.sinCos false)

/-- FCOS (R200). -/
def execFcos (d : Reg) (a : Reg) (s : State) : Host.Outcome State Fault Refusal :=
  Ops.approx (.fcos d a) d a s (Fp.sinCos true)

/-- FTANH (R200). -/
def execFtanh (d : Reg) (a : Reg) (s : State) : Host.Outcome State Fault Refusal :=
  Ops.approx (.ftanh d a) d a s Fp.tanh

/-- FCLASS.f32 (R198). -/
def execFclass (d : Reg) (a : Reg) (s : State) : Host.Outcome State Fault Refusal :=
  Ops.alu (.fclass d a) d 1 s fun t => plain (Fp.classify .f32 (t.num a))

/-- FRND.f32.rne (R199). -/
def execFrndRne (d : Reg) (a : Reg) (s : State) : Host.Outcome State Fault Refusal :=
  Ops.alu (.frndRne d a) d 1 s fun t => Fp.integral .f32 .rne (t.num a)

/-- FRND.f32.rz (R199). -/
def execFrndRz (d : Reg) (a : Reg) (s : State) : Host.Outcome State Fault Refusal :=
  Ops.alu (.frndRz d a) d 1 s fun t => Fp.integral .f32 .rz (t.num a)

/-- FRND.f32.rd (R199). -/
def execFrndRd (d : Reg) (a : Reg) (s : State) : Host.Outcome State Fault Refusal :=
  Ops.alu (.frndRd d a) d 1 s fun t => Fp.integral .f32 .rd (t.num a)

/-- FRND.f32.ru (R199). -/
def execFrndRu (d : Reg) (a : Reg) (s : State) : Host.Outcome State Fault Refusal :=
  Ops.alu (.frndRu d a) d 1 s fun t => Fp.integral .f32 .ru (t.num a)

/-- FSCALE.f32 (R194). -/
def execFscale (d : Reg) (a : Reg) (b : Reg) (s : State) : Host.Outcome State Fault Refusal :=
  Ops.rounded (.fscale d a b) d 1 s fun r t => Fp.scale .f32 r (t.num a) (sintN 32 (t.num b))

/-- HFMA2 (R201). -/
def execHfma2 (ty : FmtA) (d : Reg) (a : Reg) (b : Reg) (s : State) : Host.Outcome State Fault Refusal :=
  Ops.rounded (.hfma2 ty d a b) d 1 s fun r t => hfma2 (fmtA ty) r (t.num d) (t.num a) (t.num b)

/-- DOT4.e4m3 (R202). -/
def execDot4E4m3 (d : Reg) (a : Reg) (b : Reg) (s : State) : Host.Outcome State Fault Refusal :=
  Ops.alu (.dot4E4m3 d a b) d 1 s fun t => Fp.dot4 .e4m3 (t.num d) (t.num a) (t.num b)

/-- DOT4.e5m2 (R202). -/
def execDot4E5m2 (d : Reg) (a : Reg) (b : Reg) (s : State) : Host.Outcome State Fault Refusal :=
  Ops.alu (.dot4E5m2 d a b) d 1 s fun t => Fp.dot4 .e5m2 (t.num d) (t.num a) (t.num b)

/-- DOT4.i8 (R202). -/
def execDot4I8 (d : Reg) (a : Reg) (b : Reg) (s : State) : Host.Outcome State Fault Refusal :=
  Ops.alu (.dot4I8 d a b) d 1 s fun t => plain (dot4I8 (t.num d) (t.num a) (t.num b))

end Sys2Proof.Machine
end

