-- ==== Sys2Proof/Machine/Convert.lean ====
section
/-! DEFINITION. The meanings of class 6: FP64 arithmetic, conversions, flags and random numbers (10 R194 to R199, R203 to
R211). -/

namespace Sys2Proof.Machine

open Sys2Proof

/-- FADD.f64 (R194). -/
def execFaddF64 (d : Reg) (a : Reg) (b : Reg) (s : State) : Host.Outcome State Fault Refusal :=
  Ops.rounded (.faddF64 d a b) d 2 s fun r t => Fp.add .f64 r (t.wide a) (t.wide b)

/-- FSUB.f64 (R194). -/
def execFsubF64 (d : Reg) (a : Reg) (b : Reg) (s : State) : Host.Outcome State Fault Refusal :=
  Ops.rounded (.fsubF64 d a b) d 2 s fun r t => Fp.sub .f64 r (t.wide a) (t.wide b)

/-- FMUL.f64 (R194). -/
def execFmulF64 (d : Reg) (a : Reg) (b : Reg) (s : State) : Host.Outcome State Fault Refusal :=
  Ops.rounded (.fmulF64 d a b) d 2 s fun r t => Fp.mul .f64 r (t.wide a) (t.wide b)

/-- FFMA.f64 (R194). -/
def execFfmaF64 (d : Reg) (a : Reg) (b : Reg) (s : State) : Host.Outcome State Fault Refusal :=
  Ops.rounded (.ffmaF64 d a b) d 2 s fun r t => Fp.fma .f64 r (t.wide a) (t.wide b) (t.wide d)

/-- FMIN.f64 (R195). -/
def execFminF64 (d : Reg) (a : Reg) (b : Reg) (s : State) : Host.Outcome State Fault Refusal :=
  Ops.alu (.fminF64 d a b) d 2 s fun t => Fp.minMax .f64 false (t.wide a) (t.wide b)

/-- FMAX.f64 (R195). -/
def execFmaxF64 (d : Reg) (a : Reg) (b : Reg) (s : State) : Host.Outcome State Fault Refusal :=
  Ops.alu (.fmaxF64 d a b) d 2 s fun t => Fp.minMax .f64 true (t.wide a) (t.wide b)

/-- FDIV.f64 (R194). -/
def execFdivF64 (d : Reg) (a : Reg) (b : Reg) (s : State) : Host.Outcome State Fault Refusal :=
  Ops.rounded (.fdivF64 d a b) d 2 s fun r t => Fp.div .f64 r (t.wide a) (t.wide b)

/-- FSQRT.f64 (R194). -/
def execFsqrtF64 (d : Reg) (a : Reg) (s : State) : Host.Outcome State Fault Refusal :=
  Ops.rounded (.fsqrtF64 d a) d 2 s fun r t => Fp.sqrt .f64 r (t.wide a)

/-- FCMP.f64 (R197). -/
def execFcmpF64 (c : FCond) (d : Reg) (a : Reg) (b : Reg) (s : State) : Host.Outcome State Fault Refusal :=
  Ops.test (.fcmpF64 c d a b) d s fun t => Fp.cmp .f64 c (t.wide a) (t.wide b)

/-- FRND.f64 (R199). -/
def execFrndF64 (r : FRnd) (d : Reg) (a : Reg) (s : State) : Host.Outcome State Fault Refusal :=
  Ops.alu (.frndF64 r d a) d 2 s fun t => Fp.integral .f64 (FRnd.rnd r) (t.wide a)

/-- FNEG.f64 (R196). -/
def execFnegF64 (d : Reg) (a : Reg) (s : State) : Host.Outcome State Fault Refusal :=
  Ops.alu (.fnegF64 d a) d 2 s fun t => plain (flipSign .f64 (t.wide a))

/-- FABS.f64 (R196). -/
def execFabsF64 (d : Reg) (a : Reg) (s : State) : Host.Outcome State Fault Refusal :=
  Ops.alu (.fabsF64 d a) d 2 s fun t => plain (clearSign .f64 (t.wide a))

/-- FCLASS.f64 (R198). -/
def execFclassF64 (d : Reg) (a : Reg) (s : State) : Host.Outcome State Fault Refusal :=
  Ops.alu (.fclassF64 d a) d 1 s fun t => plain (Fp.classify .f64 (t.wide a))

/-- FSCALE.f64 (R194). -/
def execFscaleF64 (d : Reg) (a : Reg) (b : Reg) (s : State) : Host.Outcome State Fault Refusal :=
  Ops.rounded (.fscaleF64 d a b) d 2 s fun r t => Fp.scale .f64 r (t.wide a) (sintN 32 (t.num b))

/-- CVTQ.dec (R207). -/
def execCvtqDec (d : Reg) (a : Reg) (b : Reg) (s : State) : Host.Outcome State Fault Refusal :=
  Ops.alu (.cvtqDec d a b) d 1 s fun t => Fp.cvtqDec (t.num a) (t.num b)

/-- CVTQ.enc (R208). -/
def execCvtqEnc (d : Reg) (a : Reg) (b : Reg) (s : State) : Host.Outcome State Fault Refusal :=
  Ops.alu (.cvtqEnc d a b) d 1 s fun t => Fp.cvtqEnc (t.num a) (t.num b)

/-- The number format of a CVTX type (R205). -/
def xNum : XTy → NumTy
  | .f16 => .f16 | .bf16 => .bf16 | .e4m3 => .e4m3 | .e5m2 => .e5m2

/-- The bits of an element of a CVTX type (R205). -/
def xBits : XTy → Nat
  | .f16 | .bf16 => 16
  | .e4m3 | .e5m2 => 8

/-- A register with element `n` of `w` bits replaced (R206). -/
def insertElem (w n old v : Nat) : Nat :=
  old - (old / 2 ^ (w * n) % 2 ^ w) * 2 ^ (w * n) + (v % 2 ^ w) * 2 ^ (w * n)

/-- CVTX.ins (R206). -/
def execCvtxIns (y : XTy) (n : BitVec 2) (r : RndSel) (d : Reg) (a : Reg) (s : State) : Host.Outcome State Fault Refusal :=
  Ops.rounded (.cvtxIns y n r d a) d 1 s fun rm t =>
    let mode := match r with | .dyn => rm | .rne => .rne | .rz => .rz | .rd => .rd | .ru => .ru | .rna => .rna
    let (v, fl) := Fp.cvt false (xNum y) .f32 mode (t.num a)
    (insertElem (xBits y) n.toNat (t.num d) v, fl)

/-- CVTX.ext (R206). -/
def execCvtxExt (y : XTy) (n : BitVec 2) (d : Reg) (a : Reg) (s : State) : Host.Outcome State Fault Refusal :=
  Ops.alu (.cvtxExt y n d a) d 1 s fun t =>
    Fp.cvt false .f32 (xNum y) .rne (t.num a / 2 ^ (xBits y * n.toNat) % 2 ^ xBits y)

/-- FLAGR (R209): fsr as it stands at issue. -/
def execFlagr (d : Reg) (s : State) : Host.Outcome State Fault Refusal :=
  Ops.instr (.flagr d) s fun L s =>
    let v := match s.latchWarp L with | some w => w.fsr.toNat | none => 0
    .done (s.results L fun t => t.result d.toNat 1 v 0)

/-- FLAGC (R209): at issue, the bits of the lowest executing lane's vA are cleared. -/
def execFlagc (a : Reg) (s : State) : Host.Outcome State Fault Refusal :=
  Ops.instr (.flagc a) s fun L s =>
    let m := match s.lowest L with | some t => (t.reg a.toNat).setWidth 7 | none => 0
    .done (s.updWarp L.core L.warp fun w => { w with fsr := w.fsr &&& ~~~m ||| w.posted })

/-- One step of the generator: its output and its next state, words s0 to s3, s0 lowest (R210). -/
def rngStep (g : BitVec 128) : Word × BitVec 128 :=
  let w := fun (i : Nat) => ((g >>> (32 * i)).setWidth 32 : Word)
  let out := (w 1 * 5).rotateLeft 7 * 9
  let t := w 1 <<< 9
  let s2 := w 2 ^^^ w 0
  let s3 := w 3 ^^^ w 1
  let s1 := w 1 ^^^ s2
  let s0 := w 0 ^^^ s3
  let s2 := s2 ^^^ t
  let s3 := s3.rotateLeft 11
  (out, (s3.setWidth 128 <<< 96) ||| (s2.setWidth 128 <<< 64) ||| (s1.setWidth 128 <<< 32) ||| s0.setWidth 128)

/-- RNG (R210): the state is read and written at issue. -/
def execRng (d : Reg) (s : State) : Host.Outcome State Fault Refusal :=
  Ops.instr (.rng d) s fun L s => .done (s.mapExec L fun t =>
    let (out, g) := rngStep t.rng
    { t.addPending (t.result d.toNat 1 out.toNat 0) with rng := g })

/-- sm of R211: the advanced x and its output. -/
def seedMix (x : BitVec 64) : BitVec 64 × BitVec 64 :=
  let x := x + 0x9E3779B97F4A7C15
  let z := (x ^^^ (x >>> 30)) * 0xBF58476D1CE4E5B9
  let z := (z ^^^ (z >>> 27)) * 0x94D049BB133111EB
  (x, z ^^^ (z >>> 31))

/-- The state that a seed and a stream number give (R211). -/
def seedState (seed : BitVec 64) (stream : Word) : BitVec 128 :=
  let x := seed ^^^ (stream.setWidth 64 * 0xD1B54A32D192ED03)
  let (x, g) := seedMix x
  let (_, h) := seedMix x
  let n := (h.setWidth 128 <<< 64) ||| g.setWidth 128
  if n = 0 then 1 else n

/-- RNGSEED (R211): it sets the state at issue, as RNG reads it there. -/
def execRngseed (a b : Reg) (s : State) : Host.Outcome State Fault Refusal :=
  Ops.instr (.rngseed a b) s fun L s => .done (s.mapExec L fun t =>
    { t with rng := seedState (t.pair a.toNat) (t.reg b.toNat) })

/-- CVT (R203, R204): a static mode, or that of frm. -/
def execCvt (x : Bool) (dst : NumTy) (src : NumTy) (r : RndSel) (d : Reg) (a : Reg) (s : State) : Host.Outcome State Fault Refusal :=
  Ops.rounded (.cvt x dst src r d a) d (pairN dst.is64) s fun rm t =>
    let mode := match r with | .dyn => rm | .rne => .rne | .rz => .rz | .rd => .rd | .ru => .ru | .rna => .rna
    Fp.cvt x dst src mode (t.opnd src.is64 a.toNat)

end Sys2Proof.Machine
end

