-- ==== Sys2Proof/Machine/Launch.lean ====
section
/-! DEFINITION. Launching work (04): moulds and launch descriptors, the checks of a pour, its start, and the mapping functions
that make its tasks ready; POUR, EDGEQ, GANGQ and the launch queues (22 R428 to R431). -/

namespace Sys2Proof.Machine

open Sys2Proof

/-! ## Contexts and pours -/

/-- The live pour of a context and a number. -/
def State.pour? (s : State) (ctx id : Nat) : Option Pour := (s.ctx? ctx).bind fun c => c.pours.find? fun p => p.id == id

/-- The state with a pour changed. -/
def State.updPour (s : State) (ctx id : Nat) (f : Pour → Pour) : State :=
  s.updCtx ctx fun c => { c with pours := updWhere (fun p => p.id == id) f c.pours }

/-- The privilege of an access that is made for no thread (R393). -/
def State.ctxPriv (s : State) (ctx : Nat) : Bool :=
  match s.ctx? ctx with
  | some c => c.priv
  | none => false

/-- On whose behalf the distributor makes a system access of a context (R89, R393). -/
def State.systemOrigin (s : State) (c ctx : Nat) : Origin := { core := c, slot := none, ctx := ctx, priv := s.ctxPriv ctx }

/-- A fault of a system access (R89): its waiter joins the miss table of the die, with a record of kind system. -/
def State.systemFault (s : State) (o : Origin) (w : Waiter) (task reason va : Nat) : State :=
  s.engFault o [w] 0 task 0 .system reason va

/-- The task number of an access made for a whole pour or for no task (R89). -/
def noTask : Nat := 2 ^ 32 - 1

/-- The end of a list of system writes. -/
inductive SysWrites where
  | done (s : State)
  | fault (reason va : Nat) (left : List (Nat × Nat × Nat)) (s : State)
  | retry (left : List (Nat × Nat × Nat)) (s : State)

/-- System writes one after another: address, bytes and value (R89). -/
def State.sysWrites (s : State) (o : Origin) : List (Nat × Nat × Nat) → SysWrites
  | [] => .done s
  | w :: ws =>
    match s.sysWrite o w.1 w.2.1 w.2.2 with
    | .done s => s.sysWrites o ws
    | .fault r va s => .fault r va (w :: ws) s
    | .retry s => .retry (w :: ws) s

/-! ## The records in memory (R73 to R76, R79) -/

/-- The 8-byte words of a record. -/
def dwords (v n : Nat) : List Nat := (upTo n).map fun i => v / 2 ^ (64 * i) % 2 ^ 64

/-- A word of a list. -/
def wordAt (ws : List Nat) (i : Nat) : Nat := ws.getD i 0

/-- The node record of four words (Table 4-2). -/
def Node.ofWords (ws : List Nat) : Node :=
  let c := wordAt ws 2
  { entry := wordAt ws 0, nthr := bitsOf c 63 52, ngr := bitsOf c 51 48, sl := bitsOf c 47 36, ecls := bitsOf c 35 34
    gang := bitsOf c 33 27, sp := bitOf c 26, mesh := bitsOf c 25 23, pcv := bitsOf c 22 19, gw := bitsOf c 18 3
    cnt := bitsOf (wordAt ws 3) 63 32, foff := bitsOf (wordAt ws 3) 31 0 }

/-- The edge record of four words (Table 4-3). -/
def Edge.ofWords (ws : List Nat) : Edge :=
  let h := wordAt ws 0
  let w := wordAt ws 1
  { src := bitsOf h 63 56, dst := bitsOf h 55 48, map := bitsOf h 47 45, scope := bitsOf h 44 42
    rix := (upTo (bitsOf h 41 39)).map fun j => bitsOf w (8 * j + 7) (8 * j), bmoff := bitsOf w 63 32
    lo := sintN 32 (wordAt ws 2), hi := sintN 32 (wordAt ws 2 / 2 ^ 32) }

/-- The region of an entry of two words, with the pour argument (R76). -/
def Region.ofWords (arg : Nat) (ws : List Nat) : Region :=
  { base := (wordAt ws 0 + (if bitOf (wordAt ws 1) 63 then arg else 0)) % 2 ^ 64, len := bitsOf (wordAt ws 1) 62 0 }

/-- The checks of the mould header (Table 4-1). -/
def mouldHeaderOk (h : List Nat) : Bool :=
  let w := wordAt h 0
  let nnode := bitsOf w 7 0
  bitsOf w 63 40 == 0 && bitsOf w 15 8 == 0 && 1 ≤ nnode && nnode ≤ 64 && bitsOf w 31 16 ≤ 128 && bitsOf w 39 32 ≤ 64
    && wordAt h 1 == 0 && wordAt h 2 / 2 ^ 32 == 0 && 16 ≤ wordAt h 2 && (h.drop 3).all (· == 0)

/-- The checks of a node record (R74, R80, R95); `flat` says whether its curve descriptor is empty or two-dimensional. -/
def nodeOk (flat : Nat → Bool) (ws : List Nat) : Bool :=
  let n := Node.ofWords ws
  wordAt ws 1 == 0 && wordAt ws 2 % 8 == 0 && n.entry % 4 == 0 && 1 ≤ n.nthr && n.nthr ≤ 2048 && n.sl ≤ 2048
    && 1 ≤ n.gang && n.gang ≤ 64 && 1 ≤ n.cnt && n.foff % 16 == 0
    && (n.nthr + 31) / 32 * (16 * (n.ngr + 1)) ≤ 4096
    && (if n.sp then n.gw == 0 && n.pcv == 0 else n.mesh == 0 && 1 ≤ n.gw && flat n.pcv)

/-- Whether the spaces of an edge's nodes agree with its mapping function in kind, and for SAME and FACE in mesh (Table 4-4). -/
def spacesOk (map : Nat) (a b : Node) : Bool :=
  match map with
  | 0 => (!a.sp && !b.sp) || (a.sp && b.sp && a.mesh == b.mesh)
  | 1 => a.sp && b.sp && a.mesh == b.mesh
  | 2 | 3 => a.sp && b.sp
  | _ => true

/-- The checks of an edge record (R75, R80). -/
def edgeOk (nodes : List Node) (nrgn : Nat) (ws : List Nat) : Bool :=
  let e := Edge.ofWords ws
  let n := bitsOf (wordAt ws 0) 41 39
  bitsOf (wordAt ws 0) 38 0 == 0 && wordAt ws 3 == 0 && e.map ≤ 5 && 2 ≤ e.scope && e.scope ≤ 6 && n ≤ 4
    && bitsOf (wordAt ws 1) 31 0 / 2 ^ (8 * n) == 0 && e.rix.all (fun r => r < nrgn) && e.bmoff % 8 == 0
    && (if e.map = 4 then decide (e.lo ≤ e.hi) else wordAt ws 2 == 0)
    && (match nodes[e.src]?, nodes[e.dst]? with
        | some a, some b => spacesOk e.map a b
        | _, _ => false)

/-- The nodes of a list that an edge from another node of it enters; a cycle is what remains (R80). -/
def entered (edges : List Edge) (l : List Nat) : List Nat :=
  l.filter fun n => edges.any fun e => e.dst == n && l.contains e.src

/-- Whether the edges form a cycle. -/
def cyclic (edges : List Edge) (nnode : Nat) : Bool :=
  !((upTo nnode).foldl (fun l _ => entered edges l) (upTo nnode)).isEmpty

/-- The doublewords of a completion bitmap (R78). -/
def bitmapWords (n : Nat) : Nat := (n + 63) / 64

/-- The leaves of a live mesh. -/
def Mesh.leafCount (m : Mesh) : Nat := m.segs.foldl (fun n g => n + g.lcount) 0

/-- The tasks of a node: none for a node over a mesh that is not live. -/
def State.nodeTasks (s : State) (ctx : Nat) (n : Node) : Option Nat :=
  if n.sp then (s.mesh? ctx n.mesh).map Mesh.leafCount else some n.cnt

/-- Whether areas lie apart from each other and within `fbytes`: first byte and bytes. -/
def apart (fbytes : Nat) : List (Nat × Nat) → Bool
  | [] => true
  | x :: xs => x.1 + x.2 ≤ fbytes && xs.all (fun y => x.1 + x.2 ≤ y.1 || y.1 + y.2 ≤ x.1) && apart fbytes xs

/-- The areas of a frame: node states, snapshot areas, and bitmaps (R78, R80). -/
def State.frameAreas (s : State) (ctx : Nat) (nodes : List Node) (edges : List Edge) : List (Nat × Nat) :=
  nodes.map (fun n => (n.foff, 16 + (if n.sp then 8 * n.cnt else 0)))
    ++ edges.filterMap fun e => (nodes[e.src]?).bind fun n => (s.nodeTasks ctx n).map fun k => (e.bmoff, 8 * bitmapWords k)

/-- The codes of Table 4-6. -/
def pourOk : Nat := 0
def pourFull : Nat := 1
def pourBadDesc : Nat := 2
def pourBadMould : Nat := 3
def pourBadSpace : Nat := 4
def pourFault : Nat := 5

/-- The check BADDESC of a descriptor's words (Table 4-5, R80). -/
def descBad (host : Bool) (d : List Nat) : Bool :=
  wordAt d 0 % 64 != 0 || wordAt d 1 % 64 != 0 || wordAt d 3 % 8 != 0 || wordAt d 5 / 8 != 0 || wordAt d 6 != 0 || wordAt d 7 != 0
    || (bitOf (wordAt d 5) 2 && !host)

/-- The pours of a context that are live: not yet complete (R88). -/
def Context.livePours (c : Context) : List Pour := c.pours.filter fun p => !p.finished

/-- What a descriptor launches: nodes, edges and regions. -/
structure Mould where
  nodes : List Node
  edges : List Edge
  regions : List (List Nat)
  fbytes : Nat

/-- A list cut into groups of `n`. -/
def chunksOf {α : Type} (n : Nat) (l : List α) : Nat → List (List α)
  | 0 => []
  | k + 1 => l.take n :: chunksOf n (l.drop n) k

/-- The mould of its header and the words behind it; none when a check of Table 4-6 for BADMOULD fails. -/
def State.mouldOf (s : State) (ctx : Nat) (h ws : List Nat) : Option Mould :=
  let nn := bitsOf (wordAt h 0) 7 0
  let ne := bitsOf (wordAt h 0) 31 16
  let nr := bitsOf (wordAt h 0) 39 32
  let nws := chunksOf 4 ws nn
  let ews := chunksOf 4 (ws.drop (4 * nn)) ne
  let flat := fun (n : Nat) => match s.curve? ctx n with | some c => c.d == 2 | none => true
  let m : Mould := { nodes := nws.map Node.ofWords, edges := ews.map Edge.ofWords
                     regions := chunksOf 2 (ws.drop (4 * (nn + ne))) nr, fbytes := wordAt h 2 }
  if nws.all (nodeOk flat) && ews.all (edgeOk m.nodes nr) && !cyclic m.edges nn
      && apart m.fbytes (s.frameAreas ctx m.nodes m.edges) then some m
  else none

/-- The check BADSPACE (Table 4-6). -/
def State.spaceBad (s : State) (ctx : Nat) (m : Mould) : Bool :=
  m.nodes.any (fun n => match s.nodeTasks ctx n with | some k => n.cnt < k | none => true)
    || m.edges.any fun e => (e.map == 2 || e.map == 3) &&
      (match m.nodes[e.src]?, m.nodes[e.dst]? with
       | some a, some b => (s.mesh? ctx a.mesh).map (·.desc) != (s.mesh? ctx b.mesh).map (·.desc)
       | _, _ => true)

/-! ## Placement values (R91, R92) -/

/-- The placement table of a descriptor: its state table, or that of the 2D Morton order (R91). -/
def State.placeTable (s : State) (ctx pcv : Nat) : List (Nat × Nat) :=
  match s.curve? ctx pcv with
  | some c => c.table
  | none => (upTo 4).map fun q => (0, q)

/-- The levels of a tile grid: the smallest L with 2^L at least `n`, up to 32 (R91). -/
def gridLevels (n : Nat) : Nat := ((upTo 33).find? fun l => n ≤ 2 ^ l).getD 32

/-- The placement value of a tile, `j` levels left (R91). -/
def placeValue (tab : List (Nat × Nat)) (x y h s : Nat) : Nat → Nat
  | 0 => h
  | j + 1 =>
    let q := (if x.testBit j then 1 else 0) + (if y.testBit j then 2 else 0)
    let e := tab.getD (4 * s + q) (0, 0)
    placeValue tab x y (4 * h + e.2) e.1 j

/-- The placement values of a linear node's tasks, by index. -/
def placeValues (tab : List (Nat × Nat)) (n : Node) : List Nat :=
  let l := gridLevels (Nat.max n.gw ((n.cnt + n.gw - 1) / n.gw))
  (upTo n.cnt).map fun i => placeValue tab (i % n.gw) (i / n.gw) 0 0 l

/-- The curve ranks of a linear node, by index, and the unit of each task (R91, R92): runs in ascending order, or gangs. -/
def ranksAndUnits (tab : List (Nat × Nat)) (n : Node) : List (Nat × Nat) :=
  let hs := placeValues tab n
  let runs := sortBy (fun (a b : Nat) => a < b) (hs.map (· / 16)).eraseDups
  hs.map fun h =>
    let rank := (hs.filter fun x => x < h).length
    (rank, if n.gang = 1 then (runs.takeWhile (· < h / 16)).length else rank / n.gang)

/-! ## The start of a pour (R84, R85) -/

/-- The tasks of a node, in the order of their numbers. `snap` holds key and block slot of each leaf of a mesh node. -/
def nodeTaskList (ctx pour node prio first gang0 : Nat) (n : Node) (tab : List (Nat × Nat)) (snap : List (Nat × Nat)) : List Task :=
  let w := (n.nthr + 31) / 32
  let mk := fun (i key slot rank unit : Nat) =>
    ({ id := first + i, ctx := ctx, pour := pour, node := node, index := i, rank := rank, key := key, bslot := slot
       nthr := n.nthr, ngr := n.ngr, prio := prio, faultMask := List.replicate w 0, unit := unit
       gang := if n.gang = 1 then none else some (gang0 + rank / n.gang, rank % n.gang) } : Task)
  if n.sp then snap.mapIdx fun i x => mk i x.1 x.2 i 0
  else (ranksAndUnits tab n).mapIdx fun i x => mk i i 0 x.1 x.2

/-- The gangs of a node's tasks (R98). -/
def nodeGangs (ctx pour node gang0 : Nat) (n : Node) (ts : List Task) : List Gang :=
  if n.gang = 1 then []
  else (upTo ((ts.length + n.gang - 1) / n.gang)).map fun k =>
    let mine := sortBy (fun (a b : Task) => a.rank < b.rank) (ts.filter fun t => t.rank / n.gang == k)
    { id := gang0 + k, ctx := ctx, pour := pour, node := node, k := k, members := mine.map fun t => (t.id, MemberState.unstarted, 0) }

/-- The nodes' tasks and gangs, node by node; `free` is the next number not in use. -/
def pourParts (ctx pour prio : Nat) (tabs : List (List (Nat × Nat))) (snaps : List (List (Nat × Nat))) (node free : Nat) :
    List Node → List Task × List Gang × Nat
  | [] => ([], [], free)
  | n :: ns =>
    let snap := snaps.getD node []
    let count := if n.sp then snap.length else n.cnt
    let ts := nodeTaskList ctx pour node prio free (free + count) n (tabs.getD node []) snap
    let gs := nodeGangs ctx pour node (free + count) n ts
    let (ts', gs', free) := pourParts ctx pour prio tabs snaps (node + 1) (free + count + gs.length) ns
    (ts ++ ts', gs ++ gs', free)

/-- The writes that put a pour's frame in its first form (R78, R84). -/
def frameStart (frame : Nat) (nodes : List Node) (states : List NodeState) (edges : List Edge) (counts : List Nat) :
    List (Nat × Nat × Nat) :=
  ((nodes.zip states).flatMap fun x =>
    (frame + x.1.foff, 8, x.2.n) :: (frame + x.1.foff + 8, 8, 0)
      :: x.2.snap.mapIdx fun i k => (frame + x.1.foff + 16 + 8 * i, 8, k))
  ++ edges.flatMap fun e => (upTo (bitmapWords (counts.getD e.src 0))).map fun i => (frame + e.bmoff + 8 * i, 8, 0)

/-- A new pour (R84): its record, tasks and gangs. Its number is the answer. -/
def State.newPour (s : State) (ctx : Nat) (d : List Nat) (m : Mould) (snaps : List (List (Nat × Nat))) (queue : Option Nat)
    (startCl : Nat) (caller : Option (Nat × Nat × Nat)) : Nat × State :=
  let (id, s) := s.newId
  let prio := bitsOf (wordAt d 5) 1 0
  let tabs := m.nodes.map fun n => s.placeTable ctx n.pcv
  let states : List NodeState := m.nodes.mapIdx fun i n =>
    let snap := snaps.getD i []
    { n := if n.sp then snap.length else n.cnt, snap := snap.map (·.1), slots := snap.map (·.2)
      table := tabs.getD i [], ptr := startCl }
  let (ts, gs, free) := pourParts ctx id prio tabs snaps 0 s.idCtr m.nodes
  let frame := wordAt d 1
  let p : Pour :=
    { ctx := ctx, id := id, frame := frame, arg := wordAt d 2, cadr := wordAt d 3, cval := wordAt d 4, prio := prio
      queue := queue, startCl := startCl, startedAt := s.dev.cycle, nodes := m.nodes, edges := m.edges
      regions := m.regions.map (Region.ofWords (wordAt d 2)), nstates := states, bits := m.edges.map fun _ => []
      todo := frameStart frame m.nodes states m.edges (states.map (·.n)), caller := caller }
  let s := { s with idCtr := free, tasks := s.tasks ++ ts }
  (id, s.updCtx ctx fun c => { c with pours := c.pours ++ [p], gangs := c.gangs ++ gs })

/-! ## Mapping functions and readiness (R77, R86) -/

/-- The numbers of the producers, in a snapshot, whose cells meet a condition. -/
def producersWhere (snap : List Nat) (p : Nat → Bool) : List Nat := (upTo snap.length).filter fun i => p (snap.getD i 0)

/-- Whether the cells of two keys overlap (R77). -/
def Curve.overlaps (c : Curve) (a b : Nat) : Bool := c.contains a b || c.contains b a

/-- Whether two cells share a face, at any level relation, with periodic faces (R77). -/
def Curve.faceShared (c : Curve) (k x : Nat) : Bool :=
  (upTo (2 * c.d)).any fun f =>
    match c.across k f with
    | none => false
    | some (m, _) => c.contains x m || (c.contains m x && c.touches m x (opposite f))

/-- The producer set of a consumer over an edge (Table 4-4). -/
def State.producers (s : State) (p : Pour) (e : Edge) (t : Task) : List Nat :=
  match p.nstates[e.src]?, p.nodes[e.src]?, p.nodes[e.dst]? with
  | some a, some src, some dst =>
    let curve := (s.mesh? p.ctx dst.mesh).bind fun m => s.curve? p.ctx m.desc
    let by_ := fun (f : Curve → Nat → Bool) =>
      match curve with
      | some c => producersWhere a.snap (f c)
      | none => []
    (match e.map with
     | 0 => if src.sp then producersWhere a.snap (· == t.key) else if t.index < a.n then [t.index] else []
     | 1 => by_ fun c x => x == t.key || c.faceShared t.key x
     | 2 => by_ fun c x => c.overlaps x (if keyLevel t.key = 0 then t.key else c.kpar t.key)
     | 3 => by_ fun c x => c.overlaps x t.key
     | 4 => (upTo a.n).filter fun i => decide ((t.index : Int) + e.lo ≤ i) && decide ((i : Int) ≤ t.index + e.hi)
     | _ => upTo a.n)
  | _, _, _ => []

/-- Whether every incoming edge of a task is satisfied (R86). -/
def State.edgesMet (s : State) (p : Pour) (t : Task) : Bool :=
  (p.edges.zip p.bits).all fun x => x.1.dst != t.node || (s.producers p x.1 t).all fun i => x.2.contains i

/-- The tasks of a started pour whose last edge has been satisfied become ready (R84, R86). -/
def State.settleReady (s : State) (ctx id : Nat) : State :=
  match s.pour? ctx id with
  | none => s
  | some p =>
    if !p.started then s
    else
      let due := fun (t : Task) => t.ctx == ctx && t.pour == id && t.phase == .waiting && s.edgesMet p t
      { s with tasks := s.tasks.map fun t => if due t then { t with phase := .ready, readyAt := s.dev.cycle } else t }

/-- Whether an earlier pour of the thread that launched a pour has not started: its pours start in program order (R82). -/
def State.pourBehind (s : State) (p : Pour) : Bool :=
  match s.ctx? p.ctx, p.caller with
  | some c, some (k, n, _) => (splitFirst (fun (q : Pour) => q.id == p.id) c.pours).1.any fun q =>
      !q.started && (match q.caller with | some (k', n', _) => k' == k && n' == n | none => false)
  | _, _ => false

/-- The writes of a pour's start that are still to be made (R84, R89); after the last its tasks may become ready, and the lane
that launched it is answered. The record of a fault gives the first core of the cluster where the pour began (assumption log 67). -/
def State.continuePour (s : State) (ctx id : Nat) : State :=
  match s.pour? ctx id with
  | none => s
  | some p =>
    if p.started || s.held (.pour ctx id) || s.pourBehind p then s
    else match s.sysWrites (s.systemOrigin (4 * p.startCl) ctx) p.todo with
      | .done s =>
        let s := s.updPour ctx id fun p => { p with todo := [], started := true, startedAt := s.dev.cycle, caller := none }
        let s := match p.caller with
          | some (c, k, r) => s.updThread c k fun t => t.answer r 0 pourOk 0
          | none => s
        s.settleReady ctx id
      | .fault r va left s =>
        (s.updPour ctx id fun p => { p with todo := left }).systemFault (s.systemOrigin (4 * p.startCl) ctx) (.pour ctx id) noTask r va
      | .retry left s => s.updPour ctx id fun p => { p with todo := left }

/-- A complete pour leaves the distributor (R88). -/
def State.dropPour (s : State) (ctx id : Nat) : State :=
  let s := s.updCtx ctx fun c => { c with pours := c.pours.filter (fun p => p.id != id), gangs := c.gangs.filter fun g => g.pour != id }
  { s with tasks := s.tasks.filter fun t => !(t.ctx == ctx && t.pour == id) }

/-- The completion write of a pour whose tasks have all retired, with a release at .sys scope (R88, R89). -/
def State.completePour (s : State) (ctx id : Nat) : State :=
  match s.pour? ctx id with
  | none => s
  | some p =>
    if !p.finished || s.held (.completion ctx id) then s
    else if p.cadr = 0 then s.dropPour ctx id
    else
      let cores := ((s.tasks.filter fun t => t.ctx == ctx && t.pour == id).map fun (t : Task) => t.core).eraseDups
      let s := cores.foldl (fun s c => s.updMem fun m => m.releaseWork c) s
      match s.sysWrite (s.systemOrigin (4 * p.startCl) ctx) p.cadr 8 p.cval with
      | .done s => s.dropPour ctx id
      | .fault r va s => s.systemFault (s.systemOrigin (4 * p.startCl) ctx) (.completion ctx id) noTask r va
      | .retry s => s

/-! ## The check of a pour (R80) -/

/-- The leaves of the mesh nodes of a mould, as key and block slot in curve order, node by node (R84). -/
def State.snapshots (s : State) (o : Origin) (acc : List (List (Nat × Nat))) (k : List (List (Nat × Nat)) → State → MeshRes) :
    List Node → MeshRes
  | [] => k acc s
  | n :: ns =>
    if n.sp then
      match s.mesh? o.ctx n.mesh with
      | none => k acc s
      | some m => s.readSegs o 0 [] (fun l s =>
          s.snapshots o (acc ++ [(sortLeaves l).map fun r => (r.key, r.slot)]) k ns) m.segs
    else s.snapshots o (acc ++ [[]]) k ns

/-- A pour whose descriptor has passed BADDESC and FULL: its mould is read by `rd` and checked (R80); `bad` answers with a status,
and `go` starts it. -/
def State.checkMould (s : State) (o : Origin) (rd : State → Nat → Nat → (Nat → State → MeshRes) → MeshRes) (d : List Nat)
    (bad : Nat → State → MeshRes) (go : Mould → List (List (Nat × Nat)) → State → MeshRes) : MeshRes :=
  let a := wordAt d 0
  rd s a 8 fun v s =>
    let h := dwords v 8
    if !mouldHeaderOk h then bad pourBadMould s
    else
      let w := wordAt h 0
      let n := 4 * (bitsOf w 7 0 + bitsOf w 31 16) + 2 * bitsOf w 39 32
      rd s ((a + 64) % 2 ^ 64) n fun v s =>
        match s.mouldOf o.ctx h (dwords v n) with
        | none => bad pourBadMould s
        | some m => if s.spaceBad o.ctx m then bad pourBadSpace s else s.snapshots o [] (go m) m.nodes

/-! ## POUR, EDGEQ, GANGQ -/

/-- The pour of one lane (R82): the end of its checks, its release and its start. -/
def State.pourFor (s : State) (t : Thread) (d : Reg) (va : Nat) : MeshRes :=
  let o := s.originOf t
  s.recordRead o t va 8 fun v s =>
    let ds := dwords v 8
    let full := match s.ctx? o.ctx with | some c => decide (256 ≤ c.livePours.length) | none => false
    if descBad false ds then .val pourBadDesc s
    else if full then .val pourFull s
    else s.checkMould o (fun s a n k => s.recordRead o t a n k) ds (fun st s => .val st s) fun m snaps s =>
      match s.releaseBy t.core t.slot .pkg with
      | none => .wait
      | some s =>
        let (id, s) := s.newId
        let s := s.updThread t.core t.slot fun t =>
          t.addPending { id := id, parts := 1, dests := t.rowsFrom d.toNat 1, val := 0, flags := 0 }
        let (p, s) := s.newPour o.ctx ds m snaps none (coreCluster t.core) (some (t.core, t.slot, id))
        .val pourOk (s.continuePour o.ctx p)

/-- A fault of a Curve Unit access taken as one of another kind. -/
def MeshRes.as (k : Access) : MeshRes → MeshRes
  | .fault .mesh r va s => .fault k r va s
  | x => x

/-- POUR (R82): one pour for each executing lane. -/
def execPour (d a : Reg) (i : Imm) (s : State) : Host.Outcome State Fault Refusal :=
  Ops.instr (.pour d a i) s fun L s =>
    .done ((s.lanes L).foldl (fun s t =>
      match MeshRes.as .read (s.pourFor t d (t.addr a i / 64 * 64)) with
      | .val 0 s' => s'
      | r => s.meshEnd L [t] d 1 0 r) s)

/-- EDGEQ (R83). Of two live pours with one frame address, the one that started first answers (assumption log 68). -/
def execEdgeq (d a : Reg) (i : Imm) (s : State) : Host.Outcome State Fault Refusal :=
  Ops.instr (.edgeq d a i) s fun L s =>
    .done (s.results L fun t => t.result d.toNat 1 (
      match (s.ctx? (s.ctxOf t)).bind fun c => c.livePours.find? fun p => p.frame == (t.pair a.toNat).toNat with
      | some p => (match p.bits[i.toNat]? with
        | some b => b.length
        | none => 2 ^ 32 - 1)
      | none => 2 ^ 32 - 1) 0)

/-- The code of a member's state (R103). -/
def MemberState.code : MemberState → Nat
  | .unstarted => 0 | .running => 1 | .retired => 2

/-- The members of the gang of a thread's task: state and core; the task alone outside a larger gang (R103). -/
def State.gangMembers (s : State) (t : Thread) : List (MemberState × Nat) :=
  match s.gangOf t with
  | some (g, _) => g.members.map (·.2)
  | none => [(.running, t.core)]

/-- A fact about the gang of a thread (R103). -/
def State.gangFact (s : State) (t : Thread) (sel m : Nat) : Nat :=
  let l := s.gangMembers t
  let started := (l.zipIdx).foldl (fun n x => putBit n x.2 (x.1.1 != .unstarted)) 0
  match sel with
  | 0 => (match s.gangOf t with | some (_, i) => i | none => 0)
  | 1 => l.length
  | 2 => started % 2 ^ 32
  | 3 => started / 2 ^ 32
  | 4 => (match l[m]? with | some x => x.1.code | none => 2 ^ 32 - 1)
  | _ => (match l[m]? with | some x => if x.1 == .unstarted then 2 ^ 32 - 1 else x.2 | none => 2 ^ 32 - 1)

/-- GANGQ (R103). -/
def execGangq (d a : Reg) (i : Imm) (s : State) : Host.Outcome State Fault Refusal :=
  Ops.instr (.gangq d a i) s fun L s =>
    .done (s.results L fun t => t.result d.toNat 1 (s.gangFact t i.toNat (t.num a)) 0)

/-! ## Launch queues (R428 to R431) -/

/-- The launch queue of a number. -/
def State.queue (s : State) (q : Nat) : LaunchQ :=
  match s.dev.queues.find? fun x => x.num == q with
  | some x => x
  | none => { num := q }

/-- The state with a launch queue replaced. -/
def State.putQueue (s : State) (x : LaunchQ) : State :=
  s.updDev fun d => { d with queues := d.queues.filter (fun y => y.num != x.num) ++ [x] }

/-- The queue after it has taken its descriptor (R429). -/
def LaunchQ.taken (x : LaunchQ) : LaunchQ := { x with get := x.get + 1, snap := none }

/-- The status of a failed pour, to be written to its completion word (R80), in the context of that pour whatever the queue is then given;
nothing is written to a word that is absent or misaligned. LQGET advances with the failure (assumption log 74). -/
def LaunchQ.fail (x : LaunchQ) (d : List Nat) (st : Nat) : LaunchQ :=
  let a := wordAt d 3
  if a = 0 || a % 8 != 0 then x.taken else { x.taken with report := some (x.ctx, a, st) }

/-- The write of a status to a completion word (R80, R89), which waits while its context does not run. -/
def State.queueReport (s : State) (q : Nat) : State :=
  let x := s.queue q
  match x.report with
  | none => s
  | some (ctx, a, st) =>
    if s.held (.queue q) || (match s.ctx? ctx with | some c => c.phase != .running | none => true) then s
    else match s.sysWrite (s.systemOrigin 0 ctx) a 8 st with
      | .done s => s.putQueue { x with report := none }
      | .fault r va s => s.systemFault (s.systemOrigin 0 ctx) (.queue q) noTask r va
      | .retry s => s

/-- The latest image of a context that stands saved. -/
def State.savedImage (s : State) (ctx : Nat) : Option Image :=
  match s.ctx? ctx with
  | some c => if c.phase = .saved then s.images.reverse.find? fun i => i.ctx.num == ctx else none
  | none => none

/-- The pours of a queue that are not complete, whatever context they were launched for, those of a context that stands saved among them (R81). -/
def State.queuePours (s : State) (q : Nat) : List Pour :=
  s.ctxs.flatMap fun c =>
    (match s.savedImage c.num with | some i => i.ctx.livePours | none => c.livePours).filter fun p => p.queue == some q

/-- The check and the start of the descriptor that a queue holds (R80, R81). -/
def State.queueStart (s : State) (q : Nat) (c : Context) (d : List Nat) : State :=
  let x := s.queue q
  let o := s.systemOrigin 0 c.num
  if descBad true d then (s.putQueue (x.fail d pourBadDesc)).queueReport q
  else if 256 ≤ c.livePours.length || (bitOf (wordAt d 5) 2 && !(s.queuePours q).isEmpty) then s
  else
    match s.checkMould o (fun s a n k => s.curveRead o a n k) d (fun st s => .val st s) fun m snaps s =>
      let (p, s) := s.newPour c.num d m snaps (some q) 0 none
      .val pourOk ((s.putQueue x.taken).continuePour c.num p) with
    | .val 0 s => s
    | .val st s => (s.putQueue (x.fail d st)).queueReport q
    | .fault _ r va s => s.systemFault o (.queue q) noTask r va
    | .wait | .mig _ | .stop => s

/-- The next step of a queue: the status of the pour that failed last; else a descriptor of a context that is not live starts nothing (R430), and
another is started, or which is read as a snapshot (R429). -/
def State.queueStep (s : State) (q : Nat) : State :=
  let x := s.queue q
  if x.report.isSome then s.queueReport q
  else if !x.en || x.get == x.put || x.size == 0 then s
  else match s.ctx? x.ctx with
    | none => s.putQueue { x.taken with noctx := true }
    | some c =>
      if c.phase != .running || s.held (.queue q) || (s.queuePours q).any (fun p => !p.started) then s
      else match x.snap with
        | some ws => s.queueStart q c (dwords (natOfWords ws) 8)
        | none =>
          let o := s.systemOrigin 0 c.num
          match s.curveRead o (x.base.toNat + 64 * (x.get.toNat % x.size.toNat)) 8 fun v s => .val v s with
          | .val v s => (s.putQueue { x with snap := some (wordsOfNat 16 v) }).queueStart q c (dwords v 8)
          | .fault _ r va s => s.systemFault o (.queue q) noTask r va
          | .wait | .mig _ | .stop => s

/-- LAUNCH_QUEUE_TAKE (R429). -/
def execLaunchQueueTake (s : State) : Host.Outcome State Fault Refusal := .next (s.queueStep s.arg.x)

end Sys2Proof.Machine
end

