-- ==== Sys2Proof/Machine/Pass.lean ====
section
/-! DEFINITION. What a pass of the matrix engine computes (13 R262 to R264, R270 to R276): operand layouts, groups, row sums,
quantised and sparse B, and ZSCALE. -/

namespace Sys2Proof.Machine

open Sys2Proof

/-- The element formats of a pass (Table 13-1). -/
structure PassShape where
  a : NumTy             -- A format
  k : Nat               -- products of one row and column
  size : Nat            -- elements of a group (R271)
  kind : ZKind
deriving DecidableEq, Repr

/-- The shape of a request (Table 13-1, R271). -/
def PassTy.shape : PassTy → PassShape
  | .mma .e4m3e4m3 | .mma .e4m3e5m2 => { a := .e4m3, k := 32, size := 8, kind := .f32 }
  | .mma .e5m2e4m3 | .mma .e5m2e5m2 => { a := .e5m2, k := 32, size := 8, kind := .f32 }
  | .mma .i8i8 => { a := .i8, k := 32, size := 8, kind := .i32 }
  | .mma .bf16bf16 => { a := .bf16, k := 16, size := 4, kind := .f32 }
  | .mma .f16f16 => { a := .f16, k := 16, size := 4, kind := .f32 }
  | .mma .f64f64 => { a := .f64, k := 8, size := 8, kind := .f64 }
  | .mmas e5 => { a := if e5 then .e5m2 else .e4m3, k := 64, size := 8, kind := .f32 }
  | .mmaq .e4m3 | .mmal .e4m3 => { a := .e4m3, k := 64, size := 8, kind := .f32 }
  | .mmaq .e5m2 | .mmal .e5m2 => { a := .e5m2, k := 64, size := 8, kind := .f32 }
  | .mmaq .bf16 | .mmal .bf16 => { a := .bf16, k := 32, size := 4, kind := .f32 }

/-- Whether a request accepts a stream format (Table 14-2). -/
def PassTy.accepts (t : PassTy) (f : SFmt) : Bool :=
  match t, f with
  | .mma .e4m3e4m3, .e4m3 | .mma .e5m2e4m3, .e4m3 | .mma .e4m3e5m2, .e5m2 | .mma .e5m2e5m2, .e5m2 | .mma .i8i8, .i8
  | .mma .bf16bf16, .bf16 | .mma .f16f16, .f16 | .mma .f64f64, .f64 | .mmas _, .sE4m3 | .mmas _, .sE5m2
  | .mmaq .e4m3, .q4k64 | .mmaq .e5m2, .q4k64 | .mmaq .bf16, .q4k32
  | .mmal .e4m3, .lut4k64 | .mmal .e5m2, .lut4k64 | .mmal .bf16, .lut4k32 => true
  | _, _ => false

/-- The element format of a stream of plain elements. -/
def SFmt.elem : SFmt → NumTy
  | .e4m3 | .sE4m3 => .e4m3
  | .e5m2 | .sE5m2 => .e5m2
  | .i8 => .i8
  | .bf16 => .bf16
  | .f16 => .f16
  | .f64 => .f64
  | .q4k64 | .q4k32 | .lut4k64 | .lut4k32 => .n8

/-- Element k of a packed row of registers (R263). -/
def packed (t : NumTy) (ws : List Word) (k : Nat) : Nat :=
  match numBytes t with
  | 8 => (mkPair (ws.getD (2 * k) 0) (ws.getD (2 * k + 1) 0)).toNat
  | 2 => (ws.getD (k / 2) 0).toNat / 2 ^ (16 * (k % 2)) % 2 ^ 16
  | _ => (ws.getD (k / 4) 0).toNat / 2 ^ (8 * (k % 4)) % 2 ^ 8

/-- The value of an element of a floating format. -/
def floatValue (t : NumTy) (bits : Nat) : Num :=
  match NumTy.fmt t with
  | some f => Fp.decode f bits
  | none => .fin false 0 0

/-- The registers of a lane of the quarter that supplies a column (R264). -/
def Block.lane (b : Block) (j h : Nat) : List Word × Word :=
  match b.quarters.find? fun q => q.1 == j / 16 with
  | some (_, q) => (q.data.getD (2 * (j % 16) + h) [], q.extra.getD (2 * (j % 16) + h) 0)
  | none => ([], 0)

/-- Stored element k of `n` of a column of plain elements (R264). -/
def Block.elem (b : Block) (t : NumTy) (n j k : Nat) : Nat := packed t (b.lane j (k / (n / 2))).1 (k % (n / 2))

/-- The element of B at (k, j): its value and the flags that consuming it raises; none for a product that 2:4 sparsity skips
(R264, R273, R274, R276). -/
def Block.value (b : Block) (f : SFmt) (sh : PassShape) (book : List Word) (k j : Nat) : Option (Num × BitVec 7) :=
  match f with
  | .sE4m3 | .sE5m2 =>
    let g := k / 4
    let (_, meta_) := b.lane j (g / 8)
    let nib := meta_.toNat / 2 ^ (4 * (g % 8)) % 16
    if nib % 4 = k % 4 then some (floatValue (SFmt.elem f) (b.elem (SFmt.elem f) 32 j (2 * g)), 0)
    else if nib / 4 = k % 4 then some (floatValue (SFmt.elem f) (b.elem (SFmt.elem f) 32 j (2 * g + 1)), 0)
    else none
  | .q4k64 | .q4k32 | .lut4k64 | .lut4k32 =>
    let half := sh.k / 2
    let h := k / half
    let code := ((b.lane j h).1.getD (k % half / 8) 0).toNat / 2 ^ (4 * (k % 8)) % 16
    let (_, x) := b.lane j (if sh.k = 64 then h else 0)
    let scale := x.toNat % 256
    (match f with
     | .lut4k64 | .lut4k32 =>
       let entry := Fp.decode .bf16 ((book.getD code 0).toNat % 2 ^ 16)
       some (entry.shift (scaleExp scale), flagIf entry.isSig fNV)
     | _ =>
       let t := QTy.of scale (x.getLsbD 16) (x.toNat / 256 % 16)
       some (t.scaled scale code, t.flag code))
  | .e4m3 | .e5m2 | .bf16 | .f16 | .i8 | .f64 =>
    let v := floatValue (SFmt.elem f) (b.elem (SFmt.elem f) sh.k j k)
    some (v, flagIf v.isSig fNV)

/-- Whether a block fails MMAL: a scale type other than 0b00 (R274). -/
def Block.lutBad (b : Block) (sh : PassShape) : Bool :=
  (upTo 64).any fun j => (upTo (if sh.k = 64 then 2 else 1)).any fun h => (b.lane j h).2.toNat % 256 / 64 != 0

/-- Whether products of a group are invalid (R271): an infinity times zero, or infinite ones of opposite sign. -/
def groupBad (ps : List (Option Num)) : Bool :=
  let inf := fun (n : Bool) => ps.any fun p => (match p with | some (.inf x) => x == n | _ => false)
  ps.any Option.isNone || (inf true && inf false)

/-- A group's sum rounded, then added to the accumulator (R271). -/
def addGroup (acc : Fr) (ps : List (Option Num)) (fl : BitVec 7) : Fr :=
  let (s, fl1) := if groupBad ps then Fp.invalid .f32 else Fp.sumRound .f32 .rne (ps.filterMap id)
  let (v, fl2) := Fp.add .f32 .rne acc.1 s
  (v, acc.2 ||| fl ||| fl1 ||| fl2)

/-- An FP32 element of an active row (R271); `bs` gives B, none for an absent product. -/
def passF32 (sh : PassShape) (row : List Word) (bs : Nat → Option (Num × BitVec 7)) (acc : Nat) : Fr :=
  (upTo (sh.k / sh.size)).foldl (fun x g =>
    let ks := (upTo sh.size).map fun i => sh.size * g + i
    let used := ks.filterMap fun k => (bs k).map fun b => (floatValue sh.a (packed sh.a row k), b)
    addGroup x (used.map fun p => Num.mul p.1 p.2.1)
      (used.foldl (fun fl p => fl ||| p.2.2 ||| flagIf p.1.isSig fNV) 0)) (acc, 0)

/-- An FP64 element of an active row (R272). -/
def passF64 (row : List Word) (bs : Nat → Nat) (acc : Nat) : Fr :=
  (upTo 8).foldl (fun x k =>
    let (v, fl) := Fp.fma .f64 .rne (packed .f64 row k) (bs k) x.1
    (v, x.2 ||| fl)) (acc, 0)

/-- An INT32 element of an active row (R272). -/
def passI32 (row : List Word) (bs : Nat → Nat) (acc : Nat) : Nat :=
  let t : Int := (upTo 32).foldl (fun t k => t + sintN 8 (packed .i8 row k) * sintN 8 (bs k)) (acc : Int)
  (t % (2 ^ 32 : Nat)).toNat

/-- A row of accumulators of one pass (R270 to R273): 64 elements, and its row sum for FP32 and INT32. -/
def passRow (t : PassTy) (f : SFmt) (b : Block) (book row : List Word) (acc : Nat → Nat) (sum : Nat) : List Fr × Fr :=
  let sh := PassTy.shape t
  match sh.kind with
  | .f32 =>
    ((upTo 64).map fun j => passF32 sh row (fun k => b.value f sh book k j) (acc j),
     passF32 sh row (fun _ => some (.fin false 1 0, 0)) sum)
  | .i32 =>
    ((upTo 64).map fun j => (passI32 row (fun k => b.elem .i8 32 j k) (acc j), 0), (passI32 row (fun _ => 1) sum, 0))
  | .f64 => ((upTo 64).map fun j => passF64 row (fun k => b.elem .f64 8 j k) (acc j), (sum, 0))

/-- One element of ZSCALE (R275). -/
def scaleElem (acc sum s z : Nat) : Fr :=
  let (t, fl1) := Fp.fma .f32 .rne (Nat.xor z (2 ^ 31)) sum acc
  let (v, fl2) := Fp.mul .f32 .rne t s
  (v, fl1 ||| fl2)

/-- SPACK of one nibble (R297): the two lowest set positions, filled up with the lowest clear ones. -/
def packNibble (m : Nat) : Nat :=
  let on := (upTo 4).filter fun i => m.testBit i
  let off := (upTo 4).filter fun i => !m.testBit i
  let two := sortBy (fun (a b : Nat) => a < b) ((on ++ off).take 2)
  two.getD 0 0 + 4 * two.getD 1 0

/-- SPACK (R297). -/
def packMask (a : Nat) : Nat := (upTo 8).foldl (fun v n => v + packNibble (a / 16 ^ n % 16) * 16 ^ n) 0

/-- The lowest lane and nibble of sparse metadata that fail the check of R276. -/
def sparseBad (ms : List Word) : Option (Nat × Nat) :=
  (upTo 32).findSome? fun l => ((upTo 8).find? fun n =>
    let x := (ms.getD l 0).toNat / 16 ^ n % 16
    x / 4 ≤ x % 4).map fun n => (l, n)

end Sys2Proof.Machine
end

