-- ==== Sys2Proof/Machine/Tiles.lean ====
section
/-! DEFINITION. Accumulator tiles and the names of a warp (13 R267 to R270, R277; 14 R281, R287), operand streams,
subscriptions and their retirement (R265, R266), and the tables of the matrix engine (R260, R298). -/

namespace Sys2Proof.Machine

open Sys2Proof

/-! ## Tiles -/

/-- Physical tiles that a kind uses (R267). -/
def ZKind.tiles : ZKind → Nat
  | .f32 | .i32 => 1
  | .f64 => 2

/-- Words of a row of a name: 64 columns and the row sum, or 64 doublewords (R267). -/
def ZKind.words : ZKind → Nat
  | .f32 | .i32 => 65
  | .f64 => 128

/-- The code of a kind (R280). -/
def ZKind.code : ZKind → Nat
  | .f32 => 0
  | .i32 => 1
  | .f64 => 2

/-- A row of a tile: 65 words. -/
def Tile.row (t : Tile) (i : Nat) : List Word := (t.words.drop (65 * i)).take 65

/-- A tile with the first words of a row replaced. -/
def Tile.putRow (t : Tile) (i : Nat) (ws : List Word) : Tile :=
  { t with words := t.words.take (65 * i) ++ ws ++ t.words.drop (65 * i + ws.length) }

/-- The physical tile of a core. -/
def State.tile? (s : State) (c n : Nat) : Option Tile := s.eng.tiles.find? fun t => t.core == c && t.num == n

/-- The physical tiles of a core that are not allocated, lowest first (R269). -/
def State.freeTiles (s : State) (c : Nat) : List Nat := (upTo 32).filter fun n => (s.tile? c n).isNone

/-- A row of the tiles of a name: columns 0 to 31 of an FP64 name stand in the first tile (R267). -/
def State.zrow (s : State) (c : Nat) (k : ZKind) (tiles : List Nat) (i : Nat) : List Word :=
  let row := fun (n : Nat) => match s.tile? c n with
    | some t => t.row i
    | none => List.replicate 65 0
  match k with
  | .f32 | .i32 => row (tiles.getD 0 0)
  | .f64 => (row (tiles.getD 0 0)).take 64 ++ (row (tiles.getD 1 0)).take 64

/-- The state with a row of a physical tile replaced. -/
def State.putTileRow (s : State) (c n i : Nat) (ws : List Word) : State :=
  s.updEng fun g => { g with tiles := updWhere (fun t => t.core == c && t.num == n) (fun t => t.putRow i ws) g.tiles }

/-- The state with a row of a name's tiles replaced. -/
def State.putZrow (s : State) (c : Nat) (k : ZKind) (tiles : List Nat) (i : Nat) (ws : List Word) : State :=
  match k with
  | .f32 | .i32 => s.putTileRow c (tiles.getD 0 0) i ws
  | .f64 => (s.putTileRow c (tiles.getD 0 0) i (ws.take 64)).putTileRow c (tiles.getD 1 0) i (ws.drop 64)

/-! ## Names -/

/-- A name of a warp. -/
def Warp.name (w : Warp) (z : Nat) : ZName := w.names.getD z {}

/-- The name of a warp slot. -/
def State.zname (s : State) (c w z : Nat) : ZName :=
  match s.warp? c w with
  | some x => x.name z
  | none => {}

/-- The state with a name of a warp changed. -/
def State.updName (s : State) (c w z : Nat) (f : ZName → ZName) : State :=
  s.updWarp c w fun x => { x with names := x.names.set z (f (x.name z)) }

/-- Physical tiles given back. -/
def State.freeOf (s : State) (c : Nat) (tiles : List Nat) : State :=
  s.updEng fun g => { g with tiles := g.tiles.filter fun t => !(t.core == c && tiles.contains t.num) }

/-- A name becomes lost: its tiles are freed, since every earlier entry of its queue has been performed (R277). -/
def State.lose (s : State) (c w z : Nat) (why : LostCause) : State :=
  (s.freeOf c (s.zname c w z).tiles).updName c w z fun n => { n with held := none, tiles := [], lost := some why }

/-- A name is bound to fresh tiles as its entry is performed (R269, R270, R287): rows of the captured mask are zero, others
keep their values when the kind is unchanged. The earlier tiles are freed, and a lost state ends. None while too few tiles
are free. -/
def State.bindFresh (s : State) (c w z : Nat) (k : ZKind) (lanes : List Nat) : Option State :=
  let n := s.zname c w z
  let fresh := (s.freeTiles c).take (ZKind.tiles k)
  if fresh.length < ZKind.tiles k then none
  else
    let row := fun (i : Nat) => if lanes.contains i || n.held != some k then List.replicate (ZKind.words k) 0 else s.zrow c k n.tiles i
    let rows := (upTo 32).map row
    let blank := fresh.map fun m => ({ core := c, num := m, words := List.replicate 2080 0 } : Tile)
    let s := s.updEng fun g => { g with tiles := g.tiles ++ blank }
    let s := ((upTo 32).zip rows).foldl (fun s ir => s.putZrow c k fresh ir.1 ir.2) s
    some ((s.freeOf c n.tiles).updName c w z fun n => { n with held := some k, tiles := fresh, lost := none })

/-- The name that an entry of qm acts on. -/
def TileOp.name : TileOp → Option Nat
  | .pass _ _ _ z _ _ | .zscale z _ _ _ | .zclr _ z _ | .zld _ z _ _ | .zmov z _ _ _ | .zsto _ z _ _ _ | .zrel z | .zwait z => some z
  | .strend _ => none

/-- Entries that end a lost state of their name (R277). -/
def TileOp.ends : TileOp → Bool
  | .pass _ nw _ _ _ _ => nw
  | .zclr _ _ _ | .zld _ _ _ _ | .zrel _ => true
  | .zscale _ _ _ _ | .zmov _ _ _ _ | .zsto _ _ _ _ _ | .zwait _ | .strend _ => false

/-- The matrix entries of a warp, oldest first. -/
def State.qm (s : State) (c w : Nat) : List (QEntry × TileOp) :=
  s.eng.queue.filterMap fun e => if e.core == c && e.queue == .qm w then e.op?.map fun o => (e, o) else none

/-- The lost state of a name as an instruction meets it at issue: an earlier instruction of the warp may have ended it and not
yet have been performed (R277, R281). -/
def State.lostNow (s : State) (c w z : Nat) : Option LostCause :=
  if (s.qm c w).any fun x => x.2.name == some z && x.2.ends then none else (s.zname c w z).lost

/-- The info field of a TILE_LOST trap (20 Table 20-3). -/
def LostCause.info : LostCause → Nat
  | .reset => 1
  | .format => 2

/-! ## Engines, streams and subscriptions -/

/-- The engine of a cluster as power-on leaves it. -/
def Engine.fresh (cl : Nat) : Engine := { cluster := cl, streams := List.replicate 8 {} }

/-- The engine of a cluster. -/
def State.engine (s : State) (cl : Nat) : Engine :=
  match s.eng.engines.find? fun e => e.cluster == cl with
  | some e => e
  | none => Engine.fresh cl

/-- The state with the engine of a cluster changed. -/
def State.updEngine (s : State) (cl : Nat) (f : Engine → Engine) : State :=
  s.updEng fun g => { g with engines := g.engines.filter (fun e => e.cluster != cl) ++ [f (s.engine cl)] }

/-- A stream of an engine. -/
def Engine.stream (e : Engine) (n : Nat) : Stream := e.streams.getD n {}

/-- The state with a stream of an engine changed. -/
def State.updStream (s : State) (cl n : Nat) (f : Stream → Stream) : State :=
  s.updEngine cl fun e => { e with streams := e.streams.set n (f (e.stream n)) }

/-- Whether all four quarters of a block have arrived (R265). -/
def Block.complete (b : Block) : Bool := b.quarters.length == 4

/-- The subscriptions to a stream of the warps of a cluster: core, warp and subscription. -/
def State.subsOf (s : State) (cl n : Nat) : List (Nat × Nat × Sub) :=
  (s.warps.filter fun w => coreCluster w.core == cl).flatMap fun w =>
    (w.subs.filter fun b => b.stream == n).map fun b => (w.core, w.slot, b)

/-- The subscription of a warp that its instructions see (R284, R294, R295). -/
def Warp.sub? (w : Warp) (n : Nat) : Option Sub := w.subs.find? fun b => b.stream == n && !b.ended

/-- The subscription that the next request of a warp's queue uses: the oldest (R266). -/
def Warp.oldSub? (w : Warp) (n : Nat) : Option Sub := w.subs.find? fun b => b.stream == n

/-- The subscribers of a stream: member key and cursor. A pre-empted warp's subscription has not ended (R266, R279). -/
def State.membersOf (s : State) (cl n : Nat) : List ((Nat × Nat) × Nat) :=
  ((s.subsOf cl n).map fun x => ((x.1, x.2.1), x.2.2.cursor)) ++ ((s.engine cl).stream n).away

/-- Blocks retire once their set is nonempty and every member has moved past them or ended; an idle stream keeps nothing
(R265, R266). -/
def State.settleStream (s : State) (cl n : Nat) : State :=
  let subs := s.membersOf cl n
  let done := fun (b : Block) => b.complete && !b.members.isEmpty && b.members.all fun m =>
    !subs.any fun x => x.1 == m && x.2 ≤ b.num
  s.updStream cl n fun t =>
    let left := t.blocks.filter fun b => !done b
    if left.isEmpty && subs.isEmpty then {} else { t with blocks := left }

/-- Where a new subscription's cursor stands (R266). -/
def Stream.cursor (t : Stream) : Nat :=
  match t.blocks with
  | [] => t.next
  | bs => leastOf (bs.map (·.num))

/-- A subscription of a warp: it joins the set of every held block from its cursor on (R266). -/
def State.subscribe (s : State) (c w n window : Nat) : State :=
  let cl := coreCluster c
  let cur := ((s.engine cl).stream n).cursor
  let s := s.updWarp c w fun x => { x with subs := x.subs ++ [{ stream := n, cursor := cur, window := window }] }
  s.updStream cl n fun t => { t with blocks := t.blocks.map fun b =>
    if cur ≤ b.num && b.complete && !b.members.contains (c, w) then { b with members := b.members ++ [(c, w)] } else b }

/-- The quarter of a core in the block of a number. -/
def Stream.quarter? (t : Stream) (k i : Nat) : Option Quarter :=
  ((t.blocks.find? fun b => b.num == k).bind fun b => b.quarters.find? fun q => q.1 == i).map (·.2)

/-- A block with the quarter of a core replaced. -/
def Block.putQuarter (i : Nat) (q : Quarter) (b : Block) : Block :=
  { b with quarters := b.quarters.map fun x => if x.1 == i then (i, q) else x }

/-- A publication: the core's next quarter (R265). A block that completes records the stream's subscribers (R266). Of two of one cycle
that of the lower warp slot comes first (R293). -/
def State.publish (s : State) (c n : Nat) (f : SFmt) (q : Quarter) : State :=
  let cl := coreCluster c
  let i := c % 4
  let subs := ((s.membersOf cl n).map fun x => x.1).eraseDups
  s.updStream cl n fun t =>
    let k := t.counts.getD i 0
    let late := (if k = 0 then none else t.quarter? (k - 1) i).filter fun p => p.at_ == q.at_ && q.warp < p.warp
    let t := if late.isSome then { t with blocks := updWhere (fun b => b.num == k - 1) (Block.putQuarter i q) t.blocks } else t
    let add := fun (b : Block) =>
      let b := { b with quarters := b.quarters ++ [(i, late.getD q)] }
      if b.complete then { b with members := subs } else b
    let blocks := if t.blocks.any fun b => b.num == k then t.blocks.map fun b => if b.num == k then add b else b
      else t.blocks ++ [add { num := k, quarters := [] }]
    { t with
      fmt := match t.fmt with | some g => some g | none => some f
      blocks := blocks, next := Nat.max t.next (k + 1), counts := t.counts.set i (k + 1) }

/-- A grant counted against the window of a warp's oldest subscription to a stream (R266, R285). -/
def State.advanceCursor (s : State) (c w n : Nat) : State :=
  let rec go : List Sub → List Sub
    | [] => []
    | b :: t =>
      if b.stream == n then
        (if b.window ≤ b.granted + 1 then { b with cursor := b.cursor + 1, granted := 0 } else { b with granted := b.granted + 1 }) :: t
      else b :: go t
  (s.updWarp c w fun x => { x with subs := go x.subs }).settleStream (coreCluster c) n

/-- The subscription that a performed STREND ends (R295). -/
def State.endSub (s : State) (c w n : Nat) : State :=
  let (before, rest) := match s.warp? c w with
    | some x => splitFirst (fun (b : Sub) => b.stream == n && b.ended) x.subs
    | none => ([], [])
  (s.updWarp c w fun x => { x with subs := before ++ rest.drop 1 }).settleStream (coreCluster c) n

/-- The key of a pre-empted warp in the subscriber sets: its task and its warp slot, above every core's number. -/
def Warp.awayKey (w : Warp) : Nat × Nat := (512 + w.task, w.slot)

/-- A stream in which a member stands under another key. -/
def Stream.rekey (old new : Nat × Nat) (t : Stream) : Stream :=
  { t with blocks := t.blocks.map fun b => { b with members := b.members.map fun m => if m == old then new else m } }

/-- The subscriptions of a warp that is taken out of the machine stay with their streams (R266, R279). -/
def State.subsAway (s : State) (w : Warp) : State :=
  w.subs.foldl (fun s b => s.updStream (coreCluster w.core) b.stream fun t =>
    let t := t.rekey (w.core, w.slot) w.awayKey
    { t with away := t.away ++ [(w.awayKey, b.cursor)] }) s

/-- A stream without a pre-empted warp. -/
def Stream.forget (k : Nat × Nat) (t : Stream) : Stream :=
  { t with away := t.away.filter (fun x => x.1 != k)
           blocks := t.blocks.map fun b => { b with members := b.members.filter (· != k) } }

/-- A block put among those of a stream by its number: one that is still held gets its members. -/
def Stream.putBlock (t : Stream) (b : Block) : Stream :=
  if t.blocks.any fun y => y.num == b.num then
    { t with blocks := t.blocks.map fun y => if y.num == b.num then { y with members := (y.members ++ b.members).eraseDups } else y }
  else
    { t with blocks := (t.blocks.filter fun y => y.num < b.num) ++ b :: t.blocks.filter fun y => b.num < y.num
             next := Nat.max t.next (b.num + 1) }

/-- A subscription of a warp that returns to core and slot `p`: on its own cluster its stream knows it again; on another one the blocks that
it has not finished with come with it, and the stream's numbers where the stream is idle there (R404; assumption log 69). -/
def State.subBack (s : State) (w : Warp) (p : Nat × Nat) (n : Nat) : State :=
  let k := w.awayKey
  let cl := coreCluster w.core
  let new := coreCluster p.1
  let t := (s.engine cl).stream n
  if cl = new then
    s.updStream cl n fun t =>
      let t := t.rekey k p
      { t with away := t.away.filter fun x => x.1 != k }
  else
    let mine := (t.blocks.filter fun b => b.members.contains k).map fun b => { b with members := [p] }
    let s := (s.updStream cl n (Stream.forget k)).settleStream cl n
    s.updStream new n fun u =>
      if u.blocks.isEmpty && (s.membersOf new n).isEmpty then { t with blocks := mine, away := [] }
      else mine.foldl Stream.putBlock u

/-- The subscriptions of a warp that returns, but for those that a reset of the engine has ended (Table 13-5). -/
def State.subsLeft (s : State) (w : Warp) : List Sub :=
  w.subs.filter fun b => ((s.engine (coreCluster w.core)).stream b.stream).away.any fun x => x.1 == w.awayKey

/-- The subscriptions of pre-empted warps of tasks that will not return end. -/
def State.dropAway (s : State) (ids : List Nat) : State :=
  let gone := fun (x : Nat × Nat) => ids.any fun i => x.1 == 512 + i
  s.eng.engines.foldl (fun s g => (upTo 8).foldl (fun s n =>
    if (g.stream n).away.any fun x => gone x.1 then
      (s.updStream g.cluster n fun t =>
        { t with away := t.away.filter fun x => !gone x.1
                 blocks := t.blocks.map fun b => { b with members := b.members.filter fun m => !gone m } }).settleStream g.cluster n
    else s) s) s

/-- A register of all 32 lanes of a warp, whatever the mask; `d` where a lane holds no live thread (R286, R293). -/
def State.lanesReg (s : State) (c w r : Nat) (d : Word) : List Word :=
  (upTo 32).map fun l => match s.laneOf c w l with
    | some t => t.reg r
    | none => d

end Sys2Proof.Machine
end

