-- ==== Sys2Proof/Machine/MatrixSteps.lean ====
section
/-! DEFINITION. The matrix engine at work (13 R261, R266 to R279; 14 R281 to R296): grants, passes, the tile port, ageing, the
watchdog, abandoned passes and the reset of an engine. -/

namespace Sys2Proof.Machine

open Sys2Proof

/-! ## Passes -/

/-- The block at the cursor of a warp's oldest subscription to a stream, once it is complete (R261, R266), from the cycle after its last
quarter on, when the quarters of a cycle stand in their order (R293). -/
def State.blockFor (s : State) (c w st : Nat) : Option Block :=
  match (s.warp? c w).bind fun x => x.oldSub? st with
  | none => none
  | some b => ((s.engine (coreCluster c)).stream st).blocks.find? fun k => k.num == b.cursor && k.complete && k.quarters.all fun q => q.2.at_ < s.dev.cycle

/-- Whether a request ends in FORMAT before its pass (R285): the stream's format, or the kind of the name's tiles. -/
def passBad (t : PassTy) (nw : Bool) (f : Option SFmt) (n : ZName) : Bool :=
  (match f with | some g => !t.accepts g | none => true) ||
    (!nw && (match n.held with | some k => k != (PassTy.shape t).kind | none => false))

/-- Whether a request binds fresh tiles at its grant (R268, R285). -/
def passFresh (nw : Bool) (n : ZName) : Bool := nw || (n.held.isNone && n.lost.isNone)

/-- Whether the entry at the head of a warp's qm is ready (R261). -/
def State.ready (s : State) (e : QEntry) : Bool :=
  match e.op? with
  | some (.pass t nw st z _ _) =>
    s.eng.isHead e.id && s.acting (s.warpTask e.core e.warp) && (s.blockFor e.core e.warp st).isSome &&
      (let n := s.zname e.core e.warp z
       !passFresh nw n || passBad t nw ((s.engine (coreCluster e.core)).stream st).fmt n ||
         ZKind.tiles (PassTy.shape t).kind ≤ (s.freeTiles e.core).length)
  | some (.zscale _ _ _ _) => s.eng.isHead e.id && s.acting (s.warpTask e.core e.warp)
  | _ => false

/-- The priority of an entry: that of the pour whose task issued it (R261). -/
def State.entryPrio (s : State) (e : QEntry) : Nat :=
  match s.task? (s.warpTask e.core e.warp) with
  | some t => t.prio
  | none => 0

/-- The entry that the arbiter grants to a core's array (R261): an aged one first, the oldest of them; else the highest
priority, and the oldest within it. -/
def State.grantOf (s : State) (c : Nat) : Option QEntry :=
  let l := sortBy (fun (a b : QEntry) => a.since < b.since) (s.eng.queue.filter fun e => e.core == c && s.ready e)
  match l.find? fun e => e.aged with
  | some e => some e
  | none => (sortBy (fun (a b : QEntry) => s.entryPrio b < s.entryPrio a) l).head?

/-- The state with a granted pass (R261, R269): a request on a fresh tile binds its name now, and the grant counts against the window of
its subscription (R266). -/
def State.grant (s : State) (cl a : Nat) (e : QEntry) : State :=
  let run := fun (b : Option Block) (f : Option SFmt) =>
    ({ array := a, entry := e.id, start := s.dev.cycle, block := b, fmt := f } : Run)
  match e.op? with
  | some (.pass t nw st z rows _) =>
    let f := ((s.engine cl).stream st).fmt
    let n := s.zname e.core e.warp z
    let s' := if passFresh nw n && !passBad t nw f n then
        match s.bindFresh e.core e.warp z (PassTy.shape t).kind (rows.map (·.1)) with
        | some s => s
        | none => s
      else s
    (s'.updEngine cl fun g => { g with runs := g.runs ++ [run (s.blockFor e.core e.warp st) f] }).advanceCursor e.core e.warp st
  | _ => s.updEngine cl fun g => { g with runs := g.runs ++ [run none none] }

/-- MATRIX_GRANT (R261). -/
def execMatrixGrant (s : State) : Host.Outcome State Fault Refusal :=
  let cl := s.arg.x
  let a := s.arg.y
  .next (if (s.engine cl).stopped || (s.engine cl).busy || 4 ≤ a || (s.engine cl).runs.any (fun r => r.array == a) then s
    else match s.grantOf (4 * cl + a) with
      | some e => s.grant cl a e
      | none => s)

/-- The pass of an array. -/
def State.runOf (s : State) (cl a : Nat) : Option Run := (s.engine cl).runs.find? fun r => r.array == a

/-- The state without the pass of an array. -/
def State.dropRun (s : State) (cl a : Nat) : State :=
  s.updEngine cl fun g => { g with runs := g.runs.filter fun r => r.array != a }

/-- An entry of the queue. -/
def State.entry? (s : State) (id : Nat) : Option QEntry := s.eng.queue.find? fun e => e.id == id

/-- Cycles of a pass (Table 13-1, R275). -/
def TileOp.cycles : TileOp → Nat
  | .pass (.mma .f64f64) _ _ _ _ _ => 64
  | _ => 8

/-- Element j of a row: a word, or a pair (R267). -/
def rowElem (k : ZKind) (ws : List Word) (j : Nat) : Nat :=
  match k with
  | .f32 | .i32 => (ws.getD j 0).toNat
  | .f64 => (mkPair (ws.getD (2 * j) 0) (ws.getD (2 * j + 1) 0)).toNat

/-- The words of a row. -/
def rowWords (k : ZKind) (l : List Fr) (sum : Fr) : List Word :=
  match k with
  | .f32 | .i32 => (l ++ [sum]).map fun x => BitVec.ofNat 32 x.1
  | .f64 => l.flatMap fun x => wordsOfNat 2 x.1

/-- The rows of a pass (R270 to R274), with the flags over the pass. -/
def State.passRows (s : State) (c w z : Nat) (t : PassTy) (f : SFmt) (b : Block) (book : List Word)
    (rows : List (Nat × List Word)) : BitVec 7 × State :=
  let k := (PassTy.shape t).kind
  let tiles := (s.zname c w z).tiles
  rows.foldl (fun (x : BitVec 7 × State) r =>
    let ws := x.2.zrow c k tiles r.1
    let (l, sum) := passRow t f b book r.2 (rowElem k ws) (rowElem .f32 ws 64)
    (l.foldl (fun fl e => fl ||| e.2) (x.1 ||| sum.2), x.2.putZrow c k tiles r.1 (rowWords k l sum))) (0, s)

/-- The rows of a ZSCALE (R275). -/
def State.scaleRows (s : State) (c w z : Nat) (sc zp : List Word) (lanes : List Nat) : BitVec 7 × State :=
  let tiles := (s.zname c w z).tiles
  lanes.foldl (fun (x : BitVec 7 × State) i =>
    let ws := x.2.zrow c .f32 tiles i
    let sum := rowElem .f32 ws 64
    let l := (upTo 64).map fun j => scaleElem (rowElem .f32 ws j) sum (sc.getD j 0).toNat (zp.getD j 0).toNat
    (l.foldl (fun fl e => fl ||| e.2) x.1, x.2.putZrow c .f32 tiles i (rowWords .f32 l (sum, 0)))) (0, s)

/-- What a request does when its pass ends (R285, R286, R277). -/
def State.performRequest (s : State) (e : QEntry) (r : Run) : State :=
  let c := e.core
  let w := e.warp
  match e.op? with
  | some (.pass t nw _ z rows book) =>
    let n := s.zname c w z
    if !nw && n.lost.isSome then s
      else match r.block, r.fmt with
        | some b, some f =>
          if passBad t nw r.fmt n || (match t with | .mmal _ => b.lutBad (PassTy.shape t) | _ => false) then s.lose c w z .format
          else
            let (fl, s) := s.passRows c w z t f b book rows
            s.post c w fl
        | _, _ => s
  | some (.zscale z lanes sc zp) =>
    let n := s.zname c w z
    (match n.lost, n.held with
     | none, some .f32 =>
       let (fl, s) := s.scaleRows c w z sc zp lanes
       s.post c w fl
     | none, some _ => s.lose c w z .format
     | _, _ => s)
  | _ => s

/-- PASS_COMPLETE (R271, R275, R285). -/
def execPassComplete (s : State) : Host.Outcome State Fault Refusal :=
  let cl := s.arg.x
  let a := s.arg.y
  .next (match s.runOf cl a with
    | none => s
    | some r =>
      match s.entry? r.entry with
      | none => s.dropRun cl a
      | some e =>
        let n := match e.op? with | some o => o.cycles | none => 0
        if s.dev.cycle < r.start + n then s
        else ((s.performRequest e r).dropRun cl a).entryDone e.id)

/-- An entry of a core as its readiness ages (R261). -/
def State.agedEntry (s : State) (c : Nat) (e : QEntry) : QEntry :=
  if e.core == c && e.isRequest then
    if s.ready e then
      match e.ready with
      | none => { e with ready := some s.dev.cycle }
      | some m => { e with aged := e.aged || m + 4096 ≤ s.dev.cycle }
    else { e with ready := none, aged := false }
  else e

/-- GRANT_AGEING (R261): the moment since which each entry of a core has been ready, and the entries ahead of the others. -/
def execGrantAgeing (s : State) : Host.Outcome State Fault Refusal :=
  .next (s.updEng fun g => { g with queue := g.queue.map (s.agedEntry (4 * s.arg.x + s.arg.y)) })

/-! ## The tile port (R281, R287 to R292) -/

/-- An access of a tile operation with the translations made at issue (R288); a read of an .nc page is one of type .nc (R214). -/
def State.keptPart (s : State) (o : Origin) (r : TileRow) (va n : Nat) (write : Option Nat) : EngRes :=
  match r.leaves.find? fun x => x.hits o.ctx va with
  | none => .wait
  | some x =>
    let key := x.leaf.key va
    if s.mem.retry (some o.core) key n then .wait
    else match s.settleOwn o key n with
      | none => .wait
      | some s =>
        match write with
        | some v => .val 0 0 (s.writeHome (some o.core) key n v)
        | none =>
          if s.mem.poisoned key n then .fault .poison 0 va s
          else if x.leaf.rtype = 3 then
            let (v, s) := s.readOrdered key n
            .val v 0 s
          else .val (s.readEngine o.core key n) 0 s

/-- The parts of the words of a row, lowest first: offset and bytes (R288, R350). -/
def rowParts (va w n : Nat) : List (Nat × Nat) :=
  (upTo n).flatMap fun i => (partsOf ((va + w * i) % 2 ^ 64) w).map fun p => (w * i + p.1, p.2)

/-- The read of a row. -/
def State.readRow (s : State) (o : Origin) (r : TileRow) : List (Nat × Nat) → EngRes
  | [] => .val 0 0 s
  | p :: ps =>
    (s.keptPart o r ((r.va + p.1) % 2 ^ 64) p.2 none).bind fun v _ s =>
      (s.readRow o r ps).bind fun x _ s => .val (v * 256 ^ p.1 + x) 0 s

/-- The write of a row. -/
def State.writeRow (s : State) (o : Origin) (r : TileRow) (v : Nat) : List (Nat × Nat) → EngRes
  | [] => .val 0 0 s
  | p :: ps =>
    (s.keptPart o r ((r.va + p.1) % 2 ^ 64) p.2 (some (v / 256 ^ p.1 % 256 ^ p.2))).bind fun _ _ s => s.writeRow o r v ps

/-- Bytes of the words of a row of a kind (R288). -/
def ZKind.width : ZKind → Nat
  | .f32 | .i32 => 4
  | .f64 => 8

/-- Words of a row of a kind (R288). -/
def ZKind.count : ZKind → Nat
  | .f32 | .i32 => 65
  | .f64 => 64

/-- Bytes that a row of an entry spans: of a ZSTO.bf16, or of the kind (R288, R290). -/
def ZKind.span (k : ZKind) (bf : Bool) : Nat := if bf then 128 else ZKind.width k * ZKind.count k

/-- The reads of the rows of a ZLD, and then their words in fresh tiles. -/
def State.loadRows (s : State) (o : Origin) (k : ZKind) (f : State → List (Nat × List Word) → EngRes) :
    List TileRow → List (Nat × List Word) → EngRes
  | [], got => f s got
  | r :: rs, got =>
    (s.readRow { o with slot := some r.slot } r (rowParts r.va (ZKind.width k) (ZKind.count k))).bind fun v _ s =>
      s.loadRows o k f rs (got ++ [(r.lane, wordsOfNat (ZKind.words k) v)])

/-- The value that ZSTO writes for a row, and its flags (R290). -/
def storedRow (bf : Bool) (ws : List Word) : Nat × BitVec 7 :=
  if bf then
    ((upTo 64).map fun j => Fp.cvt false .bf16 .f32 .rne (ws.getD j 0).toNat).foldr
      (fun x y => (x.1 % 2 ^ 16 + 2 ^ 16 * y.1, x.2 ||| y.2)) (0, 0)
  else (natOfWords ws, 0)

/-- The writes of the rows of a ZSTO. -/
def State.storeRows (s : State) (o : Origin) (bf : Bool) (k : ZKind) (tiles : List Nat) : List TileRow → EngRes
  | [] => .val 0 0 s
  | r :: rs =>
    let (v, fl) := storedRow bf (s.zrow o.core k tiles r.lane)
    let parts := if bf then rowParts r.va 2 64 else rowParts r.va (ZKind.width k) (ZKind.count k)
    (s.writeRow { o with slot := some r.slot } r v parts).bind fun _ _ s =>
      (s.storeRows o bf k tiles rs).bind fun _ fl' s => .val 0 (fl ||| fl') s

/-- The part of a row that ZMOV gives (R289). -/
def movedWords (k : ZKind) (sel : Nat) (ws : List Word) : List Word :=
  match k with
  | .f64 => (ws.drop (8 * sel)).take 8
  | .f32 | .i32 => if sel = 8 then (ws.drop 64).take 1 else (ws.drop (8 * sel)).take 8

/-- The results of a ZMOV: the canonical NaN in every register when its name is lost (R289). -/
def State.moveRows (s : State) (c w z sel : Nat) (k : ZKind) (lanes : List (Nat × Nat × Nat)) : State :=
  let n := s.zname c w z
  lanes.foldl (fun s l =>
    let ws := if n.lost.isSome || n.held != some k then List.replicate 8 (0x7FC00000 : Word)
      else movedWords k sel (s.zrow c k n.tiles l.1)
    s.updThread c l.2.1 fun t => t.answer l.2.2 0 (natOfWords ws) 0) s

/-- The entry at the head of a qm, performed by the tile port (R281): its place in the queue is kept while its tiles are not
free, while a pinned grain holds it up or while it waits in the miss table. -/
def State.tileEntry (s : State) (e : QEntry) (op : TileOp) : State :=
  let c := e.core
  let w := e.warp
  let task := s.warpTask c w
  let o : Origin := { core := c, slot := none, ctx := s.taskCtx task, priv := e.priv }
  let fault := fun (s : State) (n : Nat) (rows : List TileRow) (pc : Nat) (k : Access) (reason va : Nat) =>
    let slot := match rows.find? fun r => r.va ≤ va && va < r.va + n with | some r => r.slot | none => 0
    s.engFault o [.tile e.id] slot (s.taskIndex task) pc k reason va
  match op with
  | .pass _ _ _ _ _ _ | .zscale _ _ _ _ => s
  | .zclr k z lanes => (match s.bindFresh c w z k lanes with
    | some s => s.entryDone e.id
    | none => s)
  | .zld k z rows pc =>
    if (s.freeTiles c).length < ZKind.tiles k then s
    else
      let put := fun (s : State) (got : List (Nat × List Word)) =>
        match s.bindFresh c w z k (got.map (·.1)) with
        | some s => EngRes.val 0 0 (got.foldl (fun s g => s.putZrow c k (s.zname c w z).tiles g.1 g.2) s)
        | none => EngRes.wait
      (match s.loadRows o k put rows [] with
       | .val _ _ s => s.entryDone e.id
       | .wait | .stop => s
       | .fault kind reason va s => fault s (ZKind.span k false) rows pc kind reason va)
  | .zmov z sel k lanes => (s.moveRows c w z sel k lanes).entryDone e.id
  | .zsto bf z k rows pc =>
    let n := s.zname c w z
    if n.lost.isSome || n.held != some k then s.entryDone e.id
    else (match s.storeRows o bf k n.tiles rows with
      | .val _ fl s => (s.post c w fl).entryDone e.id
      | .wait | .stop => s
      | .fault kind reason va s => fault s (ZKind.span k bf) rows pc kind reason va)
  | .zrel z =>
    ((s.freeOf c (s.zname c w z).tiles).updName c w z fun n => { n with held := none, tiles := [], lost := none }).entryDone e.id
  | .zwait _ => s.entryDone e.id
  | .strend st => (s.endSub c w st).entryDone e.id

/-- Whether an access of a row would meet a retry from a pinned grain (R288, R351). -/
def State.rowRetry (s : State) (c ctx n : Nat) (r : TileRow) : Bool :=
  (wordKeys r.va n).any fun va =>
    match r.leaves.find? fun x => x.hits ctx va with
    | some x => s.mem.retry (some c) (x.leaf.key va) 4
    | none => false

/-- Whether an entry of the tile port stands stalled on a pinned grain (R288). -/
def State.tileStalled (s : State) (e : QEntry) : Bool :=
  let meets := fun (n : Nat) (rows : List TileRow) => rows.any (s.rowRetry e.core (s.taskCtx (s.warpTask e.core e.warp)) n)
  s.eng.isHead e.id && !s.held (.tile e.id) && match e.item with
    | .tile (.zld k _ rows _) => ZKind.tiles k ≤ (s.freeTiles e.core).length && meets (ZKind.span k false) rows
    | .tile (.zsto bf z k rows _) =>
      let n := s.zname e.core e.warp z
      n.lost.isNone && n.held == some k && meets (ZKind.span k bf) rows
    | _ => false

/-- Whether an entry stands behind one that a pinned grain stalls in the tile port of its core (R288): one placed before it (assumption log
77). -/
def State.portStalled (s : State) (e : QEntry) : Bool :=
  s.eng.queue.any fun x => x.core == e.core && x.id < e.id && s.acting (s.warpTask x.core x.warp) && s.tileStalled x

/-- TILE_PORT_PERFORM (R281). -/
def execTilePortPerform (s : State) : Host.Outcome State Fault Refusal :=
  let c := s.arg.x
  let w := s.arg.y
  .next (match (s.qm c w).head? with
    | none => s
    | some (e, op) =>
      if s.eng.isHead e.id && s.acting (s.warpTask c w) && !s.held (.tile e.id) && !s.portStalled e then s.tileEntry e op else s)

/-! ## Watchdog, abandoned passes and reset -/

/-- An engine grants nothing more and raises WATCHDOG (R278, R279). -/
def State.stopEngine (s : State) (cl : Nat) (task : Nat) : State :=
  (s.updEngine cl fun g => { g with stopped := true }).raise (cl / 32)
    { kind := .watchdog, ctx := s.taskCtx task, src := cl, data := BitVec.ofNat 32 cl, addr := 0 }

/-- The task whose pass an array runs. -/
def State.runTask (s : State) (r : Run) : Nat :=
  match s.entry? r.entry with
  | some e => s.warpTask e.core e.warp
  | none => 0

/-- WATCHDOG_TRIP (R278). -/
def execWatchdogTrip (s : State) : Host.Outcome State Fault Refusal :=
  let cl := s.arg.x
  .next (match s.runOf cl s.arg.y with
    | none => s
    | some r => if (s.engine cl).stopped || s.dev.cycle < r.start + 65536 then s else s.stopEngine cl (s.runTask r))

/-- The moment at which the pre-emption of a task was first requested, alone or with its context (R279). -/
def State.haltMoment (s : State) (task : Nat) : Option Nat :=
  match s.task? task with
  | none => none
  | some t =>
    let own := if t.phase = .halting then some t.haltAt else none
    match (s.ctx? t.ctx).filter fun c => c.phase == .halting with
    | some c => some (match own with | some m => Nat.min m c.haltAt | none => c.haltAt)
    | none => own

/-- PASS_ABANDON (R279). -/
def execPassAbandon (s : State) : Host.Outcome State Fault Refusal :=
  let cl := s.arg.x
  let a := s.arg.y
  .next (match s.runOf cl a with
    | none => s
    | some r =>
      match s.entry? r.entry, s.haltMoment (s.runTask r) with
      | some e, some m =>
        let tripped := (s.engine cl).stopped && r.start + 65536 ≤ s.dev.cycle
        if tripped || m + 64 ≤ s.dev.cycle then
          let task := s.runTask r
          let s := match e.op?.bind TileOp.name with
            | some z => s.lose e.core e.warp z .reset
            | none => s
          ((s.dropRun cl a).entryDone e.id).stopEngine cl task
        else s
      | _, _ => s)

/-- The names that a reset loses (Table 13-5): bound ones that hold a live tile or have a request outstanding. -/
def State.resetNames (s : State) (w : Warp) : List Nat :=
  (upTo 8).filter fun z =>
    let n := w.name z
    n.bound && (n.held.isSome || (s.qm w.core w.slot).any fun x => x.2.isRequest && x.2.name == some z)

/-- A reset of the matrix engine of a cluster (R278, R416, Table 13-5): it accepts grants again at once. -/
def State.resetEngine (s : State) (cl : Nat) : State :=
  let ws := s.warps.filter fun w => coreCluster w.core == cl
  let lost := ws.flatMap fun w => (s.resetNames w).map fun z => (w.core, w.slot, z)
  let s := lost.foldl (fun s x => s.lose x.1 x.2.1 x.2.2 .reset) s
  let s := { s with warps := s.warps.map fun (w : Warp) => if coreCluster w.core == cl then { w with subs := [] } else w }
  let s := s.updEng fun g => { g with queue := g.queue.filter fun e =>
    !(coreCluster e.core == cl && e.isRequest) }
  let s := s.updEngine cl fun g => { Engine.fresh cl with resets := g.resets + 1, busy := true }
  let s := (s.settleFences (s.eng.fences.length + 1)).settleWaits
  s.raise (cl / 32) { kind := .reset, ctx := 255, src := cl, data := BitVec.ofNat 32 cl, addr := 0 }

end Sys2Proof.Machine
end

