-- ==== Sys2Proof/Machine/Sweep.lean ====
section
/-! DEFINITION. The sweep engine (16 R318 to R340): jobs, dispatches, wakes, and the instructions of class 12 that act on
them. -/

namespace Sys2Proof.Machine

open Sys2Proof

/-! ## Jobs (R321 to R323) -/

/-- Whether the sweep under way runs forward (R320). -/
def Job.forward (j : Job) : Bool := schedOrder j.sched == 0 || (schedOrder j.sched == 2 && j.sweep % 2 == 0)

/-- The chunks of a job's sequence (R322). -/
def Job.chunks (j : Job) : Nat := (j.elems.length + 127) / 128

/-- The place, in the sweep's direction, of the chunk of a position of the sequence. -/
def Job.place (j : Job) (i : Nat) : Nat := if j.forward then i / 128 else j.chunks - 1 - i / 128

/-- The elements in sweep order, each with the place of its chunk (R323). -/
def Job.inOrder (j : Job) : List (Nat × Elem) :=
  let l := j.elems.mapIdx fun i e => (j.place i, e)
  if j.forward then l else l.reverse

/-- Whether an element may be dispatched in the sweep under way: awake, or flag-waiting with its line found full, and not yet
dispatched (R323, R325). -/
def Elem.ready (e : Elem) : Bool :=
  !e.out && !e.dispatched && !e.abandoned &&
    (match e.cond with | .awake => true | .flag _ => e.full | .done | .asleep | .later _ => false)

/-- Whether an element waits on a flag that is still to be tested in this sweep (R322). -/
def Elem.untested (e : Elem) : Bool :=
  !e.out && !e.dispatched && !e.abandoned && !e.tested &&
    (match e.cond with | .flag _ => true | .done | .awake | .asleep | .later _ => false)

/-- A batch for a number of lanes (R323). -/
def Job.batch (j : Job) (n : Nat) : List Elem :=
  ((j.inOrder.filter fun x => j.cursor ≤ x.1 && x.2.ready).map (·.2)).take (Nat.min n 32)

/-- Whether every element is DONE (R324). -/
def Job.allDone (j : Job) : Bool := j.elems.all fun e => e.cond == .done

/-- The scope of a job (R328). -/
def Job.scope (j : Job) : Scope := Scope.ofNat (schedScope j.sched)

/-- The job of a thread's team on its core, running or ended; none when the thread has no job (R334). -/
def State.jobOf (s : State) (t : Thread) : Option Job :=
  (s.job? t.core).filter fun j => t.teams.contains j.team

/-- The scratchpad lines of the task of a job (R319). -/
def State.jobLines (s : State) (j : Job) : Nat := (s.scratch j.task).lines

/-- The condition that a word gives an element in the sweep under way (R319, R325). -/
def State.condNow (s : State) (j : Job) (w : Word) : Option Cond :=
  match condOf j.sched (s.jobLines j) w with
  | some (.later n) => some (if n ≤ j.sweep then .awake else .later n)
  | c => c

/-! ## Dispatch (R336) -/

/-- NONE and END (R336). -/
def sweepNone : Nat := 0xFFFFFFFE
/-- END (R336). -/
def sweepEnd : Nat := 0xFFFFFFFF

/-- A lane of a SWNEXT receives a word in v0 and goes on (R336). -/
def State.sweepAnswer (s : State) (c k v : Nat) : State :=
  s.updThread c k fun t =>
    let t := t.addPending (t.result 0 1 v 0)
    match t.status with
    | .parked _ => t.release
    | .eligible | .stopped | .exited | .unused => t

/-- Whether a job ends now (R324). -/
def State.jobOver (s : State) (j : Job) : Bool :=
  j.running && !j.elems.any (·.out) &&
    (schedNsweep j.sched ≤ j.sweeps || j.allDone || j.abort
      || !s.threads.any fun t => t.core == j.core && t.live && t.teams.contains j.team)

/-- A lane whose element was not dispatched receives NONE, or waits for END where the job ends with that (R336). -/
def State.noElement (s : State) (c k : Nat) (addr : Pair) : State :=
  match (s.job? c).filter s.jobOver with
  | some _ => s.park c k (.sweep true addr.toNat 0)
  | none => s.sweepAnswer c k sweepNone

/-- The element that a lane was given is not dispatched: it takes a condition, and decrements held for it are applied (R336). -/
def State.notDispatched (s : State) (c k p : Nat) (addr : Pair) (cond : Cond) : State :=
  let s := s.updThread c k fun t => { t with dispatch := none }
  let s := s.updJob c fun j => j.updElem p fun e =>
    { e with cond := cond, out := false, dispatched := false, tested := false, full := false }
  (s.applyHeld c p).noElement c k addr

/-- An engine's read of 4-byte words one after another. -/
def State.engWords (s : State) (o : Origin) (va : Nat) : Nat → EngRes
  | 0 => .val 0 0 s
  | n + 1 => (s.engRead o va 4).bind fun v _ s => (s.engWords o (va + 4) n).bind fun w _ s => .val (v + 2 ^ 32 * w) 0 s

/-- A lane whose dispatch could not read waits: on its miss-table entry, or for the engine to try again (R331). -/
def State.dispatchWaits (s : State) (o : Origin) (t : Thread) (addr : Pair) (r : Option (Nat × Nat)) : State :=
  let s := s.updThread t.core t.slot fun t =>
    { t with status := .parked (.sweep true 0 0), dispatch := t.dispatch.map fun d => { d with due := true } }
  match r with
  | none => s
  | some (reason, va) =>
    let s := s.engFault o [.lane t.core t.slot 0] t.slot (s.taskNum t) addr.toNat .sweep reason va
    match s.mem.miss.find? fun m => m.waiters.contains (.lane t.core t.slot 0) with
    | some m => s.updThread t.core t.slot fun t => { t with status := .parked (.fault m.die m.num true) }
    | none => s

/-- The reads of a dispatch and what they decide (R336). -/
def State.deliver (s : State) (c k : Nat) : State :=
  match s.thread? c k, s.job? c with
  | some t, some j =>
    (match t.dispatch with
     | none => s
     | some d =>
       let p := d.elem
       let l := Lens.ofWords j.snap
       let o : Origin := { core := c, slot := some k, ctx := j.ctx, priv := s.privileged t }
       match s.engRead o (l.ctxAddr p) 4 with
       | .wait => s.dispatchWaits o t d.addr none
       | .stop => s.stopThread c k
       | .fault _ r va s => s.dispatchWaits o t d.addr (some (r, va))
       | .val v _ s =>
         let w : Word := BitVec.ofNat 32 v
         let go := fun (s : State) =>
           match s.engWords o (l.elemAddr p) (schedNword j.sched) with
           | .wait => s.dispatchWaits o t d.addr none
           | .stop => s.stopThread c k
           | .fault _ r va s => s.dispatchWaits o t d.addr (some (r, va))
           | .val ws _ s =>
             let s := s.updThread c k fun t =>
               { t.addPending (t.result 0 (2 + schedNword j.sched) (p + 2 ^ 32 * (v + 2 ^ 32 * ws)) 0) with
                 dispatch := some { d with due := false }, pc := schedEntry j.sched (cwState w), repLeft := 0 }
             s.updThread c k fun t => match t.status with
               | .parked _ => t.release
               | .eligible | .stopped | .exited | .unused => t
         match s.condNow j w with
         | none => (s.abandon c k).noElement c k d.addr
         | some .awake => go s
         | some (.flag n) =>
           if (match j.elem? p with | some e => e.cond == .flag n && e.full | none => false) = true then go s
           else s.notDispatched c k p d.addr (.flag n)
         | some cond => s.notDispatched c k p d.addr cond)
  | _, _ => s

/-- An element handed to a lane (R336, R328): it is out, and the lane acquires at a scope that covers every core. -/
def State.hand (s : State) (c k : Nat) (e : Elem) (addr : Pair) : State :=
  match s.job? c with
  | none => s
  | some j =>
    let s := s.updJob c fun j => j.updElem e.pos fun e => { e with out := true, dispatched := true }
    let s := s.updThread c k fun t => { t with dispatch := some { elem := e.pos, addr := addr } }
    (s.acquire c k (Scope.widen j.scope .pkg)).deliver c k

/-- A batch handed to the lanes of a SWNEXT, in ascending lane order; lanes without an element receive NONE (R336). -/
def State.handBatch (s : State) (c : Nat) (es : List Elem) (addr : Pair) : List Nat → State
  | [] => s
  | k :: ks =>
    match es with
    | [] => (s.sweepAnswer c k sweepNone).handBatch c [] addr ks
    | e :: rest => (s.hand c k e addr).handBatch c rest addr ks

/-- Whether a job hands out batches: it runs and does not end now (R324), and neither its task nor its context halts (R332). -/
def State.jobActs (s : State) (j : Job) : Bool := j.running && !s.jobOver j && !j.halted && s.acting j.task

/-! ## The end of a job (R324) -/

/-- A release by the engine of a core at a scope: everything that its threads have in flight is covered (R324, R328). -/
def State.releaseCore (s : State) (c : Nat) (sc : Scope) : List Nat → Option State
  | [] => some s
  | k :: ks =>
    match s.release c k sc with
    | some s => s.releaseCore c sc ks
    | none => none

/-- The threads of a core with requests in flight, and at least one of its slots. -/
def State.busySlots (s : State) (c : Nat) : List Nat :=
  ((s.mem.reqs.filter fun (r : Req) => r.core == c).map (fun (r : Req) => r.slot) ++ [0]).eraseDups

/-- The answer of a SWEND in its row, which is an acquire (R339). -/
def State.endAnswer (s : State) (t : Thread) (row v : Nat) (sc : Scope) : State :=
  (s.acquire t.core t.slot sc).updThread t.core t.slot fun t =>
    Thread.release (t.addPending { id := 0, dests := [(.row row, 0)], val := v })

/-- Every parked SWNEXT and SWEND of a job answered (R324). -/
def State.answerAll (s : State) (c : Nat) (j : Job) : State :=
  (s.threads.filter fun t => t.core == c && t.teams.contains j.team).foldl (fun s t =>
    match t.status with
    | .parked (.sweep true _ _) => (s.acquire c t.slot j.scope).sweepAnswer c t.slot sweepEnd
    | .parked (.sweep false row _) => s.endAnswer t row (j.sweeps % 2 ^ 32) j.scope
    | _ => s) s

/-- The last steps of a job's end: its release, the answers, and its place in qs (R324, R335). -/
def State.closeJob (s : State) (c : Nat) (j : Job) : State :=
  match s.releaseCore c j.scope (s.busySlots c) with
  | none => s
  | some s =>
    let s := s.answerAll c j
    let s := s.updJob c fun j => { j with running := false }
    let s := s.updEng fun g => { g with wakes := g.wakes.filter fun w => w.core != c }
    match s.eng.queue.find? fun e => e.core == c && e.queue == .qs && e.item == .job with
    | some e => s.entryDone e.id
    | none => s

/-- The job of a core has written its signature, or is not to write one (R324, R89). -/
def State.sealJob (s : State) (c : Nat) (j : Job) : State :=
  let j := { j with stamp := 0 }
  (s.updJob c fun _ => j).closeJob c j

/-- The end of the job of a core (R324); `stamp` says whether its signature is written (R89), which is done once. -/
def State.finishJob (s : State) (c : Nat) (stamp : Bool) : State :=
  match s.job? c with
  | none => s
  | some j =>
    let priv := match s.ctx? j.ctx with | some x => x.priv | none => false
    let o : Origin := { core := c, slot := none, ctx := j.ctx, priv := priv }
    if !stamp || j.stamp = 0 then s.sealJob c j
    else match s.engWrite o j.stamp 8 (schedSig j.sched) with
      | .val _ _ s => s.sealJob c j
      | .wait | .stop => s
      | .fault _ r va s => s.engFault o [.jobEnd j.task] 0 (s.taskIndex j.task) 0 .system r va

/-! ## SWBEG (R335) -/

/-- An engine's read on the way of a SWBEG; the newest value of the word (R327). -/
def State.swRead (s : State) (o : Origin) (va n : Nat) (k : Nat → State → MeshRes) : MeshRes :=
  match s.engReadNew o (va % 2 ^ 64) n with
  | .val v _ s => k v s
  | .fault kind r va s => .fault kind r va s
  | .wait => .wait
  | .stop => .stop

/-- Reads of words at addresses, one after another. -/
def State.swReads (s : State) (o : Origin) (n : Nat) (acc : List Nat) (k : List Nat → State → MeshRes) : List Nat → MeshRes
  | [] => k acc s
  | va :: vas => s.swRead o va n fun v s => s.swReads o n (acc ++ [v]) k vas

/-- Writes of context words (R329). -/
def State.swWrites (s : State) (o : Origin) (k : State → MeshRes) : List (Nat × Nat) → MeshRes
  | [] => k s
  | x :: xs =>
    match s.engWrite o x.1 4 x.2 with
    | .val _ _ s => s.swWrites o k xs
    | .fault kind r va s => .fault kind r va s
    | .wait => .wait
    | .stop => .stop

/-- The storage position of element number e of a lens that is not curve-keyed (R321). -/
def Lens.posOf (l : Lens) (e : Nat) : Nat :=
  let cs := (l.dims.foldl (fun (x : List Nat × Nat) k => (x.1 ++ [x.2 % l.extK k], x.2 / l.extK k)) ([], e)).1
  l.position fun k => cs.getD k 0

/-- The storage positions of a job's sequence; none above the largest length (R321, Table 16-4). Positions that several tuples
share are one element. -/
def sweepRange (l : Lens) (i n : Nat) : Option (List Nat) :=
  let lo := i * l.count / n
  let hi := (i + 1) * l.count / n
  if 262144 < hi - lo then none else some (((upTo (hi - lo)).map fun e => l.posOf (lo + e)).eraseDups)

/-- The sequence over a curve-keyed lens (R321): the leaves that the issuing die's replica gives to the core. -/
def leafRange (l : Lens) (t : CutTable) (core : Nat) (rs : List LeafRec) : Option (List Nat) :=
  let mine := rs.filter fun r => t.owner r.key == core
  if 262144 < mine.length * l.extK 0 then none
  else some (mine.flatMap fun r => (upTo (l.extK 0)).map fun c => c + r.slot * l.strideK 1)

/-- The answer of a SWBEG that raises a format fault. -/
def formatFault : Nat := 2 ^ 64

/-- The context words of a job's elements registered at their homes (R327): the word of each address. -/
def State.register (s : State) (o : Origin) (acc : List Nat) (k : List Nat → State → MeshRes) : List Nat → MeshRes
  | [] => k acc s
  | va :: vas =>
    match s.walkFor o.ctx va .read o.priv with
    | (.ok l, s) => s.register o (acc ++ [l.key va]) k vas
    | (.fault r, s) => .fault .sweep r va s
    | (.poison _, s) => .fault .sweep 0 va s
    | (.retry, _) => .wait

/-- A schedule record, read as LENSLD reads a lens record (R320, R49, R225). -/
def State.schedRead (s : State) (o : Origin) (t : Thread) (va : Nat) (k : List Word → State → MeshRes) : MeshRes :=
  match windowOff va with
  | some _ => s.recordRead o t va 20 fun v s => k (wordsOfNat 40 v) s
  | none => s.swReads o 8 [] (fun ws s => k (ws.flatMap fun w => wordsOfNat 2 w) s) ((upTo 20).map fun i => va + 8 * i)

/-- The job of a SWBEG in its core's engine, after its release (R328, R335). -/
def State.startJob (s : State) (L : Latch) (t : Thread) (j : Job) : MeshRes :=
  match s.releaseCore L.core j.scope (L.exec ++ s.busySlots L.core).eraseDups with
  | none => .wait
  | some s =>
    let s := s.updEng fun g => { g with jobs := g.jobs.filter (fun x => x.core != L.core) ++ [j] }
    let s := (s.enqueue L.core L.warp .qs .job (s.privileged t) [t.slot]).2
    .val (2 ^ 32 * j.elems.length) (if j.elems.isEmpty then s.finishJob L.core true else s)

/-- The contexts of a job's elements, each a position and its registered word, from the words it starts from (R329); a format fault when one is invalid. -/
def State.startWith (s : State) (L : Latch) (t : Thread) (j : Job) (ps : List (Nat × Nat)) (ws : List Nat) (cold : Bool) (o : Origin) :
    MeshRes :=
  let conds := ws.map fun w => s.condNow j (BitVec.ofNat 32 w)
  if conds.any Option.isNone then .val formatFault s
  else
    let j := { j with elems := (ps.zip conds).map fun x =>
      ({ pos := x.1.1, key := x.1.2, cond := match x.2 with | some c => c | none => .done } : Elem) }
    if cold then s.swWrites o (fun s => s.startJob L t j) ((ps.map fun p => (Lens.ofWords j.snap).ctxAddr p.1 % 2 ^ 64).zip ws)
    else s.startJob L t j

/-- Warm or cold start of a job over its positions (R329), whose words are registered before they are read (R327). -/
def State.startOver (s : State) (L : Latch) (t : Thread) (j : Job) (at_ : List Nat) (o : Origin) : MeshRes :=
  let vas := at_.map fun p => (Lens.ofWords j.snap).ctxAddr p % 2 ^ 64
  s.register o [] (fun keys s =>
    let ps := at_.zip keys
    let warm := fun (s : State) => s.swReads o 4 [] (fun ws s => s.startWith L t { j with warm := true } ps ws false o) vas
    let cold := fun (s : State) =>
      let init := schedInit j.sched
      if init = 0 then s.startWith L t j ps (ps.map fun _ => 0) true o
      else s.swReads o 4 [] (fun ws s => s.startWith L t j ps ws true o) (at_.map fun p => init + 4 * p)
    if j.stamp = 0 then cold s
    else s.swRead o j.stamp 8 fun v s => if v = schedSig j.sched then warm s else cold s) vas

/-- The job of a core that runs. -/
def State.runningJob (s : State) (c : Nat) : Option Job := (s.job? c).filter (·.running)

/-- The checks of Table 16-4 and the start of the job (R335). -/
def State.begin (s : State) (L : Latch) (t : Thread) (n team part stamp : Nat) (l : Lens) (snap sched : List Word) : MeshRes :=
  let o := { s.originOf t with unit := true }
  let idx := part % 2 ^ 16
  let count := if part / 2 ^ 16 = 0 then 1 else part / 2 ^ 16
  let j : Job := { core := L.core, team := team, task := t.task, ctx := o.ctx, lens := n, snap := snap, sched := sched
                   stamp := stamp, priv := o.priv, elems := [] }
  if (s.runningJob L.core).isSome then .val 1 s
  else if !schedOk sched then .val 2 s
  else if !(team < 64 && (s.team? L.core team).isSome && t.teams.contains team) then .val 4 s
  else if l.order = 2 then
    match s.mesh? o.ctx l.mesh with
    | none => .val formatFault s
    | some m => s.readSegs o 0 [] (fun rs s =>
        match leafRange l (m.rep (coreDie L.core)) L.core (sortLeaves rs) with
        | none => .val 3 s
        | some ps => s.startOver L t j ps o) m.segs
  else if count ≤ idx then .val 5 s
  else match sweepRange l idx count with
    | none => .val 3 s
    | some ps => s.startOver L t j ps o

/-- A SWBEG whose read faulted: its issuing lane parks in the miss table, and the other lanes wait there with it, as no waiters of the entry
(R331, R335; assumption log 15). -/
def State.sweepPark (s : State) (L : Latch) (t : Thread) (reason va : Nat) : State :=
  let s := s.meshPark L [t] .sweep reason va
  match s.thread? L.core t.slot with
  | none => s
  | some u =>
    match u.status with
    | .parked r => (L.exec.filter (· != t.slot)).foldl (fun s k => s.parkReplay L k r) s
    | .eligible | .stopped | .exited | .unused => s

/-- Whether a fence in qs holds a SWBEG of a core back (R249). -/
def State.sweepFenced (s : State) (c : Nat) : Bool :=
  (s.eng.queue.any fun e => e.core == c && e.queue == .qs && (match e.item with | .fence _ => true | _ => false)) && (s.runningJob c).isNone

/-- SWBEG (R335). It waits for a fence in qs (R249), but answers BUSY while a job runs. -/
def execSwbeg (d a : Reg) (i : Imm) (s : State) : Host.Outcome State Fault Refusal :=
  Ops.instr (.swbeg d a i) s fun L s =>
    s.withLens L i.toNat fun l snap =>
      if l.ctx = 0 || l.ro then .trap 12 0
      else if s.sweepFenced L.core then .stall s
      else match s.lowest L with
        | none => .done s
        | some t =>
          let o := s.originOf t
          let va := (t.pair a.toNat).toNat / 32 * 32
          let r := s.schedRead o t va fun sched s =>
            if (l.isQ4 || l.isLut) && schedNword sched != 0 then .val formatFault s
            else s.begin L t i.toNat (t.num d) (t.reg (d.toNat + 1)).toNat (t.pair (a.toNat + 2)).toNat l snap sched
          match r with
          | .val v s' => if v = formatFault then .trap 12 0 else .done (s.meshEnd L (s.lanes L) d 2 0 (.val v s'))
          | .fault _ reason va _ => .done (s.sweepPark L t reason va)
          | .stop => .done (s.meshEnd L (s.lanes L) d 2 0 .stop)
          | .wait | .mig _ => .done (s.meshEnd L (s.lanes L) d 2 0 .wait)

/-! ## SWNEXT, SWRET, SWAKE, SWEND, SWSTAT -/

/-- The last register that a SWNEXT checks in a lane (R336). -/
def State.nextTop (s : State) (t : Thread) : Nat :=
  match s.jobOf t with
  | some j => 1 + schedNword j.sched
  | none => 0

/-- The scope at which a thread without a running job acquires at the end of its job, or when it has none (R328). -/
def State.endScope (s : State) (t : Thread) : Scope :=
  match s.jobOf t with
  | some j => Scope.widen j.scope .pkg
  | none => .pkg

/-- SWNEXT (R336): lanes without a running job receive END; the others take a batch, or park. -/
def execSwnext (s : State) : Host.Outcome State Fault Refusal :=
  Ops.instr .swnext s fun L s =>
    let ts := s.lanes L
    if ts.any fun t => t.dispatch.isSome || t.regs.length ≤ t.wb + s.nextTop t then .trap 1 0
    else
      let (runs, rest) := ts.partition fun t => match s.jobOf t with | some j => j.running | none => false
      let s := rest.foldl (fun s t =>
        (s.acquire L.core t.slot (s.endScope t)).sweepAnswer L.core t.slot sweepEnd) s
      match runs, s.job? L.core with
      | [], _ => .done s
      | _, none => .done s
      | _, some j =>
        let es := if s.jobActs j then j.batch runs.length else []
        if es.isEmpty then
          let (id, s) := s.newId
          .done (runs.foldl (fun s t => s.park L.core t.slot (.sweep true L.first.toNat id)) s)
        else .done (s.handBatch L.core es L.first (runs.map (·.slot)))

/-- The writes of a SWRET's lane and the engine's update (R337). -/
def State.returnElem (s : State) (c k : Nat) (w : Word) : Option State :=
  match s.thread? c k, s.job? c with
  | some t, some j =>
    (match t.dispatch with
     | none => some s
     | some d =>
       let va := (Lens.ofWords j.snap).ctxAddr d.elem % 2 ^ 64
       match s.leafOf t va with
       | none => none
       | some l =>
         let key := l.key va
         if s.mem.retry (some c) key 4 then none
         else match s.drainAll c k with
           | none => none
           | some s =>
             let s := s.writeHome (some c) key 4 w.toNat
             let s := s.updThread c k fun t => { t with dispatch := none, pc := d.addr, repLeft := 0 }
             let s := s.updJob c fun j => j.updElem d.elem fun e => { e with out := false, full := false }
             let s := s.applyHeld c d.elem
             let now : Word := BitVec.ofNat 32 (s.mem.homeValue key 4)
             let s := s.updEng fun g => { g with wakes := g.wakes.filter fun x => !(x.core == c && x.pos == d.elem) }
             let cond := match condOf j.sched (s.jobLines j) now with | some x => x | none => .done
             some (s.updJob c fun j => j.updElem d.elem fun e => { e with cond := cond }))
  | _, _ => some s

/-- SWRET (R337). -/
def execSwret (a : Reg) (s : State) : Host.Outcome State Fault Refusal :=
  Ops.instr (.swret a) s fun L s =>
    let ts := s.lanes L
    if ts.any fun t => t.dispatch.isNone then .trap 1 0
    else match s.job? L.core with
      | none => .trap 1 0
      | some j =>
        if ts.any fun t => (condOf j.sched (s.jobLines j) (t.reg a.toNat)).isNone then .trap 12 0
        else
          let va := fun (t : Thread) => match t.dispatch with
            | some d => (Lens.ofWords j.snap).ctxAddr d.elem % 2 ^ 64
            | none => 0
          s.withPages L .write (ts.map fun t => { slot := t.slot, va := va t, width := 4 }) fun go s =>
            .done (s.eachLane L (ts.filter go) fun s t => s.returnElem L.core t.slot (t.reg a.toNat))

/-- The scope of a SWAKE's release (R328): that of the thread's running job, or .pkg, widened to hold the cores whose jobs hold
the element. -/
def State.wakeScope (s : State) (t : Thread) (key : Nat) : Scope :=
  let own := match s.jobOf t with
    | some j => if j.running then j.scope else .pkg
    | none => .pkg
  (s.holders key).foldl (fun sc h => Scope.widen sc (narrowest t.core h.1)) own

/-- One lane of a SWAKE (R338). -/
def State.wakeLane (s : State) (L : Latch) (t : Thread) (d : Reg) (va amt : Nat) : Option State :=
  match s.leafOf t va with
  | none => none
  | some l =>
    let key := l.key va
    match s.releaseBy L.core t.slot (s.wakeScope t key) with
    | none => none
    | some s =>
      if s.mem.retry (some L.core) key 4 then none
      else if s.mem.poisoned key 4 then some (s.poisonPark L (L.n - L.j) [(t.slot, va)])
      else
        let (w, s) := s.decrement L.core key amt
        some (s.answerLane L.core t.slot d w.toNat)

/-- SWAKE (R338). -/
def execSwake (d a : Reg) (i : Imm) (s : State) : Host.Outcome State Fault Refusal :=
  Ops.instr (.swake d a i) s fun L s =>
    s.withLens L i.toNat fun l _ =>
      if l.ctx = 0 || l.ro then .trap 12 0
      else
        let va := fun (t : Thread) => l.ctxAddr (t.num a) % 2 ^ 64
        let (on, off) := (s.lanes L).partition fun t => l.holds (t.num a)
        s.withPages L .write (on.map fun t => { slot := t.slot, va := va t, width := 4 }) fun go s =>
          let s := off.foldl (fun s t => s.answerLane L.core t.slot d (2 ^ 32 - 1)) s
          .done (s.eachLane L (on.filter go) fun s t => s.wakeLane L t d (va t) (t.reg (a.toNat + 1)).toNat)

/-- SWEND (R339). -/
def execSwend (ab : Bool) (d : Reg) (s : State) : Host.Outcome State Fault Refusal :=
  Ops.instr (.swend ab d) s fun L s =>
    let (id, s) := s.newId
    .done ((s.lanes L).foldl (fun s t =>
      match s.jobOf t with
      | none => s.answerLane L.core t.slot d (2 ^ 32 - 1)
      | some j =>
        if j.running then
          (if ab then s.updJob L.core fun j => { j with abort := true } else s).park L.core t.slot
            (.sweep false (t.wb + d.toNat) id)
        else (s.acquire L.core t.slot (s.endScope t)).answerLane L.core t.slot d (j.sweeps % 2 ^ 32)) s)

/-- A status word of a job (R340). -/
def Job.status (j : Job) (sel : Nat) : Nat :=
  match sel with
  | 0 => j.sweeps
  | 1 => (j.elems.filter fun e => e.cond == .done).length
  | 2 => (if j.running then 1 else 0) + (if j.warm then 2 else 0) + (if j.abort then 4 else 0)
      + (if !j.running && j.allDone then 8 else 0)
  | 3 => j.elems.length
  | _ => (j.elems.filter (·.abandoned)).length

/-- SWSTAT (R340). -/
def execSwstat (d : Reg) (i : Imm) (s : State) : Host.Outcome State Fault Refusal :=
  Ops.instr (.swstat d i) s fun L s =>
    .done (s.results L fun t => t.result d.toNat 1 (match s.jobOf t with
      | some j => j.status i.toNat % 2 ^ 32
      | none => 2 ^ 32 - 1) 0)

/-! ## The engine at work -/

/-- The state with an engine that moves its cursor: the flag-waiting elements of a chunk tested (R325). -/
def State.testFlags (s : State) (j : Job) (chunk : Nat) : Job :=
  let x := s.scratch j.task
  { j with elems := j.elems.mapIdx fun i e =>
      if j.place i == chunk && e.untested then
        { e with tested := true, full := match e.cond with | .flag l => x.isFull l | .done | .awake | .asleep | .later _ => false }
      else e }

/-- The SWEEP-waiting elements read again at the start of a sweep (R325): a stopped re-read leaves its element asleep (R89). -/
def State.rereadLater (s : State) (c : Nat) (o : Origin) (j : Job) (k : State → EngRes) : List Elem → EngRes
  | [] => k s
  | e :: es =>
    let va := (Lens.ofWords j.snap).ctxAddr e.pos % 2 ^ 64
    if j.skips.contains va then s.rereadLater c o j k es
    else (s.engReadNew o va 4).bind fun v _ s =>
      let cond := match s.condNow j (BitVec.ofNat 32 v) with | some x => x | none => e.cond
      (s.updJob c fun x => x.updElem e.pos fun e => { e with cond := cond }).rereadLater c o j k es

/-- On whose behalf a sweep engine works for no thread (R393). -/
def State.jobOrigin (s : State) (j : Job) : Origin :=
  { core := j.core, slot := none, ctx := j.ctx, priv := match s.ctx? j.ctx with | some x => x.priv | none => false }

/-- One element of a restored job registered at its home again, and read if it is asleep: a word found awake is a wake (R332). -/
def State.rereadOne (s : State) (j : Job) (p : Nat) : EngRes :=
  let o := s.jobOrigin j
  let va := (Lens.ofWords j.snap).ctxAddr p % 2 ^ 64
  if j.skips.contains va then .val 0 0 s
  else match s.walkFor o.ctx va .read o.priv with
    | (.fault r, s) => .fault .system r va s
    | (.poison _, s) => .fault .system 0 va s
    | (.retry, _) => .wait
    | (.ok l, s) =>
      let s := s.updJob j.core fun x => x.updElem p fun e => { e with key := l.key va }
      match j.elem? p with
      | some e =>
        if e.cond == .asleep then
          (s.engReadNew o va 4).bind fun v _ s =>
            .val 0 0 (if s.condNow j (BitVec.ofNat 32 v) == some .awake then
              s.updJob j.core fun x => x.updElem p fun e => { e with cond := .awake } else s)
        else .val 0 0 s
      | none => .val 0 0 s

/-- The elements of a restored job that are still to be registered and read again (R332); a fault is a system access's (R89). -/
def State.rereads (s : State) (c : Nat) : List Nat → State
  | [] => s
  | p :: ps =>
    match s.job? c with
    | none => s
    | some j =>
      match s.rereadOne j p with
      | .val _ _ s => (s.updJob c fun j => { j with reread := j.reread.filter (· != p) }).rereads c ps
      | .wait | .stop => s
      | .fault _ r va _ =>
        (s.updJob c fun j => { j with trying := va }).engFault (s.jobOrigin j) [.sweep j.task] 0 (s.taskIndex j.task) 0 .system r va

/-- Whether a wake on its way to a core's engine is for an element of the cursor's chunk: the cursor then stays, so that the wake finds its
element in the sweep it was sent in (R326, Table 16-5). -/
def State.wakeDue (s : State) (c : Nat) (mine : List (Nat × Elem)) : Bool :=
  s.eng.wakes.any fun w => w.core == c && mine.any fun x => x.2.pos == w.pos

/-- CURSOR_ADVANCE (R322): a restored job first reads its words again (R332); then the cursor tests its chunk, or leaves it; past the last one the sweep ends (R323). -/
def execCursorAdvance (s : State) : Host.Outcome State Fault Refusal :=
  let c := s.arg.x
  .next (match s.job? c with
    | none => s
    | some j =>
      if !j.running || s.jobOver j || j.halted || j.ended then s
      else if !j.reread.isEmpty then (if s.held (.sweep j.task) then s else s.rereads c j.reread)
      else
        let mine := (j.elems.mapIdx fun i e => (j.place i, e)).filter fun x => x.1 == j.cursor
        if mine.any fun x => x.2.untested then s.updJob c fun j => s.testFlags j j.cursor
        else if s.wakeDue c mine || mine.any (fun x => x.2.out || x.2.ready) then s
        else s.updJob c fun j =>
          let j := s.testFlags { j with cursor := j.cursor + 1 } (j.cursor + 1)
          if j.chunks ≤ j.cursor then { j with ended := true, sweeps := j.sweeps + 1 } else j)

/-- The start of the next sweep of a core's job (R323, R325). -/
def State.nextSweep (s : State) (c : Nat) : State :=
  match s.job? c with
  | none => s
  | some j =>
    let o := s.jobOrigin j
    let fresh := fun (e : Elem) => { e with dispatched := false, tested := false, full := false }
    let next := { j with sweep := j.sweep + 1, cursor := 0, ended := false, elems := j.elems.map fresh }
    let later := j.elems.filter fun e => !e.abandoned && (match e.cond with | .later _ => true | _ => false)
    match (s.updJob c fun _ => next).rereadLater c o next (fun s =>
        .val 0 0 (s.updJob c fun j => s.testFlags { j with skips := [] } 0)) later with
    | .val _ _ s => s
    | .wait | .stop => s
    | .fault _ r va _ =>
      (s.updJob c fun j => { j with trying := va }).engFault o [.sweep j.task] 0 (s.taskIndex j.task) 0 .system r va

/-- SWEEP_START (R325). -/
def execSweepStart (s : State) : Host.Outcome State Fault Refusal :=
  let c := s.arg.x
  .next (match s.job? c with
    | none => s
    | some j =>
      if j.running && !j.halted && j.ended && !s.jobOver j && !s.held (.sweep j.task) then s.nextSweep c else s)

/-- SWEEP_WAKE (R326): a wake of a core reaches its engine, and its element becomes awake, whatever the engine took its condition for
(R325). -/
def execSweepWake (s : State) : Host.Outcome State Fault Refusal :=
  let c := s.arg.x
  .next (match (s.eng.wakes.filter fun w => w.core == c)[s.arg.y]? with
    | none => s
    | some w =>
      let s := s.updEng fun g => { g with wakes := g.wakes.erase w }
      s.updJob c fun j => if j.running then j.updElem w.pos fun e => if e.abandoned || e.out then e else { e with cond := .awake } else j)

/-- The oldest parked SWNEXT of a core: its lanes in ascending order (R336). -/
def State.nextGroup (s : State) (c : Nat) : List Thread :=
  let all := s.threads.filter fun t => t.core == c && (match t.status with | .parked (.sweep true _ id) => id != 0 | _ => false)
  let id := fun (t : Thread) => match t.status with | .parked (.sweep _ _ id) => id | _ => 0
  match sortBy (fun (a b : Thread) => id a < id b) all with
  | [] => []
  | t :: _ => sortBy (fun (a b : Thread) => a.lane < b.lane) (all.filter fun x => id x == id t)

/-- The address of the SWNEXT of parked lanes, which their park keeps as its row. -/
def sweepAddr (ts : List Thread) : Pair :=
  match ts.head? with
  | some t => (match t.status with | .parked (.sweep _ n _) => BitVec.ofNat 64 n | _ => 0)
  | none => 0

/-- SWEEP_DISPATCH (R336): a dispatch whose reads are to be made again (R331), or a batch for the oldest parked SWNEXT. -/
def execSweepDispatch (s : State) : Host.Outcome State Fault Refusal :=
  let c := s.arg.x
  .next (match s.job? c with
    | none => s
    | some j =>
      if !s.jobActs j then s
      else match s.threads.find? fun t => t.core == c && (match t.status with | .parked (.sweep true _ _) => true | _ => false)
          && (match t.dispatch with | some d => d.due | none => false) with
        | some t => s.deliver c t.slot
        | none =>
          let g := s.nextGroup c
          let es := j.batch g.length
          if es.isEmpty then s
          else s.handBatch c es (sweepAddr g) (g.map (·.slot)))

/-- JOB_END (R324). -/
def execJobEnd (s : State) : Host.Outcome State Fault Refusal :=
  let c := s.arg.x
  .next (match s.job? c with
    | none => s
    | some j => if s.jobOver j && !j.halted && !s.held (.jobEnd j.task) then s.finishJob c true else s)

end Sys2Proof.Machine
end

