-- ==== Sys2Proof/Machine/Images.lean ====
section
/-! DEFINITION. The room of a core (05 R95 to R97), and saving and restoring the state of tasks (20 R402 to R406): what is
taken out of the machine, and how it is put back in the places that it gets. -/

namespace Sys2Proof.Machine

open Sys2Proof

/-! ## Room (R95 to R97, R100) -/

/-- Whether a task holds its warp slots and registers. -/
def Task.placed (t : Task) : Bool :=
  match t.phase with
  | .running | .halting | .retiring _ => true
  | .waiting | .ready | .saved | .retired => false

/-- The warp slots that a task takes (Table 5-1). -/
def Task.w (t : Task) : Nat := (t.nthr + 31) / 32

/-- The registers of each thread of a task (R74). -/
def Task.regs (t : Task) : Nat := 16 * (t.ngr + 1)

/-- The free warp slots of a core, lowest first. -/
def State.freeWarps (s : State) (c : Nat) : List Nat :=
  (upTo 64).filter fun w => !s.tasks.any fun t => t.placed && t.core == c && t.warps.contains w

/-- The register runs in use on a core: first row and rows. -/
def State.regRuns (s : State) (c : Nat) : List (Nat × Nat) :=
  (s.tasks.filter fun t => t.placed && t.core == c).flatMap fun t => t.offs.map fun o => (o, t.regs)

/-- The scratchpad lines in use on a core; those of a gang's retired members too (R100). -/
def State.lineRuns (s : State) (c : Nat) : List (Nat × Nat) :=
  (s.tasks.filter fun t => t.core == c && (t.placed || t.phase == .retired) && t.scratch.lines != 0).map
    fun t => (t.scratch.base, t.scratch.lines)

/-- The lowest place, in steps of `unit`, for a run of `n` below `cap` that meets no run in use (R96). -/
def firstFit (runs : List (Nat × Nat)) (unit cap n : Nat) : Option Nat :=
  ((upTo (cap / unit + 1)).map (· * unit)).find? fun o => o + n ≤ cap && runs.all fun r => o + n ≤ r.1 || r.1 + r.2 ≤ o

/-- Places for `k` runs of `n` registers, one after another (R96). -/
def regPlaces (runs : List (Nat × Nat)) (n : Nat) : Nat → Option (List Nat)
  | 0 => some []
  | k + 1 =>
    match firstFit runs 16 4096 n with
    | none => none
    | some o => (regPlaces (runs ++ [(o, n)]) n k).map (o :: ·)

/-- The free team numbers of a core, lowest first (Table 5-1). -/
def State.freeTeams (s : State) (c : Nat) : List Nat := (upTo 64).filter fun n => (s.team? c n).isNone

/-- The places that a task gets on a core. -/
structure Room where
  warps : List Nat
  offs : List Nat
  line : Nat
  teams : List Nat

/-- The scratchpad lines that a task needs. -/
def State.taskLines (s : State) (t : Task) : Nat :=
  match s.pour? t.ctx t.pour with
  | some p => (match p.nodes[t.node]? with | some n => n.sl | none => 0)
  | none => 0

/-- The team records that a task needs: one, or those it was saved with. -/
def Task.teamsNeeded (t : Task) : Nat :=
  match t.image with
  | some i => i.teams.length
  | none => 1

/-- The room of a task on a core; none when the core cannot supply all of it (R95). A saved task waits for
a core that has its tiles free, and whose sweep engine is free for its job. -/
def State.roomFor? (s : State) (c : Nat) (t : Task) : Option Room :=
  let ws := (s.freeWarps c).take t.w
  let ts := (s.freeTeams c).take t.teamsNeeded
  let busy := match t.image with
    | some i => i.jobs.any (·.running) && (match s.job? c with | some j => j.running | none => false)
        || (s.freeTiles c).length < i.tiles.length
    | none => false
  if ws.length < t.w || ts.length < t.teamsNeeded || busy then none
  else match regPlaces (s.regRuns c) t.regs t.w, firstFit (s.lineRuns c) 1 2048 (s.taskLines t) with
    | some os, some l => some { warps := ws, offs := os, line := l, teams := ts }
    | _, _ => none

/-! ## What a save waits for (R402) -/

/-- The task of a thread slot. -/
def State.slotTask (s : State) (c k : Nat) : Option Nat := (s.thread? c k).map (·.task)

/-- Whether a thread slot belongs to one of some tasks. -/
def State.slotIn (s : State) (ids : List Nat) (c k : Nat) : Bool :=
  match s.slotTask c k with
  | some t => ids.contains t
  | none => false

/-- Whether a request waits on a fault of its own (R228, R369). -/
def Req.stalled (r : Req) : Bool := r.stall.isSome

/-- Whether a POUR of some tasks waits for the start of its pour (R82). -/
def State.pouring (s : State) (ids : List Nat) : Bool :=
  s.ctxs.any fun c => c.pours.any fun p => match p.caller with | some (c, k, _) => s.slotIn ids c k | none => false

/-- Whether everything that the threads of some tasks have issued has been performed, but for what waits on a fault, and none of
them is in the middle of a compound or of a granted pass (R401, R402). -/
def State.quiet (s : State) (ids : List Nat) : Bool :=
  (match s.issue with | some L => !ids.contains (s.warpTask L.core L.warp) | none => true)
  && !s.eng.engines.any (fun g => g.runs.any fun r => ids.contains (s.runTask r))
  && !s.eng.queue.any (fun e => (match e.item with | .gath _ => !s.held (.gath e.id) | _ => false) && ids.contains (s.warpTask e.core e.warp))
  && !s.mem.reqs.any (fun r => !r.stalled && s.slotIn ids r.core r.slot)
  && !s.mem.ranges.any (fun r => s.slotIn ids r.core r.slot)
  && !s.mem.early.any (fun e => s.slotIn ids e.core e.slot && s.mem.reqs.any fun q => q.id == e.req)
  && !s.eng.arrivals.any (fun a => s.slotIn ids a.src a.slot)
  && !s.eng.meshes.any (fun m => m.waiter.any fun w => s.slotIn ids w.1 w.2.1)
  && !s.pouring ids

/-! ## Taking tasks out -/

/-- A thread that issues a compound again. -/
def Thread.reissue (pc : Pair) (rep : Nat) (g : Option Guard) (t : Thread) : Thread :=
  { t with status := .eligible, pc := pc, repLeft := rep, guard := g, mark := false }

/-- The watches of some tasks dropped: their threads issue the WAITV again (R381, Table 20-7). -/
def State.dropWatches (s : State) (ids : List Nat) : State :=
  let mine := s.mem.watches.filter fun w => s.slotIn ids w.core w.slot
  let s := mine.foldl (fun s w => s.updThread w.core w.slot (Thread.reissue w.pc w.rep w.guard)) s
  s.updMem fun m => { m with watches := m.watches.filter fun w => !mine.contains w }

/-- The LENSLDs of some tasks that wait on references are not performed: they are issued again (Table 20-7). -/
def State.dropLoads (s : State) (ids : List Nat) : State :=
  let hit := fun (w : LensWait) => w.slots.any fun k => s.slotIn ids w.core k
  let all := s.ctxs.flatMap fun c => c.lenses.flatMap fun e => e.queue.filter hit
  let back := fun (s : State) (w : LensWait) =>
    (w.slots.zip w.guards).foldl (fun s x => s.updThread w.core x.1 (Thread.reissue w.pc w.rep x.2)) s
  let drop := fun (e : LensEntry) =>
    let q := e.queue.filter fun w => !hit w
    if e.queue.any hit then
      { e with queue := q, state := if !q.isEmpty then .loading else if e.snap.isEmpty then .empty else .loaded }
    else e
  let s' := { s with ctxs := s.ctxs.map fun c => { c with lenses := c.lenses.map drop } }
  all.foldl back s'

/-- The results of a thread that have come back are written, their flags to its warp (R402). -/
def Thread.land (t : Thread) : Thread :=
  let (done, left) := t.pending.partition fun p => p.parts == 0
  { done.foldl (fun t p => p.dests.foldl (fun t d => t.putDest d.1 (BitVec.ofNat 32 (p.val / 2 ^ (32 * d.2)))) t) t with
    pending := left }

/-- The flags of the results of a thread that have come back. -/
def Thread.landFlags (t : Thread) : BitVec 7 := (t.pending.filter fun p => p.parts == 0).foldl (fun f p => f ||| p.flags) 0

/-- The results of some tasks written. -/
def State.landAll (s : State) (ids : List Nat) : State :=
  let s := (s.threads.filter fun t => ids.contains t.task).foldl (fun s t => s.post t.core t.warp t.landFlags) s
  { s with threads := s.threads.map fun t => if ids.contains t.task then t.land else t }

/-- The records of some tasks, and the state without them (R403). -/
def State.capture (s : State) (ids : List Nat) : TaskImage × State :=
  let s := (((s.dropWatches ids).dropLoads ids).landAll ids).leaveCompounds ids
  let mineT := fun (t : Thread) => ids.contains t.task
  let mineW := fun (w : Warp) => ids.contains w.task
  let mineE := fun (e : QEntry) => ids.contains (s.warpTask e.core e.warp)
  let mineJ := fun (j : Job) => ids.contains j.task
  let mineR := fun (r : Req) => s.slotIn ids r.core r.slot
  let warps := s.warps.filter mineW
  let named := warps.flatMap fun w => w.names.flatMap fun n => n.tiles.map fun k => (w.core, k)
  let queue := s.eng.queue.filter mineE
  let fenced := fun (f : FenceRec) => queue.any fun e => e.item == .fence f.id
  let img : TaskImage :=
    { threads := (s.threads.filter mineT).map fun (t : Thread) => { t with fetched := [], grains := [] }
      warps := warps, teams := s.teams.filter fun t => ids.contains t.task, queue := queue
      fences := s.eng.fences.filter fenced, tiles := s.eng.tiles.filter fun t => named.contains (t.core, t.num)
      jobs := s.eng.jobs.filter mineJ, reqs := s.mem.reqs.filter mineR }
  let t := { s with
    threads := s.threads.filter fun t => !mineT t
    warps := s.warps.filter fun w => !mineW w
    teams := s.teams.filter fun t => !ids.contains t.task }
  let t := t.updEng fun g =>
    { g with
      queue := g.queue.filter fun e => !mineE e
      fences := g.fences.filter fun f => !fenced f
      tiles := g.tiles.filter fun t => !named.contains (t.core, t.num)
      jobs := g.jobs.filter fun j => !mineJ j
      wakes := g.wakes.filter fun w => !(s.eng.jobs.any fun j => mineJ j && j.core == w.core) }
  let t := t.updMem fun m => { m with reqs := m.reqs.filter fun r => !mineR r }
  (img, warps.foldl State.subsAway t)

/-! ## Putting tasks back -/

/-- Where things stand again: warp slots, teams and tiles, by core and number. -/
structure Reloc where
  warps : List ((Nat × Nat) × (Nat × Nat))
  teams : List ((Nat × Nat) × (Nat × Nat))
  tiles : List ((Nat × Nat) × (Nat × Nat))

/-- The place of a pair in a list of places; itself where it has none. -/
def newPlace (l : List ((Nat × Nat) × (Nat × Nat))) (x : Nat × Nat) : Nat × Nat :=
  match l.find? fun y => y.1 == x with
  | some y => y.2
  | none => x

/-- The new core of a core. -/
def Reloc.core (r : Reloc) (c : Nat) : Nat :=
  match r.warps.find? fun y => y.1.1 == c with
  | some y => y.2.1
  | none => c

/-- The new thread slot of a thread slot (R132). -/
def Reloc.slot (r : Reloc) (c k : Nat) : Nat × Nat :=
  let w := newPlace r.warps (c, k / 32)
  (w.1, 32 * w.2 + k % 32)

/-- The new number of a team. -/
def Reloc.team (r : Reloc) (c n : Nat) : Nat := (newPlace r.teams (c, n)).2

/-- A thread in its new place. -/
def Reloc.thread (r : Reloc) (t : Thread) : Thread :=
  let p := r.slot t.core t.slot
  { t with
    core := p.1, slot := p.2, warp := (newPlace r.warps (t.core, t.warp)).2
    teams := t.teams.map fun n => if n = 255 then 255 else r.team t.core n
    mates := t.mates.map fun k => (r.slot t.core k).2
    seen := t.seen.map fun x => ((r.team t.core x.1.1, x.1.2), x.2)
    status := match t.status with
      | .parked (.wregrp n row) => .parked (.wregrp (r.team t.core n) row)
      | .parked (.bwait n p) => .parked (.bwait (r.team t.core n) p)
      | .eligible | .parked _ | .stopped | .exited | .unused => t.status }

/-- A warp in its new place. -/
def Reloc.warp (r : Reloc) (w : Warp) : Warp :=
  let p := newPlace r.warps (w.core, w.slot)
  { w with
    core := p.1, slot := p.2
    names := w.names.map fun n => { n with tiles := n.tiles.map fun k => (newPlace r.tiles (w.core, k)).2 } }

/-- What an entry of a queue does, in its new place. -/
def Reloc.item (r : Reloc) (c : Nat) (x : QItem) : QItem :=
  let sl := fun (k : Nat) => (r.slot c k).2
  let rows := fun (l : List TileRow) => l.map fun y => { y with slot := sl y.slot }
  match x with
  | .copy j => .copy { j with slot := sl j.slot }
  | .gath g => .gath { g with lanes := g.lanes.map fun l => { l with slot := sl l.slot } }
  | .tile (.zld k z l pc) => .tile (.zld k z (rows l) pc)
  | .tile (.zsto b z k l pc) => .tile (.zsto b z k (rows l) pc)
  | .tile (.zmov z sel k l) => .tile (.zmov z sel k (l.map fun y => (y.1, sl y.2.1, y.2.2)))
  | .tile o => .tile o
  | .job => .job
  | .fence n => .fence n

/-- An entry of a queue in its new place. -/
def Reloc.entry (r : Reloc) (e : QEntry) : QEntry :=
  let w := fun (n : Nat) => (newPlace r.warps (e.core, n)).2
  { e with
    core := r.core e.core, warp := w e.warp, slots := e.slots.map (fun k => (r.slot e.core k).2), item := r.item e.core e.item
    queue := match e.queue with
      | .qm n => .qm (w n)
      | .qg n => .qg (w n)
      | .q n => .q n
      | .qs => .qs }

/-- A request in its new place. -/
def Reloc.req (r : Reloc) (q : Req) : Req :=
  let p := r.slot q.core q.slot
  { q with core := p.1, slot := p.2 }

/-- Whether what a thread was saved parked on has come about meanwhile, while no step could wake it (R152, R222, R50, R99, R351). -/
def State.parkOver (s : State) (t : Thread) : Bool :=
  match t.status with
  | .parked .retry => true
  | .parked (.line task l) => (s.scratch task).isFull l
  | .parked (.lens ctx n) => (s.lens ctx n).state != .loading
  | .parked (.member _ m) => (match s.member t m with | .unstarted _ => false | .absent | .at_ _ _ => true)
  | .eligible | .parked _ | .stopped | .exited | .unused => false

/-- The threads of some tasks whose park is over go on. -/
def State.unpark (s : State) (ids : List Nat) : State :=
  { s with threads := s.threads.map fun t => if ids.contains t.task && s.parkOver t then t.release else t }

/-- The records of an image back in the machine, in their new places, each thread with its park reason (R152, R403). -/
def State.restore (s : State) (r : Reloc) (i : TaskImage) : State :=
  let move := fun (t : Tile) => { t with core := r.core t.core, num := (newPlace r.tiles (t.core, t.num)).2 }
  let team := fun (t : Team) =>
    { t with core := r.core t.core, num := r.team t.core t.num, members := t.members.map fun k => (r.slot t.core k).2 }
  let fence := fun (f : FenceRec) => { f with core := r.core f.core, slots := f.slots.map fun k => (r.slot f.core k).2 }
  let kept := i.warps.map fun w => { w with subs := s.subsLeft w }
  let s := kept.foldl (fun s w => ((w.subs.map (·.stream)).eraseDups).foldl (fun s n => s.subBack w (newPlace r.warps (w.core, w.slot)) n) s) s
  let s := { s with
    threads := s.threads ++ i.threads.map r.thread
    warps := s.warps ++ kept.map r.warp
    teams := s.teams ++ i.teams.map team }
  let busy := fun (c : Nat) => match s.job? c with | some j => j.running | none => false
  let moved := i.jobs.map fun (j : Job) =>
    { j with
      core := r.core j.core, team := r.team j.core j.team, halted := false
      reread := if j.running then j.elems.map (·.pos) else [] }
  let jobs := moved.filter fun (j : Job) => j.running || !busy j.core
  let s := s.updEng fun g =>
    { g with
      queue := g.queue ++ i.queue.map r.entry
      fences := g.fences ++ i.fences.map fence
      tiles := g.tiles ++ i.tiles.map move
      jobs := g.jobs.filter (fun (j : Job) => !jobs.any fun (k : Job) => k.core == j.core) ++ jobs }
  let s := s.updMem fun m => { m with reqs := m.reqs ++ i.reqs.map r.req }
  let s := jobs.foldl (fun s j => s.rereads j.core j.reread) s
  let dies := (i.threads.map fun (t : Thread) => coreDie (r.core t.core)).eraseDups
  (dies.foldl (fun s d => s.deliverEvent d) s).unpark (i.threads.map fun (t : Thread) => t.task)

/-- The places of an image's tiles on their new cores: the lowest free ones (R269). -/
def State.tilePlaces (s : State) (core : Nat → Nat) (ts : List Tile) : List ((Nat × Nat) × (Nat × Nat)) :=
  let cs := (ts.map fun t => t.core).eraseDups
  cs.flatMap fun c => ((ts.filter fun t => t.core == c).zip (s.freeTiles (core c))).map fun x => ((c, x.1.num), (core c, x.2))

end Sys2Proof.Machine
end

