-- ==== Sys2Proof/Machine/Resume.lean ====
section
/-! DEFINITION. The end of a fault (20 R411, 04 R89): what each waiter of a miss-table entry does when it is answered with
replay or with stop. -/

namespace Sys2Proof.Machine

open Sys2Proof

/-- RRPUT moves past a record, with a release at .sys scope of the task's core (R419 step 3). -/
def State.advanceRing (s : State) (t : Task) : State :=
  (s.updMem fun m => m.releaseWork t.core).updCtx t.ctx fun c => { c with rrput := ((c.rrput + 1).setWidth 32).setWidth 64 }

/-! ## Replay -/

/-- A thread that was parked on an entry goes on (R398, R411): it issues its compound again, or resumes after it; one whose
sweep dispatch has reads to make again waits for them (R331). -/
def Thread.resumed (die n : Nat) (t : Thread) : Thread :=
  match t.status with
  | .parked (.fault d m after) =>
    if d = die && m = n then
      if (match t.dispatch with | some r => r.due | none => false) then { t with status := .parked (.sweep true 0 0) }
      else if after then t.release else { t with status := .eligible }
    else t
  | .eligible | .parked _ | .stopped | .exited | .unused => t

/-- The replay of a waiting lane begins with an acquire at .sys scope (R411); the start and the completion of a pour go on (R89). The others make
their access again when their own step runs. -/
def State.replayWaiter (s : State) (die n : Nat) (w : Waiter) : State :=
  match w with
  | .lane c k _ => (s.acquire c k .sys).updThread c k (Thread.resumed die n)
  | .pour ctx id => s.continuePour ctx id
  | .completion ctx id => s.completePour ctx id
  | .copy _ | .gath _ | .tile _ | .sweep _ | .queue _ | .retire _ | .switch _ _ _ | .jobEnd _ | .save _ | .gone _ _ _ => s

/-! ## Stop -/

/-- The core on which the latest job of a task stands. -/
def State.jobCore (s : State) (task : Nat) : Option Nat := (s.eng.jobs.find? fun j => j.task == task).map fun (j : Job) => j.core

/-- A queue whose access is stopped (Table 4-11): its status, its descriptor or its mould. A leaf record of its snapshot counts as its mould
(assumption log 66). -/
def State.stopQueue (s : State) (q : Nat) : State :=
  let x := s.queue q
  match x.report, x.snap with
  | some _, _ => s.putQueue { x with report := none }
  | none, none => s.putQueue { x.taken with rfault := true }
  | none, some ws => (s.putQueue (x.fail (dwords (natOfWords ws) 8) pourFault)).queueReport q

/-- A retire whose access is stopped (Table 4-11). -/
def State.stopRetire (s : State) (id page : Nat) : State :=
  match s.task? id with
  | none => s
  | some t =>
    match t.phase with
    | .retiring 1 => s.updTask id fun t => { t with skips := t.skips ++ [page] }
    | .retiring 3 => (s.advanceRing t).updTask id fun t => { t with phase := .retiring 4 }
    | .retiring 4 => s.updTask id fun t => { t with phase := .retiring 5 }
    | .retiring _ => s.updTask id fun t => { t with todo := t.todo.drop 1 }
    | .waiting | .ready | .running | .halting | .saved | .retired => s

/-- A pre-emption cancelled: the task goes on as though it had not been chosen (R405). -/
def State.cancelSave (s : State) (id : Nat) : State :=
  match s.task? id with
  | none => s
  | some t =>
    if t.phase = .halting then
      let s := s.updCtx t.ctx fun c => { c with tsUsed := match t.saveSlot with | some n => c.tsUsed.filter (· != n) | none => c.tsUsed }
      let runs : Bool := match s.ctx? t.ctx with | some c => c.phase == .running | none => false
      s.updTask id fun t => { t with phase := .running, saveSlot := none, counting := if runs then some s.dev.cycle else none }
    else s

/-- The records of every task that stands saved alone, changed. -/
def State.updSaved (s : State) (f : TaskImage → TaskImage) : State :=
  { s with tasks := s.tasks.map fun t => { t with image := t.image.map f } }

/-- The jobs of a saved task changed. -/
def TaskImage.updJobs (f : Job → Job) (i : TaskImage) : TaskImage := { i with jobs := i.jobs.map f }

/-- A waiter answered with stop (R411, Table 4-11), also where its entry or job lies in the records of a saved task (R406). A switch is never left half done: it is made again. A GATH goes on for the
lanes that are not stopped. -/
def State.stopWaiter (s : State) (m : Miss) (w : Waiter) : State :=
  match w with
  | .lane c k _ => (match s.thread? c k with
    | some t => if t.live then s.stopThread c k else s
    | none => s)
  | .copy id | .tile id => (s.entryDone id).updSaved fun i => { i with queue := i.queue.filter fun e => e.id != id }
  | .sweep id => (match s.jobCore id with
    | some c => s.updJob c fun j => { j with skips := j.skips ++ [j.trying] }
    | none => s.updSaved (TaskImage.updJobs fun j => if j.task = id then { j with skips := j.skips ++ [j.trying] } else j))
  | .pour ctx id => (s.updPour ctx id fun p => { p with todo := p.todo.drop 1 }).continuePour ctx id
  | .queue q => s.stopQueue q
  | .retire id => s.stopRetire id m.page
  | .completion ctx id => s.dropPour ctx id
  | .jobEnd id => (match s.jobCore id with
    | some c => s.finishJob c false
    | none => s.updSaved (TaskImage.updJobs fun j => if j.task = id then { j with stamp := 0 } else j))
  | .save id => s.cancelSave id
  | .gath _ | .switch _ _ _ | .gone _ _ _ => s

/-! ## The entry -/

/-- The requests that wait in an entry are made again, or never made (R228, R369, R411). -/
def MemSys.answerReqs (m : MemSys) (die n now : Nat) (stop : Bool) : MemSys :=
  if stop then { m with reqs := m.reqs.filter fun r => r.stall != some (die, n) }
  else { m with reqs := m.reqs.map fun r => if r.stall == some (die, n) then { r with stall := none, since := now } else r }

/-- The waiters of an entry that stand in a task save slot. -/
def Waiter.isGone : Waiter → Bool
  | .gone _ _ _ => true
  | .lane _ _ _ | .copy _ | .gath _ | .tile _ | .sweep _ | .pour _ _ | .queue _ | .retire _ | .completion _ _ | .switch _ _ _
  | .jobEnd _ | .save _ => false

/-- An entry answered (R411): its waiters go on or stop, threads that wait there beside one of them issue their compound again (R331), and it
is freed; lanes in a save slot are answered when their task is
restored (R406), and a record that waits for room is still written (R400). -/
def State.answerMiss (s : State) (m : Miss) (stop : Bool) : State :=
  let away := m.waiters.filter Waiter.isGone
  let s := if away.isEmpty && m.phase != .queued then s.freeMiss m.die m.num
    else s.updMiss m.die m.num fun x => { x with waiters := away, resume := if stop then 2 else 1 }
  let s := s.updMem fun q => q.answerReqs m.die m.num s.dev.cycle stop
  let s := (m.waiters.filter fun w => !w.isGone).foldl (fun s w => if stop then s.stopWaiter m w else s.replayWaiter m.die m.num w) s
  { s with threads := s.threads.map (Thread.resumed m.die m.num) }.wakeRetries

/-- Entries that were answered while their lanes were saved are answered now, as far as those lanes are back (R406). -/
def State.answerBack (s : State) : State :=
  (s.mem.miss.filter fun m => m.resume != 0 && m.waiters.any fun w => !w.isGone).foldl (fun s m => s.answerMiss m (m.resume == 2)) s

end Sys2Proof.Machine
end

