-- ==== Sys2Proof/Machine/Place.lean ====
section
/-! DEFINITION. Placement and admission (05): heat budgets, the targets of ready tasks, placement units, admission decisions,
the start of a task, reserved tasks and the pre-emption that they ask for, and the save of a pre-empted task (20 R404, R405). -/

namespace Sys2Proof.Machine

open Sys2Proof

/-! ## Heat budgets (R104, R105) -/

/-- The heat budget of a sector. -/
def State.heat (s : State) (d sec : Nat) : Heat :=
  match s.dev.heat.find? fun h => h.die == d && h.sector == sec with
  | some h => h
  | none => { die := d, sector := sec }

/-- The state with a heat budget replaced. -/
def State.putHeat (s : State) (h : Heat) : State :=
  s.updDev fun v => { v with heat := v.heat.filter (fun x => !(x.die == h.die && x.sector == h.sector)) ++ [h] }

/-- The cycles between two refill steps (R105). -/
def refillCycles : Nat := 1050

/-- A budget after `n` refill steps (R105). -/
def Heat.refill (n : Nat) (h : Heat) : Heat :=
  let t := h.rem + n * h.rate
  { h with level := min (h.cap : Int) (h.level + (t / 256 : Nat)), rem := t % 256 }

/-- Every refill step that is due (R105). -/
def State.refill (s : State) : State :=
  let k := s.dev.cycle / refillCycles
  s.updDev fun d => { d with refills := Nat.max d.refills k, heat := d.heat.map (Heat.refill (k - d.refills)) }

/-- HEAT_REFILL (R105). -/
def execHeatRefill (s : State) : Host.Outcome State Fault Refusal := .next s.refill

/-- The charge of a task of an energy class (R105). -/
def Heat.charge (h : Heat) (ecls w : Nat) : Nat := bitsOf h.cost.toNat (8 * ecls + 7) (8 * ecls) * w

/-- The node record of a task. -/
def State.taskNode (s : State) (t : Task) : Option Node := (s.pour? t.ctx t.pour).bind fun p => p.nodes[t.node]?

/-- The energy class of a task. -/
def State.taskClass (s : State) (t : Task) : Nat :=
  match s.taskNode t with
  | some n => n.ecls
  | none => 0

/-- The heat budget of the sector of a core. -/
def State.coreHeat (s : State) (c : Nat) : Heat := s.heat (coreDie c) (coreSector c % 3)

/-- Whether a task covers its charge in the sector of a core (R105). -/
def State.covers (s : State) (t : Task) (c : Nat) : Bool :=
  let h := s.coreHeat c
  !h.en || decide ((h.charge (s.taskClass t) t.w : Int) ≤ h.level)

/-- The charge of an admission (R105). -/
def State.chargeFor (s : State) (t : Task) (c : Nat) : State :=
  let h := s.coreHeat c
  if h.en then s.putHeat { h with level := max (-(2 ^ 31 : Int)) (h.level - h.charge (s.taskClass t) t.w) } else s

/-! ## Candidates and targets (R90 to R94, R101, R106) -/

/-- Whether a task stands ready for admission in a running context: also one that was pre-empted (R108). -/
def State.mayAdmit (s : State) (t : Task) : Bool :=
  (t.phase == .ready || t.phase == .saved) && (match s.ctx? t.ctx with | some c => c.phase == .running | none => false)

/-- Whether a task has never been admitted: one that stands pre-empted has been, and keeps no other member of its unit back (R92, R101). -/
def Task.unadmitted (t : Task) : Bool := t.phase == .waiting || t.phase == .ready

/-- The state of the node of a task. -/
def State.nodeState (s : State) (t : Task) : Option NodeState := (s.pour? t.ctx t.pour).bind fun p => p.nstates[t.node]?

/-- The first of a linear unit's tasks that has not been admitted (R92). -/
def State.isNext (s : State) (t : Task) : Bool :=
  !s.tasks.any fun u => u.ctx == t.ctx && u.pour == t.pour && u.node == t.node && u.unit == t.unit && u.rank < t.rank && u.unadmitted

/-- The cluster on which the unit of a linear task is placed. -/
def State.unitCluster (s : State) (t : Task) : Option Nat :=
  (s.nodeState t).bind fun n => (n.placed.find? fun x => x.1 == t.unit).map (·.2)

/-- Whether the unit of a task is the next of its node to be placed: units are placed in ascending order (R92). -/
def State.unitNext (s : State) (t : Task) : Bool :=
  match s.nodeState t with
  | some n => (upTo t.unit).all fun u => n.placed.any fun x => x.1 == u
  | none => false

/-- The cores of a cluster. -/
def clusterCores (cl : Nat) : List Nat := (upTo 4).map fun i => 4 * cl + i

/-- Whether a task is an unstarted member of a gang of which some member has started (R101). One that was pre-empted has started. -/
def State.gangStarted (s : State) (t : Task) : Bool :=
  t.phase != .saved && match t.gang, s.ctx? t.ctx with
    | some (g, _), some c => c.gangs.any fun x => x.id == g && x.members.any fun m => m.2.1 != .unstarted
    | _, _ => false

/-- Whether a task has room on a core. -/
def State.hasRoom (s : State) (t : Task) (c : Nat) : Bool := (s.roomFor? c t).isSome

/-- The clusters in the order of a node's scan (R93). -/
def State.scanOrder (s : State) (t : Task) : List Nat :=
  match s.nodeState t with
  | some n => (upTo 128).map fun k => (n.ptr + k) % 128
  | none => []

/-- Where a task may run, as a die's replica of the cuts says for a task of a mesh (R90): its owner, or the cores of its unit's
cluster; for a unit that is not placed, the first cluster with room that its scan reaches, else the one it starts at (R107). -/
def State.targets (s : State) (die : Nat) (t : Task) : List Nat :=
  match s.taskNode t with
  | none => []
  | some n =>
    if n.sp then
      match s.mesh? t.ctx n.mesh with
      | some m => [(m.rep die).owner t.key]
      | none => []
    else match s.unitCluster t with
      | some cl => clusterCores cl
      | none =>
        let order := s.scanOrder t
        match order.find? fun cl => (clusterCores cl).any (s.hasRoom t) with
        | some cl => clusterCores cl
        | none => (order.take 1).flatMap clusterCores

/-- The die whose replica places a task of a mesh on itself; a linear task may ask any (R90). -/
def State.homeDie (s : State) (t : Task) : Nat :=
  ((upTo 4).find? fun d => (s.targets d t).any fun c => coreDie c == d).getD 0

/-- The order in which candidates are examined (R86, R101, R106). Members of several started gangs with one curve rank keep the order of the task
list (assumption log 63). -/
def State.ahead (s : State) (a b : Task) : Bool :=
  let ga := s.gangStarted a
  let gb := s.gangStarted b
  let start := fun (t : Task) => match s.pour? t.ctx t.pour with | some p => (p.startedAt, p.frame) | none => (0, 0)
  let key := fun (t : Task) => let (m, f) := start t; [3 - Nat.min 3 t.prio, t.readyAt, m, f, t.node, t.rank]
  if ga != gb then ga else if ga then decide (a.rank < b.rank) else decide (key a < key b)

/-- Whether a reserved task keeps a core from a task (R107); members of a started gang go ahead of it (R101). Of two reserved tasks of one priority
the one examined first keeps the core (assumption log 73). -/
def State.blocked (s : State) (t : Task) (c : Nat) : Bool :=
  !s.gangStarted t && s.tasks.any fun r =>
    r.reserved && r.id != t.id && s.mayAdmit r && t.prio ≤ r.prio && (s.targets (s.homeDie r) r).contains c
      && !(t.reserved && t.prio == r.prio && s.ahead t r)

/-- The cores of a list on which a task has room and which no reserved task keeps. -/
def State.openCores (s : State) (t : Task) (cs : List Nat) : List Nat := cs.filter fun c => s.hasRoom t c && !s.blocked t c

/-- The core that a task gets: that with the most free warp slots, then the lowest (R94). -/
def State.bestCore (s : State) (t : Task) (cs : List Nat) : Option Nat :=
  (sortBy (fun (a b : Nat) => (s.freeWarps b).length < (s.freeWarps a).length || ((s.freeWarps a).length == (s.freeWarps b).length && a < b))
    (s.openCores t cs)).head?

/-- A moment of 4 ms ago or earlier (R107). -/
def State.long (s : State) (m : Option Nat) : Bool :=
  match m with
  | some m => decide (m + 4200000 ≤ s.dev.cycle)
  | none => false

/-- The cluster that the scan of an unplaced unit chooses for its first task, where the decisions of some sectors are stopped: the first with room
whose sector would admit the task, else the first with room (R93; also where the sectors that cover the charge are all stopped, assumption log
64). -/
def State.scanPast (s : State) (out : List Nat) (t : Task) : Option Nat :=
  let order := s.scanOrder t
  let best := fun (cl : Nat) => s.bestCore t (clusterCores cl)
  match order.find? fun cl => (match best cl with | some c => s.covers t c && !out.contains (coreSector c) | none => false) with
  | some cl => some cl
  | none => order.find? fun cl => (best cl).isSome

/-- The cores on which a candidate has room and would be admitted: in the view of each die for a task of a mesh, in its unit's cluster, or where
its unplaced unit's scan leads (R90, R93, R94). -/
def State.roomCores (s : State) (out : List Nat) (t : Task) : List Nat :=
  match s.taskNode t, s.unitCluster t with
  | none, _ => []
  | some n, u =>
    if n.sp then (upTo 4).filterMap fun d => (s.bestCore t (s.targets d t)).filter fun c => coreDie c == d
    else match (match u with | some cl => some cl | none => s.scanPast out t) with
      | some cl => (s.bestCore t (clusterCores cl)).toList
      | none => []

/-- The sectors whose decisions are stopped by some candidates, taken in their order: by one with room there, without its charge covered and not
overdue (R106). -/
def State.stopped (s : State) (out : List Nat) : List Task → List Nat
  | [] => out
  | u :: us =>
    s.stopped (out ++ ((s.roomCores out u).filter fun c => !s.covers u c && !s.long u.roomSince).map coreSector) us

/-- Whether a task is a candidate somewhere: a linear one, once it is the next of its unit, and its unit placed or next. -/
def State.candidate (s : State) (t : Task) : Bool :=
  s.mayAdmit t && (match s.taskNode t with
    | some n => n.sp || (s.isNext t && ((s.unitCluster t).isSome || s.unitNext t))
    | none => false)

/-- The candidates in the order in which they are examined. -/
def State.examined (s : State) : List Task := sortBy s.ahead (s.tasks.filter s.candidate)

/-- The sectors that stand stopped before a candidate. -/
def State.stoppedBefore (s : State) (t : Task) : List Nat := s.stopped [] (s.examined.takeWhile fun u => u.id != t.id)

/-- The cluster that the scan of an unplaced unit chooses for its first task (R93). -/
def State.scan (s : State) (t : Task) : Option Nat := s.scanPast (s.stoppedBefore t) t

/-- The core on which a candidate would be admitted by the decisions of a die (R90, R93, R94). -/
def State.admitCore (s : State) (die : Nat) (t : Task) : Option Nat :=
  match s.taskNode t with
  | none => none
  | some n =>
    if n.sp then s.bestCore t (s.targets die t)
    else if !s.isNext t then none
    else match s.unitCluster t with
      | some cl => s.bestCore t (clusterCores cl)
      | none => if s.unitNext t then (s.scan t).bind fun cl => s.bestCore t (clusterCores cl) else none

/-- How long candidates have had room without their charge covered, or have been passed over for room, without a break (R107). -/
def State.trackRoom (s : State) : State :=
  let now := s.dev.cycle
  { s with tasks := s.tasks.map fun t =>
      if !s.candidate t then (if t.roomSince.isNone && t.passedSince.isNone then t else { t with roomSince := none, passedSince := none })
      else
        let room := (s.targets (s.homeDie t) t).filter (s.hasRoom t)
        if room.isEmpty then { t with roomSince := none, passedSince := some (t.passedSince.getD now) }
        else { t with roomSince := if room.any (s.covers t) then none else some (t.roomSince.getD now), passedSince := none } }

/-! ## The start of a task (R85, R87, R96, R99, R404) -/

/-- The registers of a thread at the start of its task (Table 4-8). -/
def startRegs (t : Task) (p : Pour) (tid : Nat) : List Word :=
  let w := fun (n : Nat) => BitVec.ofNat 32 n
  [w t.key, w (t.key / 2 ^ 32), w t.bslot, w tid, w p.arg, w (p.arg / 2 ^ 32), w p.frame, w (p.frame / 2 ^ 32)]
    ++ List.replicate (t.regs - 8) 0

/-- A thread at the start of its task (R85). -/
def startThread (t : Task) (p : Pour) (entry c team : Nat) (warps : List Nat) (tid : Nat) : Thread :=
  let w := warps.getD (tid / 32) 0
  { core := c, slot := 32 * w + tid % 32, task := t.id, tid := tid, regs := startRegs t p tid, pc := BitVec.ofNat 64 entry
    rng := seedState 0 (BitVec.ofNat 32 tid), lane := tid % 32, warp := w, teams := [team, 255, 255, 255] }

/-- The threads, warps and initial team of a task that starts for the first time (R85, R109). -/
def State.startFresh (s : State) (t : Task) (p : Pour) (entry c : Nat) (r : Room) : State :=
  let team := r.teams.getD 0 0
  let ths := (upTo t.nthr).map (startThread t p entry c team r.warps)
  let ws := r.warps.map fun w =>
    ({ core := c, slot := w, task := t.id, masks := List.replicate 12 0, age := s.dev.cycle, names := List.replicate 8 {} } : Warp)
  let tm : Team := { core := c, num := team, task := t.id, members := ths.map fun x => x.slot, points := List.replicate 24 {} }
  { s with threads := s.threads ++ ths, warps := s.warps ++ ws, teams := s.teams ++ [tm] }

/-- The places of what was saved of a task, with the room that it gets on a core. -/
def State.taskReloc (s : State) (t : Task) (i : TaskImage) (c : Nat) (r : Room) : Reloc :=
  { warps := (t.warps.zip r.warps).map fun x => ((t.core, x.1), (c, x.2))
    teams := (i.teams.zip r.teams).map fun x => ((x.1.core, x.1.num), (c, x.2))
    tiles := s.tilePlaces (fun _ => c) i.tiles }

/-- The waiters of a restored task's lanes in the miss tables find them again (R404). -/
def State.waitersBack (s : State) (id : Nat) : State :=
  let back := fun (w : Waiter) =>
    match w with
    | .gone task tid rep =>
      if task = id then
        (match s.threads.find? fun x => x.task == task && x.tid == tid with
         | some x => Waiter.lane x.core x.slot rep
         | none => w)
      else w
    | _ => w
  s.updMem fun m => { m with miss := m.miss.map fun e => { e with waiters := e.waiters.map back } }

/-- A saved task restored on a core (R404): waiters of its lanes in the miss tables find them again. -/
def State.startSaved (s : State) (t : Task) (i : TaskImage) (c : Nat) (r : Room) : State :=
  let s := ((s.restore (s.taskReloc t i c r) i).waitersBack t.id).answerBack
  let young := fun (w : Warp) => if w.task == t.id then { w with age := s.dev.cycle } else w
  let s := { s with warps := s.warps.map young }
  s.updCtx t.ctx fun x => { x with tsUsed := match t.saveSlot with | some k => x.tsUsed.filter (· != k) | none => x.tsUsed }

/-- The regions of a task's incoming edges self-invalidated on its core, at the edge's scope or the narrowest that holds both
tasks' cores (R87). -/
def State.invalidateInputs (s : State) (t : Task) (p : Pour) (c : Nat) : State :=
  (p.edges.filter fun e => e.dst == t.node).foldl (fun s e =>
    let from_ := s.tasks.filter fun u => u.ctx == t.ctx && u.pour == t.pour && u.node == e.src && (s.producers p e t).contains u.index
    let sc := from_.foldl (fun sc u => Scope.widen sc (narrowest c u.core)) (Scope.ofNat e.scope)
    e.rix.foldl (fun s g =>
      match p.regions[g]? with
      | none => s
      | some x =>
        if x.len = 0 then s
        else match s.rangeKeys t.ctx x.base (x.base + x.len) (x.len / 2 ^ 16 + 2) with
          | none => s.updMem fun m => m.acquire c sc
          | some (rs, s) => s.updMem fun m =>
              (m.dropL1 c fun w => w.hold == .si && partly rs w.grainKey w.grain).dropShared c sc rs) s) s

/-- A gang member starts (R99): threads that wait for it check again. -/
def State.startMember (s : State) (t : Task) (c : Nat) : State :=
  match t.gang with
  | none => s
  | some (g, m) =>
    let s := s.updCtx t.ctx fun x =>
      { x with gangs := x.gangs.map fun y =>
          if y.id == g then { y with members := y.members.map fun z => if z.1 == t.id then (z.1, .running, c) else z } else y }
    { s with threads := s.threads.map fun x =>
        if x.status = .parked (.member g m) then { x with status := .eligible } else x }

/-- The unit of a linear task placed on the cluster of a core, if it is not yet (R93). -/
def State.placeUnit (s : State) (t : Task) (cl : Nat) : State :=
  match s.taskNode t with
  | none => s
  | some n =>
    if n.sp || (s.unitCluster t).isSome then s
    else s.updPour t.ctx t.pour fun p => { p with nstates := (p.nstates.zipIdx).map fun x =>
      if x.2 = t.node then { x.1 with placed := x.1.placed ++ [(t.unit, cl)], ptr := (cl + 1) % 128 } else x.1 }

/-- The bytes of a private region: those of every thread of a task (R224). -/
def State.privBytes (s : State) (t : Task) : Nat := (s.pbytes t.ctx + 3) / 4 * 4 * t.nthr

/-- The base of the private region of a task: the place that the part fixes, or, where a region in use lies there, the next 64 KiB unit above
every region in use (R224; assumption log 27). -/
def State.newBase (s : State) (t : Task) : Nat :=
  let used := (s.tasks.filter fun u => u.id != t.id && (u.placed || u.phase == .saved)).map fun u => (u.privBase, s.privBytes u)
  let at_ := Config.privateBase t.id % 2 ^ 32 * 2 ^ 16
  if used.all fun r => at_ + s.privBytes t ≤ r.1 || r.1 + r.2 ≤ at_ then at_
  else (used.foldl (fun n r => Nat.max n (r.1 + r.2)) 0 + 2 ^ 16 - 1) / 2 ^ 16 * 2 ^ 16

/-- The scope at which a task's threads acquire at their start: the release of the POUR, or of the host that launched the pour (R82, R344). -/
def Pour.startScope (p : Pour) : Scope := if p.queue.isSome then .sys else .pkg

/-- A task admitted to a core: its charge, its room and its start (R105, R96, R85), which is an acquire (R82). -/
def State.admitOn (s : State) (t : Task) (c : Nat) : State :=
  match s.roomFor? c t, s.pour? t.ctx t.pour, s.taskNode t with
  | some r, some p, some n =>
    let s := (s.chargeFor t c).placeUnit t (coreCluster c)
    let s := (s.invalidateInputs t p c).acquireCore c p.startScope
    let s := match t.image with
      | some i => s.startSaved t i c r
      | none => s.startFresh t p n.entry c r
    let s := s.updTask t.id fun x =>
      { x with
        phase := .running, core := c, warps := r.warps, offs := r.offs, counting := some s.dev.cycle, roomSince := none
        passedSince := none, reserved := false, saveSlot := none, image := none, pinned := n.sp
        scratch := { x.scratch with base := r.line, lines := n.sl }
        privBase := if t.image.isSome then x.privBase else s.newBase t }
    s.startMember t c
  | _, _, _ => s

/-! ## Decisions (R106, R107) -/

/-- The first task of an ordered list that a decision of a die admits, with its core (R106). -/
def State.pick (s : State) (die sec : Nat) : List Task → Option (Task × Nat)
  | [] => none
  | t :: ts =>
    match s.admitCore die t with
    | none => s.pick die sec ts
    | some c =>
      if coreSector c != 3 * die + sec then s.pick die sec ts
      else if s.covers t c || s.long t.roomSince then some (t, c)
      else none

/-- Pours whose start or completion write a retry or a full miss table held back go on. -/
def State.continuePours (s : State) : State :=
  ((s.ctxs.filter fun c => c.phase == .running).flatMap fun c => c.pours.map fun p => (c.num, p.id)).foldl (fun s x => (s.continuePour x.1 x.2).completePour x.1 x.2) s

/-- ADMISSION_DECISION (R106). -/
def execAdmissionDecision (s : State) : Host.Outcome State Fault Refusal :=
  let s := s.continuePours.refill.trackRoom
  .next (match s.pick s.arg.x s.arg.y s.examined with
    | some (t, c) => (s.admitOn t c).trackRoom
    | none => s)

/-- ADMISSION_OVERDUE (R107): an overdue candidate is admitted in its place among the decisions of its sector: one before it that has room and
neither covers its charge nor is overdue stops them all (R106). -/
def execAdmissionOverdue (s : State) : Host.Outcome State Fault Refusal :=
  let s := s.refill.trackRoom
  .next (match s.task? s.arg.x with
    | none => s
    | some t =>
      if s.candidate t && s.long t.roomSince then
        match s.admitCore (s.homeDie t) t with
        | some c =>
          (match s.pick (coreDie c) (coreSector c % 3) s.examined with
           | some (u, k) => if u.id == t.id then (s.admitOn u k).trackRoom else s
           | none => s)
        | none => s
      else s)

/-- UNIT_PLACEMENT (R93): the next unit of a linear node whose first task is ready. -/
def execUnitPlacement (s : State) : Host.Outcome State Fault Refusal :=
  let s := s.refill.trackRoom
  .next (match s.tasks.find? fun t => t.ctx == s.arg.x && t.pour == s.arg.y && t.node == s.arg.z && s.candidate t
      && (s.unitCluster t).isNone && (match s.taskNode t with | some n => !n.sp | none => false) with
    | none => s
    | some t =>
      match s.scan t with
      | some cl => s.placeUnit t cl
      | none => s)

/-! ## Reserved tasks and pre-emption (R107, R108) -/

/-- The state as it would be without some tasks on their cores. -/
def State.without (s : State) (ids : List Nat) : State :=
  { s with
    tasks := s.tasks.map fun t => if ids.contains t.id then { t with phase := .saved } else t
    teams := s.teams.filter fun t => !ids.contains t.task }

/-- The lowest free save slot of a context, those of a list apart (R405). -/
def State.freeSlot (s : State) (ctx : Nat) (taken : List (Nat × Nat)) : Option Nat :=
  match s.ctx? ctx with
  | none => none
  | some c => (upTo c.tscount).find? fun n => !c.tsUsed.contains n && !taken.contains (ctx, n)

/-- The tasks, youngest first, whose pre-emption gives a task room on a core, each with its save slot; none when no such set
exists (R108). -/
def State.victims (s : State) (t : Task) (c : Nat) (acc : List (Nat × Nat × Nat)) : List Task → Option (List (Nat × Nat × Nat))
  | [] => none
  | u :: us =>
    match s.freeSlot u.ctx (acc.map fun x => x.2) with
    | none => s.victims t c acc us
    | some n =>
      let acc := acc ++ [(u.id, u.ctx, n)]
      if (s.without (acc.map fun x => x.1)).hasRoom t c then some acc else s.victims t c acc us

/-- Whether a task still has threads to run. -/
def State.taskLive (s : State) (id : Nat) : Bool := s.threads.any fun t => t.task == id && t.live

/-- The pre-emption that a reserved task of priority 3 requests (R108), unless one is under way for it: on the first core of its targets that has
such a set of tasks, and where it has no room yet; of tasks of one age the later in the task list counts as the younger (assumption log 65). -/
def State.requestRoom (s : State) (t : Task) : State :=
  let cs := s.targets (s.homeDie t) t
  if t.prio != 3 || !t.reserved || cs.any (s.hasRoom t) || cs.any (fun c => s.tasks.any fun u => u.core == c && u.phase == .halting) then s
  else
    let young := fun (c : Nat) => sortBy (fun (a b : Task) => b.readyAt < a.readyAt) (s.tasks.reverse.filter fun u =>
      u.core == c && u.phase == .running && u.prio < t.prio && s.taskLive u.id)
    match cs.findSome? fun c => s.victims t c [] (young c) with
    | none => s
    | some vs => vs.foldl (fun s v =>
        (s.updTask v.1 fun u => { u.stopCount s.dev.cycle with phase := .halting, haltAt := s.dev.cycle, saveSlot := some v.2.2 }).updCtx v.2.1
          fun c => { c with tsUsed := c.tsUsed ++ [v.2.2] }) (s.leaveCompounds (vs.map fun v => v.1))

/-- CANDIDATE_RESERVED (R107, R108). -/
def execCandidateReserved (s : State) : Host.Outcome State Fault Refusal :=
  let s := s.trackRoom
  .next (match s.task? s.arg.x with
    | none => s
    | some t =>
      if s.candidate t && (t.reserved || s.long t.passedSince) then
        let s := s.updTask t.id fun t => { t with reserved := true }
        s.requestRoom { t with reserved := true }
      else s)

/-- The words of a save slot or of an image, laid out by the part (R405, R414): values that the spec leaves open. -/
def State.openWords (s : State) (va n : Nat) : List (Nat × Nat × Nat) × State :=
  ((upTo n).map fun i => (va + 8 * i, 8, (Config.freeValue (s.freeCtr + i)).toNat), { s with freeCtr := s.freeCtr + n })

/-- The lanes of a task in the miss tables, as those of a saved task (R404); those of a walk that has not ended are not parked, and
look their address up anew when they issue again (R398). -/
def State.waitersGone (s : State) (id : Nat) : State :=
  let away := fun (e : Miss) (w : Waiter) =>
    match w with
    | .lane c k rep =>
      (match s.thread? c k with
       | some t => if t.task != id then some w else if e.phase == .walking then none else some (Waiter.gone id t.tid rep)
       | none => some w)
    | _ => some w
  s.updMem fun m => { m with miss := m.miss.map fun e => { e with waiters := e.waiters.filterMap (away e) } }

/-- The private lines of a task written back and dropped from a core (R225, R343). -/
def MemSys.flushCore (m : MemSys) (c : Nat) : MemSys := (m.releaseWork c).dropL1 c fun x => x.priv

/-- The threads of some tasks release what they hold, as CTXSV does: their pins end and their cores' dirty grains are written
back (R352, R403). -/
def State.flushTasks (s : State) (ids : List Nat) : State :=
  let cores := ((s.threads.filter fun t => ids.contains t.task).map fun (t : Thread) => t.core).eraseDups
  cores.foldl (fun s c => (s.endPins c fun p => s.slotIn ids c p.slot).updMem fun m => m.flushCore c) s

/-- A halted task saved, its room freed; it is ready again with its original age (R108, R404, R316). -/
def State.saveTask (s : State) (t : Task) : State :=
  let s := (s.waitersGone t.id).flushTasks [t.id]
  let (i, s) := s.capture [t.id]
  (s.updTask t.id fun x =>
    { x.stopCount s.dev.cycle with phase := .saved, image := some i, pinned := false }).trackRoom

/-- The words of a save slot that the part writes (R405). -/
def slotWords : Nat := 2 ^ 18

/-- TASK_SAVE (R404, R405). -/
def execTaskSave (s : State) : Host.Outcome State Fault Refusal :=
  .next (match s.task? s.arg.x with
    | none => s
    | some t =>
      if t.phase != .halting || !s.quiet [t.id] || s.held (.save t.id) then s
      else match s.ctx? t.ctx, t.saveSlot with
        | some c, some n =>
          let (ws, s) := s.openWords (c.tsbase + 2 ^ 21 * n) slotWords
          (match s.sysWrites (s.systemOrigin t.core t.ctx) ws with
           | .done s => s.saveTask t
           | .fault r va _ s => s.systemFault (s.systemOrigin t.core t.ctx) (.save t.id) t.index r va
           | .retry _ s => s)
        | _, _ => s)

end Sys2Proof.Machine
end

