-- ==== Sys2Proof/Machine/Retire.lean ====
section
/-! DEFINITION. The retire of a task (21 R418 to R423): when a task is finished, the steps of its retire, which wait on faults of
their own and on a full ring, and the retire record. -/

namespace Sys2Proof.Machine

open Sys2Proof

/-- Whether every thread of a task has exited or been stopped and everything that they issued has been performed (R418). -/
def State.finished (s : State) (id : Nat) : Bool :=
  !s.taskLive id
  && !s.mem.reqs.any (fun r => s.slotIn [id] r.core r.slot)
  && !s.mem.ranges.any (fun r => s.slotIn [id] r.core r.slot)
  && !s.eng.meshes.any (fun m => m.waiter.any fun w => s.slotIn [id] w.1 w.2.1)
  && !s.eng.arrivals.any (fun a => s.slotIn [id] a.src a.slot)
  && !s.eng.queue.any (fun e => s.warpTask e.core e.warp == id)
  && !s.eng.engines.any (fun g => g.runs.any fun r => s.runTask r == id)
  && !s.eng.jobs.any (fun j => j.running && j.task == id)
  && !s.warps.any (fun w => w.task == id && !w.subs.isEmpty)
  && !s.pouring [id]

/-! ## Regions (R419 step 1, R87, R89) -/

/-- The first page of a range that does not translate or that the context may not write, pages of a list and the private window apart (R395); `n` bounds the pages. -/
def State.badPage (s : State) (ctx : Nat) (priv : Bool) (skips : List Nat) (lo hi : Nat) : Nat → Option (Nat × Nat)
  | 0 => none
  | n + 1 =>
    if hi ≤ lo then none
    else
      let next := lo / 2 ^ 16 * 2 ^ 16 + 2 ^ 16
      if skips.contains (lo / 2 ^ 16) || (windowOff lo).isSome then s.badPage ctx priv skips next hi n
      else match (s.walkFor ctx lo .write priv).1 with
        | .ok _ | .retry => s.badPage ctx priv skips next hi n
        | .fault r => some (r, lo)
        | .poison _ => some (0, lo)

/-- How a step of a retire ends: it is performed, or it waits. -/
inductive Retired where
  | go (s : State)
  | wait (s : State)

/-- A fault of a retire's system access (R89). -/
def State.retireFault (s : State) (t : Task) (r va : Nat) : Retired :=
  .wait (s.systemFault (s.systemOrigin t.core t.ctx) (.retire t.id) t.index r va)

/-- Whether a private word of a task lies at offsets of the private window that a range covers (R224). -/
def Task.privIn (t : Task) (lo hi : Nat) (x : L1Word) : Bool :=
  let o := (x.key - 3 * 2 ^ 56 - t.privBase) / (4 * t.nthr) * 4
  let va := 0xFFFF * 2 ^ 48 + o
  x.priv && x.task == t.id && lo < va + 4 && va < hi

/-- A region cleaned: the dirty lines of the task's core in it, of private memory too, are written back to their homes (R87). -/
def State.cleanRegion (s : State) (t : Task) (x : Region) : Retired :=
  let pages := x.len / 2 ^ 16 + 2
  if x.len = 0 then .go s
  else match s.badPage t.ctx (s.ctxPriv t.ctx) t.skips x.base (x.base + x.len) pages with
    | some (r, va) => s.retireFault t r va
    | none =>
      match s.rangeKeys t.ctx x.base (x.base + x.len) pages with
      | none => .wait s
      | some (rs, s) => .go (s.updMem fun m => m.writeBack t.core fun w =>
          if w.priv then t.privIn x.base (x.base + x.len) w else partly rs w.grainKey w.grain)

/-- Regions cleaned one after another. -/
def State.cleanRegions (s : State) (t : Task) : List Region → Retired
  | [] => .go s
  | x :: xs =>
    match s.cleanRegion t x with
    | .go s => s.cleanRegions t xs
    | .wait s => .wait s

/-- The regions that a task's node hands on. -/
def Pour.outRegions (p : Pour) (node : Nat) : List Region :=
  (p.edges.filter fun e => e.src == node).flatMap fun e => e.rix.filterMap fun g => p.regions[g]?

/-! ## The retire record (R423) -/

/-- The ones of a word. -/
def popc32 (w : Word) : Nat := ((upTo 32).filter fun i => w.toNat.testBit i).length

/-- The words of the record of a task (Table 21-2). -/
def State.retireWords (s : State) (t : Task) (frame : Nat) : List Nat :=
  let nstop := t.faultMask.foldl (fun n w => n + popc32 w) 0
  let fl := (s.warps.filter fun w => w.task == t.id).foldl (fun (f : BitVec 7) w => f ||| w.fsr) 0
  let masks := t.faultMask ++ List.replicate (64 - t.faultMask.length) 0
  let w3 := t.index % 2 ^ 32 + 2 ^ 32 * (t.core + 2 ^ 16 * t.node + 2 ^ 24 * t.ctx)
  let w4 := t.w + 2 ^ 32 * (t.nthr + 2 ^ 12 * nstop)
  [frame, t.key, t.cycles % 2 ^ 64, w3, w4, fl.toNat, 0, 0]
    ++ (upTo 32).map fun i => (masks.getD (2 * i) 0).toNat + 2 ^ 32 * (masks.getD (2 * i + 1) 0).toNat

/-- Whether the retire ring of a context is full (R423). -/
def Context.ringFull (c : Context) : Bool := (c.rrput - c.rrget).toNat % 2 ^ 32 == c.rrsize.toNat

/-- Step 3: the record (R423). Both its ends are translated before a byte of it is written. -/
def State.writeRetire (s : State) (t : Task) (c : Context) (frame : Nat) : Retired :=
  if c.rrbase = 0 then .go s
  else if c.ringFull then .wait s
  else
    let va := c.rrbase.toNat + 320 * (c.rrput.toNat % c.rrsize.toNat)
    match s.walkFor t.ctx va .write c.priv with
    | (.fault r, s) => s.retireFault t r va
    | (.poison _, s) => s.retireFault t 0 va
    | (.retry, s) => .wait s
    | (.ok _, s) =>
      match s.walkFor t.ctx (va + 319) .write c.priv with
      | (.fault r, s) => s.retireFault t r (va + 319)
      | (.poison _, s) => s.retireFault t 0 (va + 319)
      | (.retry, s) => .wait s
      | (.ok _, s) =>
        match s.sysWrites (s.systemOrigin t.core t.ctx) ((s.retireWords t frame).mapIdx fun i v => (va + 8 * i, 8, v)) with
        | .done s => .go (s.advanceRing t)
        | .fault r va _ s => s.retireFault t r va
        | .retry _ s => .wait s

/-! ## The bits (R419 step 6, R86) -/

/-- A doubleword of a bitmap. -/
def bitmapWord (bits : List Nat) (k : Nat) : Nat :=
  (upTo 64).foldl (fun n i => putBit n i (bits.contains (64 * k + i))) 0

/-- A pour whose producer of a node has retired: its bit is set in every edge of the node, and the node counts it. -/
def Pour.setBits (p : Pour) (node i : Nat) : Pour :=
  { p with
    bits := (p.edges.zip p.bits).map fun x => if x.1.src == node then insertNat i x.2 else x.2
    nstates := (p.nstates.zipIdx).map fun x => if x.2 = node then { x.1 with retired := x.1.retired + 1 } else x.1 }

/-- The writes that record a retire in the frame (R78). -/
def Pour.bitWrites (p : Pour) (node i : Nat) : List (Nat × Nat × Nat) :=
  (((p.edges.zip p.bits).filter fun x => x.1.src == node).map fun x => (p.frame + x.1.bmoff + 8 * (i / 64), 8, bitmapWord x.2 (i / 64)))
  ++ (match p.nodes[node]?, p.nstates[node]? with
      | some n, some st => [(p.frame + n.foff + 4, 4, st.retired)]
      | _, _ => [])

/-! ## Room given back (R419 step 7, R97, R100) -/

/-- The gang of a task, when it has more than one member. -/
def State.bigGang (s : State) (t : Task) : Option Gang :=
  match t.gang, s.ctx? t.ctx with
  | some (g, _), some c => c.gangs.find? fun x => x.id == g && x.members.length > 1
  | _, _ => none

/-- The scratchpad and team records of some tasks given back. -/
def State.freeKept (s : State) (ids : List Nat) : State :=
  let mine := s.teams.filter fun t => ids.contains t.task
  let s := s.updEng fun g => { g with jobs := g.jobs.map fun j =>
    if (mine.any fun t => t.core == j.core && t.num == j.team) then { j with team := 64 } else j }
  { s with
    tasks := s.tasks.map fun t => if ids.contains t.id then { t with scratch := {} } else t
    teams := s.teams.filter fun t => !ids.contains t.task }

/-- A task's room given back; a gang keeps scratchpad and team records until its last member has retired (R100). -/
def State.freeRoom (s : State) (t : Task) : State :=
  let s := { s with
    threads := s.threads.filter fun x => x.task != t.id
    warps := s.warps.filter fun x => x.task != t.id }
  let s := s.updTask t.id fun x => { x with phase := .retired }
  match s.bigGang t with
  | none => s.freeKept [t.id]
  | some g =>
    let ms := g.members.map fun m => if m.1 == t.id then (m.1, MemberState.retired, m.2.2) else m
    let s := s.updCtx t.ctx fun c => { c with gangs := c.gangs.map fun x => if x.id == g.id then { x with members := ms } else x }
    if ms.all fun m => m.2.1 == .retired then s.freeKept (ms.map (·.1)) else s

/-! ## The steps (R419) -/

/-- The cost addition of a mesh task (R419 step 4, R70). -/
def State.retireCost (s : State) (t : Task) : Retired :=
  match s.taskMesh t with
  | none => .go s
  | some n =>
    match s.addCost (s.systemOrigin t.core t.ctx) n t.key (Nat.min (t.cycles / 64) 65535) true with
    | .val _ s => .go s
    | .fault _ r va _ => s.retireFault t r va
    | .wait | .mig _ | .stop => .wait s

/-- One step of a retire: steps 1 to 5 of R419, step 6 in two (the distributor's own state, then the frame, with the words as they are when they are written), and step 7. -/
def State.retireStep (s : State) (t : Task) (p : Pour) (c : Context) : Nat → Retired
  | 1 => s.cleanRegions t (p.outRegions t.node)
  | 2 =>
    let s := s.updMem fun m => m.dropL1 t.core fun x => x.priv && x.task == t.id
    .go (s.updTask t.id fun x => x.stopCount s.dev.cycle)
  | 3 => s.writeRetire t c p.frame
  | 4 => s.retireCost t
  | 5 => .go (s.updTask t.id fun x => { x with pinned := false })
  | 6 =>
    let p := p.setBits t.node t.index
    let s := (s.updPour t.ctx t.pour fun _ => p).updTask t.id fun x => { x with todo := p.bitWrites t.node t.index }
    .go (s.settleReady t.ctx t.pour)
  | 7 =>
    let ws := (p.bitWrites t.node t.index).filter fun w => t.todo.any fun x => x.1 == w.1
    match s.sysWrites (s.systemOrigin t.core t.ctx) ws with
    | .done s => .go (s.updTask t.id fun x => { x with todo := [] })
    | .fault r va left s => (s.updTask t.id fun x => { x with todo := left }).retireFault t r va
    | .retry left s => .wait (s.updTask t.id fun x => { x with todo := left })
  | _ => .go s

/-- Whether every task of a pour has retired (R88). -/
def Pour.allRetired (p : Pour) : Bool := p.nstates.all fun n => n.retired == n.n

/-- The last steps of a retire: its room, and the completion of its pour (R419 steps 7 and 8). -/
def State.retireEnd (s : State) (t : Task) : State :=
  let s := s.freeRoom t
  let last : Bool := match s.pour? t.ctx t.pour with
    | some p => p.allRetired && !s.tasks.any (fun (u : Task) => u.ctx == t.ctx && u.pour == t.pour && u.phase != .retired)
    | none => false
  let s := if last then (s.updPour t.ctx t.pour fun p => { p with finished := true }).completePour t.ctx t.pour else s
  s.trackRoom

/-- The steps of a retire from where it stands, up to a number of them. -/
def State.retire (s : State) (id : Nat) : Nat → State
  | 0 => s
  | n + 1 =>
    match s.task? id with
    | none => s
    | some t =>
      match t.phase, s.pour? t.ctx t.pour, s.ctx? t.ctx with
      | .retiring k, some p, some c =>
        if 8 ≤ k then s.retireEnd t
        else (match s.retireStep t p c k with
          | .wait s => s
          | .go s => (s.updTask id fun t => { t with phase := .retiring (k + 1) }).retire id n)
      | _, _, _ => s

/-- A retire goes on where it stands, unless it waits on a fault. -/
def State.goOn (s : State) (id : Nat) : State := if s.held (.retire id) then s else s.retire id 9

/-- TASK_RETIRE (R418, R419): a finished task begins its retire; one that a retry held back goes on. -/
def execTaskRetire (s : State) : Host.Outcome State Fault Refusal :=
  let id := s.arg.x
  .next (match s.task? id with
    | none => s
    | some t =>
      match t.phase with
      | .running =>
        if s.acting id && s.finished id then (s.updTask id fun t => { t with phase := .retiring 1 }).goOn id else s
      | .retiring _ => s.goOn id
      | .waiting | .ready | .halting | .saved | .retired => s)

/-- RETIRE_RESUME (R423): a retire that waits on a full ring goes on from step 3 once there is room. -/
def execRetireResume (s : State) : Host.Outcome State Fault Refusal :=
  let id := s.arg.x
  .next (match s.task? id with
    | none => s
    | some t => if t.phase = .retiring 3 then s.goOn id else s)

end Sys2Proof.Machine
end

