-- ==== Sys2Proof/Machine/System.lean ====
section
/-! DEFINITION. Class 13: control registers (21 R424 to R426), the return from a handler (20 R410), the end of a fault (R411),
TLBINV (R412), PREEMPT and the destruction of a context (R413), CTXSV and CTXLD (R414, R415), ENGRST and EVTQ (R416, R417), and
the halt of a context on a die (R401). -/

namespace Sys2Proof.Machine

open Sys2Proof

/-! ## CTLR and CTLW -/

/-- The value of a control register for a thread (Tables 20-3, 21-4). -/
def State.controlReg (s : State) (c : Context) (t : Thread) (i : Nat) : Nat :=
  match i with
  | 0 => c.tvec.toNat
  | 1 => c.trbase.toNat
  | 2 => trapAddr c t
  | 3 => c.ptroot.toNat
  | 4 => c.fqbase.toNat
  | 5 => c.fqsize.toNat
  | 6 => c.fqput.toNat
  | 7 => c.fqget.toNat
  | 8 => c.num
  | 9 => (if s.privileged t then 1 else 0) + (if t.handler then 2 else 0)
  | 10 => c.rrbase.toNat
  | 11 => c.rrsize.toNat
  | 12 => c.rrput.toNat
  | _ => c.rrget.toNat

/-- Acquires of some threads at .sys scope. -/
def State.acquireAll (s : State) (ts : List Thread) : State := ts.foldl (fun s t => s.acquire t.core t.slot .sys) s

/-- CTLR (R425): a read of FQPUT or RRPUT is an acquire at .sys scope. -/
def execCtlr (d : Reg) (i : Imm) (s : State) : Host.Outcome State Fault Refusal :=
  Ops.instr (.ctlr d i) s fun L s =>
    match s.ctx? (s.latchCtx L) with
    | none => .done s
    | some c =>
      let n := i.toNat
      let t := s.results L fun t => t.result d.toNat 2 (s.controlReg c t n) 0
      .done (if n = 6 || n = 12 then t.acquireAll (s.lanes L) else t)

/-- A power of 2 from 16 to 65,536 (Tables 20-3, 21-4). -/
def ringSizeOk (v : Nat) : Bool := (upTo 13).any fun k => v == 2 ^ (k + 4)

/-- Whether a consumed count leaves no more than the ring's size unconsumed (R426). -/
def countOk (put : Pair) (v size : Nat) : Bool := v < 2 ^ 32 && (put - BitVec.ofNat 64 v).toNat % 2 ^ 32 ≤ size

/-- Whether a control register takes a value (R426): it may be written, and the value keeps its alignment and range. -/
def Context.takes (c : Context) (i v : Nat) : Bool :=
  match i with
  | 0 => v % 4 == 0
  | 1 | 4 | 10 => v % 64 == 0
  | 3 => v % 4096 == 0
  | 5 | 11 => ringSizeOk v
  | 7 => countOk c.fqput v c.fqsize.toNat
  | 13 => countOk c.rrput v c.rrsize.toNat
  | _ => false

/-- A control register written. -/
def Context.putControl (c : Context) (i : Nat) (v : Pair) : Context :=
  match i with
  | 0 => { c with tvec := v }
  | 1 => { c with trbase := v }
  | 3 => { c with ptroot := v }
  | 4 => { c with fqbase := v }
  | 5 => { c with fqsize := v }
  | 7 => { c with fqget := v }
  | 10 => { c with rrbase := v }
  | 11 => { c with rrsize := v }
  | 13 => { c with rrget := v }
  | _ => c

/-- CTLW (R426): a write of FQGET or RRGET is first a release at .sys scope. -/
def execCtlw (a : Reg) (i : Imm) (s : State) : Host.Outcome State Fault Refusal :=
  Ops.instr (.ctlw a i) s fun L s =>
    match s.lowest L, s.ctx? (s.latchCtx L) with
    | some t, some c =>
      let v := t.pair a.toNat
      let n := i.toNat
      if !c.takes n v.toNat then .trap 1 0
      else if n = 7 || n = 13 then
        match s.releaseBy t.core t.slot .sys with
        | none => .done (s.parkAll L .retry)
        | some s => .done (s.updCtx c.num fun c => c.putControl n v)
      else .done (s.updCtx c.num fun c => c.putControl n v)
    | _, _ => .done s

/-! ## ERET -/

/-- The trap records of threads, read as each thread's own loads (R410): those that were read, and those that must wait. -/
def State.readRecords (s : State) (L : Latch) (c : Context) : List Thread → List (Nat × Nat) × State
  | [] => ([], s)
  | t :: ts =>
    let va := trapAddr c t
    match s.orderedLoad t.core t.slot t va (partsOf va 32) with
    | .val v s =>
      let (l, s) := s.readRecords L c ts
      ((t.slot, v) :: l, s)
    | .wait => (s.parkReplay L t.slot .retry).readRecords L c ts
    | .poison => (s.poisonPark L (L.n - L.j) [(t.slot, va)]).readRecords L c ts

/-- The resume PC of a trap record (Table 20-2). -/
def recordRpc (rec : Nat) : Nat := bitsOf rec 127 64

/-- ERET (R410). -/
def execEret (s : State) : Host.Outcome State Fault Refusal :=
  Ops.instr .eret s fun L s =>
    let ts := s.lanes L
    match s.ctx? (s.latchCtx L) with
    | none => .done s
    | some c =>
      if ts.any fun t => !t.handler then .trap 1 0
      else
        s.withPages L .read (ts.map fun t => { slot := t.slot, va := trapAddr c t, width := 32 }) fun go s =>
          let (rs, s) := s.readRecords L c (ts.filter go)
          if rs.any fun x => recordRpc x.2 % 4 != 0 then .trap 1 0
          else .done (rs.foldl (fun s x => s.updThread L.core x.1 (Thread.leave x.2)) s)

/-! ## TRESUME -/

/-- Whether an entry can be named by TRESUME for a context (R411): its walk has faulted and it has not been answered. -/
def Miss.open (m : Miss) (die n ctx : Nat) : Bool :=
  m.die == die && m.num == n && m.ctx == ctx && m.phase != .walking && m.resume == 0

/-- An image with an entry of its miss table answered (R406). -/
def Image.answered (die n : Nat) (stop : Bool) (i : Image) : Image :=
  { i with miss := i.miss.map fun m => if m.die == die && m.num == n then { m with resume := if stop then 2 else 1 } else m }

/-- What a TRESUME does for a tag and a context, and its status (R411, R406). -/
def State.tresume (s : State) (die n ctx : Nat) (stop : Bool) : Nat × State :=
  match s.mem.miss.find? fun m => m.open die n ctx with
  | some m => (0, s.answerMiss m stop)
  | none =>
    match s.savedImage ctx with
    | none => (1, s)
    | some i =>
      if i.miss.any fun m => m.open die n ctx then
        (0, { s with images := s.images.map fun x => if x.num == i.num then x.answered die n stop else x })
      else (1, s)

/-- TRESUME (R411): a release at .sys scope, then the answer. -/
def execTresume (d a b : Reg) (s : State) : Host.Outcome State Fault Refusal :=
  Ops.instr (.tresume d a b) s fun L s =>
    match s.lowest L with
    | none => .done s
    | some t =>
      let tag := t.num a % 4096
      let v := t.num b
      let (st, _) := s.tresume (tag / 1024) (tag % 1024) (bitsOf v 15 8) (bitOf v 0)
      let answer := fun (s : State) => s.results L fun u => u.result d.toNat 1 st 0
      if st = 1 then .done (answer s)
      else match s.releaseBy t.core t.slot .sys with
        | none => .done (s.parkAll L .retry)
        | some s => .done ((answer s).tresume (tag / 1024) (tag % 1024) (bitsOf v 15 8) (bitOf v 0)).2

/-! ## TLBINV -/

/-- A range of addresses whose translations are dropped: of one context or of all, from `lo` to below `hi` (R412). -/
structure Drop where
  ctx : Option Nat
  lo : Nat
  hi : Nat

/-- Whether a translation overlaps a range. -/
def Drop.hits (r : Drop) (x : Xlate) : Bool :=
  (match r.ctx with | some c => x.ctx == c | none => true) && x.va < r.hi && r.lo < x.va + x.leaf.size

/-- Whether a request was translated through a translation that a range drops: it lies in the range or in such a page. -/
def Drop.meets (r : Drop) (pages : List Xlate) (q : Req) : Bool :=
  (match r.ctx with | some c => q.ctx == c | none => true)
  && ((q.va < r.hi && r.lo < q.va + q.width) || pages.any fun x => x.ctx == q.ctx && q.va < x.va + x.leaf.size && x.va < q.va + q.width)

/-- Whether a range operation that is still to be performed names addresses of a range. -/
def Drop.covers (r : Drop) (q : RangeReq) : Bool :=
  (match r.ctx with | some c => q.ctx == c | none => true) && q.va < r.hi && r.lo < q.va + q.size

/-- The translations of the package that a range drops. -/
def State.dropped (s : State) (r : Drop) : List Xlate := ((s.mem.l1tlb ++ s.mem.shtlb).map (·.2)).filter r.hits

/-- The requests and range operations that were translated through dropped translations and are still to be performed (R412). -/
def State.dropReqs (s : State) (r : Drop) : List Nat :=
  let pages := s.dropped r
  (s.mem.reqs.filter fun q => r.meets pages q).map (·.id)
    ++ (s.mem.ranges.filter fun q => r.covers q).map (·.id)

/-- The queue entries that keep translations that a range drops (R288, R412). -/
def State.dropEntries (s : State) (r : Drop) : List Nat :=
  (s.eng.queue.filter fun e =>
    match e.item with
    | .tile (.zld _ _ rows _) | .tile (.zsto _ _ _ rows _) => rows.any fun x => x.leaves.any r.hits
    | _ => false).map (·.id)

/-- Whether the requests and entries of two lists have been performed. -/
def State.performed (s : State) (rs es : List Nat) : Bool :=
  !(s.mem.reqs.any fun r => rs.contains r.id) && !(s.mem.ranges.any fun r => rs.contains r.id) && !(s.eng.queue.any fun e => es.contains e.id)

/-- The range of a TLBINV (R412): a length of all ones is every address, and 0 is none. -/
def dropOf (ctx : Option Nat) (va len ones : Nat) : Drop :=
  if len = ones then { ctx := ctx, lo := 0, hi := 2 ^ 64 }
  else if len = 0 then { ctx := ctx, lo := 2 ^ 64, hi := 0 }
  else { ctx := ctx, lo := va, hi := va + len }

/-- TLBINV (R412). -/
def execTlbinv (d a b : Reg) (s : State) : Host.Outcome State Fault Refusal :=
  Ops.instr (.tlbinv d a b) s fun L s =>
    match s.lowest L with
    | none => .done s
    | some t =>
      match s.releaseBy t.core t.slot .sys with
      | none => .done (s.parkAll L .retry)
      | some s =>
        let ctx := if t.num d = 2 ^ 32 - 1 then none else some (t.num d)
        let r := dropOf ctx (t.pair a.toNat).toNat (t.num b) (2 ^ 32 - 1)
        let rs := s.dropReqs r
        let es := s.dropEntries r
        let s := s.dropXlates r.ctx r.lo r.hi
        .done (if s.performed rs es then s else s.mapExec L fun t => { t with status := .parked (.tlb rs es) })

/-! ## The tasks of a context, and its destruction (R413) -/

/-- The tasks of a context. -/
def State.ctxTasks (s : State) (ctx : Nat) : List Nat := (s.tasks.filter fun t => t.ctx == ctx).map (·.id)

/-- The cores that hold threads of a context. -/
def State.ctxCores (s : State) (ctx : Nat) : List Nat :=
  ((s.threads.filter fun t => s.ctxOf t == ctx).map fun (t : Thread) => t.core).eraseDups

/-- A queue when a context is destroyed (R413): a status for that context is not written, and a queue that names the context is disabled, with every
descriptor still in it passed over (R430). -/
def LaunchQ.orphan (ctx : Nat) (x : LaunchQ) : LaunchQ :=
  let x := { x with report := x.report.filter fun r => r.1 != ctx }
  if x.ctx = ctx then { x with en := false, snap := none, noctx := x.noctx || x.get != x.put, get := x.put } else x

/-- The engine and memory records of a context dropped. -/
def State.dropRecords (s : State) (ctx : Nat) : State :=
  let s := s.updMem fun m => { m with miss := m.miss.filter fun x => x.ctx != ctx }
  s.updEng fun g =>
    { g with
      curves := g.curves.filter fun x => x.ctx != ctx
      meshes := g.meshes.filter fun x => x.ctx != ctx
      prism := g.prism.filter fun x => x.tag / 256 != ctx }

/-- A context destroyed (R413): accesses that its threads have made are still performed (R402), and everything else of it goes. -/
def State.destroy (s : State) (ctx : Nat) : State :=
  let ids := s.ctxTasks ctx
  let late := (s.mem.reqs.filter fun r => s.slotIn ids r.core r.slot && !r.stalled).map fun (r : Req) => { r with pend := 0 }
  let s := s.flushTasks ids
  let s := (s.capture ids).2.dropAway (ids ++ (s.images.filter fun i => i.ctx.num == ctx).flatMap fun i => i.tasks.map fun t => t.id)
  let s := s.updMem fun m => { m with reqs := m.reqs ++ late }
  let s := s.updEng fun g => { g with arrivals := g.arrivals.filter fun a => (s.thread? a.src a.slot).isSome }
  let s := (s.dropRecords ctx).dropXlates (some ctx) 0 (2 ^ 64)
  let s := s.updDev fun d => { d with queues := d.queues.map (LaunchQ.orphan ctx), starts := d.starts.filter fun x => x.ctx != ctx }
  { s with
    tasks := s.tasks.filter fun t => t.ctx != ctx
    ctxs := s.ctxs.filter fun c => c.num != ctx
    images := s.images.filter fun i => i.ctx.num != ctx }.wakeRetries.trackRoom

/-! ## PREEMPT and the halt of a context (R401, R413) -/

/-- The status of a PREEMPT of a context (R413). -/
def State.preemptStatus (s : State) (ctx : Nat) : Nat :=
  match s.ctx? ctx with
  | none => 2
  | some c => if c.phase = .running then 0 else 1

/-- The effect of a PREEMPT on a context (R413). -/
def State.preempt (s : State) (ctx : Nat) (kill : Bool) : State :=
  match s.ctx? ctx with
  | none => s
  | some c =>
    match c.phase with
    | .running | .halting => s.requestHalt ctx kill
    | .halted | .saved => if kill then s.destroy ctx else s

/-- PREEMPT (R413): its status is written before its own context halts. -/
def execPreempt (k : Bool) (d a : Reg) (s : State) : Host.Outcome State Fault Refusal :=
  Ops.instr (.preempt k d a) s fun L s =>
    match s.lowest L with
    | none => .done s
    | some t =>
      let ctx := t.num a
      let st := s.preemptStatus ctx
      .done ((s.mapExec L fun u => u.putReg d.toNat (BitVec.ofNat 32 st)).preempt ctx k)

/-- Whether everything of a context on a die stands at a halt point (Table 20-7): no compound under way and no pass running. -/
def State.dieStill (s : State) (ctx d : Nat) : Bool :=
  (match s.issue with | some L => !(coreDie L.core == d && s.latchCtx L == ctx) | none => true)
  && !s.eng.engines.any fun g => g.cluster / 32 == d && g.runs.any fun r => s.taskCtx (s.runTask r) == ctx

/-- A die of a context has halted (R401): the watches of its threads are dropped and the LENSLDs that it parked are not performed (Table
20-7), and it raises HALTED, which a HALT request of the mailbox that waits for it counts (Table
22-7). -/
def State.haltDie (s : State) (ctx d : Nat) (all : Bool) : State :=
  let n := ((s.ctxCores ctx).filter fun k => coreDie k == d).length
  let ids := (s.tasks.filter fun t => t.ctx == ctx && coreDie t.core == d).map (·.id)
  let s := ((s.dropWatches ids).dropLoads ids).updCtx ctx fun c => { c with haltedDies := c.haltedDies ++ [d], phase := if all then .halted else .halting }
  let s := s.updDev fun v =>
    { v with mbox := { v.mbox with wait := v.mbox.wait.map fun w => if w.op = 3 && w.ctx = ctx then { w with cores := w.cores + n } else w } }
  s.raise d { kind := .halted, ctx := ctx, src := d, data := BitVec.ofNat 32 n, addr := 0 }

/-- DIE_HALTED (R401): once all four dies have halted, the context has, and one that is to be killed is destroyed. -/
def execDieHalted (s : State) : Host.Outcome State Fault Refusal :=
  let d := s.arg.x
  let ctx := s.arg.y
  .next (match s.ctx? ctx with
    | none => s
    | some c =>
      if d < 4 && c.phase == .halting && !c.haltedDies.contains d && s.dieStill ctx d then
        let all := decide (4 ≤ c.haltedDies.length + 1)
        let s := s.haltDie ctx d all
        if all && c.kill then s.destroy ctx else s
      else s)

/-! ## CTXSV (R402, R403, R414, R422) -/

/-- Whether a retire of a context is under way that is neither held by a full ring nor by a fault (R422, R406). -/
def State.retiresOn (s : State) (c : Context) : Bool :=
  s.tasks.any fun t => t.ctx == c.num && (match t.phase with
    | .retiring k => !(k == 3 && c.rrbase != 0 && c.ringFull) && !s.held (.retire t.id)
    | _ => false)

/-- The size of the image of a context in 64 KiB units (R414): at least 1, and below 2^23, so that it fits in device memory. -/
def State.imageSize (s : State) (c : Context) : Nat :=
  Nat.max 1 (Config.imageUnits ((s.threads.filter fun t => s.ctxOf t == c.num).length + (s.ctxTasks c.num).length + c.pours.length) % 2 ^ 23)

/-- How a CTXSV goes on (R414): it ends with a status and a size, it waits (R402), or it writes its image. -/
inductive SaveGate where
  | no (st size : Nat)
  | wait
  | go (size : Nat)

/-- The check of a CTXSV (R414). -/
def State.saveCheck (s : State) (ctx cap : Nat) : SaveGate :=
  match s.ctx? ctx with
  | none => .no 3 0
  | some c =>
    let size := s.imageSize c
    if c.phase != .halted then .no 1 0
    else if cap < size then .no 2 size
    else if !s.quiet (s.ctxTasks ctx) || s.retiresOn c then .wait
    else .go size

/-- The 8-byte words of an image (R414): the magic word, the part identifier, the size, the context and the CRC in its first 64
bytes; the part's own words behind them. The model finds an image again by the number behind its CRC. -/
def imageWords (num size ctx : Nat) : List Nat :=
  [0x47555253 + 2 ^ 32 * Config.partId.toNat, size % 2 ^ 32 + 2 ^ 32 * ctx, (Config.imageCrc num).toNat + 2 ^ 32 * (num % 2 ^ 32)]
    ++ (upTo (8192 * size - 3)).map fun i => (Config.imageWord num i).toNat

/-- One task taken out of the machine (R403). -/
def State.takeTask (s : State) (id : Nat) : State :=
  let (i, s) := (s.waitersGone id).capture [id]
  s.updTask id fun t => if t.image.isSome then t else { t with image := some i }

/-- A context taken out of the machine, under the number of its image (R403). -/
def State.takeImage (s : State) (ctx num size : Nat) : State :=
  let cores := s.ctxCores ctx
  let s := (s.ctxTasks ctx).foldl State.takeTask s
  match s.ctx? ctx with
  | none => s
  | some c =>
    let i : Image :=
      { num := num, size := size, ctx := c, tasks := s.tasks.filter fun t => t.ctx == ctx
        curves := s.eng.curves.filter fun x => x.ctx == ctx, meshes := s.eng.meshes.filter fun x => x.ctx == ctx
        miss := s.mem.miss.filter fun x => x.ctx == ctx, wptr := s.eng.wptr.filter fun x => cores.contains (x.1 / 4) }
    let s := { s with tasks := s.tasks.filter fun t => t.ctx != ctx, images := s.images ++ [i] }
    ((s.dropRecords ctx).updCtx ctx fun c => { c with phase := .saved, pours := [], gangs := [], lenses := [] }).trackRoom

/-- The event SAVED, raised on a die with the number of cores saved (Table 20-8). -/
def State.raiseSaved (s : State) (die src ctx n : Nat) : State :=
  s.raise die { kind := .saved, ctx := ctx, src := src, data := BitVec.ofNat 32 n, addr := 0 }

/-- Words written one after another by an engine. -/
def State.engWrites (s : State) (o : Origin) (va : Nat) : List Nat → EngRes
  | [] => .val 0 0 s
  | w :: ws => (s.engWrite o (va % 2 ^ 64) 8 w).bind fun _ _ s => s.engWrites o (va + 8) ws

/-- The save area of CTXSV and CTXLD, aligned to 64 KiB; the bits below are ignored. -/
def Thread.area (t : Thread) (a : Reg) : Nat := (t.pair (a.toNat + 2)).toNat / 2 ^ 16 * 2 ^ 16

/-- CTXSV (R414): after the release of R403, its image is written as accesses of the issuing thread. -/
def execCtxsv (d a : Reg) (s : State) : Host.Outcome State Fault Refusal :=
  Ops.instr (.ctxsv d a) s fun L s =>
    match s.lowest L with
    | none => .done s
    | some t =>
      let ctx := t.num a
      match s.saveCheck ctx (t.num (a + 1)) with
      | .no st size => .done (s.results L fun u => u.result d.toNat (if st = 2 then 2 else 1) (st + 2 ^ 32 * size) 0)
      | .wait => .done (s.parkAll L .system)
      | .go size =>
        let n := (s.ctxCores ctx).length
        let f := s.flushTasks (s.ctxTasks ctx)
        let (num, f) := f.newId
        match f.engWrites (f.originOf t) (t.area a) (imageWords num size ctx) with
        | .wait => .done (s.parkAll L .retry)
        | .stop => .done (s.meshEnd L (s.lanes L) d 2 0 .stop)
        | .fault k r va _ => .done (s.meshPark L (s.lanes L) k r va)
        | .val _ _ s =>
          let s := (s.takeImage ctx num size).raiseSaved (coreDie L.core) L.core ctx n
          .done (s.results L fun u => u.result d.toNat 2 (2 ^ 32 * size) 0)

/-! ## CTXLD (R415) -/

/-- One task of an image back on its core; none while the core lacks room for it. -/
def State.loadTask (s : State) (t : Task) : Option State :=
  match t.image with
  | none => some { s with tasks := s.tasks ++ [t] }
  | some i =>
    if t.phase == .saved then some { s with tasks := s.tasks ++ [t] }
    else if t.placed then
      match s.roomFor? t.core t with
      | none => none
      | some r =>
        let u := { t with image := none, warps := r.warps, offs := r.offs, scratch := { t.scratch with base := r.line }
                          counting := if t.phase == .running then some s.dev.cycle else none }
        some (({ s with tasks := s.tasks ++ [u] }.restore (s.taskReloc t i t.core r) i).waitersBack t.id)
    else
      let ts := (s.freeTeams t.core).take i.teams.length
      match firstFit (s.lineRuns t.core) 1 2048 t.scratch.lines with
      | none => none
      | some l =>
        if ts.length < i.teams.length then none
        else
          let r : Room := { warps := [], offs := [], line := l, teams := ts }
          let u := { t with image := none, scratch := { t.scratch with base := l } }
          some ({ s with tasks := s.tasks ++ [u] }.restore (s.taskReloc t i t.core r) i)

/-- The tasks of an image back on their cores. -/
def State.loadTasks (s : State) : List Task → Option State
  | [] => some s
  | t :: ts =>
    match s.loadTask t with
    | none => none
    | some s => s.loadTasks ts

/-- A context restored from its image (R403, R415); none while a core that it names lacks room, or while a tag of its miss table
is in use. -/
def State.loadImage (s : State) (i : Image) : Option State :=
  if i.miss.any fun m => (s.missAt m.die m.num).isSome then none
  else
    let s := s.updCtx i.ctx.num fun _ => { i.ctx with phase := .running, haltedDies := [], kill := false }
    let s := s.updMem fun m => { m with miss := m.miss ++ i.miss }
    let s := s.updEng fun g =>
      { g with
        curves := g.curves ++ i.curves
        meshes := g.meshes ++ i.meshes
        wptr := g.wptr.filter (fun x => !i.wptr.any fun y => y.1 == x.1) ++ i.wptr }
    (s.loadTasks i.tasks).map fun s => s.answerBack.trackRoom

/-- Whether memory from an address holds some words: 1 or 0. -/
def State.engMatches (s : State) (o : Origin) (va : Nat) : List Nat → EngRes
  | [] => .val 1 0 s
  | w :: ws => (s.engReadNew o (va % 2 ^ 64) 8).bind fun v _ s => if v = w then s.engMatches o (va + 8) ws else .val 0 0 s

/-- The image whose number a header gives, when it is one of a context and fits a capacity. -/
def State.imageFor (s : State) (ctx cap header : Nat) : Option Image :=
  s.images.find? fun i => i.num % 2 ^ 32 == header / 2 ^ 32 && i.ctx.num == ctx && decide (i.size ≤ cap)

/-- Whether a context stands saved. -/
def State.isSaved (s : State) (ctx : Nat) : Bool :=
  match s.ctx? ctx with
  | some c => c.phase == .saved
  | none => false

/-- The status of a CTXLD before it restores anything: 0 when it may, with the image's number (R415). -/
def State.loadCheck (s : State) (o : Origin) (ctx cap area : Nat) : EngRes :=
  (s.engReadNew o ((area + 16) % 2 ^ 64) 8).bind fun h _ s =>
    match s.imageFor ctx cap h with
    | none => .val 2 0 s
    | some i => (s.engMatches o area (imageWords i.num i.size ctx)).bind fun ok _ s =>
        if ok = 0 then .val 2 0 s
        else if !s.isSaved ctx then .val 3 0 s
        else .val (4 + i.num) 0 s

/-- CTXLD (R415): it acts as FBAR for its threads (R403). -/
def execCtxld (d a : Reg) (s : State) : Host.Outcome State Fault Refusal :=
  Ops.instr (.ctxld d a) s fun L s =>
    match s.lowest L with
    | none => .done s
    | some t =>
      match s.loadCheck (s.originOf t) (t.num a) (t.num (a + 1)) (t.area a) with
      | .wait => .done (s.parkAll L .retry)
      | .stop => .done (s.meshEnd L (s.lanes L) d 2 0 .stop)
      | .fault k r va _ => .done (s.meshPark L (s.lanes L) k r va)
      | .val v _ s =>
        match s.images.find? fun i => v == 4 + i.num with
        | none => .done (s.results L fun u => u.result d.toNat 1 v 0)
        | some i =>
          match s.loadImage i with
          | none => .done (s.parkAll L .system)
          | some s =>
            .done ((s.mapExec L fun u => { u with fetched := [] }).results L fun u => u.result d.toNat 2 (2 ^ 32 * i.size) 0)

/-! ## ENGRST and EVTQ -/

/-- Whether the engine of a cluster is being reset (R416, R440). -/
def State.engineBusy (s : State) (cl : Nat) : Bool := s.eng.engines.any fun g => g.cluster == cl && g.busy

/-- ENGRST (R416): the issuing threads park until the engine accepts grants again. -/
def execEngrst (a : Reg) (s : State) : Host.Outcome State Fault Refusal :=
  Ops.instr (.engrst a) s fun L s =>
    match s.lowest L with
    | none => .done s
    | some t =>
      let cl := t.num a
      if 128 ≤ cl then .trap 1 0
      else if s.engineBusy cl then .done (s.parkAll L .system)
      else .done ((s.resetEngine cl).mapExec L fun u => { u with status := .parked (.engrst cl) })

/-- EVTQ (R417). -/
def execEvtq (wt : Bool) (d : Reg) (s : State) : Host.Outcome State Fault Refusal :=
  Ops.instr (.evtq wt d) s fun L s =>
    let die := coreDie L.core
    let answer := fun (s : State) (e : Event) => s.results L fun t => t.result d.toNat 4 (natOfWords e.words) 0
    match (s.arbiter die).queue with
    | e :: rest => .done (answer (s.putArbiter { s.arbiter die with queue := rest }) e)
    | [] =>
      if !wt then .done (answer s Event.empty)
      else
        let (id, s) := s.newId
        .done (s.mapExec L fun t => { t with status := .parked (.event (t.wb + d.toNat) id) })

end Sys2Proof.Machine
end

