-- ==== Sys2Proof/Machine/Board.lean ====
section
/-! DEFINITION. The host and firmware interface (22): launch-queue registers (R428, R429), heat budgets and the power cap (05 R104,
R435), the firmware mailbox (R437 to R439), engine resets (R440), Korlas Link ports (R433), boot (R434) and thermal shutdown
(R436). -/

namespace Sys2Proof.Machine

open Sys2Proof

/-- The 32-bit value that a register write carries. -/
def Arg.word (a : Arg) : Word := a.v.setWidth 32

/-! ## Launch-queue registers (R428, R429) -/

/-- LQPUT_WRITE (R429): ignored, with OVF, when it would overflow the ring. -/
def execLqputWrite (s : State) : Host.Outcome State Fault Refusal :=
  let x := s.queue s.arg.x
  let v := s.arg.word
  .next (if 16 ≤ s.arg.x then s
    else if x.size.toNat < (v - x.get).toNat then s.putQueue { x with ovf := true }
    else s.putQueue { x with put := v })

/-- A queue as no waiter of an entry any more. -/
def Miss.forget (w : Waiter) (m : Miss) : Miss := { m with waiters := m.waiters.filter (· != w) }

/-- The read of a descriptor that a queue no longer takes is given up, in the miss tables and in the images of saved contexts: its answer
is then no answer for what the queue reads next. -/
def State.forgetRead (s : State) (q : Nat) : State :=
  let s := s.updMem fun m => { m with miss := m.miss.map (Miss.forget (.queue q)) }
  { s with images := s.images.map fun i => { i with miss := i.miss.map (Miss.forget (.queue q)) } }

/-- LQCTL_WRITE (R429): ignored in full with a reserved bit set, and ignored with CFG when it changes the context of an enabled
queue. Clearing en stops the queue before its next descriptor is taken: one read and not yet taken is read again. -/
def execLqctlWrite (s : State) : Host.Outcome State Fault Refusal :=
  let x := s.queue s.arg.x
  let v := s.arg.word.toNat
  let en := bitOf v 31
  .next (if 16 ≤ s.arg.x || bitsOf v 30 6 != 0 then s
    else if x.en && v % 64 != x.ctx then s.putQueue { x with cfg := true }
    else
      let s := if en || x.report.isSome then s else s.forgetRead s.arg.x
      s.putQueue { x with en := en, ctx := v % 64, snap := if en then x.snap else none })

/-- LQERR_CLEAR (R428): flags written 1 are cleared; a reserved bit makes the write ignored in full (R429). -/
def execLqerrClear (s : State) : Host.Outcome State Fault Refusal :=
  let x := s.queue s.arg.x
  let v := s.arg.word.toNat
  .next (if 16 ≤ s.arg.x || v / 16 != 0 then s
    else s.putQueue { x with ovf := x.ovf && !bitOf v 0, cfg := x.cfg && !bitOf v 1, noctx := x.noctx && !bitOf v 2,
                             rfault := x.rfault && !bitOf v 3 })

/-! ## Heat-budget registers (R104, R105) -/

/-- HBCTL written (Table 5-4): setting en from 0 to 1 sets the level to the cap. -/
def Heat.putCtl (h : Heat) (v : Nat) : Heat :=
  if 2 ≤ v then h else { h with en := v == 1, level := if v = 1 && !h.en then h.cap else h.level }

/-- HBCAP written: a cap below the level lowers the level to it. -/
def Heat.putCap (h : Heat) (v : Nat) : Heat :=
  if 2 ^ 31 ≤ v then h else { h with cap := v, level := min h.level v }

/-- HBRATE written. -/
def Heat.putRate (h : Heat) (v : Nat) : Heat := if 2 ^ 24 ≤ v then h else { h with rate := v }

/-- HBCOST written. -/
def Heat.putCost (h : Heat) (v : Word) : Heat := { h with cost := v }

/-- A heat budget changed, after the refill steps that are due; those are not moved (R105). -/
def State.updHeat (s : State) (d sec : Nat) (f : Heat → Heat) : State :=
  if 4 ≤ d || 3 ≤ sec then s
  else
    let s := s.refill
    s.putHeat (f (s.heat d sec))

/-- HBCTL_WRITE (R104); a write of the host is discarded (Table 22-1). -/
def execHbctlWrite (s : State) : Host.Outcome State Fault Refusal :=
  .next (if s.arg.flag0 then s else s.updHeat s.arg.x s.arg.y fun h => h.putCtl s.arg.word.toNat)

/-- HBCAP_WRITE (R104); a write of the host is discarded (Table 22-1). -/
def execHbcapWrite (s : State) : Host.Outcome State Fault Refusal :=
  .next (if s.arg.flag0 then s else s.updHeat s.arg.x s.arg.y fun h => h.putCap s.arg.word.toNat)

/-! ## Registers without behaviour of their own -/

/-- The mailbox changed. -/
def State.updMbox (s : State) (f : Mailbox → Mailbox) : State := s.updDev fun d => { d with mbox := f d.mbox }

/-- A launch-queue register written while the queue is not enabled; else ignored with CFG (R429). -/
def State.queueWrite (s : State) (q : Nat) (f : LaunchQ → LaunchQ) : State :=
  if 16 ≤ q then s
  else
    let x := s.queue q
    s.putQueue (if x.en then { x with cfg := true } else f x)

/-- Whether the host may write a register: one of the launch queues or of the mailbox (Table 22-1). -/
def hostWrites : PlainReg → Bool
  | .lqbase _ | .lqsize _ | .mbreq _ | .mbirq => true
  | .hbrate _ _ | .hbcost _ _ | .qwgt0 _ | .qwgt1 _ | .hop _ => false

/-- REGISTER_WRITE (R104, R228, R372, R428, R438): a nonzero reserved field makes the write ignored in full, and a write of the host to a
register that is not its own is discarded (R427). -/
def execRegisterWrite (s : State) : Host.Outcome State Fault Refusal :=
  let a := s.arg
  let w := a.word
  .next (if a.flag0 && !hostWrites a.reg then s else match a.reg with
    | .lqbase q => s.queueWrite q fun x => { x with base := a.v }
    | .lqsize q => s.queueWrite q fun x => { x with size := w }
    | .hbrate d k => s.updHeat d k fun h => h.putRate w.toNat
    | .hbcost d k => s.updHeat d k fun h => h.putCost w
    | .qwgt0 p => s.putRouter { s.router p with wgt0 := w }
    | .qwgt1 p => s.putRouter { s.router p with wgt1 := w }
    | .mbreq k => s.updMbox fun m => { m with req := m.req.set k w }
    | .hop n => s.updDev fun d => { d with hops := d.hops.filter (fun h => h.1 != n) ++ [(n, w.toNat)] }
    | .mbirq => if w.toNat / 4096 != 0 then s
        else s.updMbox fun m => { m with irqEn := bitOf w.toNat 0, irqVec := bitsOf w.toNat 11 1 })

/-! ## The power cap (R435) -/

/-- Whether the input power stands below 95 % of the cap. -/
def Dev.low (d : Dev) : Bool := decide (100 * d.pwrnow < 95 * d.pwrcap)

/-- The power or the cap changed: the time below 95 % starts again unless it goes on. -/
def Dev.putPower (d : Dev) (f : Dev → Dev) : Dev :=
  let e := f d
  { e with below := if d.low && e.low then d.below else d.cycle }

/-- A new reading of the input power. -/
def State.powerReading (s : State) (w : Nat) : State := s.updDev fun d => d.putPower fun d => { d with pwrnow := w % 2 ^ 16 }

/-- Every sector, as die and sector. -/
def allSectors : List (Nat × Nat) := (upTo 4).flatMap fun d => (upTo 3).map fun k => (d, k)

/-- The heat budget of a sector with its requested values (R435). -/
def Heat.asked (h : Heat) : Heat :=
  { ((h.putCap h.reqCap).putRate h.reqRate |>.putCost h.reqCost).putCtl (if h.reqEn then 1 else 0) with held := false }

/-- The rate to which a sector is lowered: in proportion to the cap over the power (R435; assumption log 43). -/
def loweredRate (rate cap now : Nat) : Nat := rate * cap / now

/-- A sector under the cap (R435): one that requests en = 0 is enabled with the default table, unless it has been already, and the rate is
lowered. -/
def Heat.lower (cap now : Nat) (h : Heat) : Heat :=
  let (c, r, k) := Config.heatDefault h.die h.sector
  let h := if h.reqEn || h.held then h else (((h.putCap (c % 2 ^ 31)).putRate (r % 2 ^ 24)).putCost k).putCtl 1
  if h.en then { h with rate := loweredRate h.rate cap now, held := true } else h

/-- POWER_CAP_ENFORCE (R435). -/
def execPowerCapEnforce (s : State) : Host.Outcome State Fault Refusal :=
  let d := s.dev
  .next (if d.boot != .usable || d.pwrnow ≤ d.pwrcap then s
    else (allSectors.foldl (fun s x => s.updHeat x.1 x.2 (Heat.lower d.pwrcap d.pwrnow)) s).updDev fun d => { d with capped := true })

/-- POWER_CAP_RESTORE (R435): one sector returns to its requested values; after the last, CAPPED is cleared. -/
def execPowerCapRestore (s : State) : Host.Outcome State Fault Refusal :=
  let d := s.dev
  .next (if !d.capped || !d.low || d.cycle < d.below + 10 * tenMs || d.cycle < d.restored + tenMs then s
    else
      let s := match allSectors.find? fun x => (s.heat x.1 x.2).held with
        | some x => (s.updHeat x.1 x.2 Heat.asked).updDev fun d => { d with restored := d.cycle }
        | none => s
      if allSectors.any fun x => (s.heat x.1 x.2).held then s else s.updDev fun d => { d with capped := false })

/-- PWRSTAT_CLEAR (R435). -/
def execPwrstatClear (s : State) : Host.Outcome State Fault Refusal :=
  let v := s.arg.word.toNat
  .next (if bitOf v 0 && v / 32 = 0 then s.updDev fun d => { d with therm := false } else s)

/-! ## The mailbox (R438, R439) -/

/-- Status codes of the mailbox (Table 22-8). -/
def mbOk : Nat := 0
def mbBusy : Nat := 1
def mbBadReq : Nat := 2
def mbNoCtx : Nat := 3
def mbFault : Nat := 4

/-- A request word as a number. -/
def Mailbox.arg (m : Mailbox) (i : Nat) : Nat := (m.req.getD i 0).toNat

/-- Two request words as one number, low word first. -/
def Mailbox.arg2 (m : Mailbox) (i : Nat) : Nat := m.arg i + 2 ^ 32 * m.arg (i + 1)

/-- The context number of a request. -/
def Mailbox.ctx (m : Mailbox) : Nat := bitsOf (m.arg 0) 21 16

/-- The argument words that a request has (Table 22-7); none for an unassigned opcode. -/
def mbWords : Nat → Option Nat
  | 1 => some 2 | 2 => some 0 | 3 => some 0 | 4 => some 3 | 5 => some 3 | 6 => some 1 | 7 => some 3 | 8 => some 3 | 9 => some 4
  | 10 => some 1 | 11 => some 6 | 12 => some 1 | _ => none

/-- Whether a request is well-formed: reserved bits and unused words are 0, and the context is 0 where it must be (R438). -/
def Mailbox.wellFormed (m : Mailbox) : Bool :=
  match mbWords (m.arg 0 % 256) with
  | none => false
  | some n => bitsOf (m.arg 0) 31 22 == 0 && (upTo 15).all (fun i => i < n || m.arg (i + 1) == 0)
      && (m.arg 0 % 256 < 10 || m.ctx == 0)

/-- A request answered: its status and results are to be written (R439 step 4). -/
def State.mbAnswer (s : State) (st : Nat) (res : List Nat) : State :=
  s.updMbox fun m => { m with wait := none, answer := some (st, res.map (BitVec.ofNat 32)) }

/-- A request that holds the mailbox until what it waits for has come about (R439). -/
def State.mbWait (s : State) (w : MbWait) : State := s.updMbox fun m => { m with wait := some w }

/-- MBDOOR_WRITE (R438, R439): it submits the request whose header carries seq; while busy it is ignored and sets OVF; a request
that is not well-formed is answered BADREQ. Without a verified image there is no mailbox. -/
def execMbdoorWrite (s : State) : Host.Outcome State Fault Refusal :=
  let v := s.arg.word.toNat
  let m := s.dev.mbox
  .next (if s.dev.boot != .usable || v / 256 != 0 then s
    else if m.busy then s.updMbox fun m => { m with ovf := true }
    else
      let s := s.updMbox fun m => { m with busy := true, door := v }
      if bitsOf (m.arg 0) 15 8 != v || !m.wellFormed then s.mbAnswer mbBadReq [] else s)

/-- MBSTAT_CLEAR (R438): OVF is written 1 to clear. -/
def execMbstatClear (s : State) : Host.Outcome State Fault Refusal :=
  let v := s.arg.word.toNat
  .next (if bitOf v 9 && v / 1024 = 0 then s.updMbox fun m => { m with ovf := false } else s)

/-- Adeing performs a submitted request of an opcode (R439 step 3). -/
def State.request (s : State) (op : Nat) (f : Mailbox → State → State) : State :=
  let m := s.dev.mbox
  if m.busy && m.wait.isNone && m.answer.isNone && m.arg 0 % 256 == op then f m s else s

/-- A request for a live context. -/
def State.requestCtx (s : State) (op : Nat) (f : Mailbox → Context → State → State) : State :=
  s.request op fun m s =>
    match s.ctx? m.ctx with
    | none => s.mbAnswer mbNoCtx []
    | some c => f m c s

/-! ### Contexts (R432, R437) -/

/-- The bytes of device memory (R16): 768 GB. -/
def deviceBytes : Nat := 768 * 10 ^ 9

/-- A value of TCMAP as it is taken (Table 18-5): a field of 7 is 6. -/
def tcmapOf (v : Nat) : Word :=
  BitVec.ofNat 32 ((upTo 8).foldl (fun n i => n + Nat.min 6 (bitsOf v (3 * i + 2) (3 * i)) * 2 ^ (3 * i)) 0)

/-- Field of an entry image: `n` bytes at an offset. -/
def imageField (v o n : Nat) : Nat := v / 256 ^ o % 256 ^ n

/-- Whether an entry image keeps its reserved fields 0 and its fields in range (Table 22-5). -/
def entryOk (v : Nat) : Bool :=
  let f := imageField v
  f 0 4 < 4 && f 4 8 == 0 && f 12 4 < 2 ^ 24 && f 16 4 % 4 == 0 && ringSizeOk (f 20 4) && ringSizeOk (f 24 4) && f 28 4 ≤ 4096
  && f 32 8 % 4 == 0 && f 40 8 % 64 == 0 && f 48 8 % 4096 == 0 && f 56 8 % 64 == 0 && f 64 8 % 64 == 0 && f 72 8 % 2 ^ 16 == 0
  && f 80 176 == 0

/-- A context as its entry creates it (R432, R437). -/
def contextOf (n v : Nat) : Context :=
  let f := imageField v
  let p := fun (o k : Nat) => (BitVec.ofNat 64 (f o k) : Pair)
  { num := n, priv := bitOf (f 0 4) 1, pbytes := f 16 4, tvec := p 32 8, trbase := p 40 8, ptroot := p 48 8, fqbase := p 56 8
    fqsize := p 20 4, rrbase := p 64 8, rrsize := p 24 4, tcmap := tcmapOf (f 12 4), tsbase := f 72 8, tscount := f 28 4
    entry := v / 2 * 2 + 1 }

/-- A context with another TCMAP, in its entry too (R437). -/
def Context.putTcmap (c : Context) (v : Nat) : Context :=
  { c with tcmap := tcmapOf v, entry := c.entry % 2 ^ 96 + 2 ^ 96 * v + c.entry / 2 ^ 128 * 2 ^ 128 }

/-- CREATE (R437, R438). -/
def execMbCreate (s : State) : Host.Outcome State Fault Refusal :=
  .next (s.request 1 fun m s =>
    let a := m.arg2 1
    if a % 64 != 0 then s.mbAnswer mbBadReq []
    else if (s.ctx? m.ctx).isSome then s.mbAnswer mbBusy []
    else if deviceBytes < a + 256 then s.mbAnswer mbFault []
    else if s.mem.retry none a 256 then s
    else
      let bad := s.mem.poisoned a 256
      let (v, s) := s.readOrdered a 256
      if bad || !entryOk v then s.mbAnswer mbBadReq []
      else { s with ctxs := s.ctxs ++ [contextOf m.ctx v] }.mbAnswer mbOk [])

/-- DESTROY (R438): PREEMPT with kill, answered once the context is destroyed. -/
def execMbDestroy (s : State) : Host.Outcome State Fault Refusal :=
  .next (s.requestCtx 2 fun m _ s => (s.mbWait { op := 2, ctx := m.ctx }).preempt m.ctx true)

/-- HALT (R438): PREEMPT, answered once all four dies have raised HALTED. -/
def execMbHalt (s : State) : Host.Outcome State Fault Refusal :=
  .next (s.requestCtx 3 fun m c s =>
    if c.phase != .running then s.mbAnswer mbBusy []
    else (s.mbWait { op := 3, ctx := m.ctx }).preempt m.ctx false)

/-- Words written one after another in device memory; none while one of them is pinned. -/
def State.physWrites (s : State) (a : Nat) : List Nat → Option State
  | [] => some s
  | w :: ws => if s.mem.retry none a 8 then none else (s.writeHome none a 8 w).physWrites (a + 8) ws

/-- Whether device memory holds some words; none while one of them is pinned. -/
def State.physMatches (s : State) (a : Nat) : List Nat → Option (Bool × State)
  | [] => some (true, s)
  | w :: ws =>
    if s.mem.retry none a 8 then none
    else if s.mem.poisoned a 8 then some (false, s)
    else
      let (v, s) := s.readOrdered a 8
      if v = w then s.physMatches (a + 8) ws else some (false, s)

/-- Whether a save area is aligned. -/
def areaOk (a : Nat) : Bool := a % 2 ^ 16 == 0

/-- SAVE (R438): CTXSV of the context into device memory. -/
def execMbSave (s : State) : Host.Outcome State Fault Refusal :=
  .next (s.requestCtx 4 fun m c s =>
    let a := m.arg2 1
    if !areaOk a then s.mbAnswer mbBadReq []
    else if c.phase != .halted then s.mbAnswer mbBusy []
    else match s.saveCheck m.ctx (m.arg 3) with
      | .no st size => s.mbAnswer mbOk [st, size]
      | .wait => s
      | .go size =>
        if deviceBytes < a + 2 ^ 16 * size then s.mbAnswer mbFault []
        else
          let n := (s.ctxCores m.ctx).length
          let (num, f) := (s.flushTasks (s.ctxTasks m.ctx)).newId
          match f.physWrites a (imageWords num size m.ctx) with
          | none => s
          | some s => ((s.takeImage m.ctx num size).raiseSaved 0 0 m.ctx n).mbAnswer mbOk [0, size])

/-- LOAD (R438): CTXLD of the context from device memory. -/
def execMbLoad (s : State) : Host.Outcome State Fault Refusal :=
  .next (s.requestCtx 5 fun m c s =>
    let a := m.arg2 1
    if !areaOk a then s.mbAnswer mbBadReq []
    else if c.phase != .saved then s.mbAnswer mbBusy []
    else if deviceBytes < a + 64 then s.mbAnswer mbFault []
    else if s.mem.retry none (a + 16) 8 then s
    else
      let bad := s.mem.poisoned (a + 16) 8
      let (h, s') := s.readOrdered (a + 16) 8
      match s'.imageFor m.ctx (m.arg 3) h with
      | none => s'.mbAnswer mbOk [2]
      | some i =>
        if bad then s'.mbAnswer mbOk [2]
        else if deviceBytes < a + 2 ^ 16 * i.size then s'.mbAnswer mbFault []
        else match s'.physMatches a (imageWords i.num i.size m.ctx) with
          | none => s'
          | some (false, s') => s'.mbAnswer mbOk [2]
          | some (true, s') =>
            match s'.loadImage i with
            | none => s'
            | some s' => s'.mbAnswer mbOk [0])

/-- TCMAP (R438, Table 18-5). -/
def execMbTcmap (s : State) : Host.Outcome State Fault Refusal :=
  .next (s.requestCtx 6 fun m _ s =>
    let v := m.arg 1
    if 2 ^ 24 ≤ v then s.mbAnswer mbBadReq []
    else (s.updCtx m.ctx fun c => c.putTcmap v).mbAnswer mbOk [])

/-! ### Pages (R361, R362, R364, R412) -/

/-- The leaf of a page as its entry stands in memory. -/
def State.pageLeaf (s : State) (ctx va : Nat) : Option Leaf := (s.leafEntry ctx va).bind fun x => Leaf.ofEntry x.2.1 x.2.2

/-- A window asked for by firmware (R361). -/
def State.askWindow (s : State) (op ctx va newHome : Nat) (bias : Bool) : State :=
  (s.updDev fun d => { d with starts := d.starts ++ [{ ctx := ctx, va := va, newHome := newHome, mesh := none, bias := bias }] }).mbWait
    { op := op, ctx := ctx, va := va }

/-- MOVEPAGE (R438): for a page that a C-die homes. -/
def execMbMovepage (s : State) : Host.Outcome State Fault Refusal :=
  .next (s.requestCtx 7 fun m _ s =>
    let va := m.arg2 1
    if 3 < m.arg 3 then s.mbAnswer mbBadReq []
    else match s.pageLeaf m.ctx va with
      | none => s.mbAnswer mbFault []
      | some l => if 3 < l.home then s.mbAnswer mbBadReq [] else s.askWindow 7 m.ctx va (m.arg 3) false)

/-- BIAS (R364, R367): of a page shared with the host. A window never moves a page to or from a peer package (R368). -/
def execMbBias (s : State) : Host.Outcome State Fault Refusal :=
  .next (s.requestCtx 8 fun m _ s =>
    let va := m.arg2 1
    if 1 < m.arg 3 then s.mbAnswer mbBadReq []
    else match s.pageLeaf m.ctx va with
      | none => s.mbAnswer mbFault []
      | some l =>
        if !l.sh || l.home = 5 then s.mbAnswer mbBadReq []
        else s.askWindow 8 m.ctx va (if m.arg 3 = 0 then 4 else if l.home ≤ 3 then l.home else Config.biasDie l.pa % 4) true)

/-- MAILBOX_TLBINV (R438, R412). -/
def execMbTlbinv (s : State) : Host.Outcome State Fault Refusal :=
  .next (s.requestCtx 9 fun m _ s =>
    let r := dropOf (some m.ctx) (m.arg2 1) (m.arg2 3) (2 ^ 64 - 1)
    (s.mbWait { op := 9, ctx := m.ctx, reqs := s.dropReqs r, entries := s.dropEntries r }).dropXlates r.ctx r.lo r.hi)

/-! ### Power, heat and engines -/

/-- POWERCAP (R435). -/
def execMbPowercap (s : State) : Host.Outcome State Fault Refusal :=
  .next (s.request 10 fun m s =>
    let w := m.arg 1
    if w < 400 || 1600 < w then s.mbAnswer mbBadReq []
    else (s.updDev fun d => d.putPower fun d => { d with pwrcap := w }).mbAnswer mbOk [])

/-- HEAT (R435): the requested values of a sector, which take effect at once unless the power cap holds it. -/
def execMbHeat (s : State) : Host.Outcome State Fault Refusal :=
  .next (s.request 11 fun m s =>
    if 3 < m.arg 1 || 2 < m.arg 2 || 1 < m.arg 3 || 2 ^ 31 ≤ m.arg 4 || 2 ^ 24 ≤ m.arg 5 then s.mbAnswer mbBadReq []
    else
      let ask := fun (h : Heat) =>
        { h with reqEn := m.arg 3 == 1, reqCap := m.arg 4, reqRate := m.arg 5, reqCost := BitVec.ofNat 32 (m.arg 6) }
      let s := s.updHeat (m.arg 1) (m.arg 2) fun h => if h.held then ask h else (ask h).asked
      s.mbAnswer mbOk [])

/-- ENGRESET (R438, R440): it waits while the engine is being reset. -/
def execMbEngreset (s : State) : Host.Outcome State Fault Refusal :=
  .next (s.request 12 fun m s =>
    let cl := m.arg 1
    if 127 < cl then s.mbAnswer mbBadReq []
    else if s.engineBusy cl then s
    else (s.resetEngine cl).mbAnswer mbOk [])

/-- ENGRSTC_WRITE (R440); a write of the host is discarded. -/
def execEngrstcWrite (s : State) : Host.Outcome State Fault Refusal :=
  let cl := s.arg.x
  let v := s.arg.word.toNat
  .next (if s.arg.flag0 || 128 ≤ cl || v / 4 != 0 || s.engineBusy cl || !bitOf v 0 then s else s.resetEngine cl)

/-! ### The answer (R439 step 4) -/

/-- The answer of a request that waits, once what it waits for has come about. -/
def State.waitOver (s : State) (w : MbWait) : Option (Nat × List Word) :=
  match w.op with
  | 2 => if (s.ctx? w.ctx).isNone then some (mbOk, []) else none
  | 3 =>
    (match s.ctx? w.ctx with
     | some c => if c.phase == .halting then none else some (mbOk, [BitVec.ofNat 32 w.cores])
     | none => some (mbOk, [BitVec.ofNat 32 w.cores]))
  | 9 => if s.performed w.reqs w.entries then some (mbOk, []) else none
  | _ =>
    if s.dev.starts.any (fun x => x.ctx == w.ctx && x.va == w.va && x.mesh.isNone)
        || s.dev.mirrors.any (fun r => r.ctx == w.ctx && r.va == w.va && r.mesh.isNone)
    then none else some (mbOk, [])

/-- The response words, then MBSTAT, then the MSI-X message (R439). -/
def State.mbRespond (s : State) (st : Nat) (res : List Word) : State :=
  let m := s.dev.mbox
  let seq := bitsOf (m.arg 0) 15 8
  let rsp := (BitVec.ofNat 32 (st + 2 ^ 8 * seq) :: res) ++ List.replicate (15 - res.length) 0
  let s := s.updMbox fun m => { m with rsp := rsp, done := seq, busy := false, wait := none, answer := none }
  if m.irqEn then s.updDev fun d => { d with msix := m.irqVec :: d.msix } else s

/-- MAILBOX_ANSWER (R439). -/
def execMailboxAnswer (s : State) : Host.Outcome State Fault Refusal :=
  let m := s.dev.mbox
  .next (match m.answer with
    | some (st, res) => s.mbRespond st res
    | none =>
      match m.wait.bind s.waitOver with
      | some (st, res) => s.mbRespond st res
      | none => s)

/-! ## Links (R408, R433) -/

/-- LINK_RETRAIN_BEGIN (R408). -/
def execLinkRetrainBegin (s : State) : Host.Outcome State Fault Refusal := .next (s.retrain s.arg.x)

/-- LINK_RETRAIN_DONE (R408); a port that is up shows the port and the package at its other end (R433). -/
def execLinkRetrainDone (s : State) : Host.Outcome State Fault Refusal :=
  let n := s.arg.x
  let peer := fun (p : Port) => { p with state := 2, peerPort := s.arg.y % 2 ^ 6, peerPkg := s.arg.z % 2 ^ 24 }
  .next (if s.dev.links.any fun l => l.1 == n then
      ((s.updDev fun d => { d with links := d.links.filter fun l => l.1 != n }).updPort n peer).raiseLink n 1
    else s)

/-- LINK_RETIRE (R408, R433): a port, a base-die link or a bridge that has not retrained within 100 ms; or another unit, which
firmware retires (R124; assumption log 10). -/
def execLinkRetire (s : State) : Host.Outcome State Fault Refusal :=
  let n := s.arg.x
  .next (if isLink n then
      (if s.dev.links.any (fun l => l.1 == n && decide (l.2 + 10 * tenMs ≤ s.dev.cycle)) then
        ((s.updDev fun d => { d with links := d.links.filter (fun l => l.1 != n), retiredUnits := insertNat n d.retiredUnits }).updPort n
          fun p => { p with state := 3 }).raiseLink n 2
      else s)
    else s.updDev fun d => { d with retiredUnits := insertNat n d.retiredUnits })

/-! ## Boot (R434) and thermal shutdown (R436) -/

/-- The state in which power comes on: nothing is live, and the boot ROM fetches its image; after a thermal shutdown the boot is
held. What is the model's own stays. -/
def State.powerUp (s : State) : State :=
  { State.reset with
    agenda := s.agenda, arg := s.arg, freeCtr := s.freeCtr, idCtr := s.idCtr
    dev := { boot := if s.dev.boot == .shutdown || s.dev.boot == .held then .held else .fetching } }

/-- POWER_ON (R434). -/
def execPowerOn (s : State) : Host.Outcome State Fault Refusal := .next s.powerUp

/-- Whether an image verifies (R434): it is fetched, both its signatures verify, and each public key has the hash that the fuses hold for
its algorithm. -/
def Arg.verified (a : Arg) : Bool :=
  a.flag0 && a.flag1 && a.flag2 && a.x == Config.fuseHash 0 && a.y == Config.fuseHash 1

/-- BOOT_IMAGE_FETCHED (R434): with an image that verifies the package is usable; else the ROM waits,
twice as long each time, up to 64 s. -/
def execBootImageFetched (s : State) : Host.Outcome State Fault Refusal :=
  let a := s.arg
  .next (if s.dev.boot != .fetching then s
    else s.updDev fun d =>
      if a.verified then { d with boot := .usable, wait := 2 }
      else { d with boot := .waiting d.wait, wait := Nat.min 64 (2 * d.wait), bootAt := d.cycle })

/-- BOOT_FETCH_RETRY (R434): after the wait, the ROM fetches again. -/
def execBootFetchRetry (s : State) : Host.Outcome State Fault Refusal :=
  .next (match s.dev.boot with
    | .waiting n => if s.dev.cycle < s.dev.bootAt + n * (100 * tenMs) then s else s.updDev fun d => { d with boot := .fetching }
    | _ => s)

/-- The halt of a live context on every die that has not halted (R436 step 2). -/
def State.haltAll (s : State) (ctx : Nat) : State :=
  let s := s.requestHalt ctx false
  match s.ctx? ctx with
  | none => s
  | some c =>
    if c.phase != .halting then s
    else ((upTo 4).filter fun d => !c.haltedDies.contains d).foldl (fun s d => s.haltDie ctx d false) s

/-- What goes when power is removed from the C-dies and the M-stacks (R436 step 3): every context, saved image, cache and DRAM
content. Memory of the host and of peer packages stays. -/
def State.losePower (s : State) : State :=
  let away := fun (k : Nat) => k / 2 ^ 56 == 1 || k / 2 ^ 56 == 2
  let queues := s.ctxs.foldl (fun (l : List LaunchQ) c => l.map (LaunchQ.orphan c.num)) s.dev.queues
  { s with
    issue := none, threads := [], warps := [], teams := [], tasks := [], ctxs := [], images := [], eng := {}
    mem := { cells := s.mem.cells.filter fun c => away c.1, poison := s.mem.poison.filter away }
    dev := { s.dev with
      queues := queues, mbox := {}, capped := false, routers := [], mirrors := [], starts := [], heat := [] } }

/-- THERMAL_SHUTDOWN (R436) at a C-die, 0 to 3, or an X-die, 4 or 5: THERMAL is raised, on the die or on a die joined to the X-die (R9;
assumption log 43), every live context is halted, and power is removed. -/
def execThermalShutdown (s : State) : Host.Outcome State Fault Refusal :=
  let d := s.arg.x
  .next (if s.dev.boot == .off || s.dead || 6 ≤ d then s
    else
      let s := s.raise (if d < 4 then d else 2 * (d - 4)) { kind := .thermal, ctx := 255, src := d, data := BitVec.ofNat 32 d, addr := 0 }
      let s := s.updDev fun v => { v with therm := true, thermDie := d }
      let s := (s.ctxs.map fun (c : Context) => c.num).foldl State.haltAll s
      s.losePower.updDev fun v => { v with boot := .shutdown })

/-- FUNCTION_RESET (R436): after a thermal shutdown, the host function starts again and the boot is held; THERM stays. -/
def execFunctionReset (s : State) : Host.Outcome State Fault Refusal :=
  .next (if s.dev.boot == .shutdown then
      s.updDev fun d => { d with boot := .held, wait := 2, pwrcap := 1600, queues := [], mbox := {} }
    else s)

/-- DIES_BELOW_85C (R436): Adeing lets the boot go on. -/
def execDiesBelow85C (s : State) : Host.Outcome State Fault Refusal :=
  .next (if s.dev.boot == .held then s.updDev fun d => { d with boot := .fetching } else s)

end Sys2Proof.Machine
end

