-- ==== Sys2Proof/Machine/Control.lean ====
section
/-! DEFINITION. The meanings of class 0: control and prefixes (06 R114 to R117, R121; 09 R166 to R172). -/

namespace Sys2Proof.Machine

open Sys2Proof

/-- A signed word offset from the branch word's own address (R167, R168). -/
def target (L : Latch) (off : BitVec 64) : Pair := L.at_ + 4 * off

/-- A thread whose PC is moved. -/
def Thread.jump (pc : Pair) (t : Thread) : Thread := { t with pc := pc, repLeft := 0 }

/-- Whether a target lies on a word (R130, R168). -/
def wordAligned (pc : Pair) : Bool := pc.toNat % 4 == 0

/-- A jump to pair(vA) of every executing lane (R168); none of them transfers when some target is misaligned. -/
def jumpTo (L : Latch) (s : State) (a : Reg) (f : Thread → Thread) : Res :=
  if (s.lanes L).all fun t => wordAligned (t.pair a.toNat) then
    .done (s.mapExec L fun t => f (t.jump (t.pair a.toNat)))
  else .trap 1 0

/-- A thread with the link written into a pair at issue (R168). -/
def Thread.putPair (n : Nat) (v : Pair) (t : Thread) : Thread := (t.putReg n (Pair.lo v)).putReg (n + 1) (Pair.hi v)

/-- NOP (R166). -/
def execNop (s : State) : Host.Outcome State Fault Refusal :=
  Ops.instr .nop s fun _ s => .done s

/-- BRA (R167). -/
def execBra (off : BitVec 21) (s : State) : Host.Outcome State Fault Refusal :=
  Ops.instr (.bra off) s fun L s => .done (s.mapExec L (Thread.jump (target L (off.signExtend 64))))

/-- CALL (R168). -/
def execCall (off : BitVec 21) (s : State) : Host.Outcome State Fault Refusal :=
  Ops.instr (.call off) s fun L s =>
    .done (s.mapExec L fun t => (t.jump (target L (off.signExtend 64))).putPair 0 (L.at_ + 4))

/-- CALLI (R168): the target is read before the link is written. -/
def execCalli (d a : Reg) (s : State) : Host.Outcome State Fault Refusal :=
  Ops.instr (.calli d a) s fun L s => jumpTo L s a (Thread.putPair d.toNat (L.at_ + 4))

/-- RET (R168). -/
def execRet (a : Reg) (s : State) : Host.Outcome State Fault Refusal :=
  Ops.instr (.ret a) s fun L s => jumpTo L s a id

/-- JMPI (R168). -/
def execJmpi (a : Reg) (s : State) : Host.Outcome State Fault Refusal :=
  Ops.instr (.jmpi a) s fun L s => jumpTo L s a id

/-- A condition of BCMP on a signed number against zero (R167). -/
def BCond.holds (c : BCond) (v : Int) : Bool :=
  match c with
  | .eq => v == 0
  | .ne => v != 0
  | .lt => v < 0
  | .ge => 0 ≤ v
  | .gt => 0 < v
  | .le => v ≤ 0

/-- BCMP (R167). -/
def execBcmp (c : BCond) (d : Reg) (i : Imm) (s : State) : Host.Outcome State Fault Refusal :=
  Ops.instr (.bcmp c d i) s fun L s => .done (s.mapExec L fun t =>
    if BCond.holds c (t.reg d.toNat).toInt then t.jump (target L (i.signExtend 64)) else t)

/-- EXIT (R169). -/
def execExit (s : State) : Host.Outcome State Fault Refusal :=
  Ops.instr .exit s fun L s => .done (L.exec.foldl (fun s k => s.endThread L.core k .exited) s)

/-- YIELD (R170). -/
def execYield (s : State) : Host.Outcome State Fault Refusal :=
  Ops.instr .yield s fun L s => .done (s.updWarp L.core L.warp fun w => { w with yielded := true })

/-- The latch behind a REP (R114): a replay group starts at its own repeat (R140). -/
def Latch.putRep (n : BitVec 6) (sD sA sB : Bool) (L : Latch) : Latch :=
  { L with rep := some (n.toNat + 1, sD, sA, sB), n := n.toNat + 1, j := if L.left = 0 then 0 else n.toNat + 1 - L.left }

/-- REP (R114): the prefix is kept in the latch. -/
def execRep (n : BitVec 6) (sD sA sB : Bool) (s : State) : Host.Outcome State Fault Refusal :=
  Ops.pre (.rep n sD sA sB) s (Latch.putRep n sD sA sB)

/-- GUARD (R115): each executing thread samples its predicate. -/
def execGuard (p : BitVec 3) (sense : Bool) (c : BitVec 3) (s : State) : Host.Outcome State Fault Refusal :=
  Ops.instr (.guard p sense c) s fun L s =>
    .done (s.mapExec L fun t => { t with guard := some { g := t.pred p.toNat != sense, left := c.toNat + 1 } })

/-- The latch behind a LIMM (R116): imm21 of its word. -/
def Latch.putLimm (L : Latch) : Latch := { L with limm := some (limmImm L.word) }

/-- LIMM (R116): imm21 of the word is kept in the latch. -/
def execLimm (s : State) : Host.Outcome State Fault Refusal := Ops.pre .limm s Latch.putLimm

/-- The write of a window base (R121): `f` gives the new base from the old one. -/
def setWindow (L : Latch) (s : State) (f : Nat → Int) : Res :=
  if (s.lanes L).all fun t => let b := f t.wb; b % 16 == 0 && 0 ≤ b && b < t.regs.length then
    .done (s.mapExec L fun t => { t with wb := (f t.wb).toNat })
  else .trap 1 0

/-- WBASE (R121). -/
def execWbase (i : Imm) (s : State) : Host.Outcome State Fault Refusal :=
  Ops.instr (.wbase i) s fun L s => setWindow L s fun _ => i.toNat

/-- WBASE.add (R121). -/
def execWbaseAdd (i : Imm) (s : State) : Host.Outcome State Fault Refusal :=
  Ops.instr (.wbaseAdd i) s fun L s => setWindow L s fun wb => wb + i.toInt

/-- TRAP (R171). -/
def execTrap (i : Imm) (s : State) : Host.Outcome State Fault Refusal :=
  Ops.instr (.trap i) s fun _ _ => .trap 5 i.toNat

/-- SYSC (R171). -/
def execSysc (i : Imm) (s : State) : Host.Outcome State Fault Refusal :=
  Ops.instr (.sysc i) s fun _ _ => .trap 6 i.toNat

/-- FBAR (R172): the words fetched ahead for the executing threads are discarded. -/
def execFbar (s : State) : Host.Outcome State Fault Refusal :=
  Ops.instr .fbar s fun L s => .done (s.mapExec L fun t => { t with fetched := [] })

/-- ILL (R127): it fails step 1 of R129, so that its trap is taken before any effect. -/
def execIll (s : State) : Host.Outcome State Fault Refusal :=
  Ops.instr .ill s fun _ _ => .trap 1 0

end Sys2Proof.Machine
end

