-- ==== Sys2Proof/Machine/Issue.lean ====
section
/-! DEFINITION. Issue decisions (07 R137 to R140), the return of results (R134, R135) and the switch marker (R134). -/

namespace Sys2Proof.Machine

open Sys2Proof

/-- Whether words of a task may issue: its context is not halted and it is not being pre-empted (R401, R108). -/
def State.mayIssue (s : State) (task : Nat) : Bool :=
  match s.task? task with
  | none => false
  | some k => k.phase == .running && (match s.ctx? k.ctx with | some c => c.phase == .running | none => false)

/-- The warps that a packer may choose in this cycle (R137). -/
def State.candidates (s : State) (c pipe : Nat) : List Warp :=
  s.warps.filter fun w => w.core == c && w.slot % 2 == pipe && s.warpEligible w && s.mayIssue w.task

/-- A warp is older than another (R138). -/
def Warp.older (a b : Warp) : Bool := a.age < b.age || (a.age == b.age && a.slot < b.slot)

/-- The oldest warp of a list. -/
def oldest (ws : List Warp) : Option Warp := (sortBy Warp.older ws).head?

/-- The warp that a packer chooses (R138, R170): one that has waited 256 cycles, else the oldest, passing over a warp that
has yielded while there is another. -/
def chooseWarp (ws : List Warp) : Option Warp :=
  match oldest (ws.filter fun w => 256 ≤ w.waited) with
  | some w => some w
  | none => match oldest (ws.filter fun w => !w.yielded) with
    | some w => some w
    | none => oldest ws

/-- The eligible threads of a warp. -/
def State.eligible (s : State) (w : Warp) : List Thread :=
  s.threads.filter fun t => t.core == w.core && t.warp == w.slot && t.status == .eligible

/-- The distinct PCs of threads, lowest first. -/
def pcsOf (ts : List Thread) : List Pair := sortBy (fun (a b : Pair) => a.toNat < b.toNat) (ts.map (·.pc)).eraseDups

/-- The decisions that a PC has gone unchosen (R139). -/
def Warp.passedOver (w : Warp) (pc : Pair) : Nat :=
  match w.unchosen.find? fun x => x.1 == pc with
  | some x => x.2
  | none => 0

/-- The PC that a packer chooses for a warp (R139). -/
def choosePc (w : Warp) (pcs : List Pair) : Option Pair :=
  match pcs.find? fun p => 64 ≤ w.passedOver p with
  | some p => some p
  | none => pcs.head?

/-- The warp after a decision for a PC (R138, R139). -/
def Warp.decided (pcs : List Pair) (pc : Pair) (w : Warp) : Warp :=
  { w with chosen := true, yielded := false
           unchosen := (pcs.filter (· != pc)).map fun p => (p, w.passedOver p + 1) }

/-- The issue group at a PC, with its repeats still to run: replay groups first, in ascending order of those (R140). -/
def groupAt (ts : List Thread) (pc : Pair) : List Nat × Nat :=
  let here := ts.filter fun t => t.pc == pc
  let left := leastOf ((here.filter fun t => t.repLeft != 0).map (·.repLeft))
  ((here.filter fun t => t.repLeft == left).map (·.slot), left)

/-- The decision of a packer, when the warp it would choose meets `p` (R137 to R140). A packer decides once in a cycle. -/
def State.decide (s : State) (c pipe : Nat) (p : Warp → List Pair → Bool) : State :=
  if s.issue.isSome || (s.warps.any fun w => w.core == c && w.slot % 2 == pipe && w.chosen) then s
  else match chooseWarp (s.candidates c pipe) with
    | none => s
    | some w =>
      let ts := s.eligible w
      let pcs := pcsOf ts
      if !p w pcs then s
      else
        match w.cur.filter fun k => s.curLive c k with
        | some k => (s.updWarp c w.slot (Warp.decided pcs k.pc)).resume w k
        | none =>
          match choosePc w pcs with
          | none => s
          | some pc =>
            let (group, left) := groupAt ts pc
            (s.updWarp c w.slot fun w => { Warp.decided pcs pc w with cur := none }).open w pc group left

/-- ISSUE_DECISION (R137). -/
def execIssueDecision (s : State) : Host.Outcome State Fault Refusal :=
  .next (s.decide s.arg.x s.arg.y fun _ _ => true)

/-- WARP_STARVATION_BOUND (R138). -/
def execWarpStarvationBound (s : State) : Host.Outcome State Fault Refusal :=
  .next (s.decide s.arg.x s.arg.y fun w _ => 256 ≤ w.waited)

/-- PC_STARVATION_BOUND (R139). -/
def execPcStarvationBound (s : State) : Host.Outcome State Fault Refusal :=
  .next (s.decide s.arg.x (s.arg.y % 2) fun w pcs =>
    w.slot == s.arg.y && w.cur.isNone && pcs.any fun p => 64 ≤ w.passedOver p)

/-! ## Results -/

/-- The write of a result to its destinations (R135). DESIGN CHOICE: the registers of one result are written in one step, so that no read finds a pair
half old and half new (assumption log 79). -/
def Thread.write (p : Pending) (t : Thread) : Thread :=
  p.dests.foldl (fun t d => t.putDest d.1 (BitVec.ofNat 32 (p.val / 2 ^ (32 * d.2)))) t

/-- RESULT_RETURN (R135): an outstanding result none of whose parts is at a home any more is written, its flags first, and
all its registers in this step (assumption log 79). -/
def execResultReturn (s : State) : Host.Outcome State Fault Refusal :=
  .next (match s.thread? s.arg.x s.arg.y with
    | none => s
    | some t => match t.pending[s.arg.z]? with
      | none => s
      | some p =>
        if p.parts != 0 then s
        else (s.post t.core t.warp p.flags).updThread t.core t.slot fun t =>
          { t.write p with pending := t.pending.eraseIdx s.arg.z })

/-- Whether an outstanding result is on its way whatever else the machine does: it has only to be written, or its request waits for nothing but
its turn at a home of the package. -/
def State.onTheWay (s : State) (p : Pending) : Bool :=
  p.parts = 0 || s.mem.reqs.any fun r =>
    (r.pend == p.id || r.count == p.id) && r.stall.isNone && r.home ≤ 3 && !s.mem.reqs.any fun q =>
      q.core == r.core && q.slot == r.slot && s.mem.retry (some q.core) q.key q.width

/-- Whether a thread leaves its switch marker (R134): it has no result outstanding, and no thread that parked there with it waits for one that is
on its way: the results of one word return to its group together, whatever the order of the lanes (assumption log 78). -/
def State.markerDue (s : State) (t : Thread) : Bool :=
  t.status == .parked .marker && t.pending.isEmpty && t.mates.all fun k =>
    match s.thread? t.core k with
    | some u => !(u.status == .parked .marker && u.pc == t.pc && u.mates == t.mates && u.pending.any s.onTheWay)
    | none => true

/-- A thread that leaves its switch marker. -/
def Thread.leaveMarker (t : Thread) : Thread := { t with status := .eligible, mates := [] }

/-- MARKER_RELEASE (R134): a thread leaves its switch marker, and the threads that parked there with it and may leave it too. -/
def execMarkerRelease (s : State) : Host.Outcome State Fault Refusal :=
  .next (match s.thread? s.arg.x s.arg.y with
    | none => s
    | some t =>
      if !s.markerDue t then s
      else { s with threads := s.threads.map fun u =>
        if u.core == t.core && (u.slot == t.slot || t.mates.contains u.slot) && u.pc == t.pc && s.markerDue u then u.leaveMarker else u })

end Sys2Proof.Machine
end

