-- ==== Sys2Proof/Machine/Prism.lean ====
section
/-! DEFINITION. The Prism: GATH, SCAT and the service of a GATH (12 R252 to R256). -/

namespace Sys2Proof.Machine

open Sys2Proof

/-- Requests that the Prism of a cluster holds (R246). -/
def State.prismLoad (s : State) (cluster : Nat) : Nat :=
  s.eng.queue.foldl (fun n e =>
    match e.item with
    | .gath g => if coreCluster e.core == cluster then n + g.lanes.length else n
    | .copy _ | .tile _ | .job | .fence _ => n) 0

/-- A LUT4 codebook: a register in lanes 0 to 15 of a warp, whatever the execution mask (R37); a lane that holds no live thread supplies a free
value (assumption log 5). -/
def State.bookAt (s : State) (core warp : Nat) (c : Reg) : List Word :=
  (upTo 16).map fun i =>
    match s.laneOf core warp i with
    | some t => t.reg c.toNat
    | none => Config.bookLane s.idCtr i

/-- The codebook that a compound's warp supplies. -/
def State.bookOf (s : State) (L : Latch) (c : Reg) : List Word := s.bookAt L.core L.warp c

/-- GATH (R252): the lens and the codebook are those at issue. The word waits while the binning network has no room for the requests of all its
lanes (R246; assumption log 60). -/
def execGath (m : Bool) (ty : ReqTy8) (d a : Reg) (i : Imm) (s : State) : Host.Outcome State Fault Refusal :=
  Ops.instr (.gath m ty d a i) s fun L s =>
    s.withLens L i.toNat fun l snap =>
      if !l.ro then .trap 12 0
      else if 256 < s.prismLoad (coreCluster L.core) + L.exec.length then .stall s
      else
        let book := s.bookOf L d
        let (bad, good) := if m then s.split L a 0 16 else ([], s.lanes L)
        let n := pairN (ty == .f64)
        let (lanes, s) := good.foldl (fun (x : List GathLane × State) t =>
          let (id, s) := x.2.newId
          let s := s.updThread L.core t.slot fun t => t.addPending { id := id, parts := 1, dests := t.rowsFrom d.toNat n }
          let g : GathLane :=
            { lane := t.lane, slot := t.slot, coords := (upTo 4).map fun k => (t.reg (a.toNat + k)).toInt
              addr := if m then some (t.pair a.toNat).toNat else none, pend := id
              rows := (upTo (if m then 2 else 4)).map (fun k => t.wb + a.toNat + k), priv := s.privileged t }
          (x.1 ++ [g], s)) ([], s)
        let g : GathJob := { lens := i.toNat, snap := snap, ty := ty, lanes := lanes, book := book, pc := L.first, dest := d }
        let s := if lanes.isEmpty then s else (s.enqueue L.core L.warp (.qg L.warp) (.gath g) false (good.map fun t => t.slot)).2
        .done (s.stopAll L bad)

/-- SCAT (R256): a page-default store of each lane in range. -/
def execScat (ty : ReqTy8) (d a : Reg) (i : Imm) (s : State) : Host.Outcome State Fault Refusal :=
  Ops.instr (.scat ty d a i) s fun L s =>
    s.withLens L i.toNat fun l _ =>
      if l.ro || l.cmp || l.isQ4 || l.isLut then .trap 12 0
      else
        let at_ := fun (t : Thread) => (l.place ((upTo 4).map fun k => (t.reg (a.toNat + k)).toInt)).map fun p => l.elemAddr p % 2 ^ 64
        let vaOf := fun (t : Thread) => match at_ t with | some va => va | none => 0
        let (bad, good) := ((s.lanes L).filter fun t => (at_ t).isSome).partition fun t => s.windowBad t (vaOf t) l.eb
        s.withPages L .write (good.map fun t => { slot := t.slot, va := vaOf t, width := l.eb }) fun go s =>
          let good := good.filter go
          let value := fun (t : Thread) =>
            l.accept (some ty) (t.opnd (ty == .f64) d.toNat % 256 ^ numBytes (reqNum ty))
          let s := s.post L.core L.warp (good.foldl (fun fl t => fl ||| (value t).2) 0)
          .done (good.foldl (fun s t => s.storeLane L.core t.slot .dflt (vaOf t) l.eb (value t).1 0) (s.stopAll L bad))

/-! ## Service -/

/-- Lines of 128 bytes that a Prism's cache of 256 KiB holds (R16). -/
def prismLines : Nat := 2048

/-- One part of a Prism read: from its cache of lines filled through the lens entry, else read as .si and filled (R255); a read of an .nc page
is one of type .nc, which fills nothing (R214), as is one of private memory (R224). -/
def State.prismPart (s : State) (o : Origin) (tag va n : Nat) : EngRes :=
  let cl := coreCluster o.core
  if (s.windowOf o va).isSome then s.engPart o false va n else
  match s.walkFor o.ctx va .read o.priv with
  | (.fault r, s) => .fault .read r va s
  | (.retry, _) => .wait
  | (.poison _, s) => .fault .poison 0 va s
  | (.ok l, s) =>
    let key := l.key va
    let got := (wordKeys key n).map fun w => levelWord s.eng.prism cl tag w
    if l.rtype = 3 then s.engPart o false va n
    else if got.all Option.isSome then
      .val (natOfWords (got.map fun x => match x with | some v => v | none => 0) / 256 ^ (key % 4) % 256 ^ n) 0 s
    else (s.engPart o false va n).bind fun v fl s =>
      let ws := (pairKeys key n).filter fun w => !s.mem.poisoned w 4
      .val v fl (s.updEng fun g => { g with prism := fillLines prismLines cl tag ws (s.mem.wordFor o.core) g.prism })

/-- The parts of a Prism read. -/
def State.prismParts (s : State) (o : Origin) (tag va : Nat) : List (Nat × Nat) → EngRes
  | [] => .val 0 0 s
  | p :: ps =>
    (s.prismPart o tag ((va + p.1) % 2 ^ 64) p.2).bind fun v _ s =>
      (s.prismParts o tag va ps).bind fun w _ s => .val (v * 256 ^ p.1 + w) 0 s

/-- The four coordinates of a lane: from its registers, or read from memory as a plain load (R252). -/
def State.gathCoords (s : State) (o : Origin) (g : GathLane) (f : List Int → State → EngRes) : EngRes :=
  let four := fun (v : Nat) => (upTo 4).map fun k => sintN 32 (v / 2 ^ (32 * k) % 2 ^ 32)
  match g.addr with
  | none => f g.coords s
  | some va =>
    (s.engRead o va 16).bind fun v _ s => f (four v) s

/-- One lane of a GATH (R253). -/
def State.gathLane (s : State) (o : Origin) (tag : Nat) (l : Lens) (j : GathJob) (g : GathLane) : EngRes :=
  s.gathCoords o g fun cs s =>
    let stray := (upTo 4).any fun k => l.ndim ≤ k && cs.getD k 0 != 0
    match (if stray then none else l.place cs) with
    | none => .val (l.fillValue (some j.ty)) fOOB s
    | some p => l.fetch (fun s va n => s.prismParts o tag va (partsOf va n)) (some j.ty) j.book p s

/-- The state with the GATH of a queue entry changed. -/
def State.updGath (s : State) (id : Nat) (f : GathJob → GathJob) : State :=
  s.updEng fun g => { g with queue := g.queue.map fun e =>
    if e.id == id then (match e.item with
      | .gath c => { e with item := .gath (f c) }
      | .copy _ | .tile _ | .job | .fence _ => e) else e }

/-- Lanes of a GATH served one after another; the faults that lanes met, with the reads they were for (R253); the lanes whose read violates the
private window; and whether some lane waits on a retry. -/
structure Served where
  s : State
  answers : List (GathLane × Nat × BitVec 7) := []
  faults : List (GathLane × Access × Nat × Nat) := []
  stops : List GathLane := []
  waits : Bool := false

/-- One more lane. -/
def Served.next (x : Served) (o : Origin) (tag : Nat) (l : Lens) (j : GathJob) (g : GathLane) : Served :=
  match x.s.gathLane { o with slot := some g.slot, priv := g.priv } tag l j g with
  | .val v fl s => { x with s := s, answers := x.answers ++ [(g, v, fl)] }
  | .fault k r va s => { x with s := s, faults := x.faults ++ [(g, k, r, va)] }
  | .wait => { x with waits := true }
  | .stop => { x with stops := x.stops ++ [g] }

/-- A GATH that met a format fault, as it issues again (R254): with the lens, the codebook and the coordinates of that moment. None while its lens
entry is loading. -/
def State.regath (s : State) (e : QEntry) (ctx : Nat) (j : GathJob) : Option GathJob :=
  if !j.again then some j
  else
    let x := s.lens ctx j.lens
    if x.state == .loading then none
    else
      let lanes := j.lanes.map fun g =>
        match s.thread? e.core g.slot with
        | none => g
        | some t =>
          let ws := g.rows.map fun r => t.regs.getD r 0
          { g with coords := if g.addr.isSome then g.coords else ws.map fun w => w.toInt, addr := g.addr.map fun _ => natOfWords ws }
      some { j with snap := x.snap, lanes := lanes, book := s.bookAt e.core e.warp j.dest, again := false }

/-- The service of a GATH (R253, R254): a format fault fills no lane, posts no flag and parks every lane, and the GATH is to issue again; so does a
lens entry that is empty or not read-only by then (assumption log 61). While a lane waits on a retry, no lane receives its element, since a
format fault may follow. Other faults park their own lanes, and a violation of the private window stops its lane (R225). -/
def State.serveGath (s : State) (e : QEntry) (j : GathJob) : State :=
  let task := s.warpTask e.core e.warp
  let ctx := s.taskCtx task
  let o : Origin := { core := e.core, slot := none, ctx := ctx, priv := e.priv }
  match s.regath e ctx j with
  | none => s
  | some j =>
    let alive := j.lanes.filter fun g => match s.thread? e.core g.slot with
      | some t => t.pending.any fun p => p.id == g.pend
      | none => false
    let l := Lens.ofWords j.snap
    let x : Served := if j.snap.isEmpty || !l.ro then
        { s := s, faults := (alive.take 1).map fun g => (g, .format, 0, l.base) }
      else alive.foldl (fun (x : Served) g => x.next o (prismTag ctx j.lens) l j g) { s := s }
    match x.faults.find? fun f => f.2.1 == .format with
    | some (g, k, r, va) =>
      (x.s.updGath e.id fun _ => { j with lanes := alive, again := true }).engFault { o with priv := g.priv }
        (alive.map (fun h => Waiter.lane e.core h.slot 0) ++ [.gath e.id]) g.slot (s.taskIndex task) j.pc.toNat k r va
    | none =>
      let answers := if x.waits then [] else x.answers
      let s := answers.foldl (fun s a => s.updThread e.core a.1.slot fun t => t.answer a.1.pend 0 a.2.1 a.2.2) x.s
      let s := x.stops.foldl (fun s g => s.stopThread e.core g.slot) s
      let left := alive.filter fun g => !(answers.any fun a => a.1.pend == g.pend) && !(x.stops.any fun a => a.pend == g.pend)
      let s := x.faults.foldl (fun s f =>
        s.engFault { o with priv := f.1.priv } [.lane e.core f.1.slot 0, .gath e.id] f.1.slot (s.taskIndex task) j.pc.toNat f.2.1 f.2.2.1 f.2.2.2) s
      if left.isEmpty then s.entryDone e.id else s.updGath e.id fun _ => { j with lanes := left }

/-- The GATHs of a cluster's Prism that may be served: those at the heads of their queues that wait on no fault (R354). -/
def State.gathReady (s : State) (cluster : Nat) : List (QEntry × GathJob) :=
  s.eng.queue.filterMap fun e =>
    match e.item with
    | .gath j => if coreCluster e.core == cluster && s.eng.isHead e.id && !s.held (.gath e.id) then some (e, j) else none
    | .copy _ | .tile _ | .job | .fence _ => none

/-- PRISM_SERVE (R253). -/
def execPrismServe (s : State) : Host.Outcome State Fault Refusal :=
  .next (match (s.gathReady s.arg.x)[s.arg.y]? with
    | some (e, j) => s.serveGath e j
    | none => s)

end Sys2Proof.Machine
end

