-- ==== Sys2Proof/Machine/Matrix.lean ====
section
/-! DEFINITION. Class 10 at issue (14 R280 to R298): requests, tile operations, streams, SPACK and MSTAT. -/

namespace Sys2Proof.Machine

open Sys2Proof

/-! ## Requests -/

/-- Whether the reservation table takes no further request of the warp (R260). -/
def State.tableFull (s : State) (L : Latch) : Bool :=
  let mine := (s.qm L.core L.warp).filter fun x => x.2.isRequest
  let all := s.eng.queue.filter fun e => coreCluster e.core == coreCluster L.core &&
    e.isRequest
  8 ≤ mine.length || 32 ≤ all.length

/-- Whether the issuing threads are privileged (R393). -/
def State.privOf (s : State) (L : Latch) : Bool := (s.lanes L).any fun t => s.privileged t

/-- An entry at the tail of the warp's qm (R281). -/
def State.place (s : State) (L : Latch) (o : TileOp) : State := (s.enqueue L.core L.warp (.qm L.warp) (.tile o) (s.privOf L) L.exec).2

/-- The name table at the issue of a binding instruction (R281). -/
def State.bindName (s : State) (L : Latch) (z : Nat) (k : ZKind) : State :=
  s.updName L.core L.warp z fun n => { n with bound := true, kind := k }

/-- A pass request at issue (R284): the A registers of every executing lane. -/
def Ops.request (i : Instr) (t : PassTy) (n : Nat) (nw : Bool) (st z : BitVec 3) (a : Reg) (book : Latch → State → List Word)
    (s : State) : Host.Outcome State Fault Refusal :=
  Ops.instr i s fun L s =>
    match s.latchWarp L with
    | none => .done s
    | some w =>
      if (w.sub? st.toNat).isNone then .trap 9 0
      else if s.qmFull L || s.tableFull L then .stall s
      else
        let rows := (s.lanes L).map fun t => (t.lane, (upTo n).map fun k => t.reg (a.toNat + k))
        let fresh := nw || !(w.name z.toNat).bound
        let s := if fresh then s.bindName L z.toNat (PassTy.shape t).kind else s
        .done (s.place L (.pass t nw st.toNat z.toNat rows (book L s)))

/-- MMA (R284, R285). -/
def execMma (t : MmaTy) (nw : Bool) (st z : BitVec 3) (a : Reg) (s : State) : Host.Outcome State Fault Refusal :=
  Ops.request (.mma t nw st z a) (.mma t) (if t = .f64f64 then 16 else 8) nw st z a (fun _ _ => []) s

/-- MMAS (R284, R285). -/
def execMmas (e5 nw : Bool) (st z : BitVec 3) (a : Reg) (s : State) : Host.Outcome State Fault Refusal :=
  Ops.request (.mmas e5 nw st z a) (.mmas e5) 16 nw st z a (fun _ _ => []) s

/-- MMAQ (R284, R285). -/
def execMmaq (t : MmaQTy) (nw : Bool) (st z : BitVec 3) (a : Reg) (s : State) : Host.Outcome State Fault Refusal :=
  Ops.request (.mmaq t nw st z a) (.mmaq t) 16 nw st z a (fun _ _ => []) s

/-- MMAL (R284, R285): the codebook is copied at issue. -/
def execMmal (t : MmaQTy) (nw : Bool) (st z : BitVec 3) (a c : Reg) (s : State) : Host.Outcome State Fault Refusal :=
  Ops.request (.mmal t nw st z a c) (.mmal t) 16 nw st z a (fun L s => s.bookOf L c) s

/-- ZSCALE (R286). -/
def execZscale (d a b : Reg) (s : State) : Host.Outcome State Fault Refusal :=
  Ops.instr (.zscale d a b) s fun L s =>
    if !(s.zname L.core L.warp d.toNat).bound then .trap 1 0
    else if s.qmFull L || s.tableFull L then .stall s
    else
      let cols := fun (r : Reg) => s.lanesReg L.core L.warp r.toNat 0 ++ s.lanesReg L.core L.warp (r.toNat + 1) 0
      .done (s.place L (.zscale d.toNat ((s.lanes L).map (·.lane)) (cols a) (cols b)))

/-! ## Tile operations -/

/-- ZCLR (R287). -/
def execZclr (k : ZKind) (z : BitVec 3) (s : State) : Host.Outcome State Fault Refusal :=
  Ops.instr (.zclr k z) s fun L s =>
    if s.qmFull L then .stall s
    else .done ((s.bindName L z.toNat k).place L (.zclr k z.toNat ((s.lanes L).map (·.lane))))

/-- Bytes of a row in memory (R288). -/
def ZKind.rowBytes : ZKind → Nat
  | .f32 | .i32 => 260
  | .f64 => 512

/-- The accesses of the rows of a tile operation: none when a lane touches the private window (R288, R290). -/
def rowAccs (ts : List Thread) (a : Reg) (i : Imm) (n : Nat) : Option (List LaneAcc) :=
  let xs := ts.map fun t => ({ slot := t.slot, va := t.addr a i, width := n } : LaneAcc)
  if xs.any fun x => x.ends.any fun va => (windowOff va).isSome then none else some xs

/-- The translations of a row, made at issue (R288). -/
def State.rowLeaves (s : State) (t : Thread) (va n : Nat) : List Xlate :=
  ({ slot := t.slot, va := va, width := n : LaneAcc }.ends.filterMap fun x => s.cached t.core (s.ctxOf t) x).eraseDups

/-- The rows of the lanes that go on. -/
def State.tileRows (s : State) (L : Latch) (go : Thread → Bool) (a : Reg) (i : Imm) (n : Nat) : List TileRow :=
  ((s.lanes L).filter go).map fun t =>
    { lane := t.lane, slot := t.slot, va := t.addr a i, leaves := s.rowLeaves t (t.addr a i) n }

/-- ZLD (R288): an entry for the lanes that translate; the others park and issue it again. -/
def execZld (k : ZKind) (z : BitVec 3) (a : Reg) (i : Imm) (s : State) : Host.Outcome State Fault Refusal :=
  Ops.instr (.zld k z a i) s fun L s =>
    match rowAccs (s.lanes L) a i (ZKind.rowBytes k) with
    | none => .trap 1 0
    | some xs =>
      if s.qmFull L then .stall s
      else s.withPages L .read xs fun go s =>
        let rows := s.tileRows L go a i (ZKind.rowBytes k)
        .done (if rows.isEmpty then s else (s.bindName L z.toNat k).place L (.zld k z.toNat rows L.first.toNat))

/-- The checks of ZMOV and ZSTO on a name at issue (R289, R290). -/
def State.withName (s : State) (L : Latch) (z : Nat) (f : ZKind → Res) : Res :=
  let n := s.zname L.core L.warp z
  if !n.bound then .trap 1 0
  else match s.lostNow L.core L.warp z with
    | some c => .trap 13 c.info
    | none => f n.kind

/-- The largest selector of a kind (R289). -/
def ZKind.selMax : ZKind → Nat
  | .f32 | .i32 => 8
  | .f64 => 15

/-- The check of a selector by the name's kind (R289). -/
def State.selBad (s : State) (L : Latch) (z sel : Nat) : Bool :=
  let n := s.zname L.core L.warp z
  n.bound && ZKind.selMax n.kind < sel

/-- ZMOV (R289): the results return when the entry is performed. -/
def execZmov (d a : Reg) (i : Imm) (s : State) : Host.Outcome State Fault Refusal :=
  Ops.instr (.zmov d a i) s fun L s =>
    let z := a.toNat
    let sel := i.toNat
    if s.selBad L z sel then .trap 1 0
    else s.withName L z fun k =>
      if s.qmFull L then .stall s
      else
        let n := if k != .f64 && sel = 8 then 1 else 8
        let (lanes, s) := (s.lanes L).foldl (fun (x : List (Nat × Nat × Nat) × State) t =>
          let (id, s) := x.2.newId
          let s := s.updThread L.core t.slot fun t => t.addPending { id := id, parts := 1, dests := t.rowsFrom d.toNat n }
          (x.1 ++ [(t.lane, t.slot, id)], s)) ([], s)
        .done (s.place L (.zmov z sel k lanes))

/-- ZSTO (R290). -/
def execZsto (bf : Bool) (d a : Reg) (i : Imm) (s : State) : Host.Outcome State Fault Refusal :=
  Ops.instr (.zsto bf d a i) s fun L s =>
    let z := d.toNat
    let nm := s.zname L.core L.warp z
    if nm.bound && bf && nm.kind != .f32 then .trap 1 0
    else
      let n := if bf then 128 else ZKind.rowBytes nm.kind
      match rowAccs (s.lanes L) a i n with
      | none => .trap 1 0
      | some xs =>
        s.withName L z fun k =>
          if s.qmFull L then .stall s
          else s.withPages L .write xs fun go s =>
            let rows := s.tileRows L go a i n
            .done (if rows.isEmpty then s else s.place L (.zsto bf z k rows L.first.toNat))

/-- ZREL (R291). -/
def execZrel (d : Reg) (s : State) : Host.Outcome State Fault Refusal :=
  Ops.instr (.zrel d) s fun L s =>
    if s.qmFull L then .stall s
    else .done ((s.updName L.core L.warp d.toNat fun n => { n with bound := false }).place L (.zrel d.toNat))

/-- ZWAIT (R292): the threads that its entries hold up wait and issue it again once they are released; those whose name was lost then, for one
cause, trap. -/
def execZwait (d : Reg) (s : State) : Host.Outcome State Fault Refusal :=
  Ops.instr (.zwait d) s fun L s =>
    let z := d.toNat
    let ts := s.lanes L
    let new := ts.filter fun t => t.zwait.isNone
    match ts.findSome? fun t => t.zwait.join with
    | some c => .trapSome ((ts.filter fun t => t.zwait == some (some c)).map fun t => t.slot) 13 c.info
    | none =>
      let s := s.mapExec L fun t => { t with zwait := none }
      if new.isEmpty then .done s
      else if s.qmFull L then .stall s
      else
        let ids := ((s.qm L.core L.warp).filter fun x => x.2.name == some z).map fun x => x.1.id
        if !ids.isEmpty then
          .done (new.foldl (fun s t => s.parkReplay L t.slot (.queue ids z)) (s.place L (.zwait z)))
        else match (if (s.zname L.core L.warp z).bound then s.lostNow L.core L.warp z else none) with
          | some c => .trap 13 c.info
          | none => .done (s.place L (.zwait z))

/-! ## Streams, SPACK and MSTAT -/

/-- Formats with 2:4 metadata. -/
def SFmt.isSparse : SFmt → Bool
  | .sE4m3 | .sE5m2 => true
  | .e4m3 | .e5m2 | .i8 | .bf16 | .f16 | .f64 | .q4k64 | .q4k32 | .lut4k64 | .lut4k32 => false

/-- Whether everything that a stream holds was published in this cycle by higher warp slots of a core, which a publication of a lower one would
come before (R293). -/
def State.publishedAbove (s : State) (x : Stream) (c w : Nat) : Bool :=
  x.blocks.all fun b => b.quarters.all fun q => q.1 == c % 4 && q.2.at_ == s.dev.cycle && w < q.2.warp

/-- STRPUB (R293). One whose format differs from that of a higher warp slot in the same cycle is accepted in a later cycle, so that the order of
a cycle's publications is that of the warp slots. -/
def execStrpub (f : SFmt) (st : BitVec 3) (a b : Reg) (s : State) : Host.Outcome State Fault Refusal :=
  Ops.instr (.strpub f st a b) s fun L s =>
    let cl := coreCluster L.core
    let x := (s.engine cl).stream st.toNat
    let mine := x.blocks.filter fun k => k.quarters.any fun q => q.1 == L.core % 4
    if 4 ≤ mine.length then .stall s
    else
      let extra := s.lanesReg L.core L.warp b.toNat (if SFmt.isSparse f then 0x44444444 else 0)
      match (if SFmt.isSparse f then sparseBad extra else none) with
      | some (l, n) => .trap 4 (l + 256 * n)
      | none =>
        if (match x.fmt with | some g => g != f | none => false) then
          (if s.publishedAbove x L.core L.warp && !x.blocks.isEmpty then .stall s else .trap 9 0)
        else
          let data := (upTo 32).map fun l => (upTo (SFmt.regs f)).map fun k =>
            match s.laneOf L.core L.warp l with
            | some t => t.reg (a.toNat + k)
            | none => 0
          .done ((s.publish L.core st.toNat f { data := data, extra := extra, warp := L.warp, at_ := s.dev.cycle }).settleStream cl st.toNat)

/-- STRSUB (R294). -/
def execStrsub (d : Reg) (i : Imm) (s : State) : Host.Outcome State Fault Refusal :=
  Ops.instr (.strsub d i) s fun L s =>
    match s.latchWarp L with
    | none => .done s
    | some w => if (w.sub? d.toNat).isSome then .trap 9 0 else .done (s.subscribe L.core L.warp d.toNat i.toNat)

/-- STREND (R295). -/
def execStrend (d : Reg) (s : State) : Host.Outcome State Fault Refusal :=
  Ops.instr (.strend d) s fun L s =>
    match s.latchWarp L with
    | none => .done s
    | some w =>
      if (w.sub? d.toNat).isNone then .trap 9 0
      else if s.qmFull L then .stall s
      else
        let s := s.updWarp L.core L.warp fun w =>
          { w with subs := w.subs.map fun b => if b.stream == d.toNat then { b with ended := true } else b }
        .done (s.place L (.strend d.toNat))

/-- SPACK (R297). -/
def execSpack (d a : Reg) (s : State) : Host.Outcome State Fault Refusal :=
  Ops.alu (.spack d a) d 1 s fun t => (packMask (t.num a), 0)

/-- A status word of MSTAT (R298). DESIGN CHOICE: the kind bits of an unbound name, which R298 does not state, are free (assumption log 81). -/
def State.matrixStatus (s : State) (L : Latch) (sel stream : Nat) : Nat :=
  match sel with
  | 0 => ((s.qm L.core L.warp).filter fun x => x.2.isRequest).length
  | 1 => s.queueLen L.core (.qm L.warp)
  | 2 => (s.engine (coreCluster L.core)).resets % 2 ^ 32
  | 3 => (upTo 8).foldl (fun v z =>
      let n := s.zname L.core L.warp z
      let state := if !n.bound then 0 else match s.lostNow L.core L.warp z with
        | none => 1
        | some .reset => 2
        | some .format => 3
      v + state * 4 ^ z + (if n.bound then ZKind.code n.kind else Config.unboundKind z % 4) * 2 ^ (16 + 2 * z)) 0
  | 4 => (match (s.latchWarp L).bind fun w => w.sub? stream with
      | none => 0
      | some b => 2 ^ 31 + (b.window - b.granted))
  | _ => (s.freeTiles L.core).length

/-- MSTAT (R298). -/
def execMstat (d a : Reg) (i : Imm) (s : State) : Host.Outcome State Fault Refusal :=
  Ops.instr (.mstat d a i) s fun L s =>
    .done (s.results L fun t => t.result d.toNat 1 (s.matrixStatus L i.toNat (t.num a % 8)) 0)

end Sys2Proof.Machine
end

