-- ==== Sys2Proof/Machine/Dispatch.lean ====
section
/-! DEFINITION. The dispatch: one arm per instruction and per step of the device. -/

namespace Sys2Proof.Machine

open Sys2Proof

def exec (i : Instr) (s : State) : Host.Outcome State Fault Refusal :=
  match i with
  | .bra off => Sys2Proof.Machine.execBra off s
  | .call off => Sys2Proof.Machine.execCall off s
  | .calli d a => Sys2Proof.Machine.execCalli d a s
  | .ret a => Sys2Proof.Machine.execRet a s
  | .jmpi a => Sys2Proof.Machine.execJmpi a s
  | .bcmp c d imm => Sys2Proof.Machine.execBcmp c d imm s
  | .rep n sD sA sB => Sys2Proof.Machine.execRep n sD sA sB s
  | .guard p sense c => Sys2Proof.Machine.execGuard p sense c s
  | .wbase imm => Sys2Proof.Machine.execWbase imm s
  | .wbaseAdd imm => Sys2Proof.Machine.execWbaseAdd imm s
  | .trap imm => Sys2Proof.Machine.execTrap imm s
  | .sysc imm => Sys2Proof.Machine.execSysc imm s
  | .add p d a b => Sys2Proof.Machine.execAdd p d a b s
  | .addc p d a b => Sys2Proof.Machine.execAddc p d a b s
  | .sub p d a b => Sys2Proof.Machine.execSub p d a b s
  | .subb p d a b => Sys2Proof.Machine.execSubb p d a b s
  | .mul p d a b => Sys2Proof.Machine.execMul p d a b s
  | .mulh u d a b => Sys2Proof.Machine.execMulh u d a b s
  | .mad p d a b => Sys2Proof.Machine.execMad p d a b s
  | .div u d a b => Sys2Proof.Machine.execDiv u d a b s
  | .divTrap u d a b => Sys2Proof.Machine.execDivTrap u d a b s
  | .rem u d a b => Sys2Proof.Machine.execRem u d a b s
  | .min t d a b => Sys2Proof.Machine.execMin t d a b s
  | .max t d a b => Sys2Proof.Machine.execMax t d a b s
  | .abs d a => Sys2Proof.Machine.execAbs d a s
  | .neg d a => Sys2Proof.Machine.execNeg d a s
  | .and d a b => Sys2Proof.Machine.execAnd d a b s
  | .or d a b => Sys2Proof.Machine.execOr d a b s
  | .xor d a b => Sys2Proof.Machine.execXor d a b s
  | .not d a => Sys2Proof.Machine.execNot d a s
  | .andn d a b => Sys2Proof.Machine.execAndn d a b s
  | .shl d a b => Sys2Proof.Machine.execShl d a b s
  | .shl64 d a b => Sys2Proof.Machine.execShl64 d a b s
  | .shr d a b => Sys2Proof.Machine.execShr d a b s
  | .shr64 d a b => Sys2Proof.Machine.execShr64 d a b s
  | .shra d a b => Sys2Proof.Machine.execShra d a b s
  | .shra64 d a b => Sys2Proof.Machine.execShra64 d a b s
  | .rot d a b => Sys2Proof.Machine.execRot d a b s
  | .sel d a b => Sys2Proof.Machine.execSel d a b s
  | .lea d a b => Sys2Proof.Machine.execLea d a b s
  | .addI p d a imm => Sys2Proof.Machine.execAddI p d a imm s
  | .mulI d a imm => Sys2Proof.Machine.execMulI d a imm s
  | .andI d a imm => Sys2Proof.Machine.execAndI d a imm s
  | .orI d a imm => Sys2Proof.Machine.execOrI d a imm s
  | .xorI d a imm => Sys2Proof.Machine.execXorI d a imm s
  | .shlI p d a imm => Sys2Proof.Machine.execShlI p d a imm s
  | .shrI p d a imm => Sys2Proof.Machine.execShrI p d a imm s
  | .shraI p d a imm => Sys2Proof.Machine.execShraI p d a imm s
  | .rotI d a imm => Sys2Proof.Machine.execRotI d a imm s
  | .minIS d a imm => Sys2Proof.Machine.execMinIS d a imm s
  | .minIU d a imm => Sys2Proof.Machine.execMinIU d a imm s
  | .maxIS d a imm => Sys2Proof.Machine.execMaxIS d a imm s
  | .maxIU d a imm => Sys2Proof.Machine.execMaxIU d a imm s
  | .leaI d a imm => Sys2Proof.Machine.execLeaI d a imm s
  | .movi d imm => Sys2Proof.Machine.execMovi d imm s
  | .movi64 d imm => Sys2Proof.Machine.execMovi64 d imm s
  | .pset c t d a b => Sys2Proof.Machine.execPset c t d a b s
  | .pand d a b => Sys2Proof.Machine.execPand d a b s
  | .por d a b => Sys2Proof.Machine.execPor d a b s
  | .pxor d a b => Sys2Proof.Machine.execPxor d a b s
  | .pnot d a => Sys2Proof.Machine.execPnot d a s
  | .pmovReg d a => Sys2Proof.Machine.execPmovReg d a s
  | .pmovPred d a => Sys2Proof.Machine.execPmovPred d a s
  | .bfx x d a b => Sys2Proof.Machine.execBfx x d a b s
  | .bfi d a b => Sys2Proof.Machine.execBfi d a b s
  | .popc d a => Sys2Proof.Machine.execPopc d a s
  | .clz d a => Sys2Proof.Machine.execClz d a s
  | .ctz d a => Sys2Proof.Machine.execCtz d a s
  | .brev d a => Sys2Proof.Machine.execBrev d a s
  | .smov d a => Sys2Proof.Machine.execSmov d a s
  | .swr d a => Sys2Proof.Machine.execSwr d a s
  | .tjoin d a => Sys2Proof.Machine.execTjoin d a s
  | .tleave d a => Sys2Proof.Machine.execTleave d a s
  | .mjoin d => Sys2Proof.Machine.execMjoin d s
  | .mleave d => Sys2Proof.Machine.execMleave d s
  | .mwait d => Sys2Proof.Machine.execMwait d s
  | .mset d a => Sys2Proof.Machine.execMset d a s
  | .mread d a => Sys2Proof.Machine.execMread d a s
  | .wregrp d a => Sys2Proof.Machine.execWregrp d a s
  | .wpart imm => Sys2Proof.Machine.execWpart imm s
  | .groute d a => Sys2Proof.Machine.execGroute d a s
  | .wsort d a => Sys2Proof.Machine.execWsort d a s
  | .lcomp d a => Sys2Proof.Machine.execLcomp d a s
  | .match w d a => Sys2Proof.Machine.execMatch w d a s
  | .vote v d a => Sys2Proof.Machine.execVote v d a s
  | .shfl m d a b => Sys2Proof.Machine.execShfl m d a b s
  | .redw o d a => Sys2Proof.Machine.execRedw o d a s
  | .scanw o d a => Sys2Proof.Machine.execScanw o d a s
  | .faddF32 d a b => Sys2Proof.Machine.execFaddF32 d a b s
  | .faddF16 d a b => Sys2Proof.Machine.execFaddF16 d a b s
  | .faddBf16 d a b => Sys2Proof.Machine.execFaddBf16 d a b s
  | .fsubF32 d a b => Sys2Proof.Machine.execFsubF32 d a b s
  | .fsubF16 d a b => Sys2Proof.Machine.execFsubF16 d a b s
  | .fsubBf16 d a b => Sys2Proof.Machine.execFsubBf16 d a b s
  | .fmulF32 d a b => Sys2Proof.Machine.execFmulF32 d a b s
  | .fmulF16 d a b => Sys2Proof.Machine.execFmulF16 d a b s
  | .fmulBf16 d a b => Sys2Proof.Machine.execFmulBf16 d a b s
  | .ffmaF32 d a b => Sys2Proof.Machine.execFfmaF32 d a b s
  | .ffmaF16 d a b => Sys2Proof.Machine.execFfmaF16 d a b s
  | .ffmaBf16 d a b => Sys2Proof.Machine.execFfmaBf16 d a b s
  | .fminF32 d a b => Sys2Proof.Machine.execFminF32 d a b s
  | .fminF16 d a b => Sys2Proof.Machine.execFminF16 d a b s
  | .fminBf16 d a b => Sys2Proof.Machine.execFminBf16 d a b s
  | .fmaxF32 d a b => Sys2Proof.Machine.execFmaxF32 d a b s
  | .fmaxF16 d a b => Sys2Proof.Machine.execFmaxF16 d a b s
  | .fmaxBf16 d a b => Sys2Proof.Machine.execFmaxBf16 d a b s
  | .fnegF32 d a => Sys2Proof.Machine.execFnegF32 d a s
  | .fnegF16 d a => Sys2Proof.Machine.execFnegF16 d a s
  | .fnegBf16 d a => Sys2Proof.Machine.execFnegBf16 d a s
  | .fabsF32 d a => Sys2Proof.Machine.execFabsF32 d a s
  | .fabsF16 d a => Sys2Proof.Machine.execFabsF16 d a s
  | .fabsBf16 d a => Sys2Proof.Machine.execFabsBf16 d a s
  | .fcmp c d a b => Sys2Proof.Machine.execFcmp c d a b s
  | .fsel d a b => Sys2Proof.Machine.execFsel d a b s
  | .fdiv d a b => Sys2Proof.Machine.execFdiv d a b s
  | .fsqrt d a => Sys2Proof.Machine.execFsqrt d a s
  | .frcp d a => Sys2Proof.Machine.execFrcp d a s
  | .frsq d a => Sys2Proof.Machine.execFrsq d a s
  | .fexp2 d a => Sys2Proof.Machine.execFexp2 d a s
  | .flog2 d a => Sys2Proof.Machine.execFlog2 d a s
  | .fsin d a => Sys2Proof.Machine.execFsin d a s
  | .fcos d a => Sys2Proof.Machine.execFcos d a s
  | .ftanh d a => Sys2Proof.Machine.execFtanh d a s
  | .fclass d a => Sys2Proof.Machine.execFclass d a s
  | .frndRne d a => Sys2Proof.Machine.execFrndRne d a s
  | .frndRz d a => Sys2Proof.Machine.execFrndRz d a s
  | .frndRd d a => Sys2Proof.Machine.execFrndRd d a s
  | .frndRu d a => Sys2Proof.Machine.execFrndRu d a s
  | .fscale d a b => Sys2Proof.Machine.execFscale d a b s
  | .hfma2 t d a b => Sys2Proof.Machine.execHfma2 t d a b s
  | .dot4E4m3 d a b => Sys2Proof.Machine.execDot4E4m3 d a b s
  | .dot4E5m2 d a b => Sys2Proof.Machine.execDot4E5m2 d a b s
  | .dot4I8 d a b => Sys2Proof.Machine.execDot4I8 d a b s
  | .faddF64 d a b => Sys2Proof.Machine.execFaddF64 d a b s
  | .fsubF64 d a b => Sys2Proof.Machine.execFsubF64 d a b s
  | .fmulF64 d a b => Sys2Proof.Machine.execFmulF64 d a b s
  | .ffmaF64 d a b => Sys2Proof.Machine.execFfmaF64 d a b s
  | .fminF64 d a b => Sys2Proof.Machine.execFminF64 d a b s
  | .fmaxF64 d a b => Sys2Proof.Machine.execFmaxF64 d a b s
  | .fdivF64 d a b => Sys2Proof.Machine.execFdivF64 d a b s
  | .fsqrtF64 d a => Sys2Proof.Machine.execFsqrtF64 d a s
  | .fcmpF64 c d a b => Sys2Proof.Machine.execFcmpF64 c d a b s
  | .frndF64 r d a => Sys2Proof.Machine.execFrndF64 r d a s
  | .fnegF64 d a => Sys2Proof.Machine.execFnegF64 d a s
  | .fabsF64 d a => Sys2Proof.Machine.execFabsF64 d a s
  | .fclassF64 d a => Sys2Proof.Machine.execFclassF64 d a s
  | .fscaleF64 d a b => Sys2Proof.Machine.execFscaleF64 d a b s
  | .cvtqDec d a b => Sys2Proof.Machine.execCvtqDec d a b s
  | .cvtqEnc d a b => Sys2Proof.Machine.execCvtqEnc d a b s
  | .cvtxIns y n r d a => Sys2Proof.Machine.execCvtxIns y n r d a s
  | .cvtxExt y n d a => Sys2Proof.Machine.execCvtxExt y n d a s
  | .flagr d => Sys2Proof.Machine.execFlagr d s
  | .flagc a => Sys2Proof.Machine.execFlagc a s
  | .rng d => Sys2Proof.Machine.execRng d s
  | .rngseed a b => Sys2Proof.Machine.execRngseed a b s
  | .cvt x dst src r d a => Sys2Proof.Machine.execCvt x dst src r d a s
  | .ld q w d a imm => Sys2Proof.Machine.execLd q w d a imm s
  | .st q w d a imm => Sys2Proof.Machine.execSt q w d a imm s
  | .lds w d a imm => Sys2Proof.Machine.execLds w d a imm s
  | .sts w d a imm => Sys2Proof.Machine.execSts w d a imm s
  | .ldx w d a imm => Sys2Proof.Machine.execLdx w d a imm s
  | .stx w d a imm => Sys2Proof.Machine.execStx w d a imm s
  | .pref d a imm => Sys2Proof.Machine.execPref d a imm s
  | .cwb sc a b => Sys2Proof.Machine.execCwb sc a b s
  | .cinv sc a b => Sys2Proof.Machine.execCinv sc a b s
  | .cwbinv sc a b => Sys2Proof.Machine.execCwbinv sc a b s
  | .icinv sc a b => Sys2Proof.Machine.execIcinv sc a b s
  | .lensld a imm => Sys2Proof.Machine.execLensld a imm s
  | .lensinv imm => Sys2Proof.Machine.execLensinv imm s
  | .lensq d a imm => Sys2Proof.Machine.execLensq d a imm s
  | .copy q d a imm => Sys2Proof.Machine.execCopy q d a imm s
  | .copys q d a imm => Sys2Proof.Machine.execCopys q d a imm s
  | .copym q d a imm => Sys2Proof.Machine.execCopym q d a imm s
  | .qfence sc rel q => Sys2Proof.Machine.execQfence sc rel q s
  | .cwait q => Sys2Proof.Machine.execCwait q s
  | .feset a imm => Sys2Proof.Machine.execFeset a imm s
  | .feclr a imm => Sys2Proof.Machine.execFeclr a imm s
  | .cstore w d a b => Sys2Proof.Machine.execCstore w d a b s
  | .xpand w d a b => Sys2Proof.Machine.execXpand w d a b s
  | .gath m t d a imm => Sys2Proof.Machine.execGath m t d a imm s
  | .scat t d a imm => Sys2Proof.Machine.execScat t d a imm s
  | .ldAcq w sc d a => Sys2Proof.Machine.execLdAcq w sc d a s
  | .stRel w sc d a => Sys2Proof.Machine.execStRel w sc d a s
  | .atom o w d a b => Sys2Proof.Machine.execAtom o w d a b s
  | .acas w d a b => Sys2Proof.Machine.execAcas w d a b s
  | .red o w a b => Sys2Proof.Machine.execRed o w a b s
  | .fenceAcq sc => Sys2Proof.Machine.execFenceAcq sc s
  | .fenceRel sc => Sys2Proof.Machine.execFenceRel sc s
  | .fenceAcqrel sc => Sys2Proof.Machine.execFenceAcqrel sc s
  | .waitvB32 d a b => Sys2Proof.Machine.execWaitvB32 d a b s
  | .waitvB64 d a b => Sys2Proof.Machine.execWaitvB64 d a b s
  | .binit d a l => Sys2Proof.Machine.execBinit d a l s
  | .barv d a l => Sys2Proof.Machine.execBarv d a l s
  | .barvr d a b => Sys2Proof.Machine.execBarvr d a b s
  | .bwait d l => Sys2Proof.Machine.execBwait d l s
  | .btest d a l => Sys2Proof.Machine.execBtest d a l s
  | .mma t nw st z a => Sys2Proof.Machine.execMma t nw st z a s
  | .mmas e5 nw st z a => Sys2Proof.Machine.execMmas e5 nw st z a s
  | .mmaq t nw st z a => Sys2Proof.Machine.execMmaq t nw st z a s
  | .mmal t nw st z a c => Sys2Proof.Machine.execMmal t nw st z a c s
  | .zclr k z => Sys2Proof.Machine.execZclr k z s
  | .zld k z a imm => Sys2Proof.Machine.execZld k z a imm s
  | .zmov d a imm => Sys2Proof.Machine.execZmov d a imm s
  | .zscale d a b => Sys2Proof.Machine.execZscale d a b s
  | .zsto bf d a imm => Sys2Proof.Machine.execZsto bf d a imm s
  | .zrel d => Sys2Proof.Machine.execZrel d s
  | .zwait d => Sys2Proof.Machine.execZwait d s
  | .spack d a => Sys2Proof.Machine.execSpack d a s
  | .strpub f st a b => Sys2Proof.Machine.execStrpub f st a b s
  | .strsub d imm => Sys2Proof.Machine.execStrsub d imm s
  | .strend d => Sys2Proof.Machine.execStrend d s
  | .mstat d a imm => Sys2Proof.Machine.execMstat d a imm s
  | .kenc c d a => Sys2Proof.Machine.execKenc c d a s
  | .kdec c d a => Sys2Proof.Machine.execKdec c d a s
  | .kpar c d a => Sys2Proof.Machine.execKpar c d a s
  | .kchld c j d a => Sys2Proof.Machine.execKchld c j d a s
  | .kref m d a => Sys2Proof.Machine.execKref m d a s
  | .kcoars m d a => Sys2Proof.Machine.execKcoars m d a s
  | .knbr f m d a => Sys2Proof.Machine.execKnbr f m d a s
  | .knext f m d a => Sys2Proof.Machine.execKnext f m d a s
  | .kown m d a => Sys2Proof.Machine.execKown m d a s
  | .kcost m d a => Sys2Proof.Machine.execKcost m d a s
  | .krebal clr m d a => Sys2Proof.Machine.execKrebal clr m d a s
  | .kcutq m d a => Sys2Proof.Machine.execKcutq m d a s
  | .kmeshCurve n d a => Sys2Proof.Machine.execKmeshCurve n d a s
  | .kmeshDef n d a => Sys2Proof.Machine.execKmeshDef n d a s
  | .kmeshRel n d => Sys2Proof.Machine.execKmeshRel n d s
  | .swbeg d a imm => Sys2Proof.Machine.execSwbeg d a imm s
  | .swret a => Sys2Proof.Machine.execSwret a s
  | .swake d a imm => Sys2Proof.Machine.execSwake d a imm s
  | .swend ab d => Sys2Proof.Machine.execSwend ab d s
  | .swstat d imm => Sys2Proof.Machine.execSwstat d imm s
  | .pour d a imm => Sys2Proof.Machine.execPour d a imm s
  | .edgeq d a imm => Sys2Proof.Machine.execEdgeq d a imm s
  | .gangq d a imm => Sys2Proof.Machine.execGangq d a imm s
  | .ctlr d imm => Sys2Proof.Machine.execCtlr d imm s
  | .ctlw a imm => Sys2Proof.Machine.execCtlw a imm s
  | .tlbinv d a b => Sys2Proof.Machine.execTlbinv d a b s
  | .preempt k d a => Sys2Proof.Machine.execPreempt k d a s
  | .ctxsv d a => Sys2Proof.Machine.execCtxsv d a s
  | .ctxld d a => Sys2Proof.Machine.execCtxld d a s
  | .engrst a => Sys2Proof.Machine.execEngrst a s
  | .evtq wt d => Sys2Proof.Machine.execEvtq wt d s
  | .tresume d a b => Sys2Proof.Machine.execTresume d a b s
  | .nop => Sys2Proof.Machine.execNop s
  | .exit => Sys2Proof.Machine.execExit s
  | .yield => Sys2Proof.Machine.execYield s
  | .limm => Sys2Proof.Machine.execLimm s
  | .fbar => Sys2Proof.Machine.execFbar s
  | .ill => Sys2Proof.Machine.execIll s
  | .swnext => Sys2Proof.Machine.execSwnext s
  | .eret => Sys2Proof.Machine.execEret s
  | .issueDecision => Sys2Proof.Machine.execIssueDecision s
  | .warpStarvationBound => Sys2Proof.Machine.execWarpStarvationBound s
  | .pcStarvationBound => Sys2Proof.Machine.execPcStarvationBound s
  | .resultReturn => Sys2Proof.Machine.execResultReturn s
  | .markerRelease => Sys2Proof.Machine.execMarkerRelease s
  | .mwaitRelease => Sys2Proof.Machine.execMwaitRelease s
  | .regroupFire => Sys2Proof.Machine.execRegroupFire s
  | .lensEntryWrite => Sys2Proof.Machine.execLensEntryWrite s
  | .lensEntryEmpty => Sys2Proof.Machine.execLensEntryEmpty s
  | .copyEntry => Sys2Proof.Machine.execCopyEntry s
  | .copysEntry => Sys2Proof.Machine.execCopysEntry s
  | .copymEntry => Sys2Proof.Machine.execCopymEntry s
  | .prismServe => Sys2Proof.Machine.execPrismServe s
  | .homeRequest => Sys2Proof.Machine.execHomeRequest s
  | .waitvRepoll => Sys2Proof.Machine.execWaitvRepoll s
  | .pinEnd => Sys2Proof.Machine.execPinEnd s
  | .l1Eviction => Sys2Proof.Machine.execL1Eviction s
  | .integrityError => Sys2Proof.Machine.execIntegrityError s
  | .translationWalk => Sys2Proof.Machine.execTranslationWalk s
  | .faultRecordResume => Sys2Proof.Machine.execFaultRecordResume s
  | .eventEnqueue => Sys2Proof.Machine.execEventEnqueue s
  | .eventRead => Sys2Proof.Machine.execEventRead s
  | .launchQueueTake => Sys2Proof.Machine.execLaunchQueueTake s
  | .unitPlacement => Sys2Proof.Machine.execUnitPlacement s
  | .admissionDecision => Sys2Proof.Machine.execAdmissionDecision s
  | .admissionOverdue => Sys2Proof.Machine.execAdmissionOverdue s
  | .candidateReserved => Sys2Proof.Machine.execCandidateReserved s
  | .taskSave => Sys2Proof.Machine.execTaskSave s
  | .heatRefill => Sys2Proof.Machine.execHeatRefill s
  | .taskRetire => Sys2Proof.Machine.execTaskRetire s
  | .retireResume => Sys2Proof.Machine.execRetireResume s
  | .matrixGrant => Sys2Proof.Machine.execMatrixGrant s
  | .passComplete => Sys2Proof.Machine.execPassComplete s
  | .grantAgeing => Sys2Proof.Machine.execGrantAgeing s
  | .tilePortPerform => Sys2Proof.Machine.execTilePortPerform s
  | .watchdogTrip => Sys2Proof.Machine.execWatchdogTrip s
  | .passAbandon => Sys2Proof.Machine.execPassAbandon s
  | .sweepStart => Sys2Proof.Machine.execSweepStart s
  | .cursorAdvance => Sys2Proof.Machine.execCursorAdvance s
  | .sweepWake => Sys2Proof.Machine.execSweepWake s
  | .sweepDispatch => Sys2Proof.Machine.execSweepDispatch s
  | .jobEnd => Sys2Proof.Machine.execJobEnd s
  | .rendezvousArrival => Sys2Proof.Machine.execRendezvousArrival s
  | .replicaApply => Sys2Proof.Machine.execReplicaApply s
  | .leafSwitch => Sys2Proof.Machine.execLeafSwitch s
  | .mirrorEntry => Sys2Proof.Machine.execMirrorEntry s
  | .mirrorRecall => Sys2Proof.Machine.execMirrorRecall s
  | .mirrorCopy => Sys2Proof.Machine.execMirrorCopy s
  | .mirrorSwitch => Sys2Proof.Machine.execMirrorSwitch s
  | .snpInv => Sys2Proof.Machine.execSnpInv s
  | .snpData => Sys2Proof.Machine.execSnpData s
  | .snpCur => Sys2Proof.Machine.execSnpCur s
  | .hostMemRead => Sys2Proof.Machine.execHostMemRead s
  | .hostMemWrite => Sys2Proof.Machine.execHostMemWrite s
  | .peerRequest => Sys2Proof.Machine.execPeerRequest s
  | .peerRequestTimeout => Sys2Proof.Machine.execPeerRequestTimeout s
  | .routerArbitrate => Sys2Proof.Machine.execRouterArbitrate s
  | .g2Ageing => Sys2Proof.Machine.execG2Ageing s
  | .dieHalted => Sys2Proof.Machine.execDieHalted s
  | .lqputWrite => Sys2Proof.Machine.execLqputWrite s
  | .lqctlWrite => Sys2Proof.Machine.execLqctlWrite s
  | .lqerrClear => Sys2Proof.Machine.execLqerrClear s
  | .mbCreate => Sys2Proof.Machine.execMbCreate s
  | .mbDestroy => Sys2Proof.Machine.execMbDestroy s
  | .mbHalt => Sys2Proof.Machine.execMbHalt s
  | .mbSave => Sys2Proof.Machine.execMbSave s
  | .mbLoad => Sys2Proof.Machine.execMbLoad s
  | .mbTcmap => Sys2Proof.Machine.execMbTcmap s
  | .mbMovepage => Sys2Proof.Machine.execMbMovepage s
  | .mbBias => Sys2Proof.Machine.execMbBias s
  | .mbTlbinv => Sys2Proof.Machine.execMbTlbinv s
  | .mbPowercap => Sys2Proof.Machine.execMbPowercap s
  | .mbHeat => Sys2Proof.Machine.execMbHeat s
  | .mbEngreset => Sys2Proof.Machine.execMbEngreset s
  | .mailboxAnswer => Sys2Proof.Machine.execMailboxAnswer s
  | .mbstatClear => Sys2Proof.Machine.execMbstatClear s
  | .engrstcWrite => Sys2Proof.Machine.execEngrstcWrite s
  | .hbctlWrite => Sys2Proof.Machine.execHbctlWrite s
  | .hbcapWrite => Sys2Proof.Machine.execHbcapWrite s
  | .registerWrite => Sys2Proof.Machine.execRegisterWrite s
  | .pwrstatClear => Sys2Proof.Machine.execPwrstatClear s
  | .powerCapEnforce => Sys2Proof.Machine.execPowerCapEnforce s
  | .powerCapRestore => Sys2Proof.Machine.execPowerCapRestore s
  | .thermalShutdown => Sys2Proof.Machine.execThermalShutdown s
  | .functionReset => Sys2Proof.Machine.execFunctionReset s
  | .powerOn => Sys2Proof.Machine.execPowerOn s
  | .bootFetchRetry => Sys2Proof.Machine.execBootFetchRetry s
  | .linkRetrainBegin => Sys2Proof.Machine.execLinkRetrainBegin s
  | .linkRetrainDone => Sys2Proof.Machine.execLinkRetrainDone s
  | .linkRetire => Sys2Proof.Machine.execLinkRetire s
  | .bootImageFetched => Sys2Proof.Machine.execBootImageFetched s
  | .diesBelow85C => Sys2Proof.Machine.execDiesBelow85C s
  | .mbdoorWrite => Sys2Proof.Machine.execMbdoorWrite s

end Sys2Proof.Machine
end

