-- ==== Sys2Proof/Machine/Cycle.lean ====
section
/-! DEFINITION. The passage of a cycle (07 R134, R137, R138, R143, R170): which warps were eligible in it, and the parks that end with it. -/

namespace Sys2Proof.Machine

open Sys2Proof

/-! ## Eligible warps (R137) -/

/-- Whether the unit that an instruction needs has room for it (R137): as far as its fields and the queues say; what its operands and their pages add
shows when it is tried (assumption log 76). -/
def State.room (s : State) (i : Instr) (L : Latch) : Bool :=
  match i with
  | .copy q .. | .copys q .. | .copym q .. => s.queued L.core (.q q.toNat) < 16
  | .gath .. => s.prismLoad (coreCluster L.core) + L.exec.length ≤ 256
  | .qfence _ _ q => !(queueSet L q).contains (.qm L.warp) || !s.qmFull L
  | .mma .. | .mmas .. | .mmaq .. | .mmal .. | .zscale .. => !s.qmFull L && !s.tableFull L
  | .zclr .. | .zld .. | .zmov .. | .zsto .. | .zrel .. | .zwait .. | .strend .. => !s.qmFull L
  | .strpub _ st .. =>
    (((s.engine (coreCluster L.core)).stream st.toNat).blocks.filter fun k => k.quarters.any fun q => q.1 == L.core % 4).length < 4
  | .swbeg .. => !s.sweepFenced L.core
  | _ => true

/-- Whether the word at the head of a latch would be accepted in this cycle, behind at most `n` prefixes: one that traps needs no unit. -/
def State.accepts (s : State) (L : Latch) : Nat → Bool
  | 0 => true
  | n + 1 =>
    match (match L.held with
      | some w => some w
      | none => match s.fetchAt L L.at_.toNat with
        | .word w _ => some w
        | .wait _ => none) with
    | none => false
    | some w =>
      let M := { L with word := w }
      match decodeWord M.limm (M.stepped w) with
      | .error _ => true
      | .ok d =>
        (s.check d.instr M).isSome ||
          (match d.instr with
           | .rep k sD sA sB => s.accepts { Latch.putRep k sD sA sB M with at_ := M.at_ + 4 } n
           | .limm => s.accepts { Latch.putLimm M with at_ := M.at_ + 4 } n
           | i => !s.fp64Busy i M && (M.exec.isEmpty || (!s.awaits i M && s.room i M)))

/-- The latch that a decision for a warp would open (R139, R140). -/
def State.nextLatch (s : State) (w : Warp) : Option Latch :=
  let ts := s.eligible w
  match w.cur.filter fun k => s.curLive w.core k with
  | some k => (s.resume w k).issue
  | none => (choosePc w (pcsOf ts)).bind fun pc =>
      let (group, left) := groupAt ts pc
      (s.open w pc group left).issue

/-- Whether the unit that a warp's chosen word needs can accept it in this cycle (R137). -/
def State.unitReady (s : State) (w : Warp) : Bool :=
  match s.nextLatch w with
  | some L => s.accepts L 4
  | none => false

/-! ## The end of a cycle -/

/-- A warp after `n` cycles (R138, R170): `open_` says whether it was eligible in them. YIELD lets it be passed over in the next cycle only. -/
def Warp.tick (n : Nat) (open_ : Bool) (w : Warp) : Warp :=
  { w with
    waited := if w.chosen then 0 else if open_ then w.waited + n else 0
    yielded := w.yielded && w.chosen && n == 1, chosen := false, stalled := false, posted := 0 }

/-- A thread at the end of a cycle: it leaves a switch marker whose results have returned (R134), and parks whose condition is
that of a request or an engine. -/
def State.wake (s : State) (t : Thread) : Thread :=
  match t.status with
  | .parked .marker => if s.markerDue t then t.leaveMarker else t
  | .parked .system => { t with status := .eligible }
  | .parked (.engrst _) => t.release
  | .parked (.tlb rs es) =>
    if s.mem.reqs.any (fun r => rs.contains r.id) || s.mem.ranges.any (fun r => rs.contains r.id) || s.eng.queue.any (fun e => es.contains e.id) then t else t.release
  | .eligible | .parked _ | .stopped | .exited | .unused => t

/-- The passage of cycles (R134, R138, R143, R170, R193). A fence whose release waited is tried again (R249), with the waits that it
held back (R250); decrements owed to words that were out of reach are applied (R333, R337). -/
def State.tick (s : State) (n : Nat) : State :=
  if n = 0 then s
  else
    let t := s.settleMasks
    let s : State :=
      { t with
        warps := t.warps.map fun w => w.tick n (s.warpEligible w && s.mayIssue w.task && s.unitReady w)
        threads := t.threads.map t.wake
        fp64 := s.fp64.filter fun x => s.dev.cycle + n ≤ x.2 + 1 }
    let s := s.updEng fun g => { g with engines := g.engines.map fun e => { e with busy := false } }
    ((s.updDev fun d => { d with cycle := d.cycle + n }).settleFences (s.eng.fences.length + 1)).settleWaits.settleOwed

end Sys2Proof.Machine
end

