-- ==== Sys2Proof/Machine/Sched.lean ====
section
/-! DEFINITION. What happens next: the word of the compound being issued, the head of the agenda, or, when the agenda is
empty, a step of the device that may be due (assumption log 4). And the placing of an instruction where the next step fetches
it. -/

namespace Sys2Proof.Machine

open Sys2Proof

/-- A row of the opcode table that no word names: a step of the device. -/
def Instr.isStep (i : Instr) : Bool := (encodeFields i).isNone && i != .limm

/-- The step that an agenda item stands for. -/
def State.runItem (s : State) (x : AgendaItem) : Next :=
  match x with
  | .run i a => if Instr.isStep i then .exec i { s with arg := a } else .now s
  | .tick n => .now (s.tick n).wakeMig.trackRoom
  | .power w => .now (s.powerReading w)
  | .fetchAhead c k va => .now (s.fetchAhead c k va)
  | .readHome n => .now (s.readHome n)
  | .mergeRead a b => .now (s.mergeRead a b)
  | .dropNear n => .now (s.updMem fun m => { m with near := dropLineAt n m.near })
  | .dropRemote n => .now (s.updMem fun m => { m with rdc := dropLineAt n m.rdc })
  | .dropPeer n => .now (s.updMem fun m => { m with predictor := dropAt n m.predictor })
  | .hostAnswer page n => .now (s.hostAnswer page n)
  | .message p what n => .now (s.arriveMessage p what n)
  | .forward c k n => .now (s.updMem fun m => { m with forward := m.forward ++ [{ core := c, slot := k, req := n }] })
  | .dropCode n => .now (s.updMem fun m => { m with icache := dropAt n m.icache })
  | .dropPrism n => .now (s.updEng fun g => { g with prism := dropLineAt n g.prism })
  | .dropXlate n => .now (s.updMem fun m => { m with l1tlb := dropAt n m.l1tlb, shtlb := dropAt n m.shtlb })

/-! ## The steps that may be due -/

/-- A step with its numbers. -/
def ev (i : Instr) (x : Nat := 0) (y : Nat := 0) (z : Nat := 0) : Instr × Arg := (i, { x := x, y := y, z := z })

/-- Steps of threads and warps: results, markers, masks, regroups and watches (07, 19 R381). -/
def State.dueThreads (s : State) : List (Instr × Arg) :=
  (s.threads.flatMap fun t =>
    ((((t.pending.zipIdx).filter fun p => p.1.parts = 0).zipIdx).map fun p => ev .resultReturn t.core t.slot (p.1.2 - p.2))
    ++ (match t.status with
        | .parked .marker => if s.markerDue t then [ev .markerRelease t.core t.slot] else []
        | .parked (.mwait m) => [ev .mwaitRelease t.core t.warp m]
        | .parked (.wregrp n _) => [ev .regroupFire t.core (t.warp / 16) n]
        | .eligible | .parked _ | .stopped | .exited | .unused => []))
  ++ (s.mem.watches.filter fun w => !w.registered).map fun w => ev .waitvRepoll w.core w.slot

/-- Steps of the memory system (11, 17, 18, 20). -/
def State.dueMem (s : State) : List (Instr × Arg) :=
  (s.mem.reqs.filter fun r => r.stall.isNone).map (fun r => ev .homeRequest r.id)
  ++ (s.mem.ranges.map fun r => ev .homeRequest r.id)
  ++ (s.mem.miss.map fun m => if m.phase = .walking then ev .translationWalk m.die m.num else ev .faultRecordResume m.ctx)
  ++ s.mem.pins.map (fun p => ev .pinEnd p.core)
  ++ (s.dev.arbiters.filter fun a => !a.held.isEmpty).map (fun a => ev .eventEnqueue a.die)
  ++ s.dev.starts.map (fun x => ev .mirrorEntry x.ctx x.va x.newHome)
  ++ s.dev.mirrors.map (fun r => match r.phase with
      | .entry => ev .mirrorRecall r.page
      | .recall => ev .mirrorCopy r.page
      | .copy => ev .mirrorSwitch r.page)
  ++ (s.dev.routers.filter fun r => !r.queue.isEmpty).map fun r => ev .routerArbitrate r.num

/-- Steps of the engines and of meshes (02, 12 to 16, 19 R386). -/
def State.dueEngines (s : State) : List (Instr × Arg) :=
  (s.eng.queue.flatMap fun e =>
    match e.queue with
    | .q n => [ev .copyEntry e.core n, ev .copysEntry e.core n, ev .copymEntry e.core n]
    | .qg _ => [ev .prismServe (coreCluster e.core)]
    | .qm w => [ev .tilePortPerform e.core w, ev .grantAgeing (coreCluster e.core) (e.core % 4), ev .matrixGrant (coreCluster e.core) (e.core % 4)]
    | .qs => [])
  ++ (s.eng.engines.flatMap fun g => g.runs.flatMap fun r =>
      [ev .passComplete g.cluster r.array, ev .passAbandon g.cluster r.array, ev .watchdogTrip g.cluster r.array])
  ++ ((s.eng.jobs.filter (·.running)).flatMap fun j =>
      [ev .sweepDispatch j.core, ev .cursorAdvance j.core, ev .sweepStart j.core, ev .jobEnd j.core])
  ++ s.eng.wakes.map (fun w => ev .sweepWake w.core)
  ++ s.eng.arrivals.map (fun a => ev .rendezvousArrival a.id)
  ++ s.eng.meshes.flatMap fun m =>
      m.msgs.map (fun x => ev .replicaApply m.ctx m.num x.1) ++ m.migr.map (fun x => ev .leafSwitch m.ctx m.num x.key)
        ++ if m.closable then [ev .leafSwitch m.ctx m.num noLeaf] else []

/-- Steps of contexts, tasks and pours (02 R50, 04, 05, 20, 21). -/
def State.dueTasks (s : State) : List (Instr × Arg) :=
  (s.ctxs.flatMap fun c =>
    ((c.lenses.filter fun e => e.state == .loading).flatMap fun e => [ev .lensEntryWrite c.num e.num, ev .lensEntryEmpty c.num e.num])
    ++ if c.phase = .halting then (upTo 4).map fun d => ev .dieHalted d c.num else [])
  ++ (s.tasks.flatMap fun t =>
    match t.phase with
    | .halting => [ev .taskSave t.id]
    | .running => if s.taskLive t.id then [] else [ev .taskRetire t.id]
    | .retiring k => if k = 3 then [ev .retireResume t.id] else [ev .taskRetire t.id]
    | .ready | .saved => (if s.long t.roomSince then [ev .admissionOverdue t.id] else [])
        ++ if t.reserved || s.long t.passedSince then [ev .candidateReserved t.id] else []
    | .waiting | .retired => [])
  ++ ((s.tasks.filter fun t => s.candidate t && (s.unitCluster t).isNone && (match s.taskNode t with | some n => !n.sp | none => false)).map
    fun t => ev .unitPlacement t.ctx t.pour t.node)
  ++ (if s.tasks.any s.mayAdmit then allSectors.map fun x => ev .admissionDecision x.1 x.2
    else if s.ctxs.any fun c => c.phase == .running && c.pours.any fun p => !p.started || p.finished then [ev .admissionDecision] else [])
  ++ (s.dev.queues.filter fun q => q.report.isSome || (q.en && q.get != q.put)).map fun q => ev .launchQueueTake q.num

/-- The mailbox request of an opcode. -/
def mbStep : Nat → Instr
  | 1 => .mbCreate | 2 => .mbDestroy | 3 => .mbHalt | 4 => .mbSave | 5 => .mbLoad | 6 => .mbTcmap | 7 => .mbMovepage
  | 8 => .mbBias | 9 => .mbTlbinv | 10 => .mbPowercap | 11 => .mbHeat | _ => .mbEngreset

/-- Steps of the firmware (22, 05 R105). -/
def State.dueBoard (s : State) : List (Instr × Arg) :=
  let m := s.dev.mbox
  (if m.busy then [if m.answer.isNone && m.wait.isNone then ev (mbStep (m.arg 0 % 256)) else ev .mailboxAnswer] else [])
  ++ (match s.dev.boot with | .waiting _ => [ev .bootFetchRetry] | _ => [])
  ++ (if !s.dev.heat.isEmpty && s.dev.refills < s.dev.cycle / refillCycles then [ev .heatRefill] else [])
  ++ (if s.dev.pwrcap < s.dev.pwrnow then [ev .powerCapEnforce] else if s.dev.capped then [ev .powerCapRestore] else [])

/-- The issue decisions of the packers (07 R137): one for each warp, since a packer whose chosen word cannot be accepted decides again
among its other warps, and decides nothing once a word of it has been accepted in the cycle. -/
def State.dueIssue (s : State) : List (Instr × Arg) := s.warps.map fun w => ev .issueDecision w.core (w.slot % 2)

/-- The steps of the device that may be due in a cycle, in the order in which the model's own schedule performs them. A step that is
not due after all changes nothing. What comes from outside (the host, Adeing's writes, errors, snoops, temperatures, links) is due
only when the agenda holds it. -/
def State.due (s : State) : List (Instr × Arg) :=
  s.dueThreads ++ s.dueMem ++ s.dueEngines.eraseDups ++ s.dueTasks ++ s.dueBoard ++ s.dueIssue

/-- The step of the model's own schedule: the steps that may be due in this cycle are put on the agenda, each once, and the passage
of the cycle behind them (assumption log 4). -/
def State.ownStep (s : State) : Next := .now { s with agenda := (s.due.map fun p => .run p.1 p.2) ++ [.tick 1] }

/-- What the machine does next. -/
def State.nextStep (s : State) : Next :=
  match s.issue with
  | some L => s.nextWord L
  | none =>
    match s.agenda with
    | x :: rest => { s with agenda := rest }.runItem x
    | [] => s.ownStep

/-! ## An instruction placed for the next step -/

/-- The virtual address of the placed word, and the key of its byte in device memory. -/
def placeVa : Nat := 0x10000

/-- The leaf of the placed word's page: executable device memory. -/
def placeLeaf : Leaf :=
  { pa := placeVa, size := 2 ^ 16, grain := 128, rtype := 0, home := 0, mir := false, sh := false, priv := false, x := true,
    ro := false }

/-- The context of the placed word: number 0, privileged. -/
def placeCtx : Context :=
  { num := 0, priv := true, pbytes := 0, tvec := 0, trbase := 0, ptroot := 0, fqbase := 0, fqsize := 16, rrbase := 0,
    rrsize := 16, tsbase := 0, tscount := 0 }

/-- Its task: one thread with 256 registers on core 0. -/
def placeTask : Task :=
  { id := 0, ctx := 0, pour := 0, node := 0, index := 0, rank := 0, key := 0, phase := .running, warps := [0], offs := [0],
    nthr := 1, ngr := 15, prio := 0, faultMask := [0] }

/-- Its thread, at the placed word. -/
def placeThread : Thread :=
  { core := 0, slot := 0, task := 0, tid := 0, regs := List.replicate 256 0, pc := BitVec.ofNat 64 placeVa, lane := 0, warp := 0,
    teams := [0, 255, 255, 255] }

/-- Its warp. -/
def placeWarp : Warp := { core := 0, slot := 0, task := 0, masks := List.replicate 12 0, age := 0, names := List.replicate 8 {} }

/-- Its initial team. -/
def placeTeam : Team := { core := 0, num := 0, task := 0, members := [0], points := List.replicate 24 {} }

/-- The state in which the next step fetches and runs a given word: where no compound is being issued, one thread of a
privileged context stands at it on core 0 and its packer has chosen it. Where one is being issued, the word stands at the
address that it fetches next. -/
def State.placeWord (s : State) (w : Nat) : State :=
  let s := { s with
    ctxs := if s.ctxs.any (fun c => c.num == 0) then s.ctxs else placeCtx :: s.ctxs
    tasks := if s.tasks.any (fun t => t.id == 0) then s.tasks else placeTask :: s.tasks
    threads := placeThread :: s.threads.filter fun t => !Thread.is 0 0 t
    warps := placeWarp :: s.warps.filter fun x => !Warp.is 0 0 x
    teams := placeTeam :: s.teams.filter fun x => !Team.is 0 0 x
    issue := some { core := 0, warp := 0, first := BitVec.ofNat 64 placeVa, at_ := BitVec.ofNat 64 placeVa, group := [0], exec := [0] } }
  s.updMem fun m =>
    { m with
      cells := Memory.writeN m.cells placeVa 4 (w % 2 ^ 32)
      poison := m.poison.filter fun p => p != placeVa
      pins := m.pins.filter fun p => !p.covers placeVa
      owners := m.owners.filter fun o => o.line != placeVa
      icache := m.icache.filter fun x => !(x.unit == 0 && x.key == placeVa)
      l1tlb := (0, { ctx := 0, va := placeVa, leaf := placeLeaf }) :: m.l1tlb }

end Sys2Proof.Machine
end

