-- ==== Sys2Proof/Machine/Step.lean ====
section
/-! DEFINITION. One step of the machine, and the placing of an instruction for the next step. Everything a step does stands
in Sched, Fetch and the meanings. -/

namespace Sys2Proof.Machine

open Sys2Proof

/-- One step: the word of the compound being issued, or a step of the device. -/
def step (s : State) : Host.Outcome State Fault Refusal :=
  match s.nextStep with
  | .exec i s => exec i s
  | .now s => .next s

/-- The state whose next step fetches and runs the word `w` of `nbits` bits. -/
def State.withFetchWord (s : State) (nbits w : Nat) : State := s.placeWord (w % 2 ^ nbits)

end Sys2Proof.Machine
end

