-- ==== Sys2Proof/Machine/Bar.lean ====
section
/-! DEFINITION. What a read of the registers of BAR0 returns (22 R427, R428, R433 to R440). A read changes no state. Where the spec
gives a register no offset, the read names the register. -/

namespace Sys2Proof.Machine

open Sys2Proof

/-- A register of BAR0: by its offset, or by name in the regions whose layout is the part's. -/
inductive BarReg where
  | at_ (off : Nat)               -- launch queues, mailbox, context table, engine resets
  | pwrcap | pwrnow | pwrstat
  | port (n : Nat)
  | hbctl (die sector : Nat) | hblvl (die sector : Nat) | hbcap (die sector : Nat) | hbrate (die sector : Nat)
  | hbcost (die sector : Nat)
  | hop (n : Nat)                 -- the integrity counter of a hop (R228)
deriving DecidableEq, Repr

/-- A flag at a bit. -/
def flagAt (b : Bool) (i : Nat) : Nat := if b then 2 ^ i else 0

/-- A register of a launch queue, by the offset in its 64 bytes (Table 22-2). -/
def LaunchQ.read (x : LaunchQ) (off : Nat) : Nat :=
  match off with
  | 0x00 => x.base.toNat % 2 ^ 32
  | 0x04 => x.base.toNat / 2 ^ 32
  | 0x08 => x.size.toNat
  | 0x0C => flagAt x.en 31 + x.ctx
  | 0x10 => x.put.toNat
  | 0x14 => x.get.toNat
  | 0x18 => flagAt x.ovf 0 + flagAt x.cfg 1 + flagAt x.noctx 2 + flagAt x.rfault 3
  | _ => 0

/-- A register of the mailbox, by its offset in the region (Table 22-6). -/
def Mailbox.read (m : Mailbox) (off : Nat) : Nat :=
  if off < 0x40 then m.arg (off / 4)
  else if off < 0x80 then (m.rsp.getD ((off - 0x40) / 4) 0).toNat
  else if off = 0x80 then m.door
  else if off = 0x84 then m.done + flagAt m.busy 8 + flagAt m.ovf 9
  else if off = 0x88 then flagAt m.irqEn 0 + 2 * m.irqVec
  else 0

/-- The status register of a Korlas Link port (R433). -/
def Port.status (p : Port) : Nat := p.state + 2 ^ 2 * p.peerPort + 2 ^ 8 * p.peerPkg

/-- PWRSTAT (R435). -/
def Dev.pwrstat (d : Dev) : Nat := flagAt d.therm 0 + 2 * d.thermDie + flagAt d.capped 4

/-- A word of the table entry of a context, 0 for one that is not live (R437). -/
def State.entryWord (s : State) (n off : Nat) : Nat :=
  match s.ctx? n with
  | some c => imageField c.entry off 4
  | none => 0

/-- ENGRSTC of a cluster: bit 1 while its engine is being reset (R440). -/
def State.engrstc (s : State) (cl : Nat) : Nat := if cl < 128 then flagAt (s.engineBusy cl) 1 else 0

/-- A word of BAR0 by its offset, for Adeing (Table 22-1). -/
def State.barWord (s : State) (off : Nat) : Nat :=
  if off < 0x400 then (s.queue (off / 64)).read (off % 64)
  else if 0x100000 ≤ off && off < 0x100100 then s.dev.mbox.read (off - 0x100000)
  else if 0x200000 ≤ off && off < 0x204000 then s.entryWord ((off - 0x200000) / 256) (off % 256)
  else if 0x601000 ≤ off && off < 0x601200 then s.engrstc ((off - 0x601000) / 4)
  else 0

/-- Whether a register lies in the power region. -/
def BarReg.power : BarReg → Bool
  | .pwrcap | .pwrnow | .pwrstat => true
  | .at_ _ | .port _ | .hbctl _ _ | .hblvl _ _ | .hbcap _ _ | .hbrate _ _ | .hbcost _ _ | .hop _ => false

/-- Whether the host may read a register: not one of a region marked "—" in Table 22-1. -/
def BarReg.hostReads : BarReg → Bool
  | .at_ off => off < 0x200000
  | .pwrcap | .pwrnow | .pwrstat | .port _ => true
  | .hbctl _ _ | .hblvl _ _ | .hbcap _ _ | .hbrate _ _ | .hbcost _ _ | .hop _ => false

/-- What a register holds. -/
def State.barValue (s : State) : BarReg → Nat
  | .at_ off => s.barWord (off / 4 * 4)
  | .pwrcap => s.dev.pwrcap
  | .pwrnow => s.dev.pwrnow
  | .pwrstat => s.dev.pwrstat
  | .port n => (match s.dev.ports.find? fun p => p.num == n with
    | some p => p.status
    | none => 0)
  | .hop n => (match s.dev.hops.find? fun h => h.1 == n with
    | some h => h.2
    | none => 0)
  | .hbctl d k => flagAt (s.heat d k).en 0
  | .hblvl d k => ((s.refill.heat d k).level % 2 ^ 32).toNat
  | .hbcap d k => (s.heat d k).cap
  | .hbrate d k => (s.heat d k).rate
  | .hbcost d k => (s.heat d k).cost.toNat

/-- What the host reads from a register of BAR0: 0 until an image has verified (R434), after a thermal shutdown 0 outside the power
region (R436), and 0 in the regions that are not the host's (R427). -/
def State.hostBar (s : State) (r : BarReg) : Word :=
  let open_ := match s.dev.boot with
    | .usable => r.hostReads
    | .shutdown => r.power
    | _ => false
  BitVec.ofNat 32 (if open_ then s.barValue r else 0)

/-- What Adeing reads from a register of BAR0 (R427). -/
def State.adeingBar (s : State) (r : BarReg) : Word := BitVec.ofNat 32 (s.barValue r)

end Sys2Proof.Machine
end

