-- ==== Sys2Proof/Safety.lean ====
section
/-! DEFINITION. What counts as a safe run, and the terms in which the statements speak of what one instruction does: when it
executes, what happens to the threads of its execution mask, and what it leaves as it was. -/

namespace Sys2Proof.Machine

open Sys2Proof

/-- A step that answers a next state. -/
def State.safeStep (s : State) : Prop := ∃ t, step s = .next t

/-- The states that n steps reach, each answering a next state. -/
def State.runs : Nat → State → State → Prop
  | 0, s, t => s = t
  | n + 1, s, t => ∃ u, step s = .next u ∧ State.runs n u t

/-! ## One instruction -/

/-- The word `i` stands in the issue slot `L` of the state, it passes steps 1 to 4 of R129, a lane executes it (R140), the FP64 unit
that it may need is free (R193), and neither an acquire of an LD.acq that it must follow nor a write that a lane has seen early is still to be
performed (R375, R357). -/
def State.executes (s : State) (L : Latch) (i : Instr) : Prop :=
  s.issue = some L ∧ s.check i L = none ∧ L.exec ≠ [] ∧ s.fp64Busy i L = false ∧ s.awaits i L = false

/-- A thread as the compound leaves it, where `u` is what the instruction itself makes of it: the compound moves the thread's
program counter and its repeat and guard counts, as `Thread.stands` says, and the switch marker may park it (R113). -/
def Thread.placed (u v : Thread) : Prop :=
  v = { u with pc := v.pc, status := v.status, guard := v.guard, repLeft := v.repLeft, mark := v.mark, mates := v.mates } ∧
  (v.status = u.status ∨ u.status = .eligible ∧ v.status = .parked .marker)

/-- A guard range behind a compound (R115): a control transfer ends it, and any other compound counts. -/
def guardBehind (ends : Bool) (g : Option Guard) : Option Guard :=
  match g with
  | none => none
  | some g => if ends = true ∨ g.left ≤ 1 then none else some { g with left := g.left - 1 }

/-- Where a thread of the issue group stands behind the word `i`, `u` before it and `v` after: behind the compound, or at its first word
with one repeat less to run (R110, R114), unless it executed a word that transfers control; and its guard range counts the
compound, unless the word sets it (R115). -/
def Thread.stands (L : Latch) (i : Instr) (u v : Thread) : Prop :=
  let last := L.n ≤ L.j + 1
  (u.slot ∉ L.exec ∨ Instr.endsGuard i = false →
    v.pc = (if last then L.at_ + 4 else L.first) ∧ v.repLeft = if last then 0 else L.n - (L.j + 1)) ∧
  (Instr.setsGuard i = false → v.guard = if last then guardBehind (Instr.endsGuard i) u.guard else u.guard)

/-- Every executing lane becomes what `f` makes of it, every other thread of the issue group only passes the compound, and
every other thread stays as it was. -/
def State.lanesDo (s t : State) (L : Latch) (i : Instr) (f : Thread → Thread) : Prop :=
  ∀ c k, match s.thread? c k with
    | none => t.thread? c k = none
    | some u => ∃ v, t.thread? c k = some v ∧
        if c = L.core ∧ (k ∈ L.group ∨ k ∈ L.exec) then
          Thread.placed (if k ∈ L.exec then f u else u) v ∧ (k ∈ L.group → Thread.stands L i u v)
        else v = u

/-- The warp of the issue slot becomes what `g` makes of it, every other warp stays as it was; where the warp stands in its
compound is bookkeeping of the issue slot. -/
def State.warpsDo (s t : State) (L : Latch) (g : Warp → Warp) : Prop :=
  ∀ c k, match s.warp? c k with
    | none => t.warp? c k = none
    | some w => if c = L.core ∧ k = L.warp then ∃ cur, t.warp? c k = some { g w with cur := cur } else t.warp? c k = some w

/-- All that is not a thread or a warp: memory and its caches, engines, tasks, teams, contexts, the package outside the
cores, and the model's own schedule. Of the FP64 units, Completes speaks. -/
def State.sameElse (s t : State) : Prop :=
  t.mem = s.mem ∧ t.eng = s.eng ∧ t.tasks = s.tasks ∧ t.teams = s.teams ∧ t.ctxs = s.ctxs ∧ t.images = s.images ∧
  t.dev = s.dev ∧ t.agenda = s.agenda ∧ t.arg = s.arg ∧ t.freeCtr = s.freeCtr

/-- The instruction `i` completes: the step answers a next state, in which the issue slot is over, each executing lane is what
`f` makes of it and stands where the compound leaves it, the warp is what `g` makes of it, an FP64 arithmetic form takes the FP64 unit of its pipe (R193), and nothing else has
changed; in particular every byte of memory reads as before. -/
def Completes (s : State) (L : Latch) (i : Instr) (f : Thread → Thread) (g : Warp → Warp) : Prop :=
  ∃ t, exec i s = .next t ∧ t.issue = none ∧ s.lanesDo t L i f ∧ s.warpsDo t L g ∧ s.sameElse t ∧ t.fp64 = (s.takeFp64 i L).fp64 ∧
    ∀ a, Memory.read t.mem.cells a = Memory.read s.mem.cells a

/-- The registers vD to vD+n−1 of a thread will take the `n` words of the value `v`, lowest first, when the result returns, and
the flags `fl` will be posted then (R134, R135, R136). -/
def Thread.willWrite (d : Reg) (n v : Nat) (fl : BitVec 7) (u : Thread) : Thread := u.addPending (u.result d.toNat n v fl)

/-- Predicate pD of a thread will take the value `b` when the result returns. -/
def Thread.willSet (d : Reg) (b : Bool) (fl : BitVec 7) (u : Thread) : Thread := u.addPending (predResult d.toNat b fl)

/-- The 32-bit register that a field names (R118, R120). -/
abbrev Thread.v (u : Thread) (r : Reg) : Word := u.reg r.toNat

/-- The pair that a field names (R119). -/
abbrev Thread.vv (u : Thread) (r : Reg) : Pair := u.pair r.toNat

/-- Whenever `i` executes, it completes, and each executing lane will take the value `f` of its registers in vD, with the flags
beside it. -/
def Writes (s : State) (L : Latch) (i : Instr) (d : Reg) (f : Thread → Word × BitVec 7) : Prop :=
  s.executes L i → Completes s L i (fun u => Thread.willWrite d 1 (f u).1.toNat (f u).2 u) id

/-- As Writes, for the pair (vD, vD+1). -/
def WritesPair (s : State) (L : Latch) (i : Instr) (d : Reg) (f : Thread → Pair × BitVec 7) : Prop :=
  s.executes L i → Completes s L i (fun u => Thread.willWrite d 2 (f u).1.toNat (f u).2 u) id

/-- As Writes, for an instruction that sets no flag. -/
def Writes32 (s : State) (L : Latch) (i : Instr) (d : Reg) (f : Thread → Word) : Prop := Writes s L i d fun u => (f u, 0)

/-- As WritesPair, for an instruction that sets no flag. -/
def Writes64 (s : State) (L : Latch) (i : Instr) (d : Reg) (f : Thread → Pair) : Prop := WritesPair s L i d fun u => (f u, 0)

/-- As Writes32, for predicate pD. -/
def WritesPred (s : State) (L : Latch) (i : Instr) (d : Reg) (f : Thread → Bool) : Prop :=
  s.executes L i → Completes s L i (fun u => Thread.willSet d (f u) 0 u) id

/-- The step of `i` answers a next state in which `P` relates each executing thread before to itself after. -/
def Leaves (s : State) (L : Latch) (i : Instr) (P : Thread → Thread → Prop) : Prop :=
  ∃ t, exec i s = .next t ∧
    ∀ k ∈ L.exec, ∀ u, s.thread? L.core k = some u → ∃ v, t.thread? L.core k = some v ∧ P u v

/-! ## Words with effects beyond their threads -/

/-- The word `i` has the effect `e`: the step answers that state, in which the group passes the compound, the issue slot is over, and
an FP64 arithmetic form has taken the FP64 unit of its pipe (R193). An effect begins in `s.advance L`, where the group stands behind
this repeat. -/
def Ends (s : State) (L : Latch) (i : Instr) (e : State) : Prop := exec i s = .next ((e.finish i L).takeFp64 i L)

/-- The word `i` takes the exception of a cause, with the info field of its record, and has no other effect. -/
def Traps (s : State) (L : Latch) (i : Instr) (cause info : Nat) : Prop := exec i s = .next (s.trap L cause info)

/-- The word `i` is not accepted in this cycle: what it asked for in the memory system, as `t` holds it, stays (R137). -/
def Stalls (s : State) (L : Latch) (i : Instr) (t : State) : Prop := exec i s = .next (s.stall t L)

/-- The word `i` accesses pages (R229, R397, R398): where every access has a translation or meets a walk that has faulted, the
lanes of the latter park and the word has its effect `e` for the others, which `go` tells; while a walk is under way the word
waits, with the misses that it opens. -/
def Accesses (s : State) (L : Latch) (i : Instr) (kind : Access) (xs : List LaneAcc) (e : (Thread → Bool) → State → State) :
    Prop :=
  let u := s.advance L
  let bad := u.untranslated L.core kind xs
  ((∀ x ∈ bad, u.meetsFault L.core kind x = true) →
    Ends s L i (e (fun t => !bad.any fun x => x.1 == t.slot) (u.parkFaults L kind (L.n - L.j) bad))) ∧
  ((∃ x ∈ bad, u.meetsFault L.core kind x = false) →
    Stalls s L i (u.missAll L kind (bad.filter fun x => !u.meetsFault L.core kind x)))

/-- The word `i` names lens entry `n` (R41, R50): an empty entry is a format fault, a loading one parks the executing threads at
their compound, and with the lens of a loaded one, and its words, `P` holds. -/
def NeedsLens (s : State) (L : Latch) (i : Instr) (n : Nat) (P : Lens → List Word → Prop) : Prop :=
  let u := s.advance L
  let e := u.lens (u.latchCtx L) n
  (e.state = .empty → Traps s L i 12 0) ∧
  (e.state = .loading → Ends s L i (u.parkAll L (.lens (u.latchCtx L) n))) ∧
  (e.state = .loaded → P (Lens.ofWords e.snap) e.snap)

/-- The executing threads of the tile of a thread (R144, R145). -/
def State.tileMates (s : State) (L : Latch) (u : Thread) : List Thread :=
  (s.lanes L).filter fun x => x.lane / s.tileSize L == u.lane / s.tileSize L

/-- The rounding mode of the warp of the issue slot (R25, R26). -/
def State.roundingOf (s : State) (L : Latch) : Rnd :=
  match s.warp? L.core L.warp with
  | some w => rndOfFrm w.frm
  | none => .rne

/-- The next step of the issue slot `L` reads the word `w`: the target word that the slot holds for a later repeat, or the word
at the address being read, whose fetch leaves the state `s'` (R130, R139). -/
def State.readsWord (s : State) (L : Latch) (w : BitVec 32) (s' : State) : Prop :=
  s.issue = some L ∧
    (L.held = some w ∧ s' = s ∨ L.held = none ∧ s.fetchAt L L.at_.toNat = .word w s')

end Sys2Proof.Machine
end

