-- ==== Sys2Proof/Certificates/Slice0/Obligations.lean ====
section
/-! DEFINITION. The statements about the model. Each obligation is a proposition of its own; one that covers several kinds of
instruction is the conjunction of the claims that stand before it. The terms they share (Completes, Ends, Accesses, ...) are those of
Safety. -/

open Sys2Proof Sys2Proof.Machine

/-- A step runs the word that its issue slot reads, decoded: `step` is `exec` of the decoded instruction, in the state in which
the slot holds the word and its marker bit; a word that no entry admits traps (R117, R126, R129). -/
def Obligations.StepRunsTheDecodedWord : Prop :=
  ∀ (s s' : State) (L : Latch) (w : BitVec 32), s.readsWord L w s' →
    (∀ d, decodeWord L.limm (L.stepped w) = .ok d →
      step s = exec d.instr { s' with issue := some { L with word := w, marker := d.marker } }) ∧
    (∀ e, decodeWord L.limm (L.stepped w) = .error e → ∃ c, (c = 1 ∨ c = 2) ∧ step s = .next (s'.trap { L with word := w } c 0)) ∧
    (∀ u x, s.issue = some L → L.held = none → s.groupOf L = [u] → u.fetched = [] →
      s.xlate L.core (s.latchCtx L) L.at_.toNat .fetch (s.privileged u) = some x →
      s.cached L.core (s.latchCtx L) L.at_.toNat = some x → s.mem.iword? L.core (x.leaf.key L.at_.toNat) = none →
      s.mem.retry (some L.core) (x.leaf.key L.at_.toNat) 4 = false → s.mem.poisoned (x.leaf.key L.at_.toNat) 4 = false →
      ∃ s'', s.readsWord L (s.mem.wordNow (x.leaf.key L.at_.toNat)) s'')

/-- Words written out from the layout of Table 6-1 and the function codes of Tables 6-11 to 6-24, one or two of each class, decode to their
instructions. -/
def Obligations.WordsOfTheTables : Prop :=
  ∀ x ∈ ([
    (0b0_0000_000000_0000000_0000000_0000000, false, .nop),
    (0b0_0000_000001_1111111_1111111_1111110, false, .bra 0x1FFFFE),
    (0b0_0000_000011_0000010_0000100_0000000, false, .calli 2 4),
    (0b0_0000_010001_1011010_0000000_0000000, false, .guard 5 true 2),
    (0b0_0001_000100_0010100_0101000_0111100, false, .sub false 20 40 60),
    (0b1_0001_000100_0010100_0101000_0111100, true, .sub false 20 40 60),
    (0b0_0010_010010_0000101_1111111_1111101, false, .movi 5 0xFFFFFFFD),
    (0b0_0011_001001_0000011_0001000_0001001, false, .pset .lt .n32 3 8 9),
    (0b0_0100_010010_0000011_0000101_0000000, false, .vote .all 3 5),
    (0b0_0101_001011_0000001_0000010_0000011, false, .ffmaBf16 1 2 3),
    (0b0_0110_011100_0000111_0000000_0000000, false, .flagr 7),
    (0b0_0111_001101_0001000_0001010_1111111, false, .ld .si .b64 8 10 0xFFFFFFFF),
    (0b0_1000_101111_0001010_0001100_0000101, false, .gath true .f64 10 12 5),
    (0b0_1001_010001_0000100_0000110_0001000, false, .atom .xor true 4 6 8),
    (0b0_1010_100010_0000011_0000000_0000000, false, .zrel 3),
    (0b0_1011_000000_0000010_0000100_0000101, false, .kenc 5 2 4),
    (0b0_1100_010010_0000110_0000111_0000100, false, .gangq 6 7 4),
    (0b0_1101_000001_0000000_0001000_0001011, false, .ctlw 8 11),
    (0xFFFFFFFF, true, .ill)] : List (BitVec 32 × Bool × Instr)),
    decodeWord none x.1 = .ok { marker := x.2.1, instr := x.2.2 }

namespace Sys2Proof.Claims

/-- Decoding what the encoder writes gives the instruction back: for every well-formed instruction, with every operand at every value
that the encoding admits, and either marker bit (R110 to R116); a LIMM carries every imm21. -/
def DecodingUndoesEncoding : Prop :=
  (∀ (s : Bool) (i : Instr) (limm : Option (BitVec 21)) (w : BitVec 32), WellFormed i = true → encode s i = some (limm, w) →
    (Instr.isPrefix i = true → s = false) → (i = .ill → s = true) → decodeWord limm w = .ok { marker := s, instr := i }) ∧
  ∀ v : BitVec 21, decodeWord none (limmWord v) = .ok { marker := false, instr := .limm } ∧ limmImm (limmWord v) = v

/-- Encoding what the decoder reads gives the word back, so that two words that stand alone never mean the same instruction (R110, R111, R127). -/
def EncodingUndoesDecoding : Prop :=
  ∀ (w : BitVec 32) (d : Decoded), decodeWord none w = .ok d → d.instr ≠ .limm → encode d.marker d.instr = some (none, w)

end Sys2Proof.Claims

/-- Decoding undoes encoding for every well-formed instruction, and encoding undoes decoding. -/
def Obligations.DecodingAndEncodingAgree : Prop :=
    Claims.DecodingUndoesEncoding ∧
    Claims.EncodingUndoesDecoding

/-- Every state has a next state: no word and no step of the device stops the machine. -/
def Obligations.EveryStepAnswers : Prop := ∀ s : State, s.safeStep

/-- The canonical form of memory (rising addresses, no byte that an unlisted address would read as) is kept by every step, from every
state that has it. -/
def Obligations.EveryStepKeepsMemoryCanonical : Prop :=
  ∀ s t : State, Memory.wf s.mem.cells = true → step s = .next t → Memory.wf t.mem.cells = true

/-- Memory (Table 18-1, R350): a part written reads back in its byte order, every other byte stays, the canonical form is kept, and two
memories in it that read alike are the same. -/
def Obligations.MemoryHoldsWhatIsWritten : Prop :=
  ∀ (m : List Host.Cell) (a n v : Nat), Memory.wf m = true →
    Memory.wf (Memory.writeN m a n v) = true ∧
    (∀ i, i < n → Memory.read (Memory.writeN m a n v) (a + i) = BitVec.ofNat 8 (v / 256 ^ i)) ∧
    (∀ x, x < a ∨ a + n ≤ x → Memory.read (Memory.writeN m a n v) x = Memory.read m x) ∧
    Memory.readN (Memory.writeN m a n v) a n = v % 256 ^ n ∧
    ∀ m', Memory.wf m' = true → (∀ x, Memory.read m x = Memory.read m' x) → m = m'

/-- What reset leaves (R434, R435): nothing is live, memory lists nothing, and PWRCAP is 1,600. -/
def Obligations.ResetLeavesNothingLive : Prop :=
  let s := State.reset
  s.issue = none ∧ s.threads = [] ∧ s.warps = [] ∧ s.teams = [] ∧ s.tasks = [] ∧ s.ctxs = [] ∧ s.images = [] ∧
  s.mem.cells = [] ∧ Memory.wf s.mem.cells = true ∧ s.mem.l1 = [] ∧ s.mem.l1tlb = [] ∧ s.mem.shtlb = [] ∧ s.mem.miss = [] ∧
  s.dev.boot = .off ∧ s.dev.pwrcap = 1600 ∧ s.dev.therm = false ∧ s.dev.mbox.busy = false

/-- Every word of class 13 outside privileged mode, assigned or not, traps with cause PRIVILEGE (R128). -/
def Obligations.ClassThirteenIsPrivileged : Prop :=
  ∀ (s s' : State) (L : Latch) (w : BitVec 32), s.readsWord L w s' → L.rep = none ∨ L.j = 0 →
    w.extractLsb' 27 4 = 13 → (∃ u ∈ s'.at L.core L.who, s'.privileged u = false) →
    ∃ m, step s = .next (s'.trap { L with word := w, marker := m } 2 0)

/-- Classes 14 and 15 are illegal, the word 0 is NOP and the word of ones is ILL (R127). -/
def Obligations.ReservedClassesAreIllegal : Prop :=
  (∀ (s s' : State) (L : Latch) (w : BitVec 32), s.readsWord L w s' → L.rep = none ∨ L.j = 0 →
    w.extractLsb' 27 4 = 14 ∨ w.extractLsb' 27 4 = 15 →
    ∃ m, step s = .next (s'.trap { L with word := w, marker := m } 1 0)) ∧
  decodeWord none 0x00000000 = .ok { marker := false, instr := .nop } ∧
  decodeWord none 0xFFFFFFFF = .ok { marker := true, instr := .ill } ∧
  ∀ (s : State) (L : Latch), s.issue = some L → exec .ill s = .next (s.trap L 1 0)

namespace Sys2Proof.Claims

/-- A word whose check fails traps with the cause of the first failure, and a word that no lane executes has no effect beyond
its issue slot (R129, R141). -/
def ChecksAndMaskedWords : Prop :=
  ∀ (s : State) (L : Latch) (i : Instr), (encodeFields i).isSome → s.issue = some L →
    (∀ c, s.check i L = some c → exec i s = .next (s.trap L c 0)) ∧
    (Instr.isPrefix i = false ∨ (∃ p n c, i = .guard p n c) → s.check i L = none → s.fp64Busy i L = false → L.exec = [] →
      Completes s L i id id)

/-- The order of the checks (R129, steps 1 to 4). -/
def ChecksComeInOrder : Prop :=
  ∀ (s : State) (L : Latch) (i : Instr),
    let unpriv := ∃ u ∈ s.at L.core L.who, s.privileged u = false
    let inGuard := ∃ u ∈ s.at L.core L.group, u.guard.isSome
    (i = .ill → s.check i L = some 1) ∧
    (i ≠ .ill → Instr.isSystem i → unpriv → s.check i L = some 2) ∧
    (i ≠ .ill → ¬ (Instr.isSystem i ∧ unpriv) →
      (i.fieldsOk = false → s.check i L = some 1) ∧
      (i.fieldsOk → L.rep.isSome → Instr.isSystem i ∨ (Instr.isClass0 i ∧ i ≠ .limm) → s.check i L = some 1) ∧
      (i.fieldsOk → L.rep = none → (∃ p n c, i = .guard p n c) → inGuard → s.check i L = some 1) ∧
      (i.fieldsOk → L.rep = none → ¬ ((∃ p n c, i = .guard p n c) ∧ inGuard) →
        (s.check i L = none ↔ ∀ o ∈ i.operands, o.aligned ∧ ∀ u ∈ s.at L.core L.who, o.inRows u.regs.length u.wb) ∧
        (s.check i L = none ∨ s.check i L = some 1)))

/-- The target of a REP is checked over every repeat still to run (R114, R119, R120): a stepped field that names no register is illegal, one
that would pass the last entry of its file is REPOVF, and else the word passes exactly when every operand of every repeat is aligned
and names only rows of the threads. -/
def RepeatsAreChecked : Prop :=
  ∀ (s : State) (L : Latch) (i : Instr) (n : Nat) (sD sA sB : Bool), L.rep = some (n, sD, sA, sB) →
    i ≠ .ill → i.fieldsOk → Instr.isSystem i = false → Instr.isClass0 i = false →
    let steps := fun (f : Field) => match f with | .d => sD | .a => sA | .b => sB
    let left := L.n - L.j
    let astray := ∃ f, steps f = true ∧ i.fieldOperand f = none
    let past := ∃ f o, steps f = true ∧ i.fieldOperand f = some o ∧ o.file.size ≤ o.num + (left - 1)
    (astray → s.check i L = some 1) ∧
    (¬ astray → past → s.check i L = some 3) ∧
    (¬ astray → ¬ past →
      (s.check i L = none ↔ ∀ k < left, ∀ o ∈ i.operands,
        let o' := if steps o.field then { o with num := o.num + k } else o
        o'.aligned ∧ ∀ u ∈ s.at L.core L.who, o'.inRows u.regs.length u.wb) ∧
      (s.check i L = none ∨ s.check i L = some 1))

/-- Repeat j of a REP executes its target with D + j·sD, A + j·sA and B + j·sB (R114), and a word without a REP is executed as it
stands. -/
def RepeatsStepTheirFields : Prop :=
  ∀ (L : Latch) (w : BitVec 32),
    (L.rep = none → L.stepped w = w) ∧
    ∀ n sD sA sB, L.rep = some (n, sD, sA, sB) → w ≠ limmWord (limmImm w) →
      let at_ := fun (x : BitVec 32) (k : Nat) => (x.extractLsb' k 7).toNat
      let by_ := fun (on : Bool) => if on then L.j else 0
      at_ w 14 + by_ sD < 128 → at_ w 7 + by_ sA < 128 → at_ w 0 + by_ sB < 128 →
      (L.stepped w).extractLsb' 21 11 = w.extractLsb' 21 11 ∧
      at_ (L.stepped w) 14 = at_ w 14 + by_ sD ∧ at_ (L.stepped w) 7 = at_ w 7 + by_ sA ∧ at_ (L.stepped w) 0 = at_ w 0 + by_ sB

end Sys2Proof.Claims

/-- The checks of a word, their order, those of every repeat of a REP and the fields that a repeat steps, and words that no lane executes. -/
def Obligations.ChecksOfWords : Prop :=
    Claims.ChecksAndMaskedWords ∧
    Claims.ChecksComeInOrder ∧
    Claims.RepeatsAreChecked ∧
    Claims.RepeatsStepTheirFields

namespace Sys2Proof.Claims

/-- TRAP, SYSC and ILL take their traps (R127, R171). -/
def TrapInstructionsTrap : Prop :=
  ∀ (s : State) (L : Latch) (imm : Imm),
    (s.executes L (.trap imm) → exec (.trap imm) s = .next (s.trap L 5 imm.toNat)) ∧
    (s.executes L (.sysc imm) → exec (.sysc imm) s = .next (s.trap L 6 imm.toNat)) ∧
    (s.issue = some L → exec .ill s = .next (s.trap L 1 0))

/-- Taking an exception (R391, R393): the trapping threads write their records, then stand at TVEC with their handler bit set,
without REP or guard range; nothing else of them changes, and no byte of memory but by those writes. With a handler bit already set, TVEC or TRBASE zero or a record write
that faults, it is a double fault; while a record meets a retry the trap waits. -/
def TrapEntry : Prop :=
  ∀ (s : State) (L : Latch) (cause info : Nat) (u0 : Thread) (c : Context),
    (s.at L.core L.who).head? = some u0 → s.ctx? (s.ctxOf u0) = some c →
    let left := ((s.updWarp L.core L.warp fun w => { w with cur := none }).unlatch).passOthers L
    let write := left.writeTraps L c (laneMask (s.at L.core L.exec)) cause info (s.at L.core L.who)
    let twice := (∃ u ∈ s.at L.core L.who, u.handler) ∨ c.tvec = 0 ∨ c.trbase = 0
    (twice → s.trap L cause info = left.doubleFault L.core (s.ctxOf u0)) ∧
    (¬ twice → (∃ r k t, write = .fault r k t) → s.trap L cause info = left.doubleFault L.core (s.ctxOf u0)) ∧
    (¬ twice → ∀ t, write = .retry t → s.trap L cause info = s.stall t L) ∧
    (¬ twice → ∀ t, write = .done t →
      (∀ a, Memory.read (s.trap L cause info).mem.cells a = Memory.read t.mem.cells a) ∧
      ∀ d k u, t.thread? d k = some u → (s.trap L cause info).thread? d k =
        some (if d = L.core ∧ k ∈ L.who then { u with handler := true, pc := c.tvec, guard := none, repLeft := 0, zwait := none, midway := none } else u))

end Sys2Proof.Claims

/-- TRAP, SYSC and ILL take their traps, and what taking a trap does. -/
def Obligations.TrapsAreTaken : Prop :=
    Claims.TrapInstructionsTrap ∧
    Claims.TrapEntry

/-- The place and the fields of a trap record, and CTLR of TRREC (R392). -/
def Obligations.TrapRecordLayout : Prop :=
  ∀ (s : State) (L : Latch) (c : Context) (u : Thread) (mask cause info : Nat),
    trapAddr c u = (c.trbase.toNat + 32 * (2048 * u.core + u.slot)) % 2 ^ 64 ∧
    s.controlReg c u 2 = trapAddr c u ∧
    (mask < 2 ^ 32 → cause < 2 ^ 8 → info < 2 ^ 32 → L.n - L.j ≤ 64 → (∀ g, u.guard = some g → g.left ≤ 8) →
      let r := trapRecord L u mask cause info
      r < 2 ^ 256 ∧
      bitsOf r 63 0 = L.first.toNat ∧
      bitsOf r 127 64 = (if cause = 5 ∨ cause = 6 then (L.at_ + 4).toNat else L.first.toNat) ∧
      bitsOf r 159 128 = mask ∧ bitsOf r 167 160 = cause ∧ bitsOf r 175 168 = 0 ∧
      bitsOf r 179 176 = (match u.guard with | some g => g.left | none => 0) ∧ bitsOf r 181 180 = 0 ∧
      bitOf r 182 = (match u.guard with | some g => g.g | none => false) ∧ bitOf r 183 = u.guard.isSome ∧
      bitsOf r 191 184 = (if L.rep.isSome then L.n - L.j else 0) ∧
      bitsOf r 223 192 = info ∧ bitsOf r 255 224 = L.word.toNat)

namespace Sys2Proof.Claims

/-- ADD, ADDC, SUB, SUBB, MUL, MULH, MAD, NEG, ABS, LEA and the immediate forms of ADD, MUL and LEA (09 Tables 9-2 and 9-3). -/
def IntegerArithmeticResults : Prop :=
  ∀ (s : State) (L : Latch) (d a b : Reg) (imm : Imm),
    Writes32 s L (.add false d a b) d (fun u => u.v a + u.v b) ∧
    Writes64 s L (.add true d a b) d (fun u => u.vv a + u.vv b) ∧
    Writes32 s L (.addc false d a b) d (fun u => if 2 ^ 32 ≤ (u.v a).toNat + (u.v b).toNat then 1 else 0) ∧
    Writes64 s L (.addc true d a b) d (fun u => if 2 ^ 64 ≤ (u.vv a).toNat + (u.vv b).toNat then 1 else 0) ∧
    Writes32 s L (.sub false d a b) d (fun u => u.v a - u.v b) ∧
    Writes64 s L (.sub true d a b) d (fun u => u.vv a - u.vv b) ∧
    Writes32 s L (.subb false d a b) d (fun u => if u.v a < u.v b then 1 else 0) ∧
    Writes64 s L (.subb true d a b) d (fun u => if u.vv a < u.vv b then 1 else 0) ∧
    Writes32 s L (.mul false d a b) d (fun u => u.v a * u.v b) ∧
    Writes64 s L (.mul true d a b) d (fun u => u.vv a * u.vv b) ∧
    Writes32 s L (.mulh .i32 d a b) d (fun u => ((u.v a).signExtend 64 * (u.v b).signExtend 64).extractLsb' 32 32) ∧
    Writes32 s L (.mulh .n32 d a b) d (fun u => ((u.v a).setWidth 64 * (u.v b).setWidth 64).extractLsb' 32 32) ∧
    Writes32 s L (.mad false d a b) d (fun u => u.v a * u.v b + u.v d) ∧
    Writes64 s L (.mad true d a b) d (fun u => u.vv a * u.vv b + u.vv d) ∧
    Writes32 s L (.abs d a) d (fun u => if (u.v a).slt 0 then 0 - u.v a else u.v a) ∧
    Writes32 s L (.neg d a) d (fun u => 0 - u.v a) ∧
    Writes64 s L (.lea d a b) d (fun u => u.vv a + (u.v b).signExtend 64) ∧
    Writes32 s L (.addI false d a imm) d (fun u => u.v a + imm) ∧
    Writes64 s L (.addI true d a imm) d (fun u => u.vv a + imm.signExtend 64) ∧
    Writes32 s L (.mulI d a imm) d (fun u => u.v a * imm) ∧
    Writes64 s L (.leaI d a imm) d (fun u => u.vv d + (u.v a).signExtend 64 <<< imm.toNat)

/-- AND, OR, XOR, NOT, ANDN, SEL, MIN, MAX, ROT, MOVI and their immediate forms (09 Tables 9-2 and 9-3). -/
def LogicAndMoveResults : Prop :=
  ∀ (s : State) (L : Latch) (d a b : Reg) (imm : Imm),
    Writes32 s L (.and d a b) d (fun u => u.v a &&& u.v b) ∧
    Writes32 s L (.or d a b) d (fun u => u.v a ||| u.v b) ∧
    Writes32 s L (.xor d a b) d (fun u => u.v a ^^^ u.v b) ∧
    Writes32 s L (.not d a) d (fun u => ~~~(u.v a)) ∧
    Writes32 s L (.andn d a b) d (fun u => u.v a &&& ~~~(u.v b)) ∧
    Writes32 s L (.sel d a b) d (fun u => (u.v a &&& u.v d) ||| (u.v b &&& ~~~(u.v d))) ∧
    Writes32 s L (.min .i32 d a b) d (fun u => if (u.v b).slt (u.v a) then u.v b else u.v a) ∧
    Writes32 s L (.min .n32 d a b) d (fun u => if (u.v b).ult (u.v a) then u.v b else u.v a) ∧
    Writes64 s L (.min .i64 d a b) d (fun u => if (u.vv b).slt (u.vv a) then u.vv b else u.vv a) ∧
    Writes64 s L (.min .n64 d a b) d (fun u => if (u.vv b).ult (u.vv a) then u.vv b else u.vv a) ∧
    Writes32 s L (.max .i32 d a b) d (fun u => if (u.v a).slt (u.v b) then u.v b else u.v a) ∧
    Writes32 s L (.max .n32 d a b) d (fun u => if (u.v a).ult (u.v b) then u.v b else u.v a) ∧
    Writes64 s L (.max .i64 d a b) d (fun u => if (u.vv a).slt (u.vv b) then u.vv b else u.vv a) ∧
    Writes64 s L (.max .n64 d a b) d (fun u => if (u.vv a).ult (u.vv b) then u.vv b else u.vv a) ∧
    Writes32 s L (.rot d a b) d (fun u => (u.v a).rotateLeft (u.v b).toNat) ∧
    Writes32 s L (.andI d a imm) d (fun u => u.v a &&& imm) ∧
    Writes32 s L (.orI d a imm) d (fun u => u.v a ||| imm) ∧
    Writes32 s L (.xorI d a imm) d (fun u => u.v a ^^^ imm) ∧
    Writes32 s L (.minIS d a imm) d (fun u => if imm.slt (u.v a) then imm else u.v a) ∧
    Writes32 s L (.minIU d a imm) d (fun u => if imm.ult (u.v a) then imm else u.v a) ∧
    Writes32 s L (.maxIS d a imm) d (fun u => if (u.v a).slt imm then imm else u.v a) ∧
    Writes32 s L (.maxIU d a imm) d (fun u => if (u.v a).ult imm then imm else u.v a) ∧
    Writes32 s L (.rotI d a imm) d (fun u => (u.v a).rotateLeft imm.toNat) ∧
    Writes32 s L (.movi d imm) d (fun _ => imm) ∧
    Writes64 s L (.movi64 d imm) d (fun _ => imm.setWidth 64)

/-- DIV and REM truncate toward zero; a zero divisor gives 0xFFFF_FFFF and the dividend (R174). -/
def DivisionResults : Prop :=
  ∀ (s : State) (L : Latch) (d a b : Reg),
    Writes32 s L (.div .i32 d a b) d (fun u => if u.v b = 0 then 0xFFFFFFFF else (u.v a).sdiv (u.v b)) ∧
    Writes32 s L (.div .n32 d a b) d (fun u => if u.v b = 0 then 0xFFFFFFFF else (u.v a).udiv (u.v b)) ∧
    Writes32 s L (.rem .i32 d a b) d (fun u => if u.v b = 0 then u.v a else (u.v a).srem (u.v b)) ∧
    Writes32 s L (.rem .n32 d a b) d (fun u => if u.v b = 0 then u.v a else (u.v a).umod (u.v b)) ∧
    ((∀ u ∈ s.lanes L, u.v b ≠ 0) →
      Writes32 s L (.divTrap .i32 d a b) d (fun u => (u.v a).sdiv (u.v b)) ∧
      Writes32 s L (.divTrap .n32 d a b) d (fun u => (u.v a).udiv (u.v b))) ∧
    ∀ ty, (∃ u ∈ s.lanes L, u.v b = 0) → s.executes L (.divTrap ty d a b) →
      exec (.divTrap ty d a b) s = .next (s.trap L 7 0)

/-- PSET compares in its type; PAND, POR, PXOR, PNOT and PMOV work on predicates (R178). -/
def PredicateResults : Prop :=
  ∀ (s : State) (L : Latch) (d a b : Reg),
    WritesPred s L (.pset .eq .i32 d a b) d (fun u => u.v a == u.v b) ∧
    WritesPred s L (.pset .ne .i32 d a b) d (fun u => u.v a != u.v b) ∧
    WritesPred s L (.pset .lt .i32 d a b) d (fun u => (u.v a).slt (u.v b)) ∧
    WritesPred s L (.pset .le .i32 d a b) d (fun u => (u.v a).sle (u.v b)) ∧
    WritesPred s L (.pset .gt .i32 d a b) d (fun u => (u.v b).slt (u.v a)) ∧
    WritesPred s L (.pset .ge .i32 d a b) d (fun u => (u.v b).sle (u.v a)) ∧
    WritesPred s L (.pset .eq .n32 d a b) d (fun u => u.v a == u.v b) ∧
    WritesPred s L (.pset .ne .n32 d a b) d (fun u => u.v a != u.v b) ∧
    WritesPred s L (.pset .lt .n32 d a b) d (fun u => (u.v a).ult (u.v b)) ∧
    WritesPred s L (.pset .le .n32 d a b) d (fun u => (u.v a).ule (u.v b)) ∧
    WritesPred s L (.pset .gt .n32 d a b) d (fun u => (u.v b).ult (u.v a)) ∧
    WritesPred s L (.pset .ge .n32 d a b) d (fun u => (u.v b).ule (u.v a)) ∧
    WritesPred s L (.pset .eq .i64 d a b) d (fun u => u.vv a == u.vv b) ∧
    WritesPred s L (.pset .ne .i64 d a b) d (fun u => u.vv a != u.vv b) ∧
    WritesPred s L (.pset .lt .i64 d a b) d (fun u => (u.vv a).slt (u.vv b)) ∧
    WritesPred s L (.pset .le .i64 d a b) d (fun u => (u.vv a).sle (u.vv b)) ∧
    WritesPred s L (.pset .gt .i64 d a b) d (fun u => (u.vv b).slt (u.vv a)) ∧
    WritesPred s L (.pset .ge .i64 d a b) d (fun u => (u.vv b).sle (u.vv a)) ∧
    WritesPred s L (.pset .eq .n64 d a b) d (fun u => u.vv a == u.vv b) ∧
    WritesPred s L (.pset .ne .n64 d a b) d (fun u => u.vv a != u.vv b) ∧
    WritesPred s L (.pset .lt .n64 d a b) d (fun u => (u.vv a).ult (u.vv b)) ∧
    WritesPred s L (.pset .le .n64 d a b) d (fun u => (u.vv a).ule (u.vv b)) ∧
    WritesPred s L (.pset .gt .n64 d a b) d (fun u => (u.vv b).ult (u.vv a)) ∧
    WritesPred s L (.pset .ge .n64 d a b) d (fun u => (u.vv b).ule (u.vv a)) ∧
    WritesPred s L (.pand d a b) d (fun u => u.pred a.toNat && u.pred b.toNat) ∧
    WritesPred s L (.por d a b) d (fun u => u.pred a.toNat || u.pred b.toNat) ∧
    WritesPred s L (.pxor d a b) d (fun u => u.pred a.toNat ^^ u.pred b.toNat) ∧
    WritesPred s L (.pnot d a) d (fun u => !u.pred a.toNat) ∧
    Writes32 s L (.pmovReg d a) d (fun u => if u.pred a.toNat then 0xFFFFFFFF else 0) ∧
    WritesPred s L (.pmovPred d a) d (fun u => u.v a != 0)

end Sys2Proof.Claims

/-- Integer arithmetic, logic, moves, division and predicates complete with their results. -/
def Obligations.IntegerAndPredicateResults : Prop :=
    Claims.IntegerArithmeticResults ∧
    Claims.LogicAndMoveResults ∧
    Claims.DivisionResults ∧
    Claims.PredicateResults

/-- SHL, SHR and SHRA take the whole of b as the amount (R175). -/
def Obligations.ShiftsTakeTheWholeAmount : Prop :=
  ∀ (s : State) (L : Latch) (d a b : Reg) (imm : Imm),
    Writes32 s L (.shl d a b) d (fun u => u.v a <<< (u.v b).toNat) ∧
    Writes64 s L (.shl64 d a b) d (fun u => u.vv a <<< (u.v b).toNat) ∧
    Writes32 s L (.shr d a b) d (fun u => u.v a >>> (u.v b).toNat) ∧
    Writes64 s L (.shr64 d a b) d (fun u => u.vv a >>> (u.v b).toNat) ∧
    Writes32 s L (.shra d a b) d (fun u => (u.v a).sshiftRight (u.v b).toNat) ∧
    Writes64 s L (.shra64 d a b) d (fun u => (u.vv a).sshiftRight (u.v b).toNat) ∧
    Writes32 s L (.shlI false d a imm) d (fun u => u.v a <<< imm.toNat) ∧
    Writes64 s L (.shlI true d a imm) d (fun u => u.vv a <<< imm.toNat) ∧
    Writes32 s L (.shrI false d a imm) d (fun u => u.v a >>> imm.toNat) ∧
    Writes64 s L (.shrI true d a imm) d (fun u => u.vv a >>> imm.toNat) ∧
    Writes32 s L (.shraI false d a imm) d (fun u => (u.v a).sshiftRight imm.toNat) ∧
    Writes64 s L (.shraI true d a imm) d (fun u => (u.vv a).sshiftRight imm.toNat) ∧
    ∀ (x : Word) (y : Pair) (n : Nat),
      (32 ≤ n → x <<< n = 0 ∧ x >>> n = 0 ∧ x.sshiftRight n = if x.msb then BitVec.allOnes 32 else 0) ∧
      (64 ≤ n → y <<< n = 0 ∧ y >>> n = 0 ∧ y.sshiftRight n = if y.msb then BitVec.allOnes 64 else 0)

namespace Sys2Proof.Claims

/-- The number of bits that BFX and BFI take: the width, cut at bit 31 (R179). -/
def fieldCut (o w : Nat) : Nat := if o ≥ 32 ∨ w = 0 then 0 else min w (32 - o)

end Sys2Proof.Claims

/-- BFX and BFI (R179); a BFI whose field has no bits writes nothing. -/
def Obligations.BitFieldResults : Prop :=
  ∀ (s : State) (L : Latch) (d a b : Reg),
    let o := fun (u : Thread) => ((u.v b).extractLsb' 0 6).toNat
    let c := fun (u : Thread) => Claims.fieldCut (o u) ((u.v b).extractLsb' 8 6).toNat
    let ones := fun (u : Thread) => BitVec.ofNat 32 (2 ^ c u - 1)
    let f := fun (u : Thread) => (u.v a >>> o u) &&& ones u
    Writes32 s L (.bfx false d a b) d f ∧
    Writes32 s L (.bfx true d a b) d (fun u =>
      if c u = 0 then 0 else if (f u).getLsbD (c u - 1) then f u ||| ~~~(ones u) else f u) ∧
    (s.executes L (.bfi d a b) → Completes s L (.bfi d a b) (fun u =>
      let k := ones u <<< o u
      if 0 < c u then Thread.willWrite d 1 ((u.v d &&& ~~~k) ||| ((u.v a <<< o u) &&& k)).toNat 0 u else u) id)

/-- POPC, CLZ, CTZ and BREV (R180). -/
def Obligations.BitCountResults : Prop :=
  ∀ (s : State) (L : Latch) (d a : Reg),
    Writes32 s L (.popc d a) d (fun u => BitVec.ofNat 32 ((List.range 32).countP fun i => (u.v a).getLsbD i)) ∧
    Writes32 s L (.clz d a) d (fun u => BitVec.ofNat 32 ((List.range 32).findIdx fun i => (u.v a).getMsbD i)) ∧
    Writes32 s L (.ctz d a) d (fun u => BitVec.ofNat 32 ((List.range 32).findIdx fun i => (u.v a).getLsbD i)) ∧
    Writes32 s L (.brev d a) d (fun u => (u.v a).reverse) ∧
    (∀ x : Word, (∀ i, i < 32 → x.reverse.getLsbD i = x.getLsbD (31 - i)) ∧
      (x = 0 → (List.range 32).findIdx (fun i => x.getMsbD i) = 32 ∧ (List.range 32).findIdx (fun i => x.getLsbD i) = 32))

/-- BRA, CALL, CALLI, RET, JMPI and BCMP: where each executing thread stands afterwards, and the link (R167, R168). -/
def Obligations.ControlTransfers : Prop :=
  ∀ (s : State) (L : Latch) (off : BitVec 21) (d a : Reg) (c : BCond) (imm : Imm),
    let link := L.at_ + 4
    let to21 := L.at_ + 4 * off.signExtend 64
    let toImm := L.at_ + 4 * imm.signExtend 64
    let aligned := ∀ u ∈ s.lanes L, (u.vv a).extractLsb' 0 2 = 0
    let cond := fun (x : Word) => match c with
      | .eq => x == 0 | .ne => x != 0 | .lt => x.slt 0 | .ge => (0 : Word).sle x | .gt => (0 : Word).slt x | .le => x.sle 0
    (s.executes L (.bra off) →
      Completes s L (.bra off) id id ∧ Leaves s L (.bra off) fun _ v => v.pc = to21 ∧ v.repLeft = 0) ∧
    (s.executes L (.call off) →
      Completes s L (.call off) (fun u => (u.putReg 0 (Pair.lo link)).putReg 1 (Pair.hi link)) id ∧
      Leaves s L (.call off) fun _ v => v.pc = to21 ∧ v.repLeft = 0) ∧
    (s.executes L (.calli d a) → aligned →
      Completes s L (.calli d a) (fun u => (u.putReg d.toNat (Pair.lo link)).putReg (d.toNat + 1) (Pair.hi link)) id ∧
      Leaves s L (.calli d a) fun u v => v.pc = u.vv a ∧ v.repLeft = 0) ∧
    (s.executes L (.ret a) → aligned →
      Completes s L (.ret a) id id ∧ Leaves s L (.ret a) fun u v => v.pc = u.vv a ∧ v.repLeft = 0) ∧
    (s.executes L (.jmpi a) → aligned →
      Completes s L (.jmpi a) id id ∧ Leaves s L (.jmpi a) fun u v => v.pc = u.vv a ∧ v.repLeft = 0) ∧
    (s.executes L (.bcmp c d imm) →
      Completes s L (.bcmp c d imm) id id ∧ Leaves s L (.bcmp c d imm) fun u v =>
        (cond (u.v d) = true → v.pc = toImm ∧ v.repLeft = 0) ∧
        (cond (u.v d) = false → u.slot ∈ L.group → L.n ≤ L.j + 1 → v.pc = link ∧ v.repLeft = 0)) ∧
    ∀ i ∈ [Instr.calli d a, .ret a, .jmpi a], s.executes L i → ¬ aligned → exec i s = .next (s.trap L 1 0)

namespace Sys2Proof.Claims

/-- NOP, YIELD, FBAR, GUARD, WBASE and WBASE.add (R115, R121, R166, R170, R172). -/
def ControlEffects : Prop :=
  ∀ (s : State) (L : Latch) (p c : BitVec 3) (sense : Bool) (imm : Imm),
    let inRange := fun (base : Int) (u : Thread) => base % 16 = 0 ∧ 0 ≤ base ∧ base < u.regs.length
    (s.executes L .nop → Completes s L .nop id id) ∧
    (s.executes L .yield → Completes s L .yield id fun w => { w with yielded := true }) ∧
    (s.executes L .fbar → Completes s L .fbar (fun u => { u with fetched := [] }) id) ∧
    (s.executes L (.guard p sense c) → Completes s L (.guard p sense c) id id ∧
      Leaves s L (.guard p sense c) fun u v => v.guard = some { g := u.pred p.toNat != sense, left := c.toNat + 1 }) ∧
    (s.executes L (.wbase imm) →
      ((∀ u ∈ s.lanes L, inRange imm.toNat u) → Completes s L (.wbase imm) (fun u => { u with wb := imm.toNat }) id) ∧
      (¬ (∀ u ∈ s.lanes L, inRange imm.toNat u) → exec (.wbase imm) s = .next (s.trap L 1 0))) ∧
    (s.executes L (.wbaseAdd imm) →
      ((∀ u ∈ s.lanes L, inRange (u.wb + imm.toInt) u) →
        Completes s L (.wbaseAdd imm) (fun u => { u with wb := (u.wb + imm.toInt).toNat }) id) ∧
      (¬ (∀ u ∈ s.lanes L, inRange (u.wb + imm.toInt) u) → exec (.wbaseAdd imm) s = .next (s.trap L 1 0)))

/-- The execution mask of an issue slot (R140, R115, R39): the eligible threads of the issue group whose guard, if they are in a guard range,
holds, in ascending lane order. The group is fixed when the compound opens; at a later repeat it is those of its threads that still have
as many repeats to run as the compound. -/
def ExecutionMaskFollowsGuard : Prop :=
  ∀ (s : State) (w : Warp) (pc : Pair) (group : List Nat) (left : Nat) (k : Compound),
    let masks := fun (L : Latch) =>
      (∀ n, n ∈ L.exec ↔ n ∈ L.group ∧ ∃ u, s.thread? w.core n = some u ∧ u.status = .eligible ∧ ∀ g, u.guard = some g → g.g = true) ∧
      (s.at w.core L.exec).Pairwise fun x y => x.lane ≤ y.lane
    (∃ L : Latch, s.open w pc group left = { s with issue := some L } ∧ L.core = w.core ∧ L.warp = w.slot ∧ L.first = pc ∧ L.at_ = pc ∧
      L.group = group ∧ L.rep = none ∧ L.limm = none ∧ L.held = none ∧ L.j = 0 ∧ L.n = 1 ∧ L.left = left ∧ masks L) ∧
    ∃ L : Latch, s.resume w k = { s with issue := some L } ∧ L.core = w.core ∧ L.warp = w.slot ∧ L.first = k.pc ∧ L.at_ = k.next - 4 ∧
      (∀ n, n ∈ L.group ↔ n ∈ k.group ∧ ∃ u, s.thread? w.core n = some u ∧ u.status = .eligible ∧ u.pc = k.pc ∧ u.repLeft = k.n - k.j) ∧
      L.rep = some (k.n, k.sD, k.sA, k.sB) ∧ L.limm = k.limm ∧ L.held = some k.word ∧ L.j = k.j ∧ L.n = k.n ∧ masks L

/-- The length of a guard range (R115): behind a GUARD of count c + 1 a thread stands under its guard for c + 1 compounds that transfer no
control, and no longer; a compound that transfers control ends the range. -/
def GuardRangesCount : Prop :=
  ∀ (g : Bool) (c : BitVec 3),
    let after := fun (n : Nat) => (List.range n).foldl (fun x _ => guardBehind false x) (some { g := g, left := c.toNat + 1 : Guard })
    (∀ n ≤ c.toNat, after n = some { g := g, left := c.toNat + 1 - n }) ∧ after (c.toNat + 1) = none ∧
    (∀ n, guardBehind true (after n) = none)

/-- REP and LIMM are checked like any word and then kept in the issue slot for the word behind them (R114, R116, R117). -/
def PrefixesAreKept : Prop :=
  ∀ (s : State) (L : Latch) (n : BitVec 6) (sD sA sB : Bool), s.issue = some L →
    (s.check (.rep n sD sA sB) L = none → exec (.rep n sD sA sB) s = .next { s with issue := some { L with
      rep := some (n.toNat + 1, sD, sA, sB), n := n.toNat + 1, at_ := L.at_ + 4,
      j := if L.left = 0 then 0 else n.toNat + 1 - L.left } }) ∧
    (s.check .limm L = none → exec .limm s = .next { s with issue := some { L with
      limm := some (limmImm L.word), at_ := L.at_ + 4 } }) ∧
    ∀ i ∈ [Instr.rep n sD sA sB, .limm], ∀ c, s.check i L = some c → exec i s = .next (s.trap L c 0)

/-- EXIT (R169): the executing threads end, one after another. A thread that ends is exited, has no result outstanding, stands in
no lane mask of its warp and holds no element of a job; flags of its outstanding results are posted. -/
def ExitEndsThreads : Prop :=
  (∀ (s : State) (L : Latch), s.executes L .exit →
    Ends s L .exit (L.exec.foldl (fun t k => t.endThread L.core k .exited) (s.advance L))) ∧
  ∀ (s : State) (c k : Nat) (u : Thread), s.thread? c k = some u →
    ((∀ x ∈ s.mem.watches, x.core ≠ c ∨ x.slot ≠ k) →
      ∃ v, (s.endThread c k .exited).thread? c k = some v ∧ v.status = .exited ∧ v.pending = [] ∧ v.dispatch = none ∧
      v.guard = none ∧ v.regs = u.regs) ∧
    (∀ w, s.warp? c u.warp = some w → ∃ x, (s.endThread c k .exited).warp? c u.warp = some x ∧
      x.fsr = u.pending.foldl (fun f p => f ||| p.flags) w.fsr ∧
      ∀ m, m < w.masks.length → (x.masks.getD m 0).getLsbD u.lane = false)

end Sys2Proof.Claims

/-- NOP, YIELD, FBAR, WBASE, GUARD, EXIT and the prefixes, the execution mask that a guard leaves, and the count of a guard range. -/
def Obligations.ControlEffects : Prop :=
    Claims.ControlEffects ∧
    Claims.ExecutionMaskFollowsGuard ∧
    Claims.GuardRangesCount ∧
    Claims.PrefixesAreKept ∧
    Claims.ExitEndsThreads

/-- MATCH and VOTE over the executing lanes of the tile (R184, R146). -/
def Obligations.TileVotes : Prop :=
  ∀ (s : State) (L : Latch) (d a : Reg),
    let mates := fun (u : Thread) => s.tileMates L u
    let writesMask := fun (i : Instr) (p : Thread → Thread → Bool) => s.executes L i →
      Completes s L i (fun u => Thread.willWrite d 1 (laneMask ((mates u).filter (p u))) 0 u) id
    writesMask (.match false d a) (fun u x => x.v a == u.v a) ∧
    writesMask (.match true d a) (fun u x => x.vv a == u.vv a) ∧
    writesMask (.vote .ballot d a) (fun _ x => x.pred a.toNat) ∧
    WritesPred s L (.vote .any d a) d (fun u => (mates u).any fun x => x.pred a.toNat) ∧
    WritesPred s L (.vote .all d a) d (fun u => (mates u).all fun x => x.pred a.toNat) ∧
    WritesPred s L (.vote .uni d a) d (fun u => (mates u).all (fun x => x.pred a.toNat) || (mates u).all fun x => !x.pred a.toNat) ∧
    (∀ ts n, (laneMask ts).testBit n = ts.any fun x => x.lane == n) ∧
    ∀ u ∈ s.lanes L, u ∈ mates u

/-- SHFL takes the vA of its source lane, or its own where there is none in its tile that executes (R185). -/
def Obligations.ShuffleSources : Prop :=
  ∀ (s : State) (L : Latch) (m : ShflMode) (d a b : Reg),
    Writes32 s L (.shfl m d a b) d fun u =>
      let n := s.tileSize L
      let first := u.lane / n * n
      let sel := (u.v b).toNat
      let source := match m with
        | .idx => if n ≤ sel then none else some (first + sel)
        | .up => if u.lane - first < sel then none else some (u.lane - sel)
        | .down => if first + n ≤ u.lane + sel then none else some (u.lane + sel)
        | .xor => if first ≤ (u.lane ^^^ sel) ∧ (u.lane ^^^ sel) < first + n then some (u.lane ^^^ sel) else none
      match source with
      | none => u.v a
      | some j => match (s.lanes L).find? fun x => x.lane == j with
        | some x => x.v a
        | none => u.v a

namespace Sys2Proof.Claims

/-- The pairwise tree over 2^k positions: its upper and its lower half, combined where both hold a value (R186). -/
def pairTree (op : Nat → Nat → Fr) : Nat → (Nat → Option Nat) → Option Nat × BitVec 7
  | 0, x => (x 0, 0)
  | k + 1, x =>
    let lo := pairTree op k x
    let hi := pairTree op k fun i => x (2 ^ k + i)
    match lo.1, hi.1 with
    | some u, some v => (some (op u v).1, lo.2 ||| hi.2 ||| (op u v).2)
    | some u, none => (some u, lo.2 ||| hi.2)
    | none, v => (v, lo.2 ||| hi.2)

/-- REDW and SCANW combine the values of a tile in the fixed pairwise tree (R186). -/
def ReductionTrees : Prop :=
  ∀ (s : State) (L : Latch) (o : RedOp) (d a : Reg) (k : Nat), s.tileSize L = 2 ^ k →
    let value := fun (u : Thread) (top i : Nat) =>
      if u.lane / 2 ^ k * 2 ^ k + i ≤ top then
        ((s.lanes L).find? fun x => x.lane == u.lane / 2 ^ k * 2 ^ k + i).map fun x => (x.v a).toNat
      else none
    let result := fun (u : Thread) (top : Nat) => pairTree (redOp o (s.roundingOf L)) k (value u top)
    (s.executes L (.redw o d a) → Completes s L (.redw o d a)
      (fun u => Thread.willWrite d 1 ((result u (u.lane / 2 ^ k * 2 ^ k + 2 ^ k)).1.getD 0) (result u (u.lane / 2 ^ k * 2 ^ k + 2 ^ k)).2 u) id) ∧
    (s.executes L (.scanw o d a) → Completes s L (.scanw o d a)
      (fun u => Thread.willWrite d 1 ((result u u.lane).1.getD 0) (result u u.lane).2 u) id) ∧
    (∀ (r : Rnd) (x y : Word),
      redOp .addI32 r x.toNat y.toNat = ((x + y).toNat, 0) ∧
      redOp .minI32 r x.toNat y.toNat = ((if y.slt x then y else x).toNat, 0) ∧
      redOp .maxI32 r x.toNat y.toNat = ((if x.slt y then y else x).toNat, 0) ∧
      redOp .and r x.toNat y.toNat = ((x &&& y).toNat, 0) ∧
      redOp .or r x.toNat y.toNat = ((x ||| y).toNat, 0) ∧
      redOp .addF32 r x.toNat y.toNat = Fp.add .f32 r x.toNat y.toNat ∧
      redOp .minF32 r x.toNat y.toNat = Fp.minMax .f32 false x.toNat y.toNat ∧
      redOp .maxF32 r x.toNat y.toNat = Fp.minMax .f32 true x.toNat y.toNat)

/-- WSORT and LCOMP move the executing threads of each tile, with their mask bits, and write the new lane, or the number of
threads that went low (R142, R147, R187). -/
def LaneMovesComplete : Prop :=
  ∀ (s : State) (L : Latch) (d a : Reg),
    let sorted := reorder (s.tileSize L) (s.lanes L) fun (x y : Thread) => (x.v a).toNat < (y.v a).toNat
    let packed := reorder (s.tileSize L) (s.lanes L) fun (x y : Thread) => x.pred a.toNat && !y.pred a.toNat
    (s.executes L (.wsort d a) → Completes s L (.wsort d a)
      (fun u => Thread.willWrite d 1 (newLane sorted u) 0 { u with lane := newLane sorted u })
      fun w => { w with masks := w.masks.map (moveMask (s.lanes L) sorted) }) ∧
    (s.executes L (.lcomp d a) → Completes s L (.lcomp d a)
      (fun u => Thread.willWrite d 1 ((s.tileMates L u).filter fun x => x.pred a.toNat).length 0 { u with lane := newLane packed u })
      fun w => { w with masks := w.masks.map (moveMask (s.lanes L) packed) })

/-- A reordering permutes the lanes that executing threads hold in each tile, in rising order of the key; threads that the order
does not tell apart keep the order of their lanes (R147). -/
def ReorderingSortsEachTile : Prop :=
  ∀ (size : Nat) (ts : List Thread) (key : Thread → Nat), 0 < size → 32 % size = 0 →
    ts.Pairwise (fun x y => x.lane < y.lane) → (ts.map (·.slot)).Nodup → (∀ x ∈ ts, x.lane < 32) →
    let pl := reorder size ts fun x y => decide (key x < key y)
    (ts.map (newLane pl)).Perm (ts.map (·.lane)) ∧
    ∀ x ∈ ts, newLane pl x / size = x.lane / size ∧
      ∀ y ∈ ts, x.lane / size = y.lane / size → (key x < key y ∨ key x = key y ∧ x.lane < y.lane) → newLane pl x < newLane pl y

end Sys2Proof.Claims

/-- REDW, SCANW, WSORT and LCOMP. -/
def Obligations.LaneReductionsAndMoves : Prop :=
    Claims.ReductionTrees ∧
    Claims.LaneMovesComplete ∧
    Claims.ReorderingSortsEachTile

namespace Sys2Proof.Claims

/-- SMOV reads the special registers of Table 6-7, and a read of clocklo captures the count for the thread (R122, R181). -/
def SpecialRegistersRead : Prop :=
  ∀ (s : State) (L : Latch) (d a : Reg),
    (s.executes L (.smov d a) → Completes s L (.smov d a)
      (fun u =>
        let v := Thread.willWrite d 1 (s.special u a.toNat) 0 u
        if a.toNat = 11 then { v with clock := BitVec.ofNat 64 s.dev.cycle } else v) id) ∧
    ∀ u : Thread,
      s.special u 0 = u.tid ∧ s.special u 1 = u.lane ∧ s.special u 2 = u.warp ∧
      (∀ i < 4, s.special u 3 / 256 ^ i % 256 = u.teams.getD i 255 % 256) ∧
      (∀ k, s.task? u.task = some k → s.special u 4 = k.index ∧ s.special u 5 = k.key % 2 ^ 32 ∧
        s.special u 6 = k.key / 2 ^ 32 % 2 ^ 32) ∧
      s.special u 7 = u.core ∧ s.special u 8 = u.core / 4 ∧ s.special u 9 = u.core / 128 ∧ s.special u 10 = packageNumber ∧ packageNumber ≤ 16383 ∧
      s.special u 11 = s.dev.cycle % 2 ^ 32 ∧ s.special u 12 = u.clock.toNat / 2 ^ 32 ∧ s.special u 13 = u.wb ∧
      (∀ w, s.warp? u.core u.warp = some w →
        s.special u 14 = w.wpart ∧ s.special u 15 = w.fsr.toNat ∧ s.special u 16 = w.frm) ∧
      (∀ q < 4, s.special u (17 + q) = (s.wptr u.core q).toNat) ∧
      (∀ i < 4, s.special u (21 + i) = u.rng.toNat / 2 ^ (32 * i) % 2 ^ 32)

/-- SWR and WPART: wpart and frm take the value of the lowest executing lane, or the immediate, at issue, and a reserved value
traps; a generator word is a result of each lane (R25, R144, R181, R189). -/
def SpecialRegistersWritten : Prop :=
  ∀ (s : State) (L : Latch) (a : Reg) (imm : Imm),
    let v := match (s.lanes L).head? with | some u => (u.v a).toNat | none => 0
    (s.executes L (.swr 14 a) →
      (v ≤ 4 → Completes s L (.swr 14 a) id fun w => { w with wpart := v }) ∧
      (4 < v → exec (.swr 14 a) s = .next (s.trap L 1 0))) ∧
    (s.executes L (.swr 16 a) →
      (v ≤ 4 → Completes s L (.swr 16 a) id fun w => { w with frm := v }) ∧
      (4 < v → exec (.swr 16 a) s = .next (s.trap L 1 0))) ∧
    (∀ i < 4, s.executes L (.swr (BitVec.ofNat 7 (21 + i)) a) → Completes s L (.swr (BitVec.ofNat 7 (21 + i)) a)
      (fun u => u.addPending { id := 0, dests := [(.rng i, 0)], val := (u.v a).toNat }) id) ∧
    (s.executes L (.wpart imm) → imm.toNat ≤ 4 → Completes s L (.wpart imm) id fun w => { w with wpart := imm.toNat }) ∧
    (s.issue = some L → L.exec ≠ [] → 4 < imm.toNat → exec (.wpart imm) s = .next (s.trap L 1 0))

end Sys2Proof.Claims

/-- SMOV reads every special register, and SWR and WPART write those that may be written. -/
def Obligations.SpecialRegisters : Prop :=
    Claims.SpecialRegistersRead ∧
    Claims.SpecialRegistersWritten

namespace Sys2Proof.Claims

/-- MJOIN, MLEAVE, MSET, MREAD and MWAIT (R142, R143, R183). -/
def LaneMaskEffects : Prop :=
  ∀ (s : State) (L : Latch) (d a : Reg),
    let bits := BitVec.ofNat 32 (laneMask (s.lanes L))
    let low := match (s.lanes L).head? with | some u => u.v a | none => 0
    (s.executes L (.mjoin d) → Completes s L (.mjoin d) id fun w =>
      { w with masks := w.masks.set d.toNat (w.masks.getD d.toNat 0 ||| bits) }) ∧
    (s.executes L (.mleave d) → Completes s L (.mleave d) id fun w =>
      { w with masks := w.masks.set d.toNat (w.masks.getD d.toNat 0 &&& ~~~bits) }) ∧
    (s.executes L (.mset d a) → Completes s L (.mset d a) id fun w => { w with masks := w.masks.set d.toNat low }) ∧
    (∀ w, s.warp? L.core L.warp = some w → Writes32 s L (.mread d a) d fun _ => w.masks.getD a.toNat 0) ∧
    (s.executes L (.mwait d) → Completes s L (.mwait d) (fun u => { u with status := .parked (.mwait d.toNat) }) id)

/-- TJOIN, TLEAVE, WREGRP and GROUTE (R150, R182, R188, R190). -/
def TeamInstructions : Prop :=
  ∀ (s : State) (L : Latch) (d a : Reg),
    (s.executes L (.wregrp d a) → Completes s L (.wregrp d a)
      (fun u => if (u.v a).toNat ≤ 63 ∧ (u.v a).toNat ∈ u.teams
        then { u with status := .parked (.wregrp (u.v a).toNat (u.wb + d.toNat)) } else Thread.willWrite d 1 0 0 u) id) ∧
    (s.executes L (.tleave d a) → exec (.tleave d a) s = .next ((((s.advance L).lanes L).foldl (fun t u =>
        if (u.v a).toNat ≠ 255 ∧ (u.v a).toNat ∈ u.teams then (t.leaveTeam L.core u.slot (u.v a).toNat).answerLane L.core u.slot d 0
        else t.answerLane L.core u.slot d 0xFFFFFFFD) (s.advance L)).finish (.tleave d a) L)) ∧
    (s.executes L (.tjoin d a) →
      (∀ u ∈ (s.advance L).lanes L, u.v a ≠ 0xFFFFFFFF ∨ u.inFour) →
      exec (.tjoin d a) s = .next ((((s.advance L).lanes L).foldl (fun t u =>
        (t.tjoinLane L.core u.slot (u.v a).toNat none).2.answerLane L.core u.slot d (t.tjoinLane L.core u.slot (u.v a).toNat none).1)
        (s.advance L)).finish (.tjoin d a) L)) ∧
    (s.executes L (.tjoin d a) → (∃ t, exec (.tjoin d a) s = .next t)) ∧
    (∀ (c k v : Nat) (made : Option Nat) (u : Thread), s.thread? c k = some u →
      (v = 0xFFFFFFFF → made = none → s.tjoinLane c k v made = (0xFFFFFFFF, s)) ∧
      (v ≠ 0xFFFFFFFF → s.team? c v = none → s.tjoinLane c k v made = (0xFFFFFFFD, s)) ∧
      (∀ t, s.team? c v = some t → v < 64 →
        (∃ m ∈ t.members, ∃ x, s.thread? c m = some x ∧ x.task = u.task) →
        (k ∈ t.members → s.tjoinLane c k v made = (v, s)) ∧
        (k ∉ t.members → u.inFour = true → s.tjoinLane c k v made = (0xFFFFFFFE, s)) ∧
        (k ∉ t.members → u.inFour = false → s.tjoinLane c k v made = (v, s.joinTeam c k v)))) ∧
    (s.executes L (.groute d a) →
      let lanes := (s.advance L).lanes L
      (∀ u ∈ lanes, ∀ g, s.member u (u.v a).toNat ≠ .unstarted g) →
      exec (.groute d a) s = .next ((lanes.foldl (fun t u => t.answerLane L.core u.slot d
        (match s.member u (u.v a).toNat with
          | .absent => 0xFFFFFFFF
          | .at_ c _ => (routeTo s.goneUnits L.core c).toNat
          | .unstarted _ => 0)) (s.advance L)).finish (.groute d a) L))

end Sys2Proof.Claims

/-- The mask, regroup, route and team instructions. -/
def Obligations.MasksAndTeams : Prop :=
    Claims.LaneMaskEffects ∧
    Claims.TeamInstructions

namespace Sys2Proof.Claims

/-- The forms of classes 5 and 6 that round once, in the mode held in frm: which operands they read, at which width, and where
the result and the flags go (R191, R194, R201). -/
def RoundedFloatForms : Prop :=
  ∀ (s : State) (L : Latch) (d a b : Reg),
    let rm := s.roundingOf L
    let lo := fun (x : Word) => x.toNat % 2 ^ 16
    let gives := fun (i : Instr) (n : Nat) (f : Thread → Fr) => s.executes L i →
      Completes s L i (fun u => Thread.willWrite d n (f u).1 (f u).2 u) id
    gives (.faddF32 d a b) 1 (fun u => Fp.add .f32 rm (u.v a).toNat (u.v b).toNat) ∧
    gives (.faddF16 d a b) 1 (fun u => Fp.add .f16 rm (lo (u.v a)) (lo (u.v b))) ∧
    gives (.faddBf16 d a b) 1 (fun u => Fp.add .bf16 rm (lo (u.v a)) (lo (u.v b))) ∧
    gives (.faddF64 d a b) 2 (fun u => Fp.add .f64 rm (u.vv a).toNat (u.vv b).toNat) ∧
    gives (.fsubF32 d a b) 1 (fun u => Fp.sub .f32 rm (u.v a).toNat (u.v b).toNat) ∧
    gives (.fsubF16 d a b) 1 (fun u => Fp.sub .f16 rm (lo (u.v a)) (lo (u.v b))) ∧
    gives (.fsubBf16 d a b) 1 (fun u => Fp.sub .bf16 rm (lo (u.v a)) (lo (u.v b))) ∧
    gives (.fsubF64 d a b) 2 (fun u => Fp.sub .f64 rm (u.vv a).toNat (u.vv b).toNat) ∧
    gives (.fmulF32 d a b) 1 (fun u => Fp.mul .f32 rm (u.v a).toNat (u.v b).toNat) ∧
    gives (.fmulF16 d a b) 1 (fun u => Fp.mul .f16 rm (lo (u.v a)) (lo (u.v b))) ∧
    gives (.fmulBf16 d a b) 1 (fun u => Fp.mul .bf16 rm (lo (u.v a)) (lo (u.v b))) ∧
    gives (.fmulF64 d a b) 2 (fun u => Fp.mul .f64 rm (u.vv a).toNat (u.vv b).toNat) ∧
    gives (.ffmaF32 d a b) 1 (fun u => Fp.fma .f32 rm (u.v a).toNat (u.v b).toNat (u.v d).toNat) ∧
    gives (.ffmaF16 d a b) 1 (fun u => Fp.fma .f16 rm (lo (u.v a)) (lo (u.v b)) (lo (u.v d))) ∧
    gives (.ffmaBf16 d a b) 1 (fun u => Fp.fma .bf16 rm (lo (u.v a)) (lo (u.v b)) (lo (u.v d))) ∧
    gives (.ffmaF64 d a b) 2 (fun u => Fp.fma .f64 rm (u.vv a).toNat (u.vv b).toNat (u.vv d).toNat) ∧
    gives (.fdiv d a b) 1 (fun u => Fp.div .f32 rm (u.v a).toNat (u.v b).toNat) ∧
    gives (.fdivF64 d a b) 2 (fun u => Fp.div .f64 rm (u.vv a).toNat (u.vv b).toNat) ∧
    gives (.fsqrt d a) 1 (fun u => Fp.sqrt .f32 rm (u.v a).toNat) ∧
    gives (.fsqrtF64 d a) 2 (fun u => Fp.sqrt .f64 rm (u.vv a).toNat) ∧
    gives (.fscale d a b) 1 (fun u => Fp.scale .f32 rm (u.v a).toNat (u.v b).toInt) ∧
    gives (.fscaleF64 d a b) 2 (fun u => Fp.scale .f64 rm (u.vv a).toNat (u.v b).toInt) ∧
    (∀ ty : FmtA, gives (.hfma2 ty d a b) 1 (fun u =>
      let fma := fun (k : Nat) => Fp.fma (fmtA ty) rm ((u.v a).extractLsb' k 16).toNat ((u.v b).extractLsb' k 16).toNat
        ((u.v d).extractLsb' k 16).toNat
      ((fma 0).1 + 2 ^ 16 * (fma 16).1, (fma 0).2 ||| (fma 16).2)))

/-- FRND and DOT4 complete with the values and flags of their operations on bit patterns (R199, R202). -/
def UnroundedFloatForms : Prop :=
  ∀ (s : State) (L : Latch) (d a b : Reg),
    let gives := fun (i : Instr) (n : Nat) (f : Thread → Fr) => s.executes L i →
      Completes s L i (fun u => Thread.willWrite d n (f u).1 (f u).2 u) id
    gives (.frndRne d a) 1 (fun u => Fp.integral .f32 .rne (u.v a).toNat) ∧
    gives (.frndRz d a) 1 (fun u => Fp.integral .f32 .rz (u.v a).toNat) ∧
    gives (.frndRd d a) 1 (fun u => Fp.integral .f32 .rd (u.v a).toNat) ∧
    gives (.frndRu d a) 1 (fun u => Fp.integral .f32 .ru (u.v a).toNat) ∧
    (∀ r : FRnd, gives (.frndF64 r d a) 2 (fun u => Fp.integral .f64 (FRnd.rnd r) (u.vv a).toNat)) ∧
    gives (.dot4E4m3 d a b) 1 (fun u => Fp.dot4 .e4m3 (u.v d).toNat (u.v a).toNat (u.v b).toNat) ∧
    gives (.dot4E5m2 d a b) 1 (fun u => Fp.dot4 .e5m2 (u.v d).toNat (u.v a).toNat (u.v b).toNat) ∧
    Writes32 s L (.dot4I8 d a b) d (fun u =>
      let p := fun (k : Nat) => ((u.v a).extractLsb' k 8).signExtend 32 * ((u.v b).extractLsb' k 8).signExtend 32
      u.v d + p 0 + p 8 + p 16 + p 24)

/-- The value (−1)^n m 2^e as a multiple of 2^h, for h at or below e. -/
def multiple (h : Int) (n : Bool) (m : Nat) (e : Int) : Int := (if n then -1 else 1) * (m * 2 ^ (e - h).toNat : Int)

/-- The exact result t 2^h, rounded once; an exact zero has the sign `zero`. -/
def delivers (f : Fmt) (r : Rnd) (t h : Int) (zero : Bool) : Fr :=
  if t = 0 then (f.signed zero 0, 0) else Fp.ofNum f r (.fin (decide (t < 0)) t.natAbs h)

/-- The exact result (−1)^n c 2^h, rounded once, or with `more` one whose magnitude lies between c 2^h and (c + 1) 2^h: where c has two bits more
than the format, all those round as the middle does. -/
def deliversNear (f : Fmt) (r : Rnd) (n : Bool) (c : Nat) (h : Int) (more : Bool) : Fr :=
  if more then Fp.ofNum f r (.fin n (2 * c + 1) (h - 1)) else Fp.ofNum f r (.fin n c h)

/-- The magnitude m 2^e rounded to an integer in a mode, for the sign n. -/
def roundedInteger (r : Rnd) (n : Bool) (m : Nat) (e : Int) : Nat :=
  if 0 ≤ e then m * 2 ^ e.toNat
  else
    let d := 2 ^ (-e).toNat
    let q := m / d
    let x := m % d
    let up := match r with
      | .rz => false
      | .rd => n && x != 0
      | .ru => !n && x != 0
      | .rne => decide (d < 2 * x ∨ d = 2 * x ∧ q % 2 = 1)
      | .rna => decide (d ≤ 2 * x)
    if up then q + 1 else q

/-- The operations of R194 deliver the exact result of their operands, rounded once: sum, difference, product, fused multiply-add,
quotient, square root and scaling by a power of two; a zero sum has the sign of R191 step 6. -/
def ArithmeticIsExact : Prop :=
  ∀ (f : Fmt) (r : Rnd) (a b c : Nat) (n m e k p g),
    Fp.decode f a = .fin n m e → Fp.decode f b = .fin k p g →
    (let h := min e g
     Fp.add f r a b = delivers f r (multiple h n m e + multiple h k p g) h (n && k || n != k && r == .rd)) ∧
    (∀ b', Fp.decode f b' = .fin (!k) p g → Fp.sub f r a b' = Fp.add f r a b) ∧
    Fp.mul f r a b = Fp.ofNum f r (.fin (n ^^ k) (m * p) (e + g)) ∧
    (∀ j q i, Fp.decode f c = .fin j q i →
      let h := min (e + g) i
      let s := n ^^ k
      Fp.fma f r a b c = delivers f r (multiple h s (m * p) (e + g) + multiple h j q i) h (s && j || s != j && r == .rd)) ∧
    (0 < p → m = 0 → Fp.div f r a b = (f.signed (n ^^ k) 0, 0)) ∧
    (0 < p → 0 < m → ∃ d : Nat, 2 ^ (f.fb + 2) ≤ m * 2 ^ d / p ∧
      Fp.div f r a b = deliversNear f r (n ^^ k) (m * 2 ^ d / p) (e - g - d) (m * 2 ^ d % p != 0)) ∧
    (0 < m → n = false → ∃ (q d : Nat) (h : Int), 2 * h = e - d ∧ 2 ^ (f.fb + 2) ≤ q ∧
      q * q ≤ m * 2 ^ d ∧ m * 2 ^ d < (q + 1) * (q + 1) ∧ Fp.sqrt f r a = deliversNear f r false q h (q * q != m * 2 ^ d)) ∧
    ∀ x : Int, Fp.scale f r a x = Fp.ofNum f r (.fin n m (e + x))

/-- What NaNs, infinities and zeros give (R191, R194, R24): an operand that is a NaN gives the canonical NaN, with NV if one signals; 0 × ∞, ∞ − ∞, 0 ÷ 0,
∞ ÷ ∞ and the root of a value below zero give it with NV, 0 × ∞ even beside a NaN addend; a finite value other than 0 over 0 sets DZ. -/
def SpecialOperands : Prop :=
  ∀ (f : Fmt) (r : Rnd) (a b c : Nat),
    let x := Fp.decode f a
    let y := Fp.decode f b
    let z := Fp.decode f c
    let nan := fun (sig : Bool) => (f.nan, flagIf sig fNV)
    let inf := fun (n : Bool) => (f.signed n f.inf, 0#7)
    let zeroTimesInf := (∃ n k e, x = .inf n ∧ y = .fin k 0 e) ∨ ∃ n k e, x = .fin n 0 e ∧ y = .inf k
    (x.isNan ∨ y.isNan → ∀ op ∈ [Fp.add, Fp.sub, Fp.mul, Fp.div], op f r a b = nan (x.isSig || y.isSig)) ∧
    (x.isNan → Fp.sqrt f r a = nan x.isSig ∧ ∀ k : Int, Fp.scale f r a k = nan x.isSig) ∧
    (zeroTimesInf → Fp.mul f r a b = nan true ∧ Fp.fma f r a b c = nan true) ∧
    (¬ zeroTimesInf → x.isNan ∨ y.isNan ∨ z.isNan → Fp.fma f r a b c = nan (x.isSig || y.isSig || z.isSig)) ∧
    (∀ n, x = .inf n →
      (∀ k, y = .inf k →
        Fp.add f r a b = (if n = k then inf n else nan true) ∧ Fp.sub f r a b = (if n = k then nan true else inf n) ∧
        Fp.mul f r a b = inf (n ^^ k) ∧ Fp.div f r a b = nan true) ∧
      (∀ k p g, y = .fin k p g →
        Fp.add f r a b = inf n ∧ Fp.sub f r a b = inf n ∧ Fp.div f r a b = inf (n ^^ k) ∧
        (0 < p → Fp.mul f r a b = inf (n ^^ k))) ∧
      Fp.sqrt f r a = (if n then nan true else inf false) ∧ ∀ k : Int, Fp.scale f r a k = inf n) ∧
    (∀ n m e k, x = .fin n m e → y = .inf k →
      Fp.add f r a b = inf k ∧ Fp.sub f r a b = inf (!k) ∧ Fp.div f r a b = (f.signed (n ^^ k) 0, 0) ∧
      (0 < m → Fp.mul f r a b = inf (n ^^ k))) ∧
    (∀ n m e k g, x = .fin n m e → y = .fin k 0 g →
      Fp.div f r a b = if m = 0 then nan true else (f.signed (n ^^ k) f.inf, fDZ)) ∧
    (∀ n m e, x = .fin n m e → (m = 0 → Fp.sqrt f r a = (f.signed n 0, 0)) ∧ (0 < m → n = true → Fp.sqrt f r a = nan true)) ∧
    (∀ n m e k p g, x = .fin n m e → y = .fin k p g → ∀ j, z = .inf j → Fp.fma f r a b c = inf j) ∧
    ∀ s, Sys2Proof.Machine.Num.mul x y = some (.inf s) → (∀ j q i, z = .fin j q i → Fp.fma f r a b c = inf s) ∧
      ∀ j, z = .inf j → Fp.fma f r a b c = if s = j then inf s else nan true

/-- FRND delivers the operand rounded to an integer in its mode, without a flag (R199), and DOT4 the exact sum of its products and
its accumulator, rounded once to nearest (R202). -/
def IntegralsAndDotProducts : Prop :=
  (∀ (f : Fmt) (r : Rnd) (a : Nat),
    (∀ sig, Fp.decode f a = .nan sig → Fp.integral f r a = (f.nan, flagIf sig fNV)) ∧
    (∀ n, Fp.decode f a = .inf n → Fp.integral f r a = (f.signed n f.inf, 0)) ∧
    ∀ n m e, Fp.decode f a = .fin n m e →
      (0 ≤ e → Fp.integral f r a = (a % 2 ^ f.width, 0)) ∧
      (e < 0 → Fp.integral f r a = ((Fp.ofNum f .rne (.fin n (roundedInteger r n m e) 0)).1, 0))) ∧
  ∀ (f : Fmt) (d a b : Nat),
    let xs := fun (i : Nat) => Fp.decode f (a / 256 ^ i % 256)
    let ys := fun (i : Nat) => Fp.decode f (b / 256 ^ i % 256)
    let z := Fp.decode .f32 d
    (z.isNan ∨ (∃ i < 4, (xs i).isNan ∨ (ys i).isNan) → (∀ i < 4, Sys2Proof.Machine.Num.mul (xs i) (ys i) ≠ none) →
      Fp.dot4 f d a b = (0x7FC00000, flagIf (z.isSig || (List.range 4).any fun i => (xs i).isSig || (ys i).isSig) fNV)) ∧
    (z.isNan = false → (∀ i < 4, (xs i).isNan = false ∧ (ys i).isNan = false) → (∃ i < 4, Sys2Proof.Machine.Num.mul (xs i) (ys i) = none) →
      Fp.dot4 f d a b = (0x7FC00000, fNV)) ∧
    ∀ (n : Bool) (m : Nat) (e : Int) (sx sy : Nat → Bool) (mx my : Nat → Nat) (ex ey : Nat → Int),
      z = .fin n m e → (∀ i < 4, xs i = .fin (sx i) (mx i) (ex i) ∧ ys i = .fin (sy i) (my i) (ey i)) →
      ∃ h : Int, h ≤ e ∧ (∀ i < 4, h ≤ ex i + ey i) ∧
        let term := fun (i : Nat) => multiple h (sx i ^^ sy i) (mx i * my i) (ex i + ey i)
        Fp.dot4 f d a b = delivers .f32 .rne (multiple h n m e + term 0 + term 1 + term 2 + term 3) h
          (n && (List.range 4).all fun i => sx i ^^ sy i)

/-- The FP64 arithmetic forms take the FP64 unit of their pipe for 2 cycles (R193): a word of theirs that passes its checks in the
cycle after one of the same pipe is not accepted, and one that completes leaves its pipe and its cycle for the next. -/
def Fp64UnitsAreTakenForTwoCycles : Prop :=
  ∀ (s : State) (L : Latch) (d a b : Reg),
    ∀ i ∈ [Instr.faddF64 d a b, .fsubF64 d a b, .fmulF64 d a b, .ffmaF64 d a b, .fminF64 d a b, .fmaxF64 d a b, .fdivF64 d a b,
        .fsqrtF64 d a, .fscaleF64 d a b],
      (s.issue = some L → s.check i L = none → ∀ n, s.dev.cycle = n + 1 → (2 * L.core + L.warp % 2, n) ∈ s.fp64 →
        Stalls s L i s) ∧
      (s.executes L i → ∃ t, exec i s = .next t ∧ (2 * L.core + L.warp % 2, s.dev.cycle) ∈ t.fp64)

end Sys2Proof.Claims

/-- The float forms of classes 5 and 6 complete with the values of their operations, those deliver the exact result rounded once, and FP64
words follow one another in every other cycle. -/
def Obligations.FloatForms : Prop :=
    Claims.RoundedFloatForms ∧
    Claims.UnroundedFloatForms ∧
    Claims.ArithmeticIsExact ∧
    Claims.SpecialOperands ∧
    Claims.IntegralsAndDotProducts ∧
    Claims.Fp64UnitsAreTakenForTwoCycles

/-- FNEG flips the sign bit, FABS clears it, and FSEL writes only the lanes whose predicate is set (R196). -/
def Obligations.SignBitsAndSelection : Prop :=
  ∀ (s : State) (L : Latch) (d a b : Reg),
    Writes32 s L (.fnegF32 d a) d (fun u => u.v a ^^^ 0x80000000) ∧
    Writes32 s L (.fnegF16 d a) d (fun u => (u.v a &&& 0xFFFF) ^^^ 0x8000) ∧
    Writes32 s L (.fnegBf16 d a) d (fun u => (u.v a &&& 0xFFFF) ^^^ 0x8000) ∧
    Writes64 s L (.fnegF64 d a) d (fun u => u.vv a ^^^ 0x8000000000000000) ∧
    Writes32 s L (.fabsF32 d a) d (fun u => u.v a &&& 0x7FFFFFFF) ∧
    Writes32 s L (.fabsF16 d a) d (fun u => u.v a &&& 0x7FFF) ∧
    Writes32 s L (.fabsBf16 d a) d (fun u => u.v a &&& 0x7FFF) ∧
    Writes64 s L (.fabsF64 d a) d (fun u => u.vv a &&& 0x7FFFFFFFFFFFFFFF) ∧
    (s.executes L (.fsel d a b) → Completes s L (.fsel d a b)
      (fun u => if u.pred b.toNat then Thread.willWrite d 1 (u.v a).toNat 0 u else u) id)

namespace Sys2Proof.Claims

/-- The class bits of FCLASS, from the sign, exponent and fraction of the format (R198). -/
def classBit (sign expOnes expZero fracZero quiet : Bool) : Nat :=
  if expOnes then (if fracZero then (if sign then 0 else 7) else if quiet then 9 else 8)
  else if expZero then (if fracZero then (if sign then 3 else 4) else if sign then 2 else 5)
  else if sign then 1 else 6

end Sys2Proof.Claims

/-- FCLASS sets exactly the bit of its operand's class (R198). -/
def Obligations.FloatClasses : Prop :=
  (∀ x : BitVec 32, Fp.classify .f32 x.toNat =
    2 ^ Claims.classBit (x.getLsbD 31) (x.extractLsb' 23 8 == 0xFF) (x.extractLsb' 23 8 == 0) (x.extractLsb' 0 23 == 0) (x.getLsbD 22)) ∧
  (∀ x : BitVec 64, Fp.classify .f64 x.toNat =
    2 ^ Claims.classBit (x.getLsbD 63) (x.extractLsb' 52 11 == 0x7FF) (x.extractLsb' 52 11 == 0) (x.extractLsb' 0 52 == 0) (x.getLsbD 51)) ∧
  ∀ (s : State) (L : Latch) (d a : Reg),
    (s.executes L (.fclass d a) → Completes s L (.fclass d a) (fun u => Thread.willWrite d 1 (Fp.classify .f32 (u.v a).toNat) 0 u) id) ∧
    (s.executes L (.fclassF64 d a) → Completes s L (.fclassF64 d a)
      (fun u => Thread.willWrite d 1 (Fp.classify .f64 (u.vv a).toNat) 0 u) id)

/-- FMIN and FMAX order −0 below +0 and pass over one NaN; FCMP orders by value, −0 equal to +0; a NaN sets NV as R195 and R197
say, and no other flag is set. -/
def Obligations.FloatComparison : Prop :=
  (∀ (s : State) (L : Latch) (d a b : Reg),
    let lo := fun (x : Word) => x.toNat % 2 ^ 16
    let gives := fun (i : Instr) (n : Nat) (f : Thread → Fr) => s.executes L i →
      Completes s L i (fun u => Thread.willWrite d n (f u).1 (f u).2 u) id
    let sets := fun (i : Instr) (f : Thread → Bool × BitVec 7) => s.executes L i →
      Completes s L i (fun u => Thread.willSet d (f u).1 (f u).2 u) id
    gives (.fminF32 d a b) 1 (fun u => Fp.minMax .f32 false (u.v a).toNat (u.v b).toNat) ∧
    gives (.fminF16 d a b) 1 (fun u => Fp.minMax .f16 false (lo (u.v a)) (lo (u.v b))) ∧
    gives (.fminBf16 d a b) 1 (fun u => Fp.minMax .bf16 false (lo (u.v a)) (lo (u.v b))) ∧
    gives (.fminF64 d a b) 2 (fun u => Fp.minMax .f64 false (u.vv a).toNat (u.vv b).toNat) ∧
    gives (.fmaxF32 d a b) 1 (fun u => Fp.minMax .f32 true (u.v a).toNat (u.v b).toNat) ∧
    gives (.fmaxF16 d a b) 1 (fun u => Fp.minMax .f16 true (lo (u.v a)) (lo (u.v b))) ∧
    gives (.fmaxBf16 d a b) 1 (fun u => Fp.minMax .bf16 true (lo (u.v a)) (lo (u.v b))) ∧
    gives (.fmaxF64 d a b) 2 (fun u => Fp.minMax .f64 true (u.vv a).toNat (u.vv b).toNat) ∧
    (∀ c : FCond, sets (.fcmp c d a b) (fun u => Fp.cmp .f32 c (u.v a).toNat (u.v b).toNat)) ∧
    (∀ c : FCond, sets (.fcmpF64 c d a b) (fun u => Fp.cmp .f64 c (u.vv a).toNat (u.vv b).toNat))) ∧
  ∀ (f : Fmt) (a b : Nat),
    let x := Fp.decode f a
    let y := Fp.decode f b
    let order := Sys2Proof.Machine.Num.cmp x y
    let below := order == .lt || (order == .eq && x.neg && !y.neg)
    let nv := flagIf (x.isSig || y.isSig) fNV
    (x.isNan → y.isNan → ∀ m, Fp.minMax f m a b = (f.nan, nv)) ∧
    (x.isNan → ¬ y.isNan → ∀ m, Fp.minMax f m a b = (b % 2 ^ f.width, nv)) ∧
    (¬ x.isNan → y.isNan → ∀ m, Fp.minMax f m a b = (a % 2 ^ f.width, nv)) ∧
    (¬ x.isNan → ¬ y.isNan →
      Fp.minMax f false a b = ((if below then a else b) % 2 ^ f.width, 0) ∧
      Fp.minMax f true a b = ((if below then b else a) % 2 ^ f.width, 0)) ∧
    (∀ c : FCond, (x.isNan ∨ y.isNan →
        (Fp.cmp f c a b).1 = (c == .ne || c == .un) ∧
        (Fp.cmp f c a b).2 = flagIf (x.isSig || y.isSig || c == .lt || c == .le || c == .gt || c == .ge) fNV) ∧
      (¬ x.isNan → ¬ y.isNan → (Fp.cmp f c a b).2 = 0 ∧ (Fp.cmp f c a b).1 = (match c with
        | .eq => order == .eq | .ne => order != .eq | .lt => order == .lt | .le => order != .gt
        | .gt => order == .gt | .ge => order != .lt | .un => false | .ord => true))) ∧
    (∀ m p (e : Int) n q (g h : Int), x = .fin m p e → y = .fin n q g → h ≤ e → h ≤ g →
      order = compare ((if m then -1 else 1) * (p * 2 ^ (e - h).toNat : Int)) ((if n then -1 else 1) * (q * 2 ^ (g - h).toNat : Int))) ∧
    (∀ n, x = .inf n → (∀ m, y = .inf m → order = if n = m then .eq else if n then .lt else .gt) ∧
      (∀ m q g, y = .fin m q g → order = if n then .lt else .gt)) ∧
    (∀ n m p e, y = .inf n → x = .fin m p e → order = if n then .gt else .lt)

/-- Rounding: a value that the format holds is delivered as it is, without a flag, in every mode; a NaN gives the canonical NaN
of R24 and sets NV if it signals; values between two neighbours of two bits more than the format are delivered alike; to nearest, no value of
the format lies nearer than the one delivered (R24, R191). -/
def Obligations.RoundingDeliversNearest : Prop :=
  ∀ (f : Fmt) (r : Rnd),
    (∀ p n m e, p < 2 ^ f.width → Fp.decode f p = .fin n m e → Fp.ofNum f r (.fin n m e) = (p, 0)) ∧
    (∀ sig, Fp.ofNum f r (.nan sig) = (f.nan, flagIf sig fNV)) ∧
    (∀ (n : Bool) (c i j : Nat) (h : Int), 2 ^ (f.fb + 2) ≤ c → 0 < i → i < 2 ^ j →
      Fp.ofNum f r (.fin n (c * 2 ^ j + i) (h - j)) = Fp.ofNum f r (.fin n (2 * c + 1) (h - 1))) ∧
    (∀ (n : Bool) (m : Nat) (e : Int) p fl, 0 < m → Fp.ofNum f .rne (.fin n m e) = (p, fl) → fl &&& fOF = 0 →
      ∃ m' e', Fp.decode f p = .fin n m' e' ∧
        ∀ q k u v (h : Int), Fp.decode f q = .fin k u v → h ≤ e → h ≤ e' → h ≤ v →
          let at_ := fun (neg : Bool) (c : Nat) (x : Int) => (if neg then -1 else 1) * (c * 2 ^ (x - h).toNat : Int)
          (at_ n m e - at_ n m' e').natAbs ≤ (at_ n m e - at_ k u v).natAbs)

/-- The approximate functions: what each executing lane receives, a free value where the enclosure of the model does not decide it (assumption
log 6); FRCP and FRSQ are the exact value rounded to nearest, FEXP2 of an integral value and FLOG2 of a power of two are exact, results of FEXP2
beyond range are +∞ and +0, and the special cases are those of Table 10-3 (R200). -/
def Obligations.ApproximateFunctions : Prop :=
  (∀ (s : State) (L : Latch) (d a : Reg),
    ∀ p ∈ [(Instr.frcp d a, Fp.rcp), (.frsq d a, Fp.rsq), (.fexp2 d a, Fp.exp2), (.flog2 d a, Fp.log2),
        (.fsin d a, Fp.sinCos false), (.fcos d a, Fp.sinCos true), (.ftanh d a, Fp.tanh)],
      s.executes L p.1 →
      exec p.1 s = .next ((((s.advance L).lanes L).foldl (fun t u =>
        match (p.2 (u.v a).toNat).1 with
        | some n => t.updThread L.core u.slot fun x => x.addPending (x.result d.toNat 1 n (p.2 (u.v a).toNat).2)
        | none => t.free.2.updThread L.core u.slot fun x =>
            x.addPending (x.result d.toNat 1 (t.free.1.toNat % 2 ^ 32) (p.2 (u.v a).toNat).2)) (s.advance L)).finish p.1 L)) ∧
  (∀ f ∈ [Fp.rcp, Fp.rsq, Fp.exp2, Fp.log2, Fp.sinCos false, Fp.sinCos true, Fp.tanh], ∀ x, (Fp.decode .f32 x).isNan →
    f x = (some 0x7FC00000, flagIf (Fp.decode .f32 x).isSig fNV)) ∧
  (∀ x n m e, Fp.decode .f32 x = .fin n m e → 0 < m →
    (∃ k : Nat, 2 ^ 25 ≤ 2 ^ k / m ∧
      Fp.rcp x = (some (Claims.deliversNear .f32 .rne n (2 ^ k / m) (-e - k) (2 ^ k % m != 0)).1, 0)) ∧
    (n = false → ∃ (q k : Nat) (h : Int), 2 * h = -e - k ∧ 2 ^ 25 ≤ q ∧ q * q * m ≤ 2 ^ k ∧ 2 ^ k < (q + 1) * (q + 1) * m ∧
      Fp.rsq x = (some (Claims.deliversNear .f32 .rne false q h (q * q * m != 2 ^ k)).1, 0)) ∧
    (n = false → ∀ k : Nat, m = 2 ^ k → Fp.log2 x = (some (Fp.ofNum .f32 .rne (Num.ofInt (e + k))).1, 0))) ∧
  (∀ x n m e (i : Int), Fp.decode .f32 x = .fin n m e → Claims.multiple (min e 0) n m e = i * 2 ^ (0 - min e 0).toNat → -150 ≤ i → i ≤ 127 →
    Fp.exp2 x = (some (Fp.ofNum .f32 .rne (.fin false 1 i)).1, 0)) ∧
  (∀ x n m e, Fp.decode .f32 x = .fin n m e →
    (128 * 2 ^ (0 - min e 0).toNat ≤ Claims.multiple (min e 0) n m e → Fp.exp2 x = (some 0x7F800000, 0)) ∧
    (Claims.multiple (min e 0) n m e ≤ -151 * 2 ^ (0 - min e 0).toNat → Fp.exp2 x = (some 0, 0))) ∧
  Fp.rcp 0x00000000 = (some 0x7F800000, fDZ) ∧ Fp.rcp 0x80000000 = (some 0xFF800000, fDZ) ∧
  Fp.rcp 0x7F800000 = (some 0, 0) ∧ Fp.rcp 0xFF800000 = (some 0x80000000, 0) ∧
  Fp.rsq 0x00000000 = (some 0x7F800000, fDZ) ∧ Fp.rsq 0x80000000 = (some 0xFF800000, fDZ) ∧ Fp.rsq 0x7F800000 = (some 0, 0) ∧
  Fp.exp2 0xFF800000 = (some 0, 0) ∧ Fp.exp2 0x7F800000 = (some 0x7F800000, 0) ∧
  Fp.log2 0x00000000 = (some 0xFF800000, fDZ) ∧ Fp.log2 0x80000000 = (some 0xFF800000, fDZ) ∧
  Fp.log2 0x7F800000 = (some 0x7F800000, 0) ∧
  (∀ x n m e, Fp.decode .f32 x = .fin n m e → n → 0 < m → Fp.rsq x = (some 0x7FC00000, fNV) ∧ Fp.log2 x = (some 0x7FC00000, fNV)) ∧
  (∀ c, Fp.sinCos c 0x7F800000 = (some 0x7FC00000, fNV) ∧ Fp.sinCos c 0xFF800000 = (some 0x7FC00000, fNV)) ∧
  Fp.sinCos false 0 = (some 0, 0) ∧ Fp.sinCos false 0x80000000 = (some 0x80000000, 0) ∧
  Fp.sinCos true 0 = (some 0x3F800000, 0) ∧ Fp.sinCos true 0x80000000 = (some 0x3F800000, 0) ∧
  Fp.tanh 0x7F800000 = (some 0x3F800000, 0) ∧ Fp.tanh 0xFF800000 = (some 0xBF800000, 0) ∧
  Fp.tanh 0 = (some 0, 0) ∧ Fp.tanh 0x80000000 = (some 0x80000000, 0)

/-- CVT, CVTX and CVTQ complete; a float is delivered in the other format rounded once, FP8 with the range handling of R29, an integer is
rounded and saturated, an integer converts to a float rounded once and to an integer by its low bits, and Tables 10-5 and 10-6 hold
(R203 to R208). -/
def Obligations.Conversions : Prop :=
  (∀ (s : State) (L : Latch) (d a b : Reg) (x : Bool) (dst src : NumTy) (r : RndSel) (y : XTy) (n : BitVec 2),
    let mode := match r with | .dyn => s.roundingOf L | .rne => .rne | .rz => .rz | .rd => .rd | .ru => .ru | .rna => .rna
    let opnd := fun (u : Thread) => if src.is64 then (u.vv a).toNat else (u.v a).toNat
    let w := xBits y
    let gives := fun (i : Instr) (k : Nat) (f : Thread → Fr) => s.executes L i →
      Completes s L i (fun u => Thread.willWrite d k (f u).1 (f u).2 u) id
    gives (.cvt x dst src r d a) (if dst.is64 then 2 else 1) (fun u => Fp.cvt x dst src mode (opnd u)) ∧
    gives (.cvtxIns y n r d a) 1 (fun u =>
      let c := Fp.cvt false (xNum y) .f32 mode (u.v a).toNat
      (insertElem w n.toNat (u.v d).toNat c.1, c.2)) ∧
    gives (.cvtxExt y n d a) 1 (fun u => Fp.cvt false .f32 (xNum y) .rne ((u.v a).toNat / 2 ^ (w * n.toNat) % 2 ^ w)) ∧
    gives (.cvtqDec d a b) 1 (fun u => Fp.cvtqDec (u.v a).toNat (u.v b).toNat) ∧
    gives (.cvtqEnc d a b) 1 (fun u => Fp.cvtqEnc (u.v a).toNat (u.v b).toNat)) ∧
  (∀ (x : Bool) (dst src : NumTy) (r : Rnd) (a : Nat),
    (∀ fs fd, (NumTy.fmt src) = some fs → (NumTy.fmt dst) = some fd →
      let v := Fp.decode fs a
      let o := Fp.ofNum fd r v
      (fd ≠ .e4m3 → fd ≠ .e5m2 → Fp.cvt x dst src r a = o) ∧
      (fd = .e4m3 ∨ fd = .e5m2 →
        (∀ sig, v = .nan sig → Fp.cvt x dst src r a = (fd.nan, flagIf sig fNV)) ∧
        (∀ n, v = .inf n → Fp.cvt x dst src r a = match fd, x with
          | .e4m3, true => (fd.nan, fNV)
          | .e4m3, false => (fd.signed n fd.maxFin, fNV)
          | _, true => (fd.signed n fd.maxFin, fNV)
          | _, false => (fd.signed n fd.inf, 0)) ∧
        ∀ n m e, v = .fin n m e → Fp.cvt x dst src r a = if o.2 &&& fOF = 0 then o else match fd, x with
          | .e4m3, true => (fd.nan, fOF ||| fNX)
          | .e4m3, false => (fd.signed n fd.maxFin, fOF ||| fNX)
          | _, true => (fd.signed n fd.maxFin, fOF ||| fNX)
          | _, false => o)) ∧
    (∀ fs, (NumTy.fmt src) = some fs → (NumTy.fmt dst) = none →
      let w := (NumTy.int dst).2
      let lo : Int := if (NumTy.int dst).1 then -(2 ^ (w - 1)) else 0
      let hi : Int := if (NumTy.int dst).1 then 2 ^ (w - 1) - 1 else 2 ^ w - 1
      let put := fun (i : Int) => extendInt (NumTy.int dst).1 w (i % 2 ^ w).toNat
      (∀ sig, Fp.decode fs a = .nan sig → Fp.cvt x dst src r a = (0, fNV)) ∧
      (∀ n, Fp.decode fs a = .inf n → Fp.cvt x dst src r a = (put (if n then lo else hi), fNV)) ∧
      ∀ n m e, Fp.decode fs a = .fin n m e →
        let i : Int := (if n then -1 else 1) * (Claims.roundedInteger r n m e : Int)
        Fp.cvt x dst src r a =
          if i < lo then (put lo, fNV) else if hi < i then (put hi, fNV)
          else (put i, flagIf (decide (e < 0 ∧ m % 2 ^ (-e).toNat ≠ 0)) fNX)) ∧
    (∀ fd, (NumTy.fmt src) = none → (NumTy.fmt dst) = some fd → fd ≠ .e4m3 → fd ≠ .e5m2 →
      Fp.cvt x dst src r a = Fp.ofNum fd r (Num.ofInt (if (NumTy.int src).1 then sintN (NumTy.int src).2 a else (a % 2 ^ (NumTy.int src).2 : Nat))))) ∧
  (∀ (r : Rnd) (v : Word),
    Fp.cvt false .i8 .i32 r v.toNat = (((v.setWidth 8).signExtend 32).toNat, 0) ∧
    Fp.cvt false .n8 .i32 r v.toNat = (((v.setWidth 8).setWidth 32).toNat, 0) ∧
    Fp.cvt false .i16 .n32 r v.toNat = (((v.setWidth 16).signExtend 32).toNat, 0) ∧
    Fp.cvt false .n16 .n32 r v.toNat = (((v.setWidth 16).setWidth 32).toNat, 0) ∧
    Fp.cvt false .i64 .i32 r v.toNat = ((v.signExtend 64).toNat, 0) ∧
    Fp.cvt false .n64 .i8 r v.toNat = (((v.setWidth 8).signExtend 64).toNat, 0) ∧
    Fp.cvt false .i32 .n16 r v.toNat = (((v.setWidth 16).setWidth 32).toNat, 0)) ∧
  Fp.cvt false .e4m3 .f32 .rne 0x3DCCCCCD = (0x1D, fNX) ∧ Fp.cvt false .e4m3 .f32 .rne 0x43FA0000 = (0x7E, fOF ||| fNX) ∧
  Fp.cvt true .e4m3 .f32 .rne 0x43FA0000 = (0x7F, fOF ||| fNX) ∧ Fp.cvt false .e5m2 .f32 .rne 0x43FA0000 = (0x60, fNX) ∧
  Fp.cvt false .f16 .f32 .rne 0x477FF000 = (0x7C00, fOF ||| fNX) ∧ Fp.cvt false .f16 .f32 .rz 0x477FF000 = (0x7BFF, fNX) ∧
  Fp.cvt false .bf16 .f32 .rne 0x3F808000 = (0x3F80, fNX) ∧ Fp.cvt false .i32 .f32 .rne 0x40200000 = (2, fNX) ∧
  Fp.cvt false .i32 .f32 .rna 0x40200000 = (3, fNX) ∧ Fp.cvt false .i32 .f32 .rne 0x4F32D05E = (0x7FFFFFFF, fNV) ∧
  Fp.cvtqEnc 0x41200000 0x62 = (4, fNX) ∧ Fp.cvtqDec 4 0x62 = (0x41000000, 0) ∧
  Fp.cvtqEnc 0x41A00000 0xE2 = (4, fNX) ∧ Fp.cvtqDec 4 0xE2 = (0x41800000, 0) ∧
  Fp.cvtqEnc 0xC2200000 0x22 = (9, fOF ||| fNX) ∧ Fp.cvtqDec 9 0x22 = (0xC1E00000, 0) ∧
  Fp.cvtqEnc 0xC0800000 0x10822 = (7, 0) ∧ Fp.cvtqDec 7 0x10822 = (0xC0800000, 0)

namespace Sys2Proof.Claims

/-- FLAGR reads fsr as it stands, and FLAGC clears at issue the flags that the lowest executing lane names; a flag posted in the same
cycle is set behind it (R209). -/
def FlagRegisterAccess : Prop :=
  ∀ (s : State) (L : Latch) (d a : Reg),
    (∀ w, s.warp? L.core L.warp = some w → Writes32 s L (.flagr d) d fun _ => w.fsr.setWidth 32) ∧
    (∀ u, (s.lanes L).head? = some u → s.executes L (.flagc a) → Completes s L (.flagc a) id fun w =>
      { w with fsr := (w.fsr &&& ~~~((u.v a).setWidth 7)) ||| w.posted })

/-- RNG: the output and the next state of the generator, lane by lane, at issue (R210). -/
def RandomNumbers : Prop :=
  (∀ (s : State) (L : Latch) (d : Reg), s.executes L (.rng d) → Completes s L (.rng d) (fun u =>
    let w := fun (i : Nat) => u.rng.extractLsb' (32 * i) 32
    let out := (w 1 * 5).rotateLeft 7 * 9
    let t := w 1 <<< 9
    let s2 := w 2 ^^^ w 0
    let s3 := w 3 ^^^ w 1
    let s1 := w 1 ^^^ s2
    let s0 := w 0 ^^^ s3
    let s2 := s2 ^^^ t
    let s3 := s3.rotateLeft 11
    { Thread.willWrite d 1 out.toNat 0 u with rng := s3 ++ s2 ++ s1 ++ s0 }) id) ∧
  rngStep 0 = (0, 0) ∧ rngStep (4#32 ++ 3#32 ++ 2#32 ++ 1#32) = (11520, 12288#32 ++ 1026#32 ++ 0#32 ++ 7#32)

/-- RNGSEED sets the state of each executing lane from its seed and its stream number (R211). -/
def RandomSeeds : Prop :=
  ∀ (s : State) (L : Latch) (a b : Reg), s.executes L (.rngseed a b) → Completes s L (.rngseed a b) (fun u =>
    let mix := fun (x : BitVec 64) =>
      let z := (x ^^^ (x >>> 30)) * 0xBF58476D1CE4E5B9
      let z := (z ^^^ (z >>> 27)) * 0x94D049BB133111EB
      z ^^^ (z >>> 31)
    let x0 := u.vv a ^^^ ((u.v b).setWidth 64 * 0xD1B54A32D192ED03)
    let x1 := x0 + 0x9E3779B97F4A7C15
    let x2 := x1 + 0x9E3779B97F4A7C15
    let g := mix x1
    let h := mix x2
    let s0 : Word := if g = 0 ∧ h = 0 then 1 else g.extractLsb' 0 32
    { u with rng := h.extractLsb' 32 32 ++ h.extractLsb' 0 32 ++ g.extractLsb' 32 32 ++ s0 }) id

end Sys2Proof.Claims

/-- FLAGR, FLAGC, RNG and RNGSEED. -/
def Obligations.FlagsAndRandomNumbers : Prop :=
    Claims.FlagRegisterAccess ∧
    Claims.RandomNumbers ∧
    Claims.RandomSeeds

namespace Sys2Proof.Claims

/-- LD and ST (R225, R229, R232): lanes that violate the private window stop, and the others load into vD or store their data at
their memory operand. -/
def LoadsAndStores : Prop :=
  ∀ (s : State) (L : Latch) (w : Width) (d a : Reg) (imm : Imm),
    let n := Width.bytes w
    let lanes := (s.advance L).lanes L
    let good := lanes.filter fun u => !(s.advance L).windowBad u (u.addr a imm) n
    let bad := lanes.filter fun u => (s.advance L).windowBad u (u.addr a imm) n
    (∀ q : LdReq, s.executes L (.ld q w d a imm) →
      Accesses s L (.ld q w d a imm) .read (accessesOf good a imm n) fun go t =>
        (good.filter go).foldl (fun t u => t.loadLane L.core u.slot q (u.addr a imm) n (u.rowsFrom d.toNat (widthN w)))
          (t.stopAll L bad)) ∧
    (∀ q : StReq, s.executes L (.st q w d a imm) →
      Accesses s L (.st q w d a imm) .write (accessesOf good a imm n) fun go t =>
        (good.filter go).foldl (fun t u => t.storeLane L.core u.slot q (u.addr a imm) n (u.storeData d (widthN w) n) 0)
          (t.stopAll L bad)) ∧
    (∀ q : LdReq, s.executes L (.ld q w d a imm) → bad = [] →
      (s.advance L).untranslated L.core .read (accessesOf good a imm n) = [] →
      Leaves s L (.ld q w d a imm) fun u v => v.regs = u.regs ∧ ∃ p ∈ v.pending, p.dests = u.rowsFrom d.toNat (widthN w)) ∧
    (∀ q : StReq, s.executes L (.st q w d a imm) → bad = [] → (∀ u ∈ lanes, u.relScope = none) →
      (s.advance L).untranslated L.core .write (accessesOf good a imm n) = [] →
      Leaves s L (.st q w d a imm) fun u v => v.regs = u.regs ∧ v.pending = u.pending)

/-- LD and ST complete (R229, R232): where no lane violates the private window and every access has its translation, the step answers the
state in which each executing lane has loaded into vD, or stored its data, in ascending lane order, and the group passes. -/
def LoadsAndStoresComplete : Prop :=
  ∀ (s : State) (L : Latch) (w : Width) (d a : Reg) (imm : Imm),
    let n := Width.bytes w
    let u0 := s.advance L
    let lanes := u0.lanes L
    (∀ u ∈ lanes, u0.windowBad u (u.addr a imm) n = false) →
    (∀ q : LdReq, s.executes L (.ld q w d a imm) → u0.untranslated L.core .read (accessesOf lanes a imm n) = [] →
      exec (.ld q w d a imm) s = .next ((lanes.foldl (fun t u =>
        t.loadLane L.core u.slot q (u.addr a imm) n (u.rowsFrom d.toNat (widthN w))) u0).finish (.ld q w d a imm) L)) ∧
    (∀ q : StReq, s.executes L (.st q w d a imm) → u0.untranslated L.core .write (accessesOf lanes a imm n) = [] →
      exec (.st q w d a imm) s = .next ((lanes.foldl (fun t u =>
        t.storeLane L.core u.slot q (u.addr a imm) n (u.storeData d (widthN w) n) 0) u0).finish (.st q w d a imm) L)) ∧
    (∀ q : LdReq, s.executes L (.ld q w d a imm) → u0.untranslated L.core .read (accessesOf lanes a imm n) = [] →
      Leaves s L (.ld q w d a imm) fun u v => v.regs = u.regs ∧ ∃ p ∈ v.pending, p.dests = u.rowsFrom d.toNat (widthN w))

/-- One part of a load or a store of global memory (R214, R215, R232, R348): a load is answered in the L1 when it may be and the words
are there, an ordered one or one of the .own kind only where the core owns them, and else sent to the home of its page; a store is made in
the L1 when the core owns its words and nothing holds it back, and else sent. Neither writes a byte of memory. -/
def PartsOfAccesses : Prop :=
  ∀ (s : State) (c k ctx : Nat) (l : Leaf) (va n : Nat) (x : With) (u : Thread), s.thread? c k = some u → x.count = 0 →
    let key := l.key va
    (∀ (q : LdReq) (ordered : Bool) (id shift : Nat),
      let t := s.loadPart c k ctx l q ordered x id va n shift
      let held := s.overlaps c k key n = true ∨ s.acquiring c k = true
      let inL1 := s.mem.l1Value c key n (ordered || l.ldTy q == .own)
      (∀ a, Memory.read t.mem.cells a = Memory.read s.mem.cells a) ∧
      (l.ldTy q ≠ .nc → ¬ held → ∀ v, inL1 = some v →
        t.mem.reqs = s.mem.reqs ∧ ∀ x, t.thread? c k = some x → x.pending =
          u.pending.map fun p => if p.id = id then { p with val := p.val + v * 256 ^ shift } else p) ∧
      (l.ldTy q = .nc ∨ held ∨ inL1 = none →
        ∃ r, t.mem.reqs = s.mem.reqs ++ [r] ∧ r.core = c ∧ r.slot = k ∧ r.key = key ∧ r.width = n ∧ r.home = l.home ∧
          r.pend = id ∧ r.shift = shift ∧
          r.kind = .load (if x.na ∧ l.ldTy q = .si then .na else l.ldTy q) ordered)) ∧
    (∀ (kind : ReqKind) (v : Nat), kind.isLoad = false →
      let t := s.storePart c k ctx l kind va n v 0 x
      let mine := kind = .storeOwn ∧ s.overlaps c k key n = false ∧ s.acquiring c k = false ∧ x.rel = none ∧ x.pin = none ∧
        (∀ w ∈ wordKeys key n, s.mem.watched w = false) ∧
        ∀ w ∈ wordKeys key n, s.mem.owner? w = some (0, c) ∧ (s.mem.l1? c w).isSome
      (∀ a, Memory.read t.mem.cells a = Memory.read s.mem.cells a) ∧
      (mine → t = { s with mem := (s.mem.storeL1 c key n v).note c (some k) (wordKeys key n) }) ∧
      (¬ mine → ∃ r, t.mem.reqs = s.mem.reqs ++ [r] ∧ t.mem.l1 = s.mem.l1 ∧ r.core = c ∧ r.slot = k ∧ r.kind = kind ∧ r.key = key ∧
        r.width = n ∧ r.data = v ∧ r.home = l.home ∧ r.rel = x.rel ∧ r.pin = x.pin))

end Sys2Proof.Claims

/-- LD and ST, and the parts of an access. -/
def Obligations.LoadsAndStores : Prop :=
    Claims.LoadsAndStores ∧
    Claims.LoadsAndStoresComplete ∧
    Claims.PartsOfAccesses

namespace Sys2Proof.Claims

/-- LDS, STS, LDX and STX (R124, R221, R222, R233, R234). -/
def ScratchpadAccesses : Prop :=
  ∀ (s : State) (L : Latch) (w : Width) (b : Bool) (d a : Reg) (imm : Imm),
    let u0 := s.advance L
    let lanes := u0.lanes L
    (s.executes L (.lds w d a imm) → Ends s L (.lds w d a imm) (lanes.foldl (fun t u =>
      t.scratchLoad L u u.task (u.offset a imm) (Width.bytes w) (u.rowsFrom d.toNat (widthN w))) u0)) ∧
    (s.executes L (.sts w d a imm) → Ends s L (.sts w d a imm) (lanes.foldl (fun t u =>
      t.scratchStore L u u.task (u.offset a imm) (Width.bytes w) (u.storeData d (widthN w) (Width.bytes w))) u0)) ∧
    (∀ i ∈ [Instr.ldx b d a imm, .stx b d a imm], s.executes L i → ∀ t0, u0.lowest L = some t0 →
      (u0.member t0 imm.toNat = .absent → Traps s L i 8 t0.lane) ∧
      (∀ g, u0.member t0 imm.toNat = .unstarted g → Ends s L i (u0.parkAll L (.member g imm.toNat))) ∧
      (∀ core task, u0.member t0 imm.toNat = .at_ core task →
        (∀ t, u0.badRoute L (a + 1) core = some t → Traps s L i 8 t.lane) ∧
        (u0.badRoute L (a + 1) core = none → Ends s L i (lanes.foldl (fun t u =>
          if i = .ldx b d a imm
          then t.scratchLoad L u task (u.v a).toNat (4 * pairN b) (u.rowsFrom d.toNat (pairN b))
          else t.scratchStore L u task (u.v a).toNat (4 * pairN b) (u.storeData d (pairN b) (4 * pairN b))) u0))))

/-- One lane's access to a scratchpad (R221 to R223, R233): an access beyond the allocation or not aligned to its width stops the
thread; a load that touches an empty line parks it; a store leaves the full/empty bits, writes its bytes and no others. -/
def ScratchpadLanes : Prop :=
  ∀ (s : State) (L : Latch) (t : Thread) (task o n v : Nat) (dests : List (Dest × Nat)), 0 < n →
    let x := s.scratch task
    let bad := o % n ≠ 0 ∨ 128 * x.lines < o + n
    (bad → s.scratchLoad L t task o n dests = s.stopThread L.core t.slot ∧
      s.scratchStore L t task o n v = s.stopThread L.core t.slot) ∧
    (¬ bad → ∀ l, x.emptyLine o n = some l → o / 128 ≤ l ∧ l ≤ (o + n - 1) / 128 ∧ l ∉ x.full ∧
      s.scratchLoad L t task o n dests = s.parkReplay L t.slot (.line task l)) ∧
    (¬ bad → (∀ l, o / 128 ≤ l → l ≤ (o + n - 1) / 128 → l ∈ x.full) →
      s.scratchLoad L t task o n dests = s.updThread L.core t.slot fun u => u.addPending { id := 0, dests := dests, val := x.read o n }) ∧
    (¬ bad → s.scratchStore L t task o n v = s.updScratch task fun x => x.write o n v) ∧
    (Memory.wf x.bytes = true → (x.write o n v).read o n = v % 256 ^ n ∧ (x.write o n v).full = x.full ∧
      ∀ a, a < o ∨ o + n ≤ a → Memory.read (x.write o n v).bytes a = Memory.read x.bytes a)

end Sys2Proof.Claims

/-- LDS, STS, LDX and STX. -/
def Obligations.ScratchpadAccesses : Prop :=
    Claims.ScratchpadAccesses ∧
    Claims.ScratchpadLanes

namespace Sys2Proof.Claims

/-- What a compaction word is: its instruction, the kind of its accesses, and what its rank does at an address (R257, R258). -/
def compaction (L : Latch) (w : Bool) (d a b : Reg) (store : Bool) : Instr × Access × (With → State → Thread → Nat → State) :=
  let sz := 4 * pairN w
  if store then
    (.cstore w d a b, .write, fun x t u va => t.storeLane L.core u.slot .dflt va sz (u.opnd w (a.toNat + 2)) 0 x)
  else (.xpand w d a b, .read, fun x t u va => t.loadLane L.core u.slot .dflt va sz (u.rowsFrom (a.toNat + 2) (pairN w)) x)

/-- CSTORE and XPAND (R257, R258): the lanes whose pB is set have ranks in ascending lane order; rank r stores or loads its operand at
pair(vA) of rank 0 plus r times the width, one rank behind another. Where every rank may access its address the instruction completes:
every executing lane receives the number of ranks once all of them have been performed. -/
def CompactionCompletes : Prop :=
  ∀ (s : State) (L : Latch) (w : Bool) (d a b : Reg) (store : Bool),
    let (i, kind, f) := compaction L w d a b store
    let u0 := s.advance L
    let (id, u1) := u0.newId
    let sz := 4 * pairN w
    let ts := (u0.lanes L).filter fun u => u.pred b.toNat
    let va := fun (r : Nat) => ((match ts.head? with | some u => (u.vv a).toNat | none => 0) + r * sz) % 2 ^ 64
    s.executes L i → (∀ u ∈ u0.lanes L, u.midway = none ∧ u.relScope = none) → s.mem.pins = [] →
    (∀ r u, ts[r]? = some u → u0.windowBad u (va r) sz = false ∧ ∀ e ∈ LaneAcc.ends { slot := u.slot, va := va r, width := sz },
      (windowOff e).isSome ∨ (u0.xlate u.core (u0.ctxOf u) e kind (u0.privileged u)).isSome) →
    exec i s = .next (((ts.zipIdx.foldl (fun t x => f { count := id, lanes := L.exec } t x.1 (va x.2)) u1).countRanks L d id ts.length).finish i L) ∧
    ∀ (t : State) (n : Nat), ∀ k u, t.thread? L.core k = some u → (t.countRanks L d id n).thread? L.core k = some
      (if k ∈ L.exec ∧ u.live = true then
        (let parts := (t.mem.reqs.filter fun r => r.core == L.core && r.count == id).length
         { u.addPending { id := id, parts := parts, dests := u.rowsFrom d.toNat 1, val := n } with midway := none })
       else u)

/-- What stops the ranks of a compaction (R257, R258, R137). From the rank that an earlier attempt of the same participants reached (assumption log
75), each rank is performed once those before it are past every pin. A rank in a pinned grain holds the word there. A rank that violates
the private window stops its thread, and the ranks below it count. A rank whose translation faults writes one record: the ranks below it count,
and every executing lane parks, not to issue the word again, while the record is not yet written; a full table holds the word. -/
def CompactionStops : Prop :=
  ∀ (s : State) (L : Latch) (w : Bool) (d a b : Reg) (store : Bool) (m : Midway) (u1 : State),
    let (i, kind, f) := compaction L w d a b store
    let u0 := s.advance L
    let sz := 4 * pairN w
    let ts := (u0.lanes L).filter fun u => u.pred b.toNat
    let base := match ts.head? with | some u => (u.vv a).toNat | none => 0
    let earlier := ((u0.lanes L).findSome? fun u => u.midway).filter fun m => m.lanes == ts.map fun (u : Thread) => u.lane
    let g := f { count := m.id, lanes := L.exec }
    let held := fun (k : Nat) (t : State) => t.mapExec L fun u => { u with midway := some { m with ranks := k } }
    s.executes L i →
    (earlier = some m ∧ u1 = u0 ∨
      earlier = none ∧ m = { id := u0.newId.1, lanes := ts.map fun (u : Thread) => u.lane } ∧ u1 = u0.newId.2) →
    let ends := u1.ranks kind base sz m.id g m.ranks (ts.drop m.ranks)
    (∀ k t, ends = (k, .all, t) → Ends s L i (t.countRanks L d m.id k)) ∧
    (∀ k t, ends = (k, .wait, t) → exec i s = .next (s.hold (held k t) L)) ∧
    (∀ k t u, ends = (k, .violation, t) → ts[k]? = some u → Ends s L i ((t.stopThread L.core u.slot).countRanks L d m.id k)) ∧
    (∀ k t u va kind' reason, ends = (k, .fault va kind' reason, t) → ts[k]? = some u →
      let e : Miss :=
        { die := coreDie L.core, num := 0, ctx := t.ctxOf u, page := va / 2 ^ 16, kind := kind', unpriv := !t.privileged u,
          write := kind' == .write, waiters := [], reason := reason, va := va, pc := L.first.toNat, task := t.taskNum u,
          core := L.core, slot := u.slot }
      (t.faultEntry e (.lane L.core u.slot 0) = none → exec i s = .next (s.hold (held k t) L)) ∧
      ∀ n t', t.faultEntry e (.lane L.core u.slot 0) = some (n, t') →
        let waiting := (t'.lanes L).foldl (fun t x => t.updMiss e.die n fun y =>
          { y with waiters := if y.waiters.contains (.lane L.core x.slot 0) then y.waiters else y.waiters ++ [.lane L.core x.slot 0] }) t'
        Ends s L i ((waiting.countRanks L d m.id k).mapExec L fun x => { x with status := .parked (.fault e.die n true) })) ∧
    ∀ (r : Nat) (t : State) (u : Thread) (rest : List Thread),
      let va := (base + r * sz) % 2 ^ 64
      let at_ := t.ranks kind base sz m.id g r (u :: rest)
      let reached := t.reach u kind (LaneAcc.ends { slot := u.slot, va := va, width := sz })
      let behind := ∃ q ∈ t.mem.reqs, q.core = u.core ∧ q.count = m.id ∧ t.mem.retry (some u.core) q.key q.width = true
      t.ranks kind base sz m.id g r [] = (r, .all, t) ∧
      (behind → at_ = (r, .wait, t)) ∧
      (¬ behind → t.windowBad u va sz = true → at_ = (r, .violation, t)) ∧
      (¬ behind → t.windowBad u va sz = false →
        (reached = .retry → at_ = (r, .wait, t)) ∧
        (∀ x kind' reason t', reached = .fault x kind' reason t' → at_ = (r, .fault x kind' reason, t')) ∧
        ∀ t', reached = .ok t' → at_ = if t'.rankRetry u va sz then (r, .wait, t') else (g t' u va).ranks kind base sz m.id g (r + 1) rest)

end Sys2Proof.Claims

/-- CSTORE and XPAND: where they complete, and what stops their ranks. -/
def Obligations.Compaction : Prop :=
    Claims.CompactionCompletes ∧
    Claims.CompactionStops

namespace Sys2Proof.Claims

/-- PREF, CWB, CINV, CWBINV and ICINV act for one executing lane after another, and a lane that a pin holds back issues its word again
(R235, R236, R237). A range operation is sent once the lane's earlier accesses are performed, and is performed at a moment of its own, no later
than the lane's next fence that waits for everything; ranges of several lanes are sent in ascending lane order (assumption log 53). PREF
writes no register, leaves no result outstanding and sends no request, and where no L1 word is written and no word is owned, no byte of
memory is written. -/
def CacheInstructions : Prop :=
  ∀ (s : State) (L : Latch) (sc : Scope) (d a b : Reg) (imm : Imm),
    let u0 := s.advance L
    let lanes := u0.lanes L
    (s.executes L (.pref d a imm) →
      Ends s L (.pref d a imm) (lanes.foldl (fun t u => t.prefetch d.toNat (u.addr a imm) u) u0)) ∧
    (∀ x ∈ [(Instr.cwb sc a b, RangeOp.cwb), (.cinv sc a b, .cinv), (.cwbinv sc a b, .cwbinv), (.icinv sc a b, .icinv)],
      s.executes L x.1 → Ends s L x.1 (u0.eachLane L lanes fun t u => t.rangeLane x.2 sc a b u)) ∧
    (∀ (op : RangeOp) (u : Thread) (t t' : State), t.drainAll u.core u.slot = some t' →
      t.rangeLane op sc a b u = (t'.rangeKeys (t'.ctxOf u) (u.vv a).toNat ((u.vv a).toNat + (u.v b).toNat)
        ((u.v b).toNat / 2 ^ 16 + 2)).map fun x =>
          let r : RangeReq := { id := x.2.newId.1, core := u.core, slot := u.slot, ctx := x.2.ctxOf u, op := op, scope := sc,
                                va := (u.vv a).toNat, size := (u.v b).toNat, runs := x.1 }
          { x.2.newId.2 with mem := { x.2.mem with ranges := x.2.mem.ranges ++ [r] } }) ∧
    (∀ (op : RangeOp) (u : Thread) (t : State), t.drainAll u.core u.slot = none → t.rangeLane op sc a b u = none) ∧
    (∀ (m : MemSys) (r : RangeReq), m.performRange r =
      { m.rangeOp r.op r.core r.scope r.runs with ranges := m.ranges.filter fun x => x.id != r.id }) ∧
    (∀ (t t' : State) (c k : Nat), t.drainAll c k = some t' → ∀ r ∈ t'.mem.ranges, ¬ (r.core = c ∧ r.slot = k)) ∧
    ∀ (t : State) (u : Thread) (level va : Nat),
      let p := t.prefetch level va u
      p.threads = t.threads ∧ p.warps = t.warps ∧ p.mem.reqs = t.mem.reqs ∧
      ((∀ x ∈ t.mem.l1, x.written = false) → t.mem.owners = [] → p.mem.cells = t.mem.cells)

/-- What a range operation does to the caches and to memory (Table 12-2, R235): it writes back dirty words of its core that lie in a
grain that the range touches, and no other byte of memory changes; CINV and CWBINV leave none of these words in the L1 but those in
grains that the core holds pinned; CWB leaves none dirty; ICINV drops the instructions of the range from the caches of its scope. -/
def RangeOperations : Prop :=
  ∀ (m : MemSys) (op : RangeOp) (c : Nat) (sc : Scope) (rs : List KeyRun),
    let t := m.rangeOp op c sc rs
    (∀ a, Memory.wf m.cells = true →
      (∀ x ∈ m.l1, x.core = c → x.written = true → m.inRange c rs x = true → a < x.key ∨ x.key + 4 ≤ a) →
      Memory.read t.cells a = Memory.read m.cells a) ∧
    (op = .cinv ∨ op = .cwbinv → ∀ x ∈ t.l1, x.core = c → m.inRange c rs x = true →
      ∃ p ∈ m.pins, p.core = c ∧ p.covers x.key = true) ∧
    (op = .cwb → 3 ≤ Scope.ord sc → ∀ x ∈ t.l1, x.core = c → m.inRange c rs x = true → x.written = false) ∧
    (op = .cwb ∨ op = .icinv → t.pins = m.pins ∧ t.owners = m.owners ∧
      t.rdc.map (fun x => (x.unit, x.key)) = m.rdc.map fun x => (x.unit, x.key)) ∧
    (op = .icinv → t.cells = m.cells ∧ t.l1 = m.l1 ∧
      ∀ x, x ∈ t.icache ↔ x ∈ m.icache ∧ ¬ (partly rs x.key 4 = true ∧ (match sc with
        | .thread | .team | .core => x.unit = c
        | .cluster => coreCluster x.unit = coreCluster c
        | .die => coreDie x.unit = coreDie c
        | .pkg | .sys => True)))

end Sys2Proof.Claims

/-- PREF, CWB, CINV, CWBINV and ICINV. -/
def Obligations.CacheAndRangeInstructions : Prop :=
    Claims.CacheInstructions ∧
    Claims.RangeOperations

/-- LENSLD, LENSINV and LENSQ (R49, R50, R51, R238, R239, R240). A LENSLD or LENSINV on a loading entry parks before its other checks
(assumption log 58); a LENSQ of selector 64 answers with the state and the references of its entry, also of a loading one. -/
def Obligations.LensInstructions : Prop :=
  ∀ (s : State) (L : Latch) (d a : Reg) (imm : Imm),
    let u0 := s.advance L
    let ctx := u0.latchCtx L
    let e := u0.lens ctx imm.toNat
    let job := u0.teamJob L.core (u0.lanes L) ctx imm.toNat = true
    (∀ i ∈ [Instr.lensld a imm, .lensinv imm], s.executes L i → e.state = .loading → u0.lowest L ≠ none →
      Ends s L i (u0.parkAll L (.lens ctx imm.toNat))) ∧
    (s.executes L (.lensld a imm) → e.state ≠ .loading → ∀ t, u0.lowest L = some t →
      let va := (t.vv a).toNat / 64 * 64
      (job → Traps s L (.lensld a imm) 12 0) ∧
      (¬ job → windowOff va = none →
        u0.untranslated L.core .read ((u0.lanes L).map fun u => { slot := u.slot, va := va, width := 64 }) = [] →
        (∀ v s', u0.orderedLoad L.core t.slot t va ((upTo 8).map fun k => (8 * k, 8)) = .val v s' →
          let ws := wordsOfNat 16 v
          ((Lens.ofWords ws).recordOk (s'.meshLive ctx) = true → Ends s L (.lensld a imm) (s'.startLoad L e (some ws))) ∧
          ((Lens.ofWords ws).recordOk (s'.meshLive ctx) = false → Traps s L (.lensld a imm) 12 0)) ∧
        (u0.orderedLoad L.core t.slot t va ((upTo 8).map fun k => (8 * k, 8)) = .wait →
          Ends s L (.lensld a imm) (u0.parkAll L .retry)))) ∧
    (s.executes L (.lensinv imm) →
      (e.state = .empty → Completes s L (.lensinv imm) id id) ∧
      (e.state = .loaded → job → Traps s L (.lensinv imm) 12 0) ∧
      (e.state = .loaded → ¬ job → Ends s L (.lensinv imm) (u0.startLoad L e none))) ∧
    (s.executes L (.lensq d a imm) → e.state ≠ .loading → Leaves s L (.lensq d a imm) fun u v =>
      let sel := (u.v a).toNat
      ∃ p ∈ v.pending, p.dests = u.rowsFrom d.toNat 1 ∧ p.val =
        (if sel = 64 then (if e.state = .loaded then 1 else 0) + 65536 * Nat.min 65535 (s.lensRefs ctx imm.toNat)
         else if sel < 64 ∧ sel % 4 = 0 then (if e.state = .loaded then (e.snap.getD (sel / 4) 0).toNat else 0)
         else 0xFFFFFFFF)) ∧
    (s.executes L (.lensq d a imm) → e.state = .loading →
      Ends s L (.lensq d a imm) ((u0.lanes L).foldl (fun t u =>
        if (u.v a).toNat = 64 then t.answerLane L.core u.slot d (2 + 65536 * Nat.min 65535 (t.lensRefs ctx imm.toNat))
        else t.parkReplay L u.slot (.lens ctx imm.toNat)) u0))

namespace Sys2Proof.Claims

/-- COPY, COPYS and COPYM (R241 to R246): the checks in their order, and the entries that they place at the tail of their channel. A channel that
holds 16 entries takes none of the word; one that has room for some of its lanes takes their entries, and the word waits for the rest with
the lens of its issue. A lane of a COPYM that names a member which has not started parks until it has (R245). -/
def CopyInstructions : Prop :=
  ∀ (s : State) (L : Latch) (q : BitVec 2) (d a : Reg) (imm : Imm),
    let u0 := s.advance L
    let args := fun (many : Bool) => (u0.lanes L).map fun u => u.copyArg d a many
    let fresh := ∀ u ∈ u0.lanes L, u.midway = none
    let checked := fun (i : Instr) (many : Bool) (ok : Lens → Bool) (P : Lens → List Word → Prop) =>
      s.executes L i → fresh → NeedsLens s L i imm.toNat fun l snap =>
        let reserved := ∃ x ∈ args many, badCtl x.ctl = true
        let malformed := l.cmp = true ∨ l.isLut = true ∨ (l.isQ4 = true ∧ ∃ x ∈ args many, copyTy x.ctl = none) ∨ ok l = false
        (reserved → Traps s L i 1 0) ∧
        (¬ reserved → malformed → Traps s L i 12 0) ∧
        (¬ reserved → ¬ malformed → P l snap)
    let places := fun (i : Instr) (many : Bool) (snap : List Word) (place : State → CopyArg → State) =>
      let full := 16 ≤ u0.queued L.core (.q q.toNat)
      (full → Stalls s L i u0) ∧
      (¬ full → ∀ t, u0.placeLanes L q.toNat snap place (args many) = .done t → Ends s L i t) ∧
      (¬ full → ∀ t, u0.placeLanes L q.toNat snap place (args many) = .hold t → exec i s = .next (s.hold t L))
    let completes := fun (i : Instr) (many : Bool) (snap : List Word) (place : State → CopyArg → State) =>
      u0.queued L.core (.q q.toNat) < 16 → u0.queued L.core (.q q.toNat) + (u0.lanes L).length ≤ 16 →
      Ends s L i (((args many).foldl (fun t x => (place t x).updThread L.core x.t.slot fun u =>
        { u with midway := if u.status == .eligible then some { placed := true, snap := snap } else none }) u0).mapExec L
          fun u => { u with midway := none })
    let one := fun (op : CopyOp) (l : Lens) (snap : List Word) (t : State) (x : CopyArg) => t.placeCopy L q.toNat l imm.toNat snap op x [x.t.task]
    let each := fun (l : Lens) (snap : List Word) (t : State) (x : CopyArg) =>
      match t.unstarted x.t x.mask with
      | some (g, m) => t.parkReplay L x.t.slot (.member g m)
      | none => match t.receivers x.t x.mask with
        | some rs => t.placeCopy L q.toNat l imm.toNat snap (.copym x.mask) x (rs.map (·.1))
        | none => t
    checked (.copy q d a imm) false (fun _ => true) (fun l snap =>
      places (.copy q d a imm) false snap (one .copy l snap) ∧
      ((∀ x ∈ args false, u0.copyBad l x [x.t.task] = false) → completes (.copy q d a imm) false snap (one .copy l snap))) ∧
    checked (.copys q d a imm) false (fun l => !l.isQ4 && !l.ro) (fun l snap =>
      places (.copys q d a imm) false snap (one .copys l snap) ∧
      ((∀ x ∈ args false, u0.copyBad l x [x.t.task] = false) → completes (.copys q d a imm) false snap (one .copys l snap))) ∧
    checked (.copym q d a imm) true (fun _ => true) (fun l snap =>
      let stray := fun (x : CopyArg) => x.mask == 0 || decide (2 ^ u0.gangSize x.t ≤ x.mask)
      (∀ x, (args true).find? stray = some x → Traps s L (.copym q d a imm) 8 x.t.lane) ∧
      ((∀ x ∈ args true, stray x = false) →
        places (.copym q d a imm) true snap (each l snap) ∧
        ((∀ x ∈ args true, ∃ rs, u0.unstarted x.t x.mask = none ∧ u0.receivers x.t x.mask = some rs ∧ u0.copyBad l x (rs.map (·.1)) = false) →
          completes (.copym q d a imm) true snap (each l snap)))) ∧
    (∀ (t : State) (snap : List Word) (place : State → CopyArg → State) (x : CopyArg) (xs : List CopyArg),
      let again := ∃ m, x.t.midway = some m ∧ m.placed = true
      t.placeLanes L q.toNat snap place [] = .done (t.mapExec L fun u => { u with midway := none }) ∧
      (again → t.placeLanes L q.toNat snap place (x :: xs) = t.placeLanes L q.toNat snap place xs) ∧
      (¬ again → 16 ≤ t.queued L.core (.q q.toNat) → t.placeLanes L q.toNat snap place (x :: xs) = .hold (t.mapExec L fun u =>
        if u.status == .eligible then { u with midway := some (u.midway.getD { snap := snap }) } else u)) ∧
      (¬ again → t.queued L.core (.q q.toNat) < 16 → t.placeLanes L q.toNat snap place (x :: xs) =
        ((place t x).updThread L.core x.t.slot fun u =>
          { u with midway := if u.status == .eligible then some { placed := true, snap := snap } else none }).placeLanes L q.toNat snap place xs)) ∧
    (∀ (m : Midway), s.executes L (.copy q d a imm) → ((u0.lanes L).findSome? fun u => u.midway) = some m →
      let l := Lens.ofWords m.snap
      (∀ x ∈ args false, badCtl x.ctl = false) → l.cmp = false → l.isLut = false → (l.isQ4 = true → ∀ x ∈ args false, copyTy x.ctl ≠ none) →
      places (.copy q d a imm) false m.snap (one .copy l m.snap)) ∧
    ∀ (t : State) (l : Lens) (snap : List Word) (op : CopyOp) (x : CopyArg) (tasks : List Nat),
      let bytes := l.tileCount * l.sz (copyTy x.ctl)
      let beyond := x.off % l.sz (copyTy x.ctl) ≠ 0 ∨ ∃ k ∈ tasks, 128 * (t.scratch k).lines < x.off + bytes
      (beyond → t.placeCopy L q.toNat l imm.toNat snap op x tasks = t.stopThread L.core x.t.slot) ∧
      (¬ beyond → ∃ e, (t.placeCopy L q.toNat l imm.toNat snap op x tasks).eng.queue = t.eng.queue ++ [e] ∧ e.core = L.core ∧
        e.warp = L.warp ∧ e.queue = .q q.toNat ∧ ∃ c, e.item = .copy c ∧ c.op = op ∧ c.slot = x.t.slot ∧ c.lens = imm.toNat ∧
          c.coords = x.coords ∧ c.off = x.off ∧ c.done = 0)

/-- GATH and SCAT (R252, R256): a GATH is one entry of its warp's Prism queue, with a result outstanding for each lane, and waits while the
binning network has no room for the requests of all its lanes (R246; assumption log 60); a lane of a GATH.m whose coordinates lie outside the
private window stops; a SCAT stores through a lens that is no compressed, Q4 or LUT4 one. -/
def PrismInstructions : Prop :=
  ∀ (s : State) (L : Latch) (m : Bool) (ty : ReqTy8) (d a : Reg) (imm : Imm),
    let u0 := s.advance L
    (s.executes L (.gath m ty d a imm) → NeedsLens s L (.gath m ty d a imm) imm.toNat fun l snap =>
      let bad := if m then (u0.split L a 0 16).1 else []
      let good := if m then (u0.split L a 0 16).2 else u0.lanes L
      (l.ro = false → Traps s L (.gath m ty d a imm) 12 0) ∧
      (l.ro = true → 256 < u0.prismLoad (coreCluster L.core) + L.exec.length → Stalls s L (.gath m ty d a imm) u0) ∧
      (l.ro = true → u0.prismLoad (coreCluster L.core) + L.exec.length ≤ 256 → ∃ t0, Ends s L (.gath m ty d a imm) (t0.stopAll L bad) ∧
        (good = [] → t0 = u0) ∧
        (good ≠ [] → ∃ e j, t0.eng.queue = s.eng.queue ++ [e] ∧ e.core = L.core ∧ e.warp = L.warp ∧
          e.queue = .qg L.warp ∧ e.item = .gath j ∧ j.lens = imm.toNat ∧ j.snap = snap ∧ j.ty = ty ∧ j.again = false ∧
          j.book = u0.bookOf L d ∧ j.lanes.map (·.slot) = good.map (·.slot) ∧
          j.lanes.map (·.coords) = good.map (fun u => (upTo 4).map fun k => (u.reg (a.toNat + k)).toInt) ∧
          j.lanes.map (·.addr) = good.map (fun u => if m then some (u.vv a).toNat else none) ∧
          j.lanes.map (·.priv) = good.map u0.privileged ∧
          t0.mem = s.mem ∧
          (∀ k ∈ L.exec, ∀ u, u0.thread? L.core k = some u → u ∈ good → ∃ v, t0.thread? L.core k = some v ∧ v.regs = u.regs ∧
            ∃ p ∈ v.pending, p.dests = u.rowsFrom d.toNat (if ty = .f64 then 2 else 1) ∧ p.parts = 1 ∧
              ∃ g ∈ j.lanes, g.slot = k ∧ g.pend = p.id)))) ∧
    (s.executes L (.scat ty d a imm) → NeedsLens s L (.scat ty d a imm) imm.toNat fun l _ =>
      let place := fun (u : Thread) => (l.place ((upTo 4).map fun k => (u.reg (a.toNat + k)).toInt)).map fun p => l.elemAddr p % 2 ^ 64
      let va := fun (u : Thread) => (place u).getD 0
      let inside := (u0.lanes L).filter fun u => (place u).isSome
      let good := inside.filter fun u => !u0.windowBad u (va u) l.eb
      let bad := inside.filter fun u => u0.windowBad u (va u) l.eb
      let value := fun (u : Thread) => l.accept (some ty) (u.opnd (ty == .f64) d.toNat % 256 ^ numBytes (reqNum ty))
      (l.ro = true ∨ l.cmp = true ∨ l.isQ4 = true ∨ l.isLut = true → Traps s L (.scat ty d a imm) 12 0) ∧
      (l.ro = false → l.cmp = false → l.isQ4 = false → l.isLut = false →
        Accesses s L (.scat ty d a imm) .write (good.map fun u => { slot := u.slot, va := va u, width := l.eb }) fun go t =>
          let f := (good.filter go).foldl (fun fl u => fl ||| (value u).2) 0
          (good.filter go).foldl (fun t u => t.storeLane L.core u.slot .dflt (va u) l.eb (value u).1 0)
            ((t.updWarp L.core L.warp fun w => { w with fsr := w.fsr ||| f, posted := w.posted ||| f }).stopAll L bad)))

end Sys2Proof.Claims

/-- COPY, COPYS, COPYM, GATH and SCAT. -/
def Obligations.CopiesAndPrism : Prop :=
    Claims.CopyInstructions ∧
    Claims.PrismInstructions

/-- QFENCE, CWAIT, FESET and FECLR (R247 to R251). A QFENCE that names a full qm waits (R281); that it does not wait for a place in another queue is
the model's choice (assumption log 4). CWAIT waits for the entries that threads of its warp placed: those of a warp's qm and qg, and of the
other queues those of its own threads. -/
def Obligations.QueueInstructions : Prop :=
  ∀ (s : State) (L : Latch) (sc : Scope) (rel : Bool) (q : BitVec 7) (a : Reg) (imm : Imm),
    let u0 := s.advance L
    let names := queueSet L q
    let mine := u0.eng.queue.filter fun e => u0.placedBy e L.core L.warp && names.contains e.queue
    (∀ (e : QEntry), u0.placedBy e L.core L.warp = true ↔ e.core = L.core ∧
      ((∃ k ∈ e.slots, ∃ u, u0.thread? L.core k = some u ∧ u.warp = L.warp) ∨ e.slots = [] ∧ e.warp = L.warp)) ∧
    (∀ n, n ∈ names ↔ (∃ k : Fin 4, q.getLsbD k = true ∧ n = .q k) ∨ (q.getLsbD 4 = true ∧ n = .qm L.warp) ∨
      (q.getLsbD 5 = true ∧ n = .qs) ∨ (q.getLsbD 6 = true ∧ n = .qg L.warp)) ∧
    (s.executes L (.qfence sc rel q) →
      let placed := names.foldl (fun t n => (t.enqueue L.core L.warp n (.fence u0.newId.1) false L.exec).2) u0.newId.2
      let f : FenceRec := { id := u0.newId.1, core := L.core, rel := rel, scope := sc, slots := L.exec }
      let fenced := { placed with eng := { placed.eng with fences := placed.eng.fences ++ [f] } }
      let full := q.getLsbD 4 = true ∧ 16 ≤ u0.queueLen L.core (.qm L.warp)
      (full → Stalls s L (.qfence sc rel q) u0) ∧
      (¬ full → Ends s L (.qfence sc rel q) ((fenced.settleFences (fenced.eng.fences.length + 1)).settleWaits))) ∧
    (s.executes L (.cwait q) → mine = [] → Completes s L (.cwait q) id id) ∧
    (s.executes L (.cwait q) → mine ≠ [] → Completes s L (.cwait q)
      (fun u => { u with status := .parked (.queue (mine.map (·.id)) 8) }) id) ∧
    (s.executes L (.feset a imm) → Ends s L (.feset a imm) ((u0.lanes L).foldl (fun t u =>
      if 128 * (t.scratch u.task).lines ≤ u.offset a imm then t.stopThread L.core u.slot
      else t.fillLine u.task (u.offset a imm / 128)) u0)) ∧
    (s.executes L (.feclr a imm) → Ends s L (.feclr a imm) ((u0.lanes L).foldl (fun t u =>
      if 128 * (t.scratch u.task).lines ≤ u.offset a imm then t.stopThread L.core u.slot
      else t.updScratch u.task fun x => { x with full := x.full.filter (· != u.offset a imm / 128) }) u0)) ∧
    ∀ (t : State) (task line : Nat) (x : Task), t.task? task = some x →
      line ∈ ((t.fillLine task line).scratch task).full ∧
      (∀ l, l ≠ line → (l ∈ ((t.fillLine task line).scratch task).full ↔ l ∈ (t.scratch task).full)) ∧
      ((t.fillLine task line).scratch task).bytes = (t.scratch task).bytes ∧
      ∀ c k u, t.thread? c k = some u →
        (t.fillLine task line).thread? c k = some (if u.status = .parked (.line task line) then u.release else u)

/-- LD.acq, ST.rel and the fences (R343, R348, R375, R376, R377). What must wait of an LD.acq or an ST.rel is sent to its home, and the
thread goes on; a fence whose earlier accesses cannot be performed holds its lane. -/
def Obligations.AcquiresAndReleases : Prop :=
  ∀ (s : State) (L : Latch) (w : Width) (sc : Scope) (d a : Reg),
    let n := Width.bytes w
    let u0 := s.advance L
    let lanes := u0.lanes L
    let good := lanes.filter fun u => !u0.windowBad u (u.addr a 0) n
    let bad := lanes.filter fun u => u0.windowBad u (u.addr a 0) n
    (s.executes L (.ldAcq w sc d a) →
      Accesses s L (.ldAcq w sc d a) .read (accessesOf good a 0 n) fun go t =>
        (good.filter go).foldl (fun t u => t.orderedLane L u (u.addr a 0) n
          (fun v t => (t.updThread L.core u.slot (Thread.willWrite d (widthN w) v 0)).acquire L.core u.slot sc)
          (fun t => t.sendAcq u sc (u.addr a 0) n (u.rowsFrom d.toNat (widthN w)))) (t.stopAll L bad)) ∧
    (s.executes L (.stRel w sc d a) →
      Accesses s L (.stRel w sc d a) .write (accessesOf good a 0 n) fun go t =>
        (good.filter go).foldl (fun t u => t.storeRelease u sc (u.addr a 0) n (u.storeData d (widthN w) n)) (t.stopAll L bad)) ∧
    (s.executes L (.fenceAcq sc) → Ends s L (.fenceAcq sc) (u0.eachLane L lanes fun t u =>
      (t.drainLoads u.core u.slot).map fun t => t.acquire u.core u.slot sc)) ∧
    (s.executes L (.fenceRel sc) → Ends s L (.fenceRel sc) (u0.eachLane L lanes fun t u =>
      (t.release u.core u.slot sc).map fun t => t.updThread u.core u.slot fun u => { u with relScope := some sc })) ∧
    (s.executes L (.fenceAcqrel sc) → Ends s L (.fenceAcqrel sc) (u0.eachLane L lanes fun t u =>
      ((t.drainLoads u.core u.slot).map fun t => t.acquire u.core u.slot sc).bind fun t =>
        (t.release u.core u.slot sc).map fun t => t.updThread u.core u.slot fun u => { u with relScope := some sc })) ∧
    ∀ (t : State) (c k : Nat) (u : Thread), t.thread? c k = some u →
      (t.acquire c k sc).thread? c k = some { u with grains := [] } ∧
      (∀ x, Memory.read (t.acquire c k sc).mem.cells x = Memory.read t.mem.cells x) ∧
      (∀ x ∈ (t.acquire c k sc).mem.l1, x ∈ t.mem.l1 ∧ (x.core = c → x.hold = .own)) ∧
      (∀ x ∈ t.mem.l1, x.core ≠ c ∨ x.hold = .own → x ∈ (t.acquire c k sc).mem.l1)

namespace Sys2Proof.Claims

/-- ATOM, ACAS, RED and WAITV (R374, R378 to R381): a misaligned address, or one in the private window, in any lane traps with cause
ALIGN and the lane's number; else each lane's operation is one request to its home, with a result for ATOM and ACAS. -/
def AtomicInstructions : Prop :=
  ∀ (s : State) (L : Latch) (o : AtomOp) (w : Bool) (d a b : Reg),
    let n := 4 * pairN w
    let u0 := s.advance L
    let lanes := u0.lanes L
    let off := fun (n : Nat) (u : Thread) => decide ((u.vv a).toNat % n ≠ 0) || decide ((u.vv a).toNat / 2 ^ 48 = 0xFFFF)
    let result := fun (t : State) (u : Thread) (kind : ReqKind) (data : Nat) (post : Bool) =>
      let t' := t.newId.2.updThread L.core u.slot fun x =>
        x.addPending { id := t.newId.1, parts := 1, dests := x.rowsFrom d.toNat (pairN w) }
      t'.atomLane u kind (u.addr a 0) n data t.newId.1 post
    let waits : Instr := if w then .waitvB64 d a b else .waitvB32 d a b
    (∀ i ∈ [Instr.atom o w d a b, .acas w d a b, .red o w a b, waits], s.executes L i →
      ∀ u, lanes.find? (off n) = some u → Traps s L i 10 u.lane) ∧
    (lanes.find? (off n) = none →
      (s.executes L (.atom o w d a b) →
        Accesses s L (.atom o w d a b) .write (accessesOf lanes a 0 n) fun go t =>
          (lanes.filter go).foldl (fun t u => result t u (.atom o) (u.opnd w b.toNat) (o == .fadd)) t) ∧
      (s.executes L (.acas w d a b) →
        Accesses s L (.acas w d a b) .write (accessesOf lanes a 0 n) fun go t =>
          (lanes.filter go).foldl (fun t u =>
            result t u (.acas (u.opnd w b.toNat)) (u.opnd w (b.toNat + pairN w)) false) t) ∧
      (s.executes L (.red o w a b) →
        Accesses s L (.red o w a b) .write (accessesOf lanes a 0 n) fun go t =>
          (lanes.filter go).foldl (fun t u => t.atomLane u (.atom o) (u.addr a 0) n (u.opnd w b.toNat) 0 false) t) ∧
      (s.executes L waits →
        Accesses s L waits .read (accessesOf lanes a 0 n) fun go t =>
          (lanes.filter go).foldl (fun t u => t.orderedLane L u (u.addr a 0) n
            (fun v t =>
              if v ≠ u.opnd w b.toNat then t.updThread L.core u.slot (Thread.willWrite d (pairN w) v 0)
              else match t.leafOf u (u.addr a 0) with
                | some l => t.watch L u l (u.addr a 0) n v d
                | none => t)
            (fun t => t.parkReplay L u.slot .retry)) t)) ∧
    ∀ (t : State) (u : Thread) (kind : ReqKind) (va data pend : Nat) (post : Bool) (l : Leaf),
      t.leafOf u va = some l → u.relScope = none →
      ∃ t' r, t.atomLane u kind va n data pend post = t' ∧ t'.mem.reqs = t.mem.reqs ++ [r] ∧ r.core = u.core ∧
        r.slot = u.slot ∧ r.kind = kind ∧ r.key = l.key va ∧ r.width = n ∧ r.data = data ∧ r.home = l.home ∧ r.pend = pend ∧
        r.post = post ∧ ∀ x, Memory.read t'.mem.cells x = Memory.read t.mem.cells x

/-- What an atomic makes of the word of `n` bytes at its home, `m` before, with operand `b` (Table 19-2, R378, R380). -/
def AtomicOperations : Prop :=
  (∀ n m b : Nat, n = 4 ∨ n = 8 → m < 2 ^ (8 * n) → b < 2 ^ (8 * n) →
    let M := BitVec.ofNat (8 * n) m
    let B := BitVec.ofNat (8 * n) b
    atomNew .add n m b = ((M + B).toNat, 0) ∧ atomNew .and n m b = ((M &&& B).toNat, 0) ∧
    atomNew .or n m b = ((M ||| B).toNat, 0) ∧ atomNew .xor n m b = ((M ^^^ B).toNat, 0) ∧ atomNew .exch n m b = (b, 0) ∧
    atomNew .min n m b = ((if M.sle B then M else B).toNat, 0) ∧ atomNew .max n m b = ((if M.sle B then B else M).toNat, 0)) ∧
  (∀ m b : Nat, atomNew .fadd 4 m b = Fp.add .f32 .rne m b ∧ atomNew .fadd 8 m b = Fp.add .f64 .rne m b) ∧
  ∀ (s : State) (r : Req), r.width = 4 ∨ r.width = 8 → r.key % r.width = 0 → r.pin = none → Memory.wf s.mem.cells = true →
    (∀ w ∈ pairsOf (wordKeys r.key r.width), s.mem.owner? w = none) → s.mem.watches = [] →
    let m := Memory.readN s.mem.cells r.key r.width
    let new := fun (o : AtomOp) => (atomNew o r.width m r.data).1
    (∀ o, r.kind = .atom o →
      (s.perform r).1 = m ∧ (s.perform r).2.1 = (if r.post then (atomNew o r.width m r.data).2 else 0) ∧
      Memory.readN (s.perform r).2.2.mem.cells r.key r.width = new o % 256 ^ r.width ∧
      ∀ a, a < r.key ∨ r.key + r.width ≤ a →
        Memory.read (s.perform r).2.2.mem.cells a = Memory.read s.mem.cells a) ∧
    (∀ cmp, r.kind = .acas cmp →
      (s.perform r).1 = m ∧ (s.perform r).2.1 = 0 ∧
      Memory.readN (s.perform r).2.2.mem.cells r.key r.width = (if m = cmp then r.data % 256 ^ r.width else m) ∧
      ∀ a, a < r.key ∨ r.key + r.width ≤ a →
        Memory.read (s.perform r).2.2.mem.cells a = Memory.read s.mem.cells a)

end Sys2Proof.Claims

/-- ATOM, ACAS, RED and WAITV, and what an atomic does at its home. -/
def Obligations.AtomicInstructions : Prop :=
    Claims.AtomicInstructions ∧
    Claims.AtomicOperations

/-- BTEST (R388): each executing lane will take min(P − Q, 65,535) in vD, and neither its seen count nor the point changes. -/
def Obligations.BtestCountsPhases : Prop :=
  ∀ (s : State) (L : Latch) (d a : Reg) (l : BitVec 2), s.executes L (.btest d a l) →
    let team := fun (u : Thread) => u.teams.getD l.toNat 255
    (∀ u ∈ s.lanes L, team u ≠ 255 ∧ (s.team? L.core (team u)).isSome) →
    Completes s L (.btest d a l) (fun u =>
      let q := match u.seen.find? fun x => x.1 == (team u, a.toNat) with | some x => x.2 | none => 0
      let p := match s.team? L.core (team u) with | some t => (t.points.getD a.toNat {}).p | none => 0
      Thread.willWrite d 1 (Nat.min (p - q).toNat 65535) 0 u) id

namespace Sys2Proof.Claims

/-- BINIT, BARV, BARVR, BTEST and BWAIT: their traps, and what each makes of its points (R385, R386, R387, R388, R383). -/
def RendezvousInstructions : Prop :=
  ∀ (s : State) (L : Latch) (d a b : Reg) (l : BitVec 2),
    let u0 := s.advance L
    let lanes := u0.lanes L
    let empty := ∃ u ∈ lanes, u.teams.getD l.toNat 255 = 255
    (∀ i ∈ [Instr.barv d a l, .btest d a l, .bwait d l], s.executes L i → empty → Traps s L i 11 0) ∧
    (s.executes L (.binit d a l) → ∀ u, u0.lowest L = some u →
      let n := (u.v a).toNat
      (u0.team? L.core (u.teams.getD l.toNat 255) = none → Traps s L (.binit d a l) 11 0) ∧
      ∀ t, u0.team? L.core (u.teams.getD l.toNat 255) = some t →
        let e := (t.point d.toNat).e
        (n = 0 ∨ 65535 < n ∨ (e ≠ 0 ∧ e ≠ n) → Traps s L (.binit d a l) 11 0) ∧
        (0 < n → n ≤ 65535 → e = n → Completes s L (.binit d a l) id id) ∧
        (0 < n → n ≤ 65535 → e = 0 → Ends s L (.binit d a l)
          ((u0.updTeam L.core t.num fun t => t.updPoint d.toNat fun p => { p with e := n }).pointEvent L.core t.num d.toNat))) ∧
    (s.executes L (.barv d a l) → ¬ empty →
      ((∃ u ∈ lanes, 65535 < (u.v a).toNat) → Traps s L (.barv d a l) 1 0) ∧
      ((∀ u ∈ lanes, (u.v a).toNat ≤ 65535) → Ends s L (.barv d a l) (lanes.foldl (fun t u =>
        if (u.v a).toNat = 0 then t
        else (t.sendArrival u u0.newId.1 L.core (u.teams.getD l.toNat 255) d.toNat (u.v a).toNat).landInst u0.newId.1) u0.newId.2))) ∧
    (s.executes L (.barvr d a b) →
      let place := fun (u : Thread) => (u.v (a + 1)).toNat
      let bad := fun (u : Thread) => place u / 2 ^ 14 != 0 || match u0.member u (place u / 256 % 64) with
        | .absent => true
        | .unstarted _ => false
        | .at_ core _ => routePlace u0.goneUnits u.core (u.v a) != some (.core core)
      (∀ u, lanes.find? bad = some u → Traps s L (.barvr d a b) 8 u.lane) ∧
      (lanes.find? bad = none → (∃ u ∈ lanes, 65535 < (u.v b).toNat) → Traps s L (.barvr d a b) 1 0) ∧
      (lanes.find? bad = none → (∀ u ∈ lanes, (u.v b).toNat ≤ 65535) →
        Ends s L (.barvr d a b) (lanes.foldl (fun t u =>
          match t.member u (place u / 256 % 64) with
          | .absent => t
          | .unstarted g => t.parkReplay L u.slot (.member g (place u / 256 % 64))
          | .at_ core _ => if (u.v b).toNat = 0 then t
            else t.sendArrival u u0.newId.1 core (place u % 256) d.toNat (u.v b).toNat) u0.newId.2))) ∧
    (s.executes L (.bwait d l) → ¬ empty → Ends s L (.bwait d l) (lanes.foldl (fun t u =>
      let team := u.teams.getD l.toNat 255
      let n := t.phasesAhead L.core u.slot team d.toNat
      if 1 ≤ n ∧ n < 2 ^ 31 then t.consume L.core u.slot team d.toNat
      else t.updThread L.core u.slot fun u => { u with status := .parked (.bwait team d.toNat) }) u0))

/-- An event at a rendezvous point (R384): at most one phase completes, the surplus carries over, and the arrival scope starts again
at .core, widened by it; a wait that is satisfied consumes one phase (R387). -/
def PointEvents : Prop :=
  (∀ p : Point, p.due = true ↔ p.e ≠ 0 ∧ p.e ≤ p.a + p.s) ∧
  (∀ p : Point, p.due = true →
    p.complete.a = p.a + p.s - p.e ∧ p.complete.p = p.p + 1 ∧ p.complete.e = p.e ∧ p.complete.s = p.s ∧
    (p.a + p.s = p.e → (∀ x ∈ p.arr, 0 < x.1) → p.complete.scope = .core)) ∧
  (∀ (s : State) (c team n count : Nat) (sc : Scope) (t : Team), s.team? c team = some t → n < t.points.length →
    (s.arrive c team n 0 sc = s) ∧
    ((t.point n).due = false → s.pointEvent c team n = s) ∧
    ((t.point n).due = true → s.pointEvent c team n =
      (s.updTeam c team fun t => t.updPoint n Point.complete).releaseWaits c team n) ∧
    (0 < count → s.arrive c team n count sc =
      (s.updTeam c team fun t => t.updPoint n fun p => { p with arr := p.arr ++ [(count, sc)] }).pointEvent c team n)) ∧
  ∀ (s : State) (c k team n : Nat) (t : Team) (u : Thread), s.team? c team = some t → s.thread? c k = some u →
    n < t.points.length →
    ∃ v, (s.consume c k team n).thread? c k = some v ∧ v.seenAt team n = u.seenAt team n + 1 ∧ v.regs = u.regs ∧ v.grains = [] ∧
      v.status = u.status

end Sys2Proof.Claims

/-- BINIT, BARV, BARVR and BWAIT, and the events at a rendezvous point. -/
def Obligations.RendezvousInstructions : Prop :=
    Claims.RendezvousInstructions ∧
    Claims.PointEvents

namespace Sys2Proof.Claims

/-- MMA, MMAS, MMAQ, MMAL and ZSCALE (R260, R281, R284, R286): a request without a subscription to its stream traps with cause STREAM, one
that finds its queue or the reservation table full waits, and any other is one entry at the tail of its warp's queue, which holds
the A registers of the executing lanes; a request on a name that is not bound, or with .new, binds it. -/
def MatrixRequests : Prop :=
  (∀ (s : State) (L : Latch) (t : MmaTy) (q : MmaQTy) (e5 nw : Bool) (st z : BitVec 3) (a c : Reg) (w : Warp),
    let u0 := s.advance L
    let lanes := u0.lanes L
    let full := 16 ≤ u0.queueLen L.core (.qm L.warp) ∨ 8 ≤ ((u0.qm L.core L.warp).filter fun x => x.2.isRequest).length ∨
      32 ≤ (u0.eng.queue.filter fun e => coreCluster e.core == coreCluster L.core &&
        (match e.op? with | some o => o.isRequest | none => false)).length
    let regs := fun (n : Nat) => lanes.map fun u => (u.lane, (upTo n).map fun k => u.reg (a.toNat + k))
    u0.warp? L.core L.warp = some w →
    ∀ x ∈ [(Instr.mma t nw st z a, PassTy.mma t, if t = .f64f64 then 16 else 8, []), (.mmas e5 nw st z a, .mmas e5, 16, []),
        (.mmaq q nw st z a, .mmaq q, 16, []), (.mmal q nw st z a c, .mmal q, 16, u0.bookOf L c)],
      s.executes L x.1 →
      (w.sub? st.toNat = none → Traps s L x.1 9 0) ∧
      (w.sub? st.toNat ≠ none → full → Stalls s L x.1 u0) ∧
      (w.sub? st.toNat ≠ none → ¬ full → Ends s L x.1
        ((if nw = true ∨ (w.names.getD z.toNat {}).bound = false
          then u0.updName L.core L.warp z.toNat fun n => { n with bound := true, kind := (PassTy.shape x.2.1).kind } else u0).place L
            (.pass x.2.1 nw st.toNat z.toNat (regs x.2.2.1) x.2.2.2)))) ∧
  (∀ (s : State) (L : Latch) (d a b : Reg), s.executes L (.zscale d a b) →
    let u0 := s.advance L
    let columns := fun (r : Nat) => (upTo 64).map fun j => match u0.laneOf L.core L.warp (j % 32) with
      | some u => u.reg (r + j / 32)
      | none => 0
    ((u0.zname L.core L.warp d.toNat).bound = false → Traps s L (.zscale d a b) 1 0) ∧
    ((u0.zname L.core L.warp d.toNat).bound = true → (u0.qmFull L || u0.tableFull L) = true → Stalls s L (.zscale d a b) u0) ∧
    ((u0.zname L.core L.warp d.toNat).bound = true → (u0.qmFull L || u0.tableFull L) = false → Ends s L (.zscale d a b)
      (u0.place L (.zscale d.toNat ((u0.lanes L).map (·.lane)) (columns a.toNat) (columns b.toNat))))) ∧
  ∀ (s : State) (L : Latch) (o : TileOp), ∃ e, s.place L o = { s with idCtr := s.idCtr + 1, eng := { s.eng with queue := s.eng.queue ++ [e] } } ∧
    e.core = L.core ∧ e.warp = L.warp ∧ e.slots = L.exec ∧ e.queue = .qm L.warp ∧ e.item = .tile o ∧
      (e.priv = true ↔ ∃ u ∈ s.lanes L, s.privileged u = true)

/-- ZCLR, ZLD, ZMOV, ZSTO, ZREL and ZWAIT at issue (R281, R287 to R292): the checks in their order, and the entry that each places. A
thread that ZWAIT has released issues it again; the threads of the group whose name was lost at the moment of their release, for the cause of the
lowest of them, trap alone (R292). -/
def TileInstructions : Prop :=
  ∀ (s : State) (L : Latch) (k : ZKind) (bf : Bool) (z : BitVec 3) (d a : Reg) (imm : Imm),
    let u0 := s.advance L
    let lanes := u0.lanes L
    let full := 16 ≤ u0.queueLen L.core (.qm L.warp)
    let accs := fun (n : Nat) => lanes.map fun u => ({ slot := u.slot, va := u.addr a imm, width := n } : LaneAcc)
    let window := fun (n : Nat) => ∃ x ∈ accs n, ∃ va ∈ x.ends, va / 2 ^ 48 = 0xFFFF
    (s.executes L (.zclr k z) →
      (full → Stalls s L (.zclr k z) u0) ∧
      (¬ full → Ends s L (.zclr k z) ((u0.bindName L z.toNat k).place L (.zclr k z.toNat (lanes.map (·.lane)))))) ∧
    (s.executes L (.zld k z a imm) →
      let n := if k = .f64 then 512 else 260
      (window n → Traps s L (.zld k z a imm) 1 0) ∧
      (¬ window n → full → Stalls s L (.zld k z a imm) u0) ∧
      (¬ window n → ¬ full → Accesses s L (.zld k z a imm) .read (accs n) fun go t =>
        if (t.tileRows L go a imm n).isEmpty then t
        else (t.bindName L z.toNat k).place L (.zld k z.toNat (t.tileRows L go a imm n) L.first.toNat))) ∧
    (s.executes L (.zmov d a imm) →
      let name := u0.zname L.core L.warp a.toNat
      let lost := u0.lostNow L.core L.warp a.toNat
      let far := (if name.kind = .f64 then 15 else 8) < imm.toNat
      (name.bound = false ∨ far → Traps s L (.zmov d a imm) 1 0) ∧
      (name.bound = true → ¬ far → ∀ c, lost = some c → Traps s L (.zmov d a imm) 13 c.info) ∧
      (name.bound = true → ¬ far → lost = none → full → Stalls s L (.zmov d a imm) u0) ∧
      (name.bound = true → ¬ far → lost = none → ¬ full →
        ∃ t e rows, exec (.zmov d a imm) s = .next t ∧ t.eng.queue = s.eng.queue ++ [e] ∧ e.core = L.core ∧ e.queue = .qm L.warp ∧
          e.item = .tile (.zmov a.toNat imm.toNat name.kind rows) ∧ rows.map (fun x => (x.1, x.2.1)) = lanes.map (fun u => (u.lane, u.slot)) ∧
          (∀ x, Memory.read t.mem.cells x = Memory.read s.mem.cells x) ∧
          ∀ j ∈ L.exec, ∀ u, s.thread? L.core j = some u → ∃ v, t.thread? L.core j = some v ∧ v.regs = u.regs ∧
            ∃ p ∈ v.pending, p.dests = u.rowsFrom d.toNat (if name.kind ≠ .f64 ∧ imm.toNat = 8 then 1 else 8) ∧ p.parts = 1 ∧
              (u.lane, u.slot, p.id) ∈ rows)) ∧
    (s.executes L (.zsto bf d a imm) →
      let name := u0.zname L.core L.warp d.toNat
      let n := if bf then 128 else if name.kind = .f64 then 512 else 260
      let wrong := (name.bound = true ∧ bf = true ∧ name.kind ≠ .f32) ∨ window n ∨ name.bound = false
      (wrong → Traps s L (.zsto bf d a imm) 1 0) ∧
      (¬ wrong → ∀ c, u0.lostNow L.core L.warp d.toNat = some c → Traps s L (.zsto bf d a imm) 13 c.info) ∧
      (¬ wrong → u0.lostNow L.core L.warp d.toNat = none → full → Stalls s L (.zsto bf d a imm) u0) ∧
      (¬ wrong → u0.lostNow L.core L.warp d.toNat = none → ¬ full →
        Accesses s L (.zsto bf d a imm) .write (accs n) fun go t =>
          if (t.tileRows L go a imm n).isEmpty then t
          else t.place L (.zsto bf d.toNat name.kind (t.tileRows L go a imm n) L.first.toNat))) ∧
    (s.executes L (.zrel d) →
      (full → Stalls s L (.zrel d) u0) ∧
      (¬ full → Ends s L (.zrel d) ((u0.updName L.core L.warp d.toNat fun n => { n with bound := false }).place L (.zrel d.toNat)))) ∧
    (s.executes L (.zwait d) →
      let ids := ((u0.qm L.core L.warp).filter fun x => x.2.name == some d.toNat).map fun x => x.1.id
      let lost := if (u0.zname L.core L.warp d.toNat).bound then u0.lostNow L.core L.warp d.toNat else none
      let new := lanes.filter fun u => u.zwait.isNone
      let found := lanes.findSome? fun u => u.zwait.join
      let u1 := u0.mapExec L fun u => { u with zwait := none }
      (∀ c, found = some c →
        let ks := (lanes.filter fun u => u.zwait == some (some c)).map fun u => u.slot
        exec (.zwait d) s = .next (s.trap { L with group := ks, exec := ks } 13 c.info)) ∧
      (found = none → new = [] → Completes s L (.zwait d) (fun u => { u with zwait := none }) id) ∧
      (found = none → new ≠ [] →
        (full → Stalls s L (.zwait d) u0) ∧
        (¬ full → ids ≠ [] → Ends s L (.zwait d) (new.foldl (fun t u => t.parkReplay L u.slot (.queue ids d.toNat))
          (u1.place L (.zwait d.toNat)))) ∧
        (¬ full → ids = [] → (∀ c, lost = some c → Traps s L (.zwait d) 13 c.info) ∧
          (lost = none → Ends s L (.zwait d) (u1.place L (.zwait d.toNat))))))

end Sys2Proof.Claims

/-- MMA, MMAS, MMAQ, MMAL, ZSCALE, ZCLR, ZLD, ZMOV, ZSTO, ZREL and ZWAIT. -/
def Obligations.MatrixAndTileInstructions : Prop :=
    Claims.MatrixRequests ∧
    Claims.TileInstructions

namespace Sys2Proof.Claims

/-- STRPUB, STRSUB and STREND (R265, R266, R293, R294, R295). Publications of one cycle stand in the order of the warp slots: one whose format
is not that of the stream, where all that the stream holds was published in this cycle by higher slots of its core, waits for a later cycle. -/
def StreamInstructions : Prop :=
  ∀ (s : State) (L : Latch) (f : SFmt) (st : BitVec 3) (d a b : Reg) (imm : Imm) (w : Warp),
    let u0 := s.advance L
    let cl := coreCluster L.core
    let x := (u0.engine cl).stream st.toNat
    let four := 4 ≤ (x.blocks.filter fun k => k.quarters.any fun q => q.1 == L.core % 4).length
    let sparse := f = .sE4m3 ∨ f = .sE5m2
    let extra := u0.lanesReg L.core L.warp b.toNat (if sparse then 0x44444444 else 0)
    let bad := fun (l n : Nat) => (extra.getD l 0).toNat / 16 ^ n % 16 / 4 ≤ (extra.getD l 0).toNat / 16 ^ n % 4
    u0.warp? L.core L.warp = some w →
    (s.executes L (.strpub f st a b) →
      (four → Stalls s L (.strpub f st a b) u0) ∧
      (¬ four → sparse → ∀ l n, l < 32 → n < 8 → bad l n →
        (∀ l' n', n' < 8 → l' < l ∨ (l' = l ∧ n' < n) → ¬ bad l' n') → Traps s L (.strpub f st a b) 4 (l + 256 * n)) ∧
      (¬ four → (sparse → ∀ l n, l < 32 → n < 8 → ¬ bad l n) → (∃ g, x.fmt = some g ∧ g ≠ f) →
        let above := x.blocks ≠ [] ∧ ∀ k ∈ x.blocks, ∀ q ∈ k.quarters, q.1 = L.core % 4 ∧ q.2.at_ = u0.dev.cycle ∧ L.warp < q.2.warp
        (above → Stalls s L (.strpub f st a b) u0) ∧ (¬ above → Traps s L (.strpub f st a b) 9 0)) ∧
      (¬ four → (sparse → ∀ l n, l < 32 → n < 8 → ¬ bad l n) → (∀ g, x.fmt = some g → g = f) →
        Ends s L (.strpub f st a b) ((u0.publish L.core st.toNat f
          { data := (upTo 32).map fun l => (upTo (SFmt.regs f)).map fun k =>
              match u0.laneOf L.core L.warp l with | some u => u.reg (a.toNat + k) | none => 0
            extra := extra
            warp := L.warp
            at_ := u0.dev.cycle }).settleStream cl st.toNat))) ∧
    (s.executes L (.strsub d imm) →
      (w.sub? d.toNat ≠ none → Traps s L (.strsub d imm) 9 0) ∧
      (w.sub? d.toNat = none → Ends s L (.strsub d imm) (u0.subscribe L.core L.warp d.toNat imm.toNat))) ∧
    (s.executes L (.strend d) →
      (w.sub? d.toNat = none → Traps s L (.strend d) 9 0) ∧
      (w.sub? d.toNat ≠ none → 16 ≤ u0.queueLen L.core (.qm L.warp) → Stalls s L (.strend d) u0) ∧
      (w.sub? d.toNat ≠ none → u0.queueLen L.core (.qm L.warp) < 16 → Ends s L (.strend d)
        ((u0.updWarp L.core L.warp fun w => { w with subs := w.subs.map fun b =>
          if b.stream = d.toNat then { b with ended := true } else b }).place L (.strend d.toNat)))) ∧
    (u0.subscribe L.core L.warp d.toNat imm.toNat).warp? L.core L.warp = some { w with subs := w.subs ++
      [{ stream := d.toNat, window := imm.toNat, cursor := match ((u0.engine cl).stream d.toNat).blocks with
        | [] => ((u0.engine cl).stream d.toNat).next
        | bs => leastOf (bs.map (·.num)) }] }

/-- MSTAT (R298); the kind bits of an unbound name are free (assumption log 81). -/
def MatrixStatus : Prop :=
  ∀ (s : State) (L : Latch) (d a : Reg) (imm : Imm), s.executes L (.mstat d a imm) →
    let qm := s.qm L.core L.warp
    let gives := fun (v : Thread → Nat) => Completes s L (.mstat d a imm) (fun u => Thread.willWrite d 1 (v u) 0 u) id
    imm.toNat ≤ 5 ∧
    (imm.toNat = 0 → gives fun _ => (qm.filter fun x => x.2.isRequest).length) ∧
    (imm.toNat = 1 → gives fun _ => s.queueLen L.core (.qm L.warp)) ∧
    (imm.toNat = 2 → gives fun _ => (s.engine (coreCluster L.core)).resets % 2 ^ 32) ∧
    (imm.toNat = 3 → ∃ v, gives (fun _ => v) ∧ ∀ z, z < 8 →
      let n := s.zname L.core L.warp z
      v / 4 ^ z % 4 = (if n.bound = false then 0 else match s.lostNow L.core L.warp z with
        | none => 1
        | some .reset => 2
        | some .format => 3) ∧
      (n.bound = true → v / 2 ^ (16 + 2 * z) % 4 = (match n.kind with | .f32 => 0 | .i32 => 1 | .f64 => 2))) ∧
    (imm.toNat = 4 → ∀ w, s.warp? L.core L.warp = some w → gives fun u => match w.sub? ((u.v a).toNat % 8) with
      | none => 0
      | some b => 2 ^ 31 + (b.window - b.granted)) ∧
    (imm.toNat = 5 → gives fun _ => ((upTo 32).filter fun n => (s.tile? L.core n).isNone).length)

end Sys2Proof.Claims

/-- STRPUB, STRSUB, STREND and MSTAT. -/
def Obligations.StreamsAndStatus : Prop :=
    Claims.StreamInstructions ∧
    Claims.MatrixStatus

/-- SPACK (R297): nibble n of vD holds the two lowest positions kept by nibble n of vA, filled up with its lowest clear positions. -/
def Obligations.SpackPacksMasks : Prop :=
  ∀ (s : State) (L : Latch) (d a : Reg), s.executes L (.spack d a) →
    ∃ f : Word → Word, Completes s L (.spack d a) (fun u => Thread.willWrite d 1 (f (u.v a)).toNat 0 u) id ∧
      ∀ (x : Word) (n : Nat), n < 8 →
        let m := x.toNat / 16 ^ n % 16
        let r := (f x).toNat / 16 ^ n % 16
        let i0 := r % 4
        let i1 := r / 4
        i0 < i1 ∧
        (∀ j, j < 4 → m.testBit j = true → (j = i0 ∨ j = i1 ∨ (m.testBit i0 = true ∧ m.testBit i1 = true ∧ i1 < j))) ∧
        (m.testBit i0 = false → ∀ j, j < 4 → m.testBit j = false → i0 ≤ j) ∧
        (m.testBit i1 = false → ∀ j, j < 4 → m.testBit j = false → i1 ≤ j ∨ j = i0)

namespace Sys2Proof.Claims

/-- KENC, KDEC, KPAR and KCHLD (R303): what each executing lane will take, and where there is none. -/
def KeyArithmetic : Prop :=
  ∀ (s : State) (L : Latch) (n : BitVec 4) (j : BitVec 3) (d a : Reg),
    let at_ := s.curve? (s.latchCtx L) n.toNat
    let none8 := 2 ^ 64 - 1
    let key := fun (u : Thread) => (u.vv a).toNat
    let level := fun (k : Nat) => k / 2 ^ 58
    let gives := fun (i : Instr) (r : Nat) (f : Thread → Nat) => s.executes L i → Completes s L i (fun u => Thread.willWrite d r (f u) 0 u) id
    (at_ = none → gives (.kenc n d a) 2 (fun _ => none8) ∧ gives (.kpar n d a) 2 (fun _ => none8) ∧
      gives (.kchld n j d a) 2 (fun _ => none8) ∧ gives (.kdec n d a) 4 (fun _ => 2 ^ 128 - 1)) ∧
    ∀ c, at_ = some c →
      gives (.kenc n d a) 2 (fun u =>
        let x := fun (i : Nat) => (u.reg (a.toNat + i)).toNat
        if c.maxlev < x 3 ∨ 2 ^ x 3 ≤ x 0 ∨ 2 ^ x 3 ≤ x 1 ∨ 2 ^ x 3 ≤ x 2 ∨ (c.d = 2 ∧ x 2 ≠ 0) then none8
        else c.keyOf [x 0, x 1, x 2] (x 3)) ∧
      gives (.kdec n d a) 4 (fun u =>
        if c.keyOk (key u) = true then
          let x := fun (i : Nat) => (c.coords (key u)).getD i 0
          x 0 + 2 ^ 32 * (x 1 + 2 ^ 32 * (x 2 + 2 ^ 32 * level (key u)))
        else 2 ^ 128 - 1) ∧
      gives (.kpar n d a) 2 (fun u =>
        if c.keyOk (key u) = false ∨ level (key u) = 0 then none8
        else
          let unit := 2 ^ (58 - (level (key u) - 1) * c.d)
          (level (key u) - 1) * 2 ^ 58 + key u % 2 ^ 58 / unit * unit) ∧
      gives (.kchld n j d a) 2 (fun u =>
        if c.keyOk (key u) = false ∨ 2 ^ c.d ≤ j.toNat ∨ c.maxlev ≤ level (key u) then none8
        else (level (key u) + 1) * 2 ^ 58 + key u % 2 ^ 58 + j.toNat * 2 ^ (58 - (level (key u) + 1) * c.d))

/-- KREF and KCOARS (R304): lane by lane; the checks in their order, and a status with nothing changed. The records are read, and a malformed
one gives REJECT, behind BADKEY (assumption logs 71 and 18). -/
def RefineAndCoarsen : Prop :=
  (∀ (s : State) (L : Latch) (m : BitVec 3) (d a : Reg),
    let u0 := s.advance L
    (s.executes L (.kref m d a) → Ends s L (.kref m d a) ((u0.lanes L).foldl (fun t u =>
      t.meshEnd L [u] d 1 m.toNat (t.reshape false u m.toNat (u.vv a).toNat)) u0)) ∧
    (s.executes L (.kcoars m d a) → Ends s L (.kcoars m d a) ((u0.lanes L).foldl (fun t u =>
      t.meshEnd L [u] d 1 m.toNat (t.reshape true u m.toNat (u.vv a).toNat)) u0))) ∧
  ∀ (s : State) (up : Bool) (u : Thread) (n k : Nat),
    let o := s.originOf u
    (s.mesh? o.ctx n = none → s.reshape up u n k = .val 6 s) ∧
    ∀ m c, s.mesh? o.ctx n = some m → s.curve? o.ctx m.desc = some c →
      (c.keyOk k = false → s.reshape up u n k = .val 4 s) ∧
      (c.keyOk k = true → ∀ l s', (∀ f : List LeafRec → State → MeshRes, s.leaves o m c (fun s => .val 7 s) f = f l s') →
        let kids := if up then (c.children k).filterMap (leafWithKey l) else (leafWithKey l k).toList
        let whole := kids.length = (if up then 2 ^ c.d else 1)
        let still := ∀ r ∈ kids, r.mig = false
        let busy := s'.meshBusy o.ctx n = true
        let level := if up then k / 2 ^ 58 < c.minlev else k / 2 ^ 58 = c.maxlev
        let split := ∃ x ∈ c.children k, (m.rep (coreDie u.core)).owner x ≠ (m.rep (coreDie u.core)).owner k
        let balance := c.bal = true ∧ (if up then c.finerBy l k else c.coarserBy l k 0) = true
        (¬ whole → s.reshape up u n k = .val 5 s') ∧
        (whole → ¬ still → s.reshape up u n k = .mig ((kids.filter (·.mig)).map (·.key))) ∧
        (whole → still → busy → s.reshape up u n k = .val 2 s') ∧
        (whole → still → ¬ busy → level → s.reshape up u n k = .val 10 s') ∧
        (whole → still → ¬ busy → ¬ level → split → s.reshape up u n k = .val 11 s') ∧
        (whole → still → ¬ busy → ¬ level → ¬ split → balance → s.reshape up u n k = .val 1 s') ∧
        (whole → still → ¬ busy → ¬ level → ¬ split → ¬ balance → ∀ r rest, kids = r :: rest →
          s.reshape up u n k = (if up then s'.coarsen o m c l k kids else s'.refine o m c l r)))

/-- What KREF and KCOARS change past their checks (R305, R65): NOSLOT, FULL, and REJECT for a stack entry of nslots or more (R64, read behind
FULL: assumption log 71); else the records of the leaf's segment with the children in place of the leaf, or the parent in place of the children,
with the slots, the users and the costs of R305; the slots popped or pushed; and the counts of the segment. -/
def ReshapedRecords : Prop :=
  (∀ (s : State) (o : Origin) (m : Mesh) (c : Curve) (l : List LeafRec) (r : LeafRec) (g : Seg), m.segs[r.seg]? = some g →
    let n := 2 ^ c.d
    let recs := segRecs l r.seg
    (g.scount < n - 1 → s.refine o m c l r = .val 3 s) ∧
    (n - 1 ≤ g.scount → g.lcap < g.lcount + (n - 1) → s.refine o m c l r = .val 9 s) ∧
    (n - 1 ≤ g.scount → g.lcount + (n - 1) ≤ g.lcap → ∀ top s', top.length = n - 1 →
      (∀ f : List Nat → State → MeshRes, s.readStack o g.sbase (g.scount - (n - 1)) [] f (n - 1) = f top s') →
      ((∃ x ∈ top, m.nslots ≤ x) → s.refine o m c l r = .val 7 s') ∧
      ((∀ x ∈ top, x < m.nslots) → ∃ kids : List LeafRec, kids.length = n ∧
        (∀ i y, kids[i]? = some y → y.seg = r.seg ∧ y.idx = r.idx ∧ y.key = c.kchld r.key i ∧ y.user = r.user ∧
          y.slot = (if i = 0 then r.slot else top.getD (n - 1 - i) 0) ∧ y.mig = false ∧ y.res = 0 ∧
          y.cost = r.cost / n + if i = 0 then r.cost % n else 0) ∧
        s.refine o m c l r = State.curveWrites s' o (fun t => .val 0 (t.putSeg m.ctx m.num r.seg fun g =>
          { g with lcount := g.lcount + (n - 1), scount := g.scount - (n - 1) }))
          (putRecs g r.idx (recs.take r.idx ++ kids ++ recs.drop (r.idx + 1)))))) ∧
  (∀ (s : State) (o : Origin) (m : Mesh) (c : Curve) (l : List LeafRec) (k : Nat) (r : LeafRec) (rest : List LeafRec) (g : Seg),
    m.segs[r.seg]? = some g →
    let n := 2 ^ c.d
    let recs := segRecs l r.seg
    let parent : LeafRec :=
      { seg := r.seg, idx := r.idx, key := k, slot := r.slot, mig := false, res := 0, user := r.user
        cost := Nat.min 65535 ((r :: rest).map (·.cost)).sum }
    ∃ pushes : List (Nat × Nat × Nat), pushes.length = rest.length ∧
      (∀ i x, rest[i]? = some x → pushes[i]? = some (g.sbase + 4 * (g.scount + i), 4, x.slot)) ∧
      s.coarsen o m c l k (r :: rest) = s.curveWrites o (fun t => .val 0 (t.putSeg m.ctx m.num r.seg fun g =>
        { g with lcount := g.lcount - (n - 1), scount := g.scount + (n - 1) }))
        (pushes ++ putRecs g r.idx (recs.take r.idx ++ parent :: recs.drop (r.idx + n)))) ∧
  (∀ (l : List LeafRec) (d : Nat), (∀ y, y ∈ segRecs l d ↔ y ∈ l ∧ y.seg = d) ∧ (segRecs l d).Pairwise fun a b => a.idx ≤ b.idx) ∧
  (∀ (g : Seg) (i : Nat) (rs : List LeafRec) (w : Nat × Nat × Nat), w ∈ putRecs g i rs ↔ ∃ j y, i ≤ j ∧ rs[j]? = some y ∧
    (w = (g.lbase + 16 * j, 8, y.bytes % 2 ^ 64) ∨ w = (g.lbase + 16 * j + 8, 8, y.bytes / 2 ^ 64))) ∧
  (∀ (s : State) (o : Origin) (f : State → MeshRes) (w : Nat × Nat × Nat) (ws : List (Nat × Nat × Nat)),
    let va := w.1 % 2 ^ 64
    s.curveWrites o f [] = f s ∧
    (∀ r s', s.walkFor o.ctx va .write o.priv = (.fault r, s') → s.curveWrites o f (w :: ws) = .fault .mesh r va s') ∧
    (∀ e s', s.walkFor o.ctx va .write o.priv = (.ok e, s') →
      (s'.mem.retry none (e.key va) w.2.1 = true → s.curveWrites o f (w :: ws) = .wait) ∧
      (s'.mem.retry none (e.key va) w.2.1 = false → ∀ t, s'.settleOwn o (e.key va) w.2.1 = some t →
        s.curveWrites o f (w :: ws) = (t.writeHome (some o.core) (e.key va) w.2.1 w.2.2).curveWrites o f ws)))

end Sys2Proof.Claims

/-- KENC, KDEC, KPAR, KCHLD, KREF and KCOARS. -/
def Obligations.KeyInstructions : Prop :=
    Claims.KeyArithmetic ∧
    Claims.RefineAndCoarsen ∧
    Claims.ReshapedRecords

/-- Decoding the key of coordinates gives them back, for every curve whose state table permutes the digits (R57, R58, R303). -/
def Obligations.KeysDecodeToTheirCoordinates : Prop :=
  ∀ (c : Curve) (states l x y z : Nat), c.d = 2 ∨ c.d = 3 → 0 < states →
    (∀ s, s < states → ∀ q, q < 2 ^ c.d → (c.entry s q).1 < states ∧ (c.entry s q).2 < 2 ^ c.d ∧
      ∀ p, p < 2 ^ c.d → (c.entry s p).2 = (c.entry s q).2 → p = q) →
    l * c.d ≤ 58 → x < 2 ^ l → y < 2 ^ l → z < 2 ^ l → (c.d = 2 → z = 0) →
    let k := c.keyOf [x, y, z] l
    k / 2 ^ 58 = l ∧ k % 2 ^ 58 % 2 ^ (58 - l * c.d) = 0 ∧ c.coords k = [x, y, z]

namespace Sys2Proof.Claims

/-- KNBR, KNEXT and KOWN (R301, R306, R307, R308): lane by lane; a status other than OK gives a group without a result, and else the
group is that of the cell found. What rel, count, W and MOV hold where the status is not OK is free (assumption log 82), and a malformed leaf
record is found when the records are read (assumption logs 18 and 71). -/
def MeshLookups : Prop :=
  (∀ (s : State) (L : Latch) (f : Face) (m : BitVec 3) (d a : Reg),
    let u0 := s.advance L
    let key := fun (u : Thread) => (u.vv a).toNat
    let ends := fun (i : Instr) (r : State → Thread → MeshRes) => s.executes L i →
      Ends s L i ((u0.lanes L).foldl (fun t u => t.meshEnd L [u] d 8 m.toNat (r t u)) u0)
    ends (.knbr f m d a) (fun t u => t.lookup u m.toNat (key u) (some (Face.num f)) fun m c l s =>
      match c.across (key u) (Face.num f) with
      | none => emptyGroup 48
      | some (n, wrap) => match c.leafOver l n with
        | some r => s.group u m r.key r.slot (if r.key / 2 ^ 58 = key u / 2 ^ 58 then 0 else 1) 1 wrap
        | none => s.group u m n 0xFFFFFFFF 2 (c.onFace l n (opposite (Face.num f))).length wrap) ∧
    ends (.knext f m d a) (fun t u => t.lookup u m.toNat (key u) (some (Face.num f)) fun m c l s =>
      let on := match c.leafOver l (key u) with | some r => [r] | none => c.onFace l (key u) (opposite (Face.num f))
      match on[(u.reg (a.toNat + 2)).toNat]? with
      | some r => s.group u m r.key r.slot 2 on.length false
      | none => noGroup 8) ∧
    ends (.kown m d a) (fun t u => t.lookup u m.toNat (key u) none fun m _ l s =>
      s.group u m (key u) (match leafWithKey l (key u) with | some r => r.slot | none => 0xFFFFFFFF) 0 1 false)) ∧
  (∀ (s : State) (u : Thread) (n k : Nat) (face : Option Nat) (f : Mesh → Curve → List LeafRec → State → Nat),
    let o := s.originOf u
    (s.mesh? o.ctx n = none → s.lookup u n k face f = .val (noGroup 6) s) ∧
    ∀ m c, s.mesh? o.ctx n = some m → s.curve? o.ctx m.desc = some c →
      let stray := ∃ g, face = some g ∧ 2 * c.d ≤ g
      (c.keyOk k = false ∨ stray → s.lookup u n k face f = .val (noGroup 4) s) ∧
      (c.keyOk k = true → ¬ stray → ∀ l s', (∀ h : List LeafRec → State → MeshRes, s.leaves o m c (fun s => .val (noGroup 7) s) h = h l s') →
        s.lookup u n k face f = .val (f m c l s') s')) ∧
  (∀ w : Nat, w < 2 ^ 32 → let g := emptyGroup w
    g % 2 ^ 64 = 0 ∧ g / 2 ^ 64 % 2 ^ 32 = w ∧ g / 2 ^ 96 % 2 ^ 32 = 0xFFFFFFFF ∧ g / 2 ^ 128 % 2 ^ 32 = 0 ∧
      g / 2 ^ 160 % 2 ^ 32 = 0xFFFFFFFF ∧ g / 2 ^ 192 % 2 ^ 32 = 0xFFFFFFFF ∧ g / 2 ^ 224 = 0) ∧
  (∀ st : Nat, st < 16 → ∃ w, w < 2 ^ 16 ∧ w % 16 = st ∧ noGroup st = emptyGroup w) ∧
  ∀ (s : State) (u : Thread) (m : Mesh) (key slot rel count : Nat) (wrap : Bool), key < 2 ^ 64 → slot < 2 ^ 32 → rel < 4 →
    let t := m.reps.getD (coreDie u.core) m.table
    let own := t.owner key
    let old := if t.moving key then t.oldOwner key else own
    own < 512 → old < 512 →
    let g := s.group u m key slot rel count wrap
    g % 2 ^ 64 = key ∧ bitsOf g 67 64 = 0 ∧ bitsOf g 69 68 = rel ∧ bitOf g 70 = t.moving key ∧ bitOf g 71 = wrap ∧
      bitsOf g 79 72 = Nat.min count 255 ∧ bitsOf g 127 96 = slot ∧ bitsOf g 136 128 = own ∧ bitsOf g 152 144 = old ∧
      bitsOf g 191 160 = (routeTo s.goneUnits u.core own).toNat ∧ bitsOf g 223 192 = (routeTo s.goneUnits u.core old).toNat ∧
      bitsOf g 255 224 = t.ver % 2 ^ 32

/-- What KMESH.def accepts (R63, R67, Tables 3-4 and 3-5): for records that pass every check it answers 0 and the mesh is live, with its
segments and cuts as its records give them, version 0, and a replica on each die; for others it answers REJECT and changes nothing. A count outside
its field's range is refused too (assumption log 16), the leaves are checked in curve order however they stand (assumption log 85), and the
records are read where they are needed (assumption log 18). -/
def MeshDefinition : Prop :=
  ∀ (s : State) (L : Latch) (m : BitVec 3) (d a : Reg), s.executes L (.kmeshDef m d a) →
    let u0 := s.advance L
    ∀ u, u0.lowest L = some u →
      let o := u0.originOf u
      let va := (u.vv a).toNat
      let answers := fun (r : Nat) (t : State) => exec (.kmeshDef m d a) s =
        .next (((u0.lanes L).foldl (fun t x => t.updThread L.core x.slot (Thread.willWrite d 1 r 0)) t).finish (.kmeshDef m d a) L)
      (va % 64 ≠ 0 ∨ (u0.mesh? o.ctx m.toNat).isSome → answers 7 u0) ∧
      (va % 64 = 0 → u0.mesh? o.ctx m.toNat = none → ∀ v s1, (∀ f : Nat → State → MeshRes, u0.recordRead o u va 8 f = f v s1) →
        let desc := v % 2 ^ 4
        let ncut := bitsOf v 26 16
        let cutsVa := bitsOf v 127 64
        let segsVa := bitsOf v 191 128
        let nslots := bitsOf v 223 192
        (s1.curve? o.ctx desc = none → answers 7 s1) ∧
        ∀ c, s1.curve? o.ctx desc = some c →
          let header := bitsOf v 15 4 = 0 ∧ bitsOf v 63 27 = 0 ∧ v / 2 ^ 224 = 0 ∧ 1 ≤ ncut ∧ ncut ≤ 1024 ∧ 1 ≤ nslots ∧ cutsVa % 16 = 0 ∧ segsVa % 8 = 0
          (¬ header → answers 7 s1) ∧
          (header → ∀ sv s2, (∀ f : Nat → State → MeshRes, s1.recordRead o u segsVa 16 f = f sv s2) →
            let gs := (upTo 4).map fun i => Seg.ofBytes (sv / 2 ^ (256 * i) % 2 ^ 256)
            let placed := ∀ g ∈ gs, g.lbase % 16 = 0 ∧ g.sbase % 4 = 0 ∧ g.lcount ≤ g.lcap ∧ g.scount ≤ g.scap ∧ (0 < g.lcap → nslots ≤ g.scap)
            (¬ placed → answers 7 s2) ∧
            (placed → ∀ cv s3, (∀ f : Nat → State → MeshRes, s2.recordRead o u cutsVa (2 * ncut) f = f cv s3) →
              let recs := (upTo ncut).map fun i => cv / 2 ^ (128 * i) % 2 ^ 128
              let key := fun (r : Nat) => r % 2 ^ 64
              let own := fun (r : Nat) => bitsOf r 72 64
              let cut := recs.head?.map key = some 0 ∧ recs.Pairwise (fun x y => sortValue (key x) < sortValue (key y)) ∧
                ∀ r ∈ recs, r / 2 ^ 73 = 0 ∧ c.keyOk (key r) = true ∧ ∃ g, gs[own r / 128]? = some g ∧ 0 < g.lcap
              (¬ cut → answers 7 s3) ∧
              (cut → ∀ ls s4, (∀ f : List LeafRec → State → MeshRes, s3.readSegs o 0 [] f gs = f ls s4) → ∀ held s5,
                (∀ f : List Nat → State → MeshRes, s4.readStacks o [] f gs = f held s5) →
                let t : CutTable := { cuts := recs.map fun r => { key := key r, own := own r } }
                let size := fun (r : LeafRec) => 2 ^ (58 - r.key / 2 ^ 58 * c.d)
                let sorted := sortLeaves ls
                let slots := ls.map (·.slot) ++ held
                let leaves :=
                  (∀ r ∈ ls, r.res = 0 ∧ r.mig = false ∧ c.keyOk r.key = true ∧ c.minlev ≤ r.key / 2 ^ 58 ∧ r.seg = t.owner r.key / 128) ∧
                  (∀ i r, sorted[i]? = some r → r.key % 2 ^ 58 = ((sorted.take i).map size).sum) ∧ (sorted.map size).sum = 2 ^ 58 ∧
                  (∀ x ∈ slots, x < nslots) ∧ slots.Nodup ∧
                  (c.bal = true → ∀ r ∈ ls, c.coarserBy ls r.key 1 = false)
                (¬ leaves → answers 7 s5) ∧
                (leaves → answers 0 (s5.updEng fun g => { g with meshes := g.meshes ++
                  [{ ctx := o.ctx, num := m.toNat, desc := desc, cutsVa := cutsVa, segsVa := segsVa, nslots := nslots, segs := gs
                     table := t, reps := [t, t, t, t] }] })))))) ∧
      ((∀ l : List LeafRec, (sortLeaves l).Perm l ∧ (sortLeaves l).Pairwise fun x y => sortValue x.key ≤ sortValue y.key))

/-- KREBAL (R313, R314): its checks in their order, with the current version of the issuing die's replica; the new keys, each stretch divided
as R313 says; FULL; and the install: the records of the migrating leaves take MIG, the moved cuts are MOVING, and version v + 1 stands. -/
def Rebalancing : Prop :=
  (∀ (s : State) (u : Thread) (n va : Nat) (clear : Bool),
    let o := s.originOf u
    ∀ mask s1, (∀ f : Nat → State → MeshRes, s.recordRead o u (va / 8 * 8) 16 f = f mask s1) →
    (s1.mesh? o.ctx n = none → s.rebalance u n va clear = .val 6 s1) ∧
    ∀ m c, s1.mesh? o.ctx n = some m → s1.curve? o.ctx m.desc = some c →
      let ver := 2 ^ 32 * ((m.reps.getD (coreDie u.core) m.table).ver % 2 ^ 32)
      let flying := m.inFlight = true ∨ m.msgs ≠ [] ∨ m.waiter ≠ []
      let bad := mask.testBit 0 = true ∨ ∃ j, m.table.cuts.length ≤ j ∧ mask.testBit j = true
      (flying → s.rebalance u n va clear = .val (ver + 2) s1) ∧
      (¬ flying → bad → s.rebalance u n va clear = .val (ver + 12) s1) ∧
      (¬ flying → ¬ bad → ∀ l s2, (∀ f : List LeafRec → State → MeshRes, s1.leaves o m c (fun s => .val (ver + 7) s) f = f l s2) →
        ∀ marks : List (Nat × Bool), marks.length = m.table.cuts.length →
          (∀ j x, m.table.cuts[j]? = some x → marks[j]? = some (x.key, mask.testBit j)) →
          (newKeys l marks = none → s.rebalance u n va clear = .val (ver + 13) s2) ∧
          ∀ keys, newKeys l marks = some keys →
            let t := m.table.move keys
            let full := ∃ d g, m.segs[d]? = some g ∧ g.lcap < (l.filter fun r => t.owner r.key / 128 == d).length
            (keys = m.table.cuts.map (·.key) → s.rebalance u n va clear = .val ver s2) ∧
            (keys ≠ m.table.cuts.map (·.key) → full → s.rebalance u n va clear = .val (ver + 9) s2) ∧
            (keys ≠ m.table.cuts.map (·.key) → ¬ full → s.rebalance u n va clear = s2.install o m l t clear))) ∧
  (∀ l : List LeafRec, newKeys l [] = some []) ∧
  (∀ (l : List LeafRec) (k : Nat) (movable rest : List (Nat × Bool)), (∀ x ∈ movable, x.2 = true) → (∀ x, rest.head? = some x → x.2 = false) →
    let above := match rest.head? with | some x => sortValue x.1 | none => 2 ^ 64
    let mine := l.filter fun r => sortValue k ≤ sortValue r.key && sortValue r.key < above
    (mine.length < movable.length + 1 → newKeys l ((k, false) :: movable ++ rest) = none) ∧
    (movable.length + 1 ≤ mine.length → newKeys l ((k, false) :: movable ++ rest) = (newKeys l rest).map fun keys =>
      k :: ((rangeStarts (movable.length + 1) (mine.map (·.cost))).map fun i => (mine.map (·.key)).getD i 0) ++ keys)) ∧
  (∀ (n : Nat) (costs : List Nat), 1 ≤ n → n ≤ costs.length →
    let c := if costs.sum = 0 then costs.map fun _ => 1 else costs
    let rank := fun (j : Nat) => Nat.min (n - 1) ((2 * n * (c.take j).sum + n * c.getD j 0) / (2 * c.sum))
    (rangeStarts n costs).length = n - 1 ∧
    ∀ m, 1 ≤ m → m < n → ∃ a, a ≤ c.length ∧ (∀ j, j < a → rank j < m) ∧ (a < c.length → m ≤ rank a) ∧
      (rangeStarts n costs)[m - 1]? = some (Nat.min (Nat.max a ((if m = 1 then 0 else (rangeStarts n costs).getD (m - 2) 0) + 1)) (c.length - n + m))) ∧
  (∀ (t : CutTable) (keys : List Nat), keys.length = t.cuts.length →
    (t.move keys).ver = t.ver + 1 ∧ (t.move keys).cuts.length = t.cuts.length ∧
    ∀ (j : Nat) (x : Cut) (k : Nat), t.cuts[j]? = some x → keys[j]? = some k → (t.move keys).cuts[j]? = some (if x.key = k then x else
      { x with key := k, own := x.own, st := true, old := t.owner k, ver := (t.ver + 1) % 2 ^ 32, oldKey := x.key })) ∧
  ∀ (s : State) (o : Origin) (m : Mesh) (l : List LeafRec) (t : CutTable) (clear : Bool),
    let moving := l.filter fun r => t.owner r.key != m.table.owner r.key
    ∃ s' f marks, s.install o m l t clear = State.curveWrites s' o f marks ∧
      (∀ w, w ∈ marks ↔ ∃ r g, r ∈ moving ∧ m.segs[r.seg]? = some g ∧ w = (g.lbase + 16 * r.idx + 12, 1, 1)) ∧
      ∀ t1, ∃ t2, f t1 = .val (2 ^ 64 + 2 ^ 32 * (t.ver % 2 ^ 32)) t2 ∧ ∀ x, t2.mesh? m.ctx m.num = some x →
        x.inFlight = true ∧ x.clear = clear ∧ x.migr.map (·.key) = moving.map (·.key) ∧
        x.table.ver = t.ver ∧ x.table.left = moving.length

/-- An addition to a cost counter (R70, R310): the cost of the leaf whose cell holds the key's, with saturation, and no other byte; nothing is
added for a mesh that is not live, a key that is not well-formed, or a cell that no one leaf holds. -/
def CostCounters : Prop :=
  ∀ (s : State) (o : Origin) (n k amt : Nat),
    (s.mesh? o.ctx n = none → s.addCost o n k amt false = .val 0 s) ∧
    ∀ m c, s.mesh? o.ctx n = some m → s.curve? o.ctx m.desc = some c →
      (c.keyOk k = false → s.addCost o n k amt false = .val 0 s) ∧
      (c.keyOk k = true → ∀ l s', (∀ f : List LeafRec → State → MeshRes, s.leaves o m c (fun s => .val 0 s) f = f l s') →
        ((∀ r ∈ l, c.contains r.key k = false) → s.addCost o n k amt false = .val 0 s') ∧
        ∀ r g, c.leafOver l k = some r → m.segs[r.seg]? = some g → c.contains r.key k = true ∧ s.addCost o n k amt false =
          s'.curveWrites o (fun t => .val 0 t) [(g.lbase + 16 * r.idx + 14, 2, Nat.min 65535 (r.cost + amt))])

/-- KCOST, KCUTQ, KREBAL and the KMESH forms (R309, R310, R312, R314). A lens entry that is loading counts for KMESH.rel (assumption log 70), and
a record that violates the private window stops every executing lane (assumption log 80). -/
def MeshInstructions : Prop :=
  ∀ (s : State) (L : Latch) (m : BitVec 3) (n : BitVec 4) (clr : Bool) (d a : Reg),
    let u0 := s.advance L
    let lanes := u0.lanes L
    (s.executes L (.kcost m d a) → Ends s L (.kcost m d a) (lanes.foldl (fun t u =>
      match t.addCost (t.originOf u) m.toNat (u.vv a).toNat (Nat.min (u.v d).toNat 65535) false with
      | .val _ t' => t'
      | r => t.meshEnd L [u] d 0 m.toNat r) u0)) ∧
    (s.executes L (.kcutq m d a) → Completes s L (.kcutq m d a) (fun u => Thread.willWrite d 4 (
      match s.mesh? (s.ctxOf u) m.toNat with
      | none => 2 ^ 128 - 1
      | some x =>
        let r := x.reps.getD (coreDie L.core) x.table
        if u.v a = 0xFFFFFFFF then r.ver % 2 ^ 32 + 2 ^ 32 * r.cuts.length + 2 ^ 64 * (if ∃ c ∈ r.cuts, c.st = true then 1 else 0) + 2 ^ 96 * r.left
        else match r.cuts[(u.v a).toNat]? with
          | some c => c.key + 2 ^ 64 * c.own + (if c.st then 2 ^ 79 + 2 ^ 80 * c.old else 0) + 2 ^ 96 * c.ver
          | none => 2 ^ 128 - 1) 0 u) id) ∧
    ∀ u, u0.lowest L = some u →
      let o := u0.originOf u
      let va := (u.vv a).toNat
      let answers := fun (i : Instr) (r v : Nat) (t : State) =>
        Ends s L i (lanes.foldl (fun t x => t.updThread L.core x.slot (Thread.willWrite d r v 0)) t)
      (s.executes L (.kmeshCurve n d a) →
        (va % 16 ≠ 0 ∨ (∃ x ∈ s.eng.meshes, x.ctx = o.ctx ∧ x.desc = n.toNat) → answers (.kmeshCurve n d a) 1 7 u0) ∧
        (va % 16 = 0 → (∀ x ∈ s.eng.meshes, ¬ (x.ctx = o.ctx ∧ x.desc = n.toNat)) →
          ∀ h s', (∀ f : Nat → State → MeshRes, u0.recordRead o u va 2 f = f h s') →
          (curveHeaderOk (h % 2 ^ 64) (h / 2 ^ 64) = false → answers (.kmeshCurve n d a) 1 7 s') ∧
          (curveHeaderOk (h % 2 ^ 64) (h / 2 ^ 64) = true → ∀ v s'',
            (∀ f : Nat → State → MeshRes, s'.recordRead o u ((va + 16) % 2 ^ 64) (curveEntries (h % 2 ^ 64) / 4) f = f v s'') →
            let entries := (upTo (curveEntries (h % 2 ^ 64))).map fun i => v / 2 ^ (16 * i) % 2 ^ 16
            (curveTableOk (h % 2 ^ 64) entries = false → answers (.kmeshCurve n d a) 1 7 s'') ∧
            (curveTableOk (h % 2 ^ 64) entries = true → answers (.kmeshCurve n d a) 1 0
              (s''.putCurve (Curve.ofRecord o.ctx n.toNat (h % 2 ^ 64) entries)))))) ∧
      (s.executes L (.kmeshRel m d) →
        (u0.mesh? o.ctx m.toNat = none → answers (.kmeshRel m d) 1 6 u0) ∧
        ∀ x, u0.mesh? o.ctx m.toNat = some x →
          let flying := x.inFlight = true ∨ x.msgs ≠ [] ∨ x.waiter ≠ []
          let busy := u0.lensNames o.ctx m.toNat = true ∨ flying ∨ u0.nodeBusy o.ctx m.toNat = true
          (busy → answers (.kmeshRel m d) 1 2 u0) ∧
          (¬ busy → Ends s L (.kmeshRel m d) (u0.meshEnd L lanes d 1 m.toNat (u0.recordWrites o u (fun t => .val 0
            { t with eng := { t.eng with meshes := t.eng.meshes.filter fun y => !(y.ctx == o.ctx && y.num == m.toNat) } }) x.image)))) ∧
      (s.executes L (.krebal clr m d a) →
        let r := u0.rebalance u m.toNat va clr
        (∀ v t, r = .val v t → v < 2 ^ 64 → answers (.krebal clr m d a) 2 v t) ∧
        (∀ v t, r = .val v t → 2 ^ 64 ≤ v → Ends s L (.krebal clr m d a) ((lanes.foldl (fun t x =>
          let t' := t.newId.2.updThread L.core x.slot fun y =>
            { y.addPending { id := t.newId.1, parts := 1, dests := y.rowsFrom d.toNat 2 } with status := .parked (.rebal (u0.ctxOf u) m.toNat) }
          t'.updMesh (u0.ctxOf u) m.toNat fun y => { y with waiter := y.waiter ++ [(L.core, x.slot, t.newId.1)] }) t).settleRebal
            (u0.ctxOf u) m.toNat)) ∧
        (r = .wait → Ends s L (.krebal clr m d a) (lanes.foldl (fun t x => t.parkReplay L x.slot .retry) u0)) ∧
        (∀ ks, r = .mig ks → Ends s L (.krebal clr m d a)
          (lanes.foldl (fun t x => t.parkReplay L x.slot (.mig (t.ctxOf x) m.toNat ks)) u0)) ∧
        (∀ k reason x t, r = .fault k reason x t → Ends s L (.krebal clr m d a) (u0.meshPark L lanes k reason x)) ∧
        (r = .stop → Ends s L (.krebal clr m d a) (u0.stopAll L lanes)))

end Sys2Proof.Claims

/-- KNBR, KNEXT, KOWN, KCOST, KCUTQ, KREBAL and KMESH. -/
def Obligations.MeshInstructions : Prop :=
    Claims.MeshLookups ∧
    Claims.MeshDefinition ∧
    Claims.Rebalancing ∧
    Claims.CostCounters ∧
    Claims.MeshInstructions

namespace Sys2Proof.Claims

/-- SWBEG (R320 to R329, R335): a lens without contexts, or a read-only one, is a format fault; while no job runs, a fence of qs holds the
word; else the schedule is read as a lens record is, at its address cut to a multiple of 32 (assumption log 12), and a job that passes the checks
of Table 16-4 stands in the core's engine, or a status says why not. An init address that is not a multiple of 4 is a bad schedule (assumption log 9), a
position that several tuples share is one element (assumption log 13), a read that faults parks the other lanes with the issuing one
(assumption log 15), and the engine's own accesses are made for no thread (R342). -/
def SweepBegins : Prop :=
  (∀ (s : State) (L : Latch) (d a : Reg) (imm : Imm), s.executes L (.swbeg d a imm) →
    let u0 := s.advance L
    let fenced := ∃ e ∈ u0.eng.queue, e.core = L.core ∧ e.queue = .qs ∧ ∃ n, e.item = .fence n
    let runs := ∃ j, s.job? L.core = some j ∧ j.running = true
    NeedsLens s L (.swbeg d a imm) imm.toNat fun l snap =>
      (l.ctx = 0 ∨ l.ro = true → Traps s L (.swbeg d a imm) 12 0) ∧
      (l.ctx ≠ 0 → l.ro = false → fenced → ¬ runs → Stalls s L (.swbeg d a imm) u0) ∧
      (l.ctx ≠ 0 → l.ro = false → (fenced → runs) → ∀ u, u0.lowest L = some u → ∀ sched s',
        (∀ f : List Word → State → MeshRes, u0.schedRead (u0.originOf u) u ((u.vv a).toNat / 32 * 32) f = f sched s') →
        let r := s'.begin L u imm.toNat (u.v d).toNat (u.reg (d.toNat + 1)).toNat (u.pair (a.toNat + 2)).toNat l snap sched
        ((l.isQ4 = true ∨ l.isLut = true) → schedNword sched ≠ 0 → Traps s L (.swbeg d a imm) 12 0) ∧
        (¬ ((l.isQ4 = true ∨ l.isLut = true) ∧ schedNword sched ≠ 0) →
          (∀ t, r = .val formatFault t → Traps s L (.swbeg d a imm) 12 0) ∧
          (∀ v t, r = .val v t → v ≠ formatFault → exec (.swbeg d a imm) s = .next
            (((u0.lanes L).foldl (fun t x => t.updThread L.core x.slot (Thread.willWrite d 2 v 0)) t).finish (.swbeg d a imm) L)) ∧
          (∀ k reason x t, r = .fault k reason x t → Ends s L (.swbeg d a imm) (u0.sweepPark L u reason x)) ∧
          (r = .wait → Ends s L (.swbeg d a imm) ((u0.lanes L).foldl (fun t x => t.parkReplay L x.slot .retry) u0))))) ∧
  (∀ (s : State) (L : Latch) (u : Thread) (n team part stamp : Nat) (l : Lens) (snap sched : List Word),
    let r := s.begin L u n team part stamp l snap sched
    let o := { s.originOf u with unit := true }
    let runs := ∃ j, s.job? L.core = some j ∧ j.running = true
    let mine := team < 64 ∧ s.team? L.core team ≠ none ∧ team ∈ u.teams
    let count := if part / 65536 = 0 then 1 else part / 65536
    let j : Job :=
      { core := L.core, team := team, task := u.task, ctx := o.ctx, lens := n, snap := snap, sched := sched, stamp := stamp
        priv := o.priv, elems := [] }
    (runs → r = .val 1 s) ∧
    (¬ runs → schedOk sched = false → r = .val 2 s) ∧
    (¬ runs → schedOk sched = true → ¬ mine → r = .val 4 s) ∧
    (¬ runs → schedOk sched = true → mine → l.order ≠ 2 → count ≤ part % 65536 → r = .val 5 s) ∧
    (¬ runs → schedOk sched = true → mine → l.order ≠ 2 → part % 65536 < count →
      262144 < (part % 65536 + 1) * l.count / count - part % 65536 * l.count / count → r = .val 3 s) ∧
    (¬ runs → schedOk sched = true → mine → l.order ≠ 2 → part % 65536 < count →
      ∀ ps, sweepRange l (part % 65536) count = some ps → r = s.startOver L u j ps o) ∧
    (¬ runs → schedOk sched = true → mine → l.order = 2 → s.mesh? o.ctx l.mesh = none → r = .val formatFault s) ∧
    (¬ runs → schedOk sched = true → mine → l.order = 2 → ∀ m, s.mesh? o.ctx l.mesh = some m → ∀ rs s',
      (∀ f : List LeafRec → State → MeshRes, s.readSegs o 0 [] f m.segs = f rs s') →
      let at_ := ((sortLeaves rs).filter fun x => (m.rep (coreDie L.core)).owner x.key == L.core).flatMap fun x =>
        (upTo (l.extK 0)).map fun c => c + x.slot * l.strideK 1
      (262144 < at_.length → r = .val 3 s') ∧ (at_.length ≤ 262144 → r = s'.startOver L u j at_ o))) ∧
  ∀ (s : State) (L : Latch) (u : Thread) (j : Job) (at_ keys : List Nat) (o : Origin) (s1 : State),
    let va := fun (p : Nat) => (Lens.ofWords j.snap).ctxAddr p % 2 ^ 64
    (∀ f : List Nat → State → MeshRes, s.register o [] f (at_.map va) = f keys s1) →
    let ps := at_.zip keys
    (j.stamp = 0 → schedInit j.sched = 0 → s.startOver L u j at_ o = s1.startWith L u j ps (ps.map fun _ => 0) true o) ∧
    (j.stamp ≠ 0 → ∀ v s2, (∀ f : Nat → State → MeshRes, s1.swRead o j.stamp 8 f = f v s2) → v = schedSig j.sched → ∀ ws s3,
      (∀ f : List Nat → State → MeshRes, s2.swReads o 4 [] f (at_.map va) = f ws s3) →
      s.startOver L u j at_ o = s3.startWith L u { j with warm := true } ps ws false o) ∧
    ∀ (ws : List Nat) (cold : Bool),
      let conds := ws.map fun w => s.condNow j (BitVec.ofNat 32 w)
      let full : Job :=
        { j with
          elems := (ps.zip conds).map fun x => { pos := x.1.1, key := x.1.2, cond := match x.2 with | some c => c | none => .done } }
      (none ∈ conds → s.startWith L u j ps ws cold o = .val formatFault s) ∧
      (none ∉ conds → cold = false → s.startWith L u j ps ws cold o = s.startJob L u full) ∧
      (none ∉ conds → cold = true → s.startWith L u j ps ws cold o =
        s.swWrites o (fun t => t.startJob L u full) ((ps.map fun p => va p.1).zip ws)) ∧
      (∀ t, j.core = L.core → s.releaseCore L.core j.scope (L.exec ++ s.busySlots L.core).eraseDups = some t → full.elems ≠ [] → ∃ t',
        s.startJob L u full = .val (2 ^ 32 * full.elems.length) t' ∧ t'.job? L.core = some full)

/-- SWNEXT (R324, R328, R336): a lane that holds an element traps; a lane without a running job acquires and receives END; the others receive
the batch of their job, or park when it hands out none. -/
def SweepNext : Prop :=
  (∀ (s : State) (L : Latch), s.executes L .swnext →
    let u0 := s.advance L
    let lanes := u0.lanes L
    let bad := ∃ u ∈ lanes, u.dispatch ≠ none ∨ u.regs.length ≤ u.wb + u0.nextTop u
    let runs := fun (u : Thread) => match u0.jobOf u with | some j => j.running | none => false
    let ended := (lanes.filter fun u => !runs u).foldl (fun t u =>
      (t.acquire L.core u.slot (match t.jobOf u with | some j => Scope.widen j.scope .pkg | none => .pkg)).sweepAnswer L.core u.slot
        0xFFFFFFFF) u0
    (bad → Traps s L .swnext 1 0) ∧
    (¬ bad → lanes.filter runs = [] → exec .swnext s = .next (ended.finish .swnext L)) ∧
    (¬ bad → lanes.filter runs ≠ [] → ∀ j, ended.job? L.core = some j →
      let es := if ended.jobActs j then j.batch (lanes.filter runs).length else []
      (es ≠ [] → exec .swnext s = .next ((ended.handBatch L.core es L.first ((lanes.filter runs).map (·.slot))).finish .swnext L)) ∧
      (es = [] → Ends s L .swnext ((lanes.filter runs).foldl (fun t u => t.updThread L.core u.slot fun u =>
        { u with status := .parked (.sweep true L.first.toNat ended.newId.1) }) ended.newId.2)))) ∧
  (∀ (s : State) (u : Thread), s.nextTop u = match s.jobOf u with | some j => 1 + schedNword j.sched | none => 0) ∧
  (∀ (s : State) (j : Job), s.jobActs j = true ↔ j.running = true ∧ j.halted = false ∧ s.acting j.task = true ∧
    ((∀ e ∈ j.elems, e.out = false) → j.sweeps < schedNsweep j.sched ∧ (∃ e ∈ j.elems, e.cond ≠ .done) ∧ j.abort = false ∧
      ∃ u ∈ s.threads, u.core = j.core ∧ u.live = true ∧ j.team ∈ u.teams)) ∧
  (∀ (j : Job) (n : Nat), (j.batch n).length ≤ Nat.min n 32 ∧ ∀ e ∈ j.batch n, e ∈ j.elems ∧ e.out = false ∧ e.dispatched = false ∧
    (e.cond = .awake ∨ (∃ k, e.cond = .flag k) ∧ e.full = true)) ∧
  ∀ (s : State) (c : Nat) (es : List Elem) (addr : Pair) (k : Nat) (ks : List Nat) (e : Elem),
    s.handBatch c [] addr (k :: ks) = (s.sweepAnswer c k 0xFFFFFFFE).handBatch c [] addr ks ∧
    s.handBatch c (e :: es) addr (k :: ks) = (s.hand c k e addr).handBatch c es addr ks

/-- SWRET, SWAKE, SWEND and SWSTAT (R328, R333, R337 to R340). -/
def SweepInstructions : Prop :=
  ∀ (s : State) (L : Latch) (ab : Bool) (d a : Reg) (imm : Imm),
    let u0 := s.advance L
    let lanes := u0.lanes L
    (s.executes L (.swret a) →
      ((∃ u ∈ lanes, u.dispatch = none) ∨ u0.job? L.core = none → Traps s L (.swret a) 1 0) ∧
      ((∀ u ∈ lanes, u.dispatch ≠ none) → ∀ j, u0.job? L.core = some j →
        ((∃ u ∈ lanes, condOf j.sched (u0.jobLines j) (u.v a) = none) → Traps s L (.swret a) 12 0) ∧
        ((∀ u ∈ lanes, condOf j.sched (u0.jobLines j) (u.v a) ≠ none) →
          Accesses s L (.swret a) .write (lanes.map fun u => { slot := u.slot, width := 4, va := match u.dispatch with
            | some r => (Lens.ofWords j.snap).ctxAddr r.elem % 2 ^ 64
            | none => 0 })
          fun go t => t.eachLane L (lanes.filter go) fun t u => t.returnElem L.core u.slot (u.v a)))) ∧
    (s.executes L (.swake d a imm) → NeedsLens s L (.swake d a imm) imm.toNat fun l _ =>
      let va := fun (u : Thread) => l.ctxAddr (u.v a).toNat % 2 ^ 64
      let on := lanes.filter fun u => l.holds (u.v a).toNat
      let off := lanes.filter fun u => !l.holds (u.v a).toNat
      (l.ctx = 0 ∨ l.ro = true → Traps s L (.swake d a imm) 12 0) ∧
      (l.ctx ≠ 0 → l.ro = false → Accesses s L (.swake d a imm) .write (on.map fun u => { slot := u.slot, va := va u, width := 4 })
        fun go t => (off.foldl (fun t u => t.updThread L.core u.slot (Thread.willWrite d 1 0xFFFFFFFF 0)) t).eachLane L (on.filter go)
          fun t u => t.wakeLane L u d (va u) (u.reg (a.toNat + 1)).toNat)) ∧
    (s.executes L (.swend ab d) → Ends s L (.swend ab d) (lanes.foldl (fun t u =>
      match t.jobOf u with
      | none => t.updThread L.core u.slot (Thread.willWrite d 1 0xFFFFFFFF 0)
      | some j =>
        if j.running then (if ab then t.updJob L.core fun j => { j with abort := true } else t).updThread L.core u.slot fun x =>
          { x with status := .parked (.sweep false (u.wb + d.toNat) u0.newId.1) }
        else (t.acquire L.core u.slot (Scope.widen j.scope .pkg)).updThread L.core u.slot
          (Thread.willWrite d 1 (j.sweeps % 2 ^ 32) 0)) u0.newId.2)) ∧
    (s.executes L (.swstat d imm) → imm.toNat ≤ 4 ∧ Completes s L (.swstat d imm) (fun u => Thread.willWrite d 1 (match s.jobOf u with
      | none => 0xFFFFFFFF
      | some j => (match imm.toNat with
        | 0 => j.sweeps
        | 1 => (j.elems.filter fun e => e.cond == .done).length
        | 2 => (if j.running then 1 else 0) + (if j.warm then 2 else 0) + (if j.abort then 4 else 0)
            + (if j.running = false ∧ ∀ e ∈ j.elems, e.cond = .done then 8 else 0)
        | 3 => j.elems.length
        | _ => (j.elems.filter (·.abandoned)).length) % 2 ^ 32) 0 u) id)

/-- SWRET, SWAKE, SWEND and SWSTAT complete (R337 to R340): where each lane holds an element and returns a valid word, where the lens has
contexts and is writable, and always, and every word that is written has its translation, the step answers the state with their effect. -/
def SweepInstructionsComplete : Prop :=
  ∀ (s : State) (L : Latch) (ab : Bool) (d a : Reg) (imm : Imm),
    let u0 := s.advance L
    let lanes := u0.lanes L
    (s.executes L (.swret a) → ∀ j, u0.job? L.core = some j →
      (∀ u ∈ lanes, u.dispatch ≠ none ∧ condOf j.sched (u0.jobLines j) (u.v a) ≠ none) →
      u0.untranslated L.core .write (lanes.map fun u => { slot := u.slot, width := 4, va := match u.dispatch with
        | some r => (Lens.ofWords j.snap).ctxAddr r.elem % 2 ^ 64
        | none => 0 }) = [] →
      exec (.swret a) s = .next
        ((u0.eachLane L lanes fun t u => t.returnElem L.core u.slot (u.v a)).finish (.swret a) L)) ∧
    (s.executes L (.swake d a imm) →
      let e := u0.lens (u0.latchCtx L) imm.toNat
      let l := Lens.ofWords e.snap
      let on := lanes.filter fun u => l.holds (u.v a).toNat
      let off := lanes.filter fun u => !l.holds (u.v a).toNat
      e.state = .loaded → l.ctx ≠ 0 → l.ro = false →
      u0.untranslated L.core .write (on.map fun u => { slot := u.slot, va := l.ctxAddr (u.v a).toNat % 2 ^ 64, width := 4 }) = [] →
      exec (.swake d a imm) s = .next
        (((off.foldl (fun t u => t.updThread L.core u.slot (Thread.willWrite d 1 0xFFFFFFFF 0)) u0).eachLane L on fun t u =>
          t.wakeLane L u d (l.ctxAddr (u.v a).toNat % 2 ^ 64) (u.reg (a.toNat + 1)).toNat).finish (.swake d a imm) L)) ∧
    (s.executes L (.swend ab d) → ∃ t, exec (.swend ab d) s = .next t ∧ t.issue = none ∧
      ∀ a, Memory.read t.mem.cells a = Memory.read s.mem.cells a) ∧
    (s.executes L (.swstat d imm) → ∃ t, exec (.swstat d imm) s = .next t ∧ t.issue = none ∧ t.mem = s.mem ∧ t.eng = s.eng)

/-- SWRET for one lane (R337): its context word is written at its home and every other byte stays, the element is no longer out, and the
lane goes on at the SWNEXT that handed it out. -/
def ReturnedElements : Prop :=
  ∀ (s s' : State) (c k : Nat) (w : Word) (u : Thread) (j : Job) (r : SweepRec) (l : Leaf),
    s.thread? c k = some u → s.job? c = some j → u.dispatch = some r →
    let va := (Lens.ofWords j.snap).ctxAddr r.elem % 2 ^ 64
    let key := l.key va
    s.leafOf u va = some l → s.mem.retry (some c) key 4 = false → s.mem.reqs = [] → s.mem.watches = [] → j.held = [] → s.eng.owed = [] →
    Memory.wf s.mem.cells = true → key % 4 = 0 → (s.mem.owner? key) = none →
    s.returnElem c k w = some s' →
    Memory.readN s'.mem.cells key 4 = w.toNat ∧
    (∀ x, x < key ∨ key + 4 ≤ x → Memory.read s'.mem.cells x = Memory.read s.mem.cells x) ∧
    s'.thread? c k = some { u with dispatch := none, pc := r.addr, repLeft := 0 } ∧
    ∃ j', s'.job? c = some j' ∧ j'.elems = updWhere (fun e => e.pos == r.elem) (fun e => { e with
      out := false, full := false, cond := match condOf j.sched (s.jobLines j) w with | some x => x | none => .done }) j.elems

end Sys2Proof.Claims

/-- SWBEG, SWNEXT, SWRET, SWAKE, SWEND and SWSTAT. -/
def Obligations.SweepInstructions : Prop :=
    Claims.SweepBegins ∧
    Claims.SweepNext ∧
    Claims.SweepInstructions ∧
    Claims.SweepInstructionsComplete ∧
    Claims.ReturnedElements

namespace Sys2Proof.Claims

/-- EDGEQ and GANGQ (R83, R103). Of two live pours with one frame, the one that started first answers (assumption log 68). -/
def LaunchQueries : Prop :=
  ∀ (s : State) (L : Latch) (d a : Reg) (imm : Imm),
    (s.executes L (.edgeq d a imm) → imm.toNat ≤ 127 ∧ Completes s L (.edgeq d a imm) (fun u =>
      Thread.willWrite d 1 (match (s.ctx? (s.ctxOf u)).bind fun c => c.livePours.find? fun p => p.frame == (u.vv a).toNat with
        | some p => (match p.bits[imm.toNat]? with
          | some bits => bits.length
          | none => 0xFFFFFFFF)
        | none => 0xFFFFFFFF) 0 u) id) ∧
    (s.executes L (.gangq d a imm) → imm.toNat ≤ 5 ∧ Completes s L (.gangq d a imm) (fun u =>
      let members : List (MemberState × Nat) := match s.gangOf u with | some (g, _) => g.members.map (·.2) | none => [(.running, u.core)]
      let m := members[(u.v a).toNat]?
      let started := ((members.zipIdx.filter fun (x : (MemberState × Nat) × Nat) => x.1.1 != MemberState.unstarted).map fun (x : (MemberState × Nat) × Nat) => 2 ^ x.2).sum
      Thread.willWrite d 1 (match imm.toNat with
        | 0 => (match s.gangOf u with | some (_, i) => i | none => 0)
        | 1 => members.length
        | 2 => started % 2 ^ 32
        | 3 => started / 2 ^ 32
        | 4 => (match m with
          | some (.unstarted, _) => 0
          | some (.running, _) => 1
          | some (.retired, _) => 2
          | none => 0xFFFFFFFF)
        | _ => (match m with
          | some (.unstarted, _) => 0xFFFFFFFF
          | some (_, core) => core
          | none => 0xFFFFFFFF)) 0 u) id)

/-- POUR (R80, R82): each executing lane in ascending order launches the pour its descriptor names. A malformed descriptor is status 2, a
full distributor status 1, a malformed mould status 3; a lane whose record does not translate parks and launches nothing, with a record of kind read
(assumption log 24). -/
def PourLaunchesPerLane : Prop :=
  (∀ (s : State) (L : Latch) (d a : Reg) (imm : Imm), s.executes L (.pour d a imm) →
    let u0 := s.advance L
    Ends s L (.pour d a imm) ((u0.lanes L).foldl (fun t u =>
      match t.pourFor u d (u.addr a imm / 64 * 64) with
      | .val 0 t' => t'
      | .val st t' => t'.updThread L.core u.slot (Thread.willWrite d 1 st 0)
      | .fault k r va _ => t.meshPark L [u] (if k = .mesh then .read else k) r va
      | .wait => t.parkReplay L u.slot .retry
      | .mig ks => t.parkReplay L u.slot (.mig (t.ctxOf u) 0 ks)
      | .stop => t.stopAll L [u]) u0)) ∧
  ∀ (s : State) (u : Thread) (d : Reg) (va v : Nat) (t : State) (c : Context),
    (∀ f : Nat → State → MeshRes, s.recordRead (s.originOf u) u va 8 f = f v t) → t.ctx? (s.originOf u).ctx = some c →
    (descBad false (dwords v 8) = true → s.pourFor u d va = .val 2 t) ∧
    (descBad false (dwords v 8) = false → 256 ≤ c.livePours.length → s.pourFor u d va = .val 1 t) ∧
    (descBad false (dwords v 8) = false → c.livePours.length < 256 → ∀ h t',
      (∀ f : Nat → State → MeshRes, t.recordRead (s.originOf u) u (wordAt (dwords v 8) 0) 8 f = f h t') →
      mouldHeaderOk (dwords h 8) = false → s.pourFor u d va = .val 3 t')

end Sys2Proof.Claims

/-- POUR, EDGEQ and GANGQ. -/
def Obligations.LaunchInstructions : Prop :=
    Claims.LaunchQueries ∧
    Claims.PourLaunchesPerLane

/-- CTLR and CTLW (R424, R425, R426). A count of 2^32 or more is no value that FQGET or RRGET takes (assumption log 33). -/
def Obligations.ControlRegisters : Prop :=
  ∀ (s : State) (L : Latch) (d : Reg) (n : Imm) (c : Context),
    let u0 := s.advance L
    let lanes := u0.lanes L
    u0.ctx? (u0.latchCtx L) = some c →
    (s.executes L (.ctlr d n) → n.toNat ≤ 13 ∧
      let value := fun (u : Thread) => match n.toNat with
        | 0 => c.tvec.toNat
        | 1 => c.trbase.toNat
        | 2 => (c.trbase.toNat + 32 * (2048 * u.core + u.slot)) % 2 ^ 64
        | 3 => c.ptroot.toNat
        | 4 => c.fqbase.toNat
        | 5 => c.fqsize.toNat
        | 6 => c.fqput.toNat
        | 7 => c.fqget.toNat
        | 8 => c.num
        | 9 => (if s.privileged u then 1 else 0) + (if u.handler then 2 else 0)
        | 10 => c.rrbase.toNat
        | 11 => c.rrsize.toNat
        | 12 => c.rrput.toNat
        | _ => c.rrget.toNat
      (n ≠ 6 → n ≠ 12 → Completes s L (.ctlr d n) (fun u => Thread.willWrite d 2 (value u) 0 u) id) ∧
      (n = 6 ∨ n = 12 → Ends s L (.ctlr d n) (lanes.foldl (fun t u => t.acquire u.core u.slot .sys)
        (u0.mapExec L fun u => Thread.willWrite d 2 (value u) 0 u)))) ∧
    (s.executes L (.ctlw d n) → ∀ u, u0.lowest L = some u →
      let v := u.vv d
      let ring := v.toNat = 16 ∨ v.toNat = 32 ∨ v.toNat = 64 ∨ v.toNat = 128 ∨ v.toNat = 256 ∨ v.toNat = 512 ∨ v.toNat = 1024 ∨
        v.toNat = 2048 ∨ v.toNat = 4096 ∨ v.toNat = 8192 ∨ v.toNat = 16384 ∨ v.toNat = 32768 ∨ v.toNat = 65536
      let fits := fun (put size : Pair) => v.toNat < 2 ^ 32 ∧ (put - v).toNat % 2 ^ 32 ≤ size.toNat
      let put := fun (f : Context → Context) (t : State) => t.updCtx c.num f
      let stores := fun (f : Context → Context) => Ends s L (.ctlw d n) (put f u0)
      let frees := fun (f : Context → Context) => Ends s L (.ctlw d n) (match u0.releaseBy u.core u.slot .sys with
        | none => u0.parkAll L .retry
        | some t => put f t)
      match n.toNat with
      | 0 => if v.toNat % 4 = 0 then stores fun c => { c with tvec := v } else Traps s L (.ctlw d n) 1 0
      | 1 => if v.toNat % 64 = 0 then stores fun c => { c with trbase := v } else Traps s L (.ctlw d n) 1 0
      | 3 => if v.toNat % 4096 = 0 then stores fun c => { c with ptroot := v } else Traps s L (.ctlw d n) 1 0
      | 4 => if v.toNat % 64 = 0 then stores fun c => { c with fqbase := v } else Traps s L (.ctlw d n) 1 0
      | 5 => (ring → stores fun c => { c with fqsize := v }) ∧ (¬ ring → Traps s L (.ctlw d n) 1 0)
      | 7 => (fits c.fqput c.fqsize → frees fun c => { c with fqget := v }) ∧ (¬ fits c.fqput c.fqsize → Traps s L (.ctlw d n) 1 0)
      | 10 => if v.toNat % 64 = 0 then stores fun c => { c with rrbase := v } else Traps s L (.ctlw d n) 1 0
      | 11 => (ring → stores fun c => { c with rrsize := v }) ∧ (¬ ring → Traps s L (.ctlw d n) 1 0)
      | 13 => (fits c.rrput c.rrsize → frees fun c => { c with rrget := v }) ∧ (¬ fits c.rrput c.rrsize → Traps s L (.ctlw d n) 1 0)
      | _ => Traps s L (.ctlw d n) 1 0)

namespace Sys2Proof.Claims

/-- ERET (R410): a thread outside a handler, or a resume PC that is not a multiple of 4, is ILLEGAL; else each executing thread whose
record is read leaves its handler. One resume PC that is not a multiple of 4 traps the whole word (assumption log 34). -/
def HandlerReturns : Prop :=
  (∀ (s : State) (L : Latch) (c : Context), s.executes L .eret →
    let u0 := s.advance L
    let lanes := u0.lanes L
    u0.ctx? (u0.latchCtx L) = some c →
    ((∃ u ∈ lanes, u.handler = false) → Traps s L .eret 1 0) ∧
    ((∀ u ∈ lanes, u.handler = true) →
      let bad := u0.untranslated L.core .read (lanes.map fun u => { slot := u.slot, va := trapAddr c u, width := 32 })
      let r := (u0.parkFaults L .read (L.n - L.j) bad).readRecords L c (lanes.filter fun u => !bad.any fun x => x.1 == u.slot)
      ((∃ x ∈ bad, u0.meetsFault L.core .read x = false) →
        Stalls s L .eret (u0.missAll L .read (bad.filter fun x => !u0.meetsFault L.core .read x))) ∧
      ((∀ x ∈ bad, u0.meetsFault L.core .read x = true) →
        ((∃ x ∈ r.1, bitsOf x.2 127 64 % 4 ≠ 0) → Traps s L .eret 1 0) ∧
        ((∀ x ∈ r.1, bitsOf x.2 127 64 % 4 = 0) →
          Ends s L .eret (r.1.foldl (fun t x => t.updThread L.core x.1 (Thread.leave x.2)) r.2))))) ∧
  ∀ (u : Thread) (r : Nat),
    let epc := bitsOf r 63 0
    let rpc := bitsOf r 127 64
    let v := Thread.leave r u
    v.handler = false ∧ v.pc = BitVec.ofNat 64 rpc ∧
    v.repLeft = (if rpc = epc then bitsOf r 191 184 else 0) ∧
    v.guard = (if rpc = epc ∧ bitOf r 183 = true ∧ bitsOf r 179 176 ≠ 0 then some { g := bitOf r 182, left := bitsOf r 179 176 }
      else none) ∧
    v.regs = u.regs ∧ v.preds = u.preds ∧ v.pending = u.pending

/-- TRESUME and TLBINV (R411, R412). An entry whose walk has not faulted is not one that TRESUME can answer, and gives 1 (assumption log 29). -/
def FaultsEndAndTranslationsDrop : Prop :=
  ∀ (s : State) (L : Latch) (d a b : Reg) (u : Thread),
    let u0 := s.advance L
    u0.lowest L = some u →
    (s.executes L (.tresume d a b) →
      let die := (u.v a).toNat % 4096 / 1024
      let n := (u.v a).toNat % 1024
      let ctx := bitsOf (u.v b).toNat 15 8
      let stop := bitOf (u.v b).toNat 0
      let answered := fun (t : State) (st : Nat) => t.mapExec L (Thread.willWrite d 1 st 0)
      ((u0.tresume die n ctx stop).1 = 1 → Ends s L (.tresume d a b) (answered u0 1)) ∧
      ((u0.tresume die n ctx stop).1 ≠ 1 → u0.releaseBy u.core u.slot .sys = none →
        Ends s L (.tresume d a b) (u0.parkAll L .retry)) ∧
      ((u0.tresume die n ctx stop).1 ≠ 1 → ∀ t, u0.releaseBy u.core u.slot .sys = some t →
        Ends s L (.tresume d a b) ((answered t 0).tresume die n ctx stop).2)) ∧
    (s.executes L (.tlbinv d a b) →
      (u0.releaseBy u.core u.slot .sys = none → Ends s L (.tlbinv d a b) (u0.parkAll L .retry)) ∧
      ∀ t, u0.releaseBy u.core u.slot .sys = some t →
        let len := (u.v b).toNat
        let lo := if len = 0xFFFFFFFF then 0 else if len = 0 then 2 ^ 64 else (u.vv a).toNat
        let hi := if len = 0xFFFFFFFF then 2 ^ 64 else if len = 0 then 0 else (u.vv a).toNat + len
        let r : Drop := { ctx := if (u.v d).toNat = 0xFFFFFFFF then none else some (u.v d).toNat, lo := lo, hi := hi }
        let t' := t.dropXlates r.ctx lo hi
        Ends s L (.tlbinv d a b) (if t'.performed (t.dropReqs r) (t.dropEntries r) then t'
          else t'.mapExec L fun u => { u with status := .parked (.tlb (t.dropReqs r) (t.dropEntries r)) }))

/-- No access is translated through an entry that TLBINV has dropped (R412, step 2). -/
def DroppedTranslationsAreGone : Prop :=
  ∀ (s : State) (ctx : Option Nat) (lo hi : Nat),
    let r : Drop := { ctx := ctx, lo := lo, hi := hi }
    let t := s.dropXlates ctx lo hi
    (∀ x, x ∈ t.mem.l1tlb ↔ x ∈ s.mem.l1tlb ∧ r.hits x.2 = false) ∧
    (∀ x, x ∈ t.mem.shtlb ↔ x ∈ s.mem.shtlb ∧ r.hits x.2 = false) ∧
    (∀ a, Memory.read t.mem.cells a = Memory.read s.mem.cells a) ∧ t.threads = s.threads ∧ t.mem.reqs = s.mem.reqs

end Sys2Proof.Claims

/-- ERET, TRESUME and TLBINV. -/
def Obligations.HandlersFaultsAndTranslations : Prop :=
    Claims.HandlerReturns ∧
    Claims.FaultsEndAndTranslationsDrop ∧
    Claims.DroppedTranslationsAreGone

namespace Sys2Proof.Claims

/-- PREEMPT (R413): the status of its context, and the halt or the destruction that it starts. -/
def ContextsArePreempted : Prop :=
  ∀ (s : State) (L : Latch) (k : Bool) (d a : Reg) (u : Thread),
    let u0 := s.advance L
    u0.lowest L = some u → s.executes L (.preempt k d a) →
    let ctx := (u.v a).toNat
    let answered := fun (st : Word) => u0.mapExec L fun x => x.putReg d.toNat st
    (u0.ctx? ctx = none → Ends s L (.preempt k d a) (answered 2)) ∧
    ∀ c, u0.ctx? ctx = some c →
      (c.phase = .running → Ends s L (.preempt k d a) ((answered 0).requestHalt ctx k)) ∧
      (c.phase = .halting → Ends s L (.preempt k d a) ((answered 1).requestHalt ctx k)) ∧
      (c.phase = .halted ∨ c.phase = .saved →
        Ends s L (.preempt k d a) (if k then (answered 1).destroy ctx else answered 1))

/-- CTXSV and CTXLD (R403, R414, R415). What a CTXSV waits for is log 30 of the assumptions, the order of CTXLD's checks and what vD+1 holds with a
status log 36, how both access the image log 37, and the source of SAVED log 39. -/
def ContextsAreSavedAndRestored : Prop :=
  ∀ (s : State) (L : Latch) (d a : Reg) (u : Thread),
    let u0 := s.advance L
    let answered := fun (t : State) (n v : Nat) => t.mapExec L (Thread.willWrite d n v 0)
    let ctx := (u.v a).toNat
    let cap := (u.v (a + 1)).toNat
    let area := (u.vv (a + 2)).toNat / 65536 * 65536
    u0.lowest L = some u →
    (s.executes L (.ctxsv d a) →
      (u0.ctx? ctx = none → Ends s L (.ctxsv d a) (answered u0 1 3)) ∧
      ∀ c, u0.ctx? ctx = some c →
        let size := u0.imageSize c
        (c.phase ≠ .halted → Ends s L (.ctxsv d a) (answered u0 1 1)) ∧
        (c.phase = .halted → cap < size → Ends s L (.ctxsv d a) (answered u0 2 (2 + 2 ^ 32 * size))) ∧
        (c.phase = .halted → size ≤ cap → u0.quiet (u0.ctxTasks ctx) = false ∨ u0.retiresOn c = true →
          Ends s L (.ctxsv d a) (u0.parkAll L .system)) ∧
        (c.phase = .halted → size ≤ cap → u0.quiet (u0.ctxTasks ctx) = true → u0.retiresOn c = false →
          let f := (u0.flushTasks (u0.ctxTasks ctx)).newId
          ∀ x y t, f.2.engWrites (f.2.originOf u) area (imageWords f.1 size ctx) = .val x y t →
            Ends s L (.ctxsv d a) (answered
              ((t.takeImage ctx f.1 size).raiseSaved (coreDie L.core) L.core ctx (u0.ctxCores ctx).length) 2 (2 ^ 32 * size)))) ∧
    (s.executes L (.ctxld d a) →
      ∀ v y t, u0.loadCheck (u0.originOf u) ctx cap area = .val v y t →
        (v < 4 → Ends s L (.ctxld d a) (answered t 1 v)) ∧
        ∀ i, (t.images.find? fun i => v == 4 + i.num) = some i →
          (t.loadImage i = none → Ends s L (.ctxld d a) (t.parkAll L .system)) ∧
          ∀ t', t.loadImage i = some t' →
            Ends s L (.ctxld d a) (answered (t'.mapExec L fun u => { u with fetched := [] }) 2 (2 ^ 32 * i.size)))

/-- ENGRST and EVTQ (R416, R417). A reset of an engine that is being reset waits until it is over (assumption log 32). -/
def EngineResetsAndEventReads : Prop :=
  ∀ (s : State) (L : Latch) (w : Bool) (d a : Reg),
    let u0 := s.advance L
    (s.executes L (.engrst a) → ∀ u, u0.lowest L = some u →
      let cl := (u.v a).toNat
      let busy := ∃ g ∈ u0.eng.engines, g.cluster = cl ∧ g.busy = true
      (128 ≤ cl → Traps s L (.engrst a) 1 0) ∧
      (cl < 128 → busy → Ends s L (.engrst a) (u0.parkAll L .system)) ∧
      (cl < 128 → ¬ busy → Ends s L (.engrst a)
        ((u0.resetEngine cl).mapExec L fun u => { u with status := .parked (.engrst cl) }))) ∧
    (s.executes L (.evtq w d) →
      let q := (u0.arbiter (coreDie L.core)).queue
      let answered := fun (t : State) (e : Event) => t.mapExec L (Thread.willWrite d 4 (natOfWords e.words) 0)
      (∀ e rest, q = e :: rest → Ends s L (.evtq w d)
        (answered (u0.putArbiter { u0.arbiter (coreDie L.core) with queue := rest }) e)) ∧
      (q = [] → w = false → Ends s L (.evtq w d) (answered u0 { kind := .none, ctx := 0xFF, src := 0, data := 0, addr := 0 })) ∧
      (q = [] → w = true → Ends s L (.evtq w d)
        (u0.newId.2.mapExec L fun u => { u with status := .parked (.event (u.wb + d.toNat) u0.newId.1) })))

end Sys2Proof.Claims

/-- PREEMPT, CTXSV, CTXLD, ENGRST and EVTQ. -/
def Obligations.ContextAndEngineInstructions : Prop :=
    Claims.ContextsArePreempted ∧
    Claims.ContextsAreSavedAndRestored ∧
    Claims.EngineResetsAndEventReads

/-- The decisions of the packers (R137 to R140): the steps ISSUE_DECISION and its two starvation bounds open a compound of the warp and
the PC that the rules choose. -/
def Obligations.IssueDecisions : Prop :=
  (∀ (s : State) (w : Warp) (i : Instr),
    let c := s.arg.x
    let pcs := pcsOf (s.eligible w)
    let pipe := if i = .pcStarvationBound then s.arg.y % 2 else s.arg.y
    i = .issueDecision ∨ (i = .warpStarvationBound ∧ 256 ≤ w.waited) ∨
      (i = .pcStarvationBound ∧ w.slot = s.arg.y ∧ w.cur = none ∧ ∃ p ∈ pcs, 64 ≤ w.passedOver p) →
    s.issue = none → (∀ x ∈ s.warps, x.core = c → x.slot % 2 = pipe → x.chosen = false) →
    chooseWarp (s.candidates c pipe) = some w →
    (∀ k, w.cur = some k → s.curLive c k = true →
      exec i s = .next ((s.updWarp c w.slot (Warp.decided pcs k.pc)).resume w k)) ∧
    ((∀ k, w.cur = some k → s.curLive c k = false) → ∀ pc, choosePc w pcs = some pc →
      let g := groupAt (s.eligible w) pc
      exec i s = .next ((s.updWarp c w.slot fun w => { Warp.decided pcs pc w with cur := none }).open w pc g.1 g.2))) ∧
  (∀ (ws : List Warp) (w : Warp), chooseWarp ws = some w →
    w ∈ ws ∧
    ((∃ x ∈ ws, 256 ≤ x.waited) → 256 ≤ w.waited ∧ ∀ x ∈ ws, 256 ≤ x.waited → x.older w = false) ∧
    ((∀ x ∈ ws, x.waited < 256) → (∃ x ∈ ws, x.yielded = false) → w.yielded = false ∧ ∀ x ∈ ws, x.yielded = false → x.older w = false) ∧
    ((∀ x ∈ ws, x.waited < 256) → (∀ x ∈ ws, x.yielded = true) → ∀ x ∈ ws, x.older w = false)) ∧
  (∀ (w : Warp) (ts : List Thread) (p : Pair), choosePc w (pcsOf ts) = some p →
    (∃ t ∈ ts, t.pc = p) ∧
    ((∃ t ∈ ts, 64 ≤ w.passedOver t.pc) → 64 ≤ w.passedOver p) ∧
    ((∀ t ∈ ts, w.passedOver t.pc < 64) → ∀ t ∈ ts, p.toNat ≤ t.pc.toNat)) ∧
  ∀ (ts : List Thread) (pc : Pair) (k : Nat), k ∈ (groupAt ts pc).1 ↔ ∃ t ∈ ts, t.slot = k ∧ t.pc = pc ∧ t.repLeft = (groupAt ts pc).2

namespace Sys2Proof.Claims

/-- RESULT_RETURN (R135): a result none of whose parts is at a home any more is posted to the flags of its warp and written to its
destinations; no other thread changes, and no byte of memory. -/
def ResultsReturn : Prop :=
  ∀ (s : State) (u : Thread) (p : Pending), s.thread? s.arg.x s.arg.y = some u → u.pending[s.arg.z]? = some p → p.parts = 0 →
    ∃ t, exec .resultReturn s = .next t ∧
      (∀ c k, t.thread? c k = if c = s.arg.x ∧ k = s.arg.y then some { u.write p with pending := u.pending.eraseIdx s.arg.z }
        else s.thread? c k) ∧
      (∀ c k, t.warp? c k = (s.warp? c k).map fun w => if c = u.core ∧ k = u.warp then { w with fsr := w.fsr ||| p.flags, posted := w.posted ||| p.flags }
        else w) ∧
      s.sameElse t ∧ t.issue = s.issue

/-- MARKER_RELEASE (R134): a thread parked at a marker leaves it once none of its results is outstanding, and with it those that parked there with it
and may leave too. A mate whose result is on its way keeps it there, so that the lanes of one word go on together (assumption log 78). -/
def MarkersRelease : Prop :=
  ∀ (s : State) (u : Thread), s.thread? s.arg.x s.arg.y = some u →
    let due := fun (v : Thread) => v.status = .parked .marker ∧ v.pending = [] ∧ ∀ j ∈ v.mates, ∀ w, s.thread? v.core j = some w →
      ¬ (w.status = .parked .marker ∧ w.pc = v.pc ∧ w.mates = v.mates ∧ ∃ p ∈ w.pending, s.onTheWay p = true)
    (¬ due u → exec .markerRelease s = .next s) ∧
    (due u → ∃ t, exec .markerRelease s = .next t ∧ s.sameElse t ∧ t.warps = s.warps ∧ t.issue = s.issue ∧
      (∀ c k, s.thread? c k = none → t.thread? c k = none) ∧
      ∀ c k v, s.thread? c k = some v →
        let leaves := c = s.arg.x ∧ (k = s.arg.y ∨ k ∈ u.mates) ∧ v.pc = u.pc ∧ due v
        (leaves → t.thread? c k = some { v with status := .eligible, mates := [] }) ∧ (¬ leaves → t.thread? c k = some v))

/-- MWAIT_RELEASE, REGROUP_FIRE, RENDEZVOUS_ARRIVAL and WAITV_REPOLL (R143, R148, R386, R381). -/
def WaitsEnd : Prop :=
  (∀ (s : State) (w : Warp), s.warp? s.arg.x s.arg.y = some w →
    (∀ t ∈ s.threads, t.core = w.core → t.warp = w.slot → (w.mask s.arg.z).toNat.testBit t.lane = true →
      t.status = .parked (.mwait s.arg.z)) →
    exec .mwaitRelease s = .next { s with threads := s.threads.map fun t =>
      if t.core = w.core ∧ t.warp = w.slot ∧ t.status = .parked (.mwait s.arg.z) then t.release else t }) ∧
  (∀ s : State,
    let ps := s.participants s.arg.x s.arg.y s.arg.z
    ps ≠ [] → (∀ w ∈ ps, ∀ t ∈ s.warpLive s.arg.x w.slot, s.arg.z ∈ t.teams → ∃ row, t.status = .parked (.wregrp s.arg.z row)) →
    exec .regroupFire s = .next (if s.regroupForms s.arg.x s.arg.z ps then s.regroupInto s.arg.x ps
      else { s with threads := s.threads.map fun t => match t.status with
        | .parked (.wregrp n row) =>
          if t.core = s.arg.x ∧ t.warp / 16 = s.arg.y ∧ n = s.arg.z then (t.putRow row 0).release else t
        | _ => t })) ∧
  (∀ (s : State) (x : Arrival), (s.eng.arrivals.find? fun a => a.id == s.arg.x) = some x →
    (x.rel ≠ none → ∀ r ∈ s.mem.reqs, r.core = x.src → r.slot = x.slot → x.mark ≤ r.id) →
    (∀ y ∈ s.eng.arrivals, y.inst = x.inst → y.core = x.core → y.team = x.team → y.point = x.point → x.id ≤ y.id) →
    let t := match x.rel with | some sc => s.releaseNow x.src sc | none => s
    exec .rendezvousArrival s = .next
      ((t.updEng fun g => { g with arrivals := g.arrivals.filter fun y => y.id != x.id }).arrive x.core x.team x.point x.count x.scope)) ∧
  ∀ (s : State) (w : Watch), (s.mem.watches.find? fun w => w.core == s.arg.x && w.slot == s.arg.y && !w.registered) = some w →
    w.since + 1024 ≤ s.dev.cycle →
    exec .waitvRepoll s = .next ((s.updMem fun m => { m with watches := m.watches.filter fun x => x.id != w.id }).updThread w.core w.slot
      fun t => if t.status = .parked (.waitv w.id) then
          { t with status := .eligible, pc := w.pc, repLeft := w.rep, guard := w.guard, mark := false }
        else t)

end Sys2Proof.Claims

/-- RESULT_RETURN, MARKER_RELEASE, MWAIT_RELEASE, REGROUP_FIRE, RENDEZVOUS_ARRIVAL and WAITV_REPOLL. -/
def Obligations.ResultsAndWaits : Prop :=
    Claims.ResultsReturn ∧
    Claims.MarkersRelease ∧
    Claims.WaitsEnd

namespace Sys2Proof.Claims

/-- LENS_ENTRY_WRITE and LENS_ENTRY_EMPTY (R50, R238, R239): the entry at the head of a loading entry's queue takes effect once no
reference is left and no halt has stopped its threads (R51), and the threads that wait for it go on. -/
def LensEntriesSettle : Prop :=
  ∀ (s : State) (w : LensWait) (ws : List LensWait),
    let ctx := s.arg.x
    let n := s.arg.y
    let waits := fun (t : Thread) => t.status = .parked (.lens ctx n) ∨ t.status = .parked (.lensOwn ctx n)
    let wake := fun (t : State) => { t with threads := t.threads.map fun u => if waits u then u.release else u }
    let forget := fun (t : State) => t.updEng fun g => { g with prism := g.prism.filter fun x => x.tag != prismTag ctx n }
    (s.lens ctx n).state = .loading → (s.lens ctx n).queue = w :: ws → s.lensRefs ctx n = 0 →
    (∀ k ∈ w.slots, ∀ t, s.thread? w.core k = some t → s.acting t.task = true) →
    (∀ snap, w.snap = some snap →
      exec .lensEntryWrite s = .next (wake (forget (s.putLens ctx { num := n, state := .loaded, snap := snap })))) ∧
    (w.snap = none → exec .lensEntryEmpty s =
      .next (wake (forget (s.updCtx ctx fun c => { c with lenses := c.lenses.filter fun x => x.num != n }))))

/-- Where the elements of a copy's tile lie in the lens (R242, R44, R47): element (c0 + i0, …), i0 fastest; a coordinate of a circular dimension wraps,
another one out of its range puts the element out of range, and the storage position is that of R44. -/
def TileGeometry : Prop :=
  (∀ (l : Lens) (origin : List Int) (i : Nat), (l.tileCoords origin i).length = l.ndim ∧ ∀ k, k < l.ndim →
    (l.tileCoords origin i)[k]? = some (origin.getD k 0 + (i / prod ((upTo k).map l.tileK) % l.tileK k : Nat))) ∧
  ∀ (l : Lens) (cs : List Int),
    let out := fun (k : Nat) => l.circ.getD k false = false ∧ (cs.getD k 0 < 0 ∨ (l.extK k : Int) ≤ cs.getD k 0)
    (l.place cs = none ↔ ∃ k, k < l.ndim ∧ out k) ∧
    ∀ p, l.place cs = some p → ∃ x : Nat → Nat,
      (∀ k, k < l.ndim → if l.circ.getD k false = true then x k = (cs.getD k 0 % (l.extK k : Int)).toNat else (x k : Int) = cs.getD k 0) ∧
      let sum := fun (f : Nat → Nat) => ((upTo l.ndim).map f).sum
      let tiles := fun (k : Nat) => (l.extK k + l.tileK k - 1) / l.tileK k
      p = if l.order = 1 then
          sum (fun k => x k / l.tileK k * prod ((upTo k).map tiles)) * prod ((upTo l.ndim).map l.tileK)
            + sum fun k => x k % l.tileK k * prod ((upTo k).map l.tileK)
        else sum fun k => x k * l.strideK k

/-- One element through a lens (R31 to R37, R45, R46): the bytes that are read for it, and what it delivers. A tile whose header, or a LUT4
block whose scale type, is malformed is a format fault (R254); an absent element of a tile is 0. -/
def ElementsThroughLenses : Prop :=
  ∀ (l : Lens) (rd : State → Nat → Nat → EngRes) (ty : Option ReqTy8) (book : List Word) (p : Nat) (s : State),
    let fetched := l.fetch rd ty book p s
    (∀ bits, l.deliver none bits = (bits, 0)) ∧
    (∀ t f bits, l.numTy = some f → l.deliver (some t) bits =
      ((Fp.cvt false (reqNum t) f .rne bits).1 % 256 ^ numBytes (reqNum t), (Fp.cvt false (reqNum t) f .rne bits).2)) ∧
    (l.fmt < 14 → l.cmp = false → ∀ v fl t, rd s (l.elemAddr p) l.eb = .val v fl t → fetched = .val (l.deliver ty v).1 (l.deliver ty v).2 t) ∧
    (l.fmt < 14 → l.cmp = true →
      let h := l.sbase + 16 * (p / 64)
      ∀ m fl s1 x fl' s2, rd s h 8 = .val m fl s1 → rd s1 (h + 8) 8 = .val x fl' s2 →
        let ones := fun (n : Nat) => ((upTo n).filter fun i => m.testBit i).length
        let sound := ones 64 = x % 2 ^ 16 ∧ x / 2 ^ 16 % 2 ^ 16 = 0
        (¬ sound → fetched = .fault .format 0 h s2) ∧
        (sound → m.testBit (p % 64) = false → fetched = .val (l.deliver ty 0).1 0 s2) ∧
        (sound → m.testBit (p % 64) = true → ∀ v fl t, rd s2 (l.base + 16 * (x / 2 ^ 32) + l.eb * ones (p % 64)) l.eb = .val v fl t →
          fetched = .val (l.deliver ty v).1 (l.deliver ty v).2 t)) ∧
    (l.fmt = 14 ∨ l.fmt = 15 → ∀ b fl s1 k fl' s2, rd s (l.base + p / 2) 1 = .val b fl s1 → rd s1 (l.sbase + p / 32) 1 = .val k fl' s2 →
      let code := if p % 2 = 0 then b % 16 else b / 16
      let gives := fun (v : Sys2Proof.Machine.Num) (flags : BitVec 7) (t : State) => match ty with
        | none => fetched = .val code 0 t
        | some r => fetched = .val ((Fp.ofValue (reqNum r) v).1 % 256 ^ numBytes (reqNum r)) (flags ||| (Fp.ofValue (reqNum r) v).2) t
      let q4 := fun (z : Nat) (t : State) => gives ((QTy.of k l.enc z).scaled k code) ((QTy.of k l.enc z).flag code) t
      (l.fmt = 15 → k / 64 ≠ 0 → fetched = .fault .format 0 (l.sbase + p / 32) s2) ∧
      (l.fmt = 15 → k / 64 = 0 →
        gives ((Fp.decode .bf16 ((book.getD (code % 16) 0).toNat % 2 ^ 16)).shift ((k % 64 : Nat) - 32)) 0 s2) ∧
      (l.fmt = 14 → ¬ (l.enc = true ∧ k / 64 = 0) → q4 0 s2) ∧
      (l.fmt = 14 → l.enc = true → k / 64 = 0 → ∀ z fl t, rd s2 (l.zpbase + p / 32) 1 = .val z fl t → q4 z t))

/-- What a copy delivers (R242 to R245): a COPY or COPYM reads each element once and lands its bytes one by one, in ascending order, at the same
offset in every receiver, counting each in the write pointer; an element out of range gives the fill value without a read. A COPYS waits for a
full line, writes its element through the lens, and passes over one that is out of range, counting its bytes. -/
def CopiesDeliver : Prop :=
  (∀ (s : State) (o : Origin) (q : Nat) (l : Lens) (c : CopyJob) (tasks : List Nat) (i v : Nat),
    let sz := l.sz c.ty
    let copied := s.copyIn o q l c tasks i v
    let gives := fun (w : Nat) (fl : BitVec 7) (t : State) => copied = .ok 1 w fl (tasks.foldl (fun t k =>
      (t.land k (c.off + i) 1 (w / 256 ^ (i % sz) % 256) (c.off + l.tileCount * sz)).addWptr o.core q 1) t)
    let place := l.place (l.tileCoords c.coords (i / sz))
    (i % sz ≠ 0 → gives v 0 s) ∧
    (i % sz = 0 → place = none → gives (l.fillValue c.ty) 0 s) ∧
    (i % sz = 0 → ∀ p, place = some p →
      let r := l.fetch (fun s va n => s.engRead o va n) c.ty [] p s
      (∀ w fl t, r = .val w fl t → gives w fl t) ∧ (∀ k reason va t, r = .fault k reason va t → copied = .fault k reason va t) ∧
      (r = .wait → copied = .wait) ∧ (r = .stop → copied = .stop))) ∧
  (∀ (s : State) (o : Origin) (q : Nat) (l : Lens) (c : CopyJob) (i : Nat),
    let sz := l.sz c.ty
    let off := c.off + i
    let x := s.scratch c.task
    let copied := s.copyOut o q l c i
    let full := ∀ n, off / 128 ≤ n → n ≤ (off + sz - 1) / 128 → x.isFull n = true
    let place := l.place (l.tileCoords c.coords (i / sz))
    0 < sz →
    (¬ full → copied = .wait) ∧
    (full → place = none → copied = .ok sz 0 0 (s.addWptr o.core q sz)) ∧
    (full → ∀ p, place = some p → ∀ v fl t, s.engWrite o (l.elemAddr p) l.eb (l.accept c.ty (x.read off sz)).1 = .val v fl t →
      copied = .ok sz 0 (l.accept c.ty (x.read off sz)).2 (t.addWptr o.core q sz))) ∧
  (∀ (s : State) (k off v last : Nat) (x : Task), s.task? k = some x → Memory.wf x.scratch.bytes = true →
    let t := s.land k off 1 v last
    (∀ a, (t.scratch k).read a 1 = if a = off then v % 256 else (s.scratch k).read a 1) ∧
    (∀ n, (t.scratch k).isFull n = true ↔ (s.scratch k).isFull n = true ∨ n = off / 128 ∧ ((off + 1) % 128 = 0 ∨ off + 1 = last)) ∧
    (∀ j, j ≠ k → t.scratch j = s.scratch j) ∧ t.mem = s.mem) ∧
  (∀ (s : State) (c q n k : Nat),
    let pointer := fun (t : State) => match t.eng.wptr.find? fun x => x.1 == k with | some x => x.2 | none => 0
    pointer (s.addWptr c q n) = if k = 4 * c + q then pointer s + BitVec.ofNat 32 n else pointer s) ∧
  ∀ (s : State) (o : Origin) (q : Nat) (l : Lens) (e : QEntry) (c : CopyJob) (f : State → Nat → Nat → Elem1) (n i v : Nat) (fl : BitVec 7),
    let size := l.tileCount * l.sz c.ty
    let kept := fun (t : State) => t.updCopy e.id fun c => { c with done := i, value := v, flags := fl }
    (size ≤ i → s.copyRun o q l e c f n i v fl = (s.post e.core e.warp fl).entryDone e.id) ∧
    (i < size → s.copyRun o q l e c f 0 i v fl = kept s) ∧
    (i < size →
      (∀ k w g t, f s i v = .ok k w g t → s.copyRun o q l e c f (n + 1) i v fl = t.copyRun o q l e c f n (i + k) w (fl ||| g)) ∧
      (f s i v = .wait → s.copyRun o q l e c f (n + 1) i v fl = kept s) ∧
      (∀ k reason va t, f s i v = .fault k reason va t → s.copyRun o q l e c f (n + 1) i v fl =
        (kept t).engFault o [.copy e.id] c.slot (s.taskIndex c.task) c.pc k reason va))

/-- What the Prism does for the lanes of a GATH (R252 to R254): GATH.m reads its coordinates from memory; a coordinate out of range, or one of an
unused dimension that is not 0, gives the fill value and OOB; else the element is read through the lens. Where every lane is served all receive
their elements, and a format fault fills none and parks all. -/
def GathersServe : Prop :=
  (∀ (s : State) (o : Origin) (g : GathLane) (f : List Int → State → EngRes),
    (g.addr = none → s.gathCoords o g f = f g.coords s) ∧
    ∀ va, g.addr = some va →
      (∀ v fl t, s.engRead o va 16 = .val v fl t → s.gathCoords o g f = f ((upTo 4).map fun k => (BitVec.ofNat 32 (v / 2 ^ (32 * k))).toInt) t) ∧
      (∀ k reason x t, s.engRead o va 16 = .fault k reason x t → s.gathCoords o g f = .fault k reason x t) ∧
      (s.engRead o va 16 = .wait → s.gathCoords o g f = .wait) ∧ (s.engRead o va 16 = .stop → s.gathCoords o g f = .stop)) ∧
  (∀ (s : State) (o : Origin) (tag : Nat) (l : Lens) (j : GathJob) (g : GathLane) (cs : List Int) (t : State),
    (∀ f : List Int → State → EngRes, s.gathCoords o g f = f cs t) →
    let stray := ∃ k, k < 4 ∧ l.ndim ≤ k ∧ cs.getD k 0 ≠ 0
    (stray ∨ l.place cs = none → s.gathLane o tag l j g = .val (l.fillValue (some j.ty)) fOOB t) ∧
    (¬ stray → ∀ p, l.place cs = some p → s.gathLane o tag l j g =
      l.fetch (fun s va n => s.prismParts o tag va (partsOf va n)) (some j.ty) j.book p t)) ∧
  (∀ (x : Served) (o : Origin) (tag : Nat) (l : Lens) (j : GathJob) (g : GathLane),
    let r := x.s.gathLane { o with slot := some g.slot, priv := g.priv } tag l j g
    (∀ v fl t, r = .val v fl t → x.next o tag l j g = { x with s := t, answers := x.answers ++ [(g, v, fl)] }) ∧
    (∀ k reason va t, r = .fault k reason va t → x.next o tag l j g = { x with s := t, faults := x.faults ++ [(g, k, reason, va)] }) ∧
    (r = .wait → x.next o tag l j g = { x with waits := true }) ∧ (r = .stop → x.next o tag l j g = { x with stops := x.stops ++ [g] })) ∧
  ∀ (s : State) (e : QEntry) (j : GathJob), j.again = false → j.snap ≠ [] → (Lens.ofWords j.snap).ro = true →
    let task := s.warpTask e.core e.warp
    let ctx := s.taskCtx task
    let o : Origin := { core := e.core, slot := none, ctx := ctx, priv := e.priv }
    let alive := j.lanes.filter fun g => match s.thread? e.core g.slot with
      | some t => t.pending.any fun p => p.id == g.pend
      | none => false
    let x : Served := alive.foldl (fun (x : Served) g => x.next o (prismTag ctx j.lens) (Lens.ofWords j.snap) j g) { s := s }
    (x.faults = [] → x.waits = false → x.stops = [] → s.serveGath e j = (x.answers.foldl (fun t a =>
      t.updThread e.core a.1.slot fun u => u.answer a.1.pend 0 a.2.1 a.2.2) x.s).entryDone e.id) ∧
    ∀ g k reason va, (x.faults.find? fun f => f.2.1 == .format) = some (g, k, reason, va) → s.serveGath e j =
      (x.s.updGath e.id fun _ => { j with lanes := alive, again := true }).engFault { o with priv := g.priv }
        (alive.map (fun h => Waiter.lane e.core h.slot 0) ++ [.gath e.id]) g.slot (s.taskIndex task) j.pc.toNat k reason va

/-- The sums of a pass (R271, R272, R275): FP32 accumulators group by group, each group's exact sum rounded once to nearest and added with one
rounding; FP64 by fused multiply-adds in ascending order; INT32 exactly, modulo 2^32; and ZSCALE with two roundings. -/
def PassSums : Prop :=
  (∀ (acc : Fr) (ps : List (Option Sys2Proof.Machine.Num)) (fl : BitVec 7),
    let f : Fmt := .f32
    let adds := fun (g : Fr) => addGroup acc ps fl = ((Fp.add f .rne acc.1 g.1).1, acc.2 ||| fl ||| g.2 ||| (Fp.add f .rne acc.1 g.1).2)
    let bad := none ∈ ps ∨ some (.inf true) ∈ ps ∧ some (.inf false) ∈ ps
    let nan := some (.nan true) ∈ ps ∨ some (.nan false) ∈ ps
    (bad → adds (f.nan, fNV)) ∧
    (¬ bad → nan → adds (f.nan, flagIf (ps.contains (some (.nan true))) fNV)) ∧
    (¬ bad → ¬ nan → ∀ n, some (.inf n) ∈ ps → adds (f.signed n f.inf, 0)) ∧
    ∀ (n : Nat) (sg : Nat → Bool) (m : Nat → Nat) (e : Nat → Int), 0 < n → ps = (upTo n).map (fun i => some (.fin (sg i) (m i) (e i))) →
      ∃ h : Int, (∀ i, i < n → h ≤ e i) ∧
        adds (delivers f .rne (((upTo n).map fun i => multiple h (sg i) (m i) (e i)).sum) h ((upTo n).all sg))) ∧
  (∀ (sh : PassShape) (row : List Word) (bs : Nat → Option (Sys2Proof.Machine.Num × BitVec 7)) (acc : Nat), ∃ x : Nat → Fr, x 0 = (acc, 0) ∧
    passF32 sh row bs acc = x (sh.k / sh.size) ∧ ∀ g, g < sh.k / sh.size →
      let used := ((upTo sh.size).map fun i => sh.size * g + i).filterMap fun k =>
        (bs k).map fun b => (floatValue sh.a (packed sh.a row k), b)
      x (g + 1) = addGroup (x g) (used.map fun p => Sys2Proof.Machine.Num.mul p.1 p.2.1) (used.foldl (fun fl p => fl ||| p.2.2 ||| flagIf p.1.isSig fNV) 0)) ∧
  (∀ (row : List Word) (bs : Nat → Nat) (acc : Nat), ∃ x : Nat → Fr, x 0 = (acc, 0) ∧ passF64 row bs acc = x 8 ∧ ∀ k, k < 8 →
    let r := Fp.fma .f64 .rne (packed .f64 row k) (bs k) (x k).1
    x (k + 1) = (r.1, (x k).2 ||| r.2)) ∧
  (∀ (row : List Word) (bs : Nat → Nat) (acc : Nat), passI32 row bs acc =
    (((acc : Int) + ((upTo 32).map fun k => (BitVec.ofNat 8 (packed .i8 row k)).toInt * (BitVec.ofNat 8 (bs k)).toInt).sum) % (2 ^ 32 : Nat)).toNat) ∧
  ∀ (acc sum scale z : Nat),
    let t := Fp.fma .f32 .rne (Nat.xor z (2 ^ 31)) sum acc
    let r := Fp.mul .f32 .rne t.1 scale
    scaleElem acc sum scale z = (r.1, t.2 ||| r.2)

/-- The operands of a pass (R263, R264, R273, R276): the elements of A and of a stored column of B as they are packed, the two kept products of
each four of a sparse column, and the exact values of 4-bit codes. -/
def PassOperands : Prop :=
  (∀ (ws : List Word) (k : Nat),
    (∀ t, numBytes t = 1 → packed t ws k = (ws.getD (k / 4) 0).toNat / 2 ^ (8 * (k % 4)) % 2 ^ 8) ∧
    (∀ t, numBytes t = 2 → packed t ws k = (ws.getD (k / 2) 0).toNat / 2 ^ (16 * (k % 2)) % 2 ^ 16) ∧
    packed .f64 ws k = (ws.getD (2 * k) 0).toNat + 2 ^ 32 * (ws.getD (2 * k + 1) 0).toNat) ∧
  (∀ (b : Block) (j h : Nat) (q : Quarter), (b.quarters.find? fun q => q.1 == j / 16) = some (j / 16, q) →
    b.lane j h = (q.data.getD (2 * (j % 16) + h) [], q.extra.getD (2 * (j % 16) + h) 0)) ∧
  ∀ (b : Block) (sh : PassShape) (book : List Word) (k j : Nat),
    let stored := fun (t : NumTy) (n i : Nat) => packed t (b.lane j (i / (n / 2))).1 (i % (n / 2))
    (∀ f t, (f, t) ∈ [(SFmt.e4m3, NumTy.e4m3), (.e5m2, .e5m2), (.bf16, .bf16), (.f16, .f16)] →
      b.value f sh book k j = some (floatValue t (stored t sh.k k), flagIf (floatValue t (stored t sh.k k)).isSig fNV)) ∧
    (∀ f t, (f, t) ∈ [(SFmt.sE4m3, NumTy.e4m3), (.sE5m2, .e5m2)] →
      let g := k / 4
      let nibble := (b.lane j (g / 8)).2.toNat / 2 ^ (4 * (g % 8)) % 16
      (nibble % 4 = k % 4 → b.value f sh book k j = some (floatValue t (stored t 32 (2 * g)), 0)) ∧
      (nibble % 4 ≠ k % 4 → nibble / 4 = k % 4 → b.value f sh book k j = some (floatValue t (stored t 32 (2 * g + 1)), 0)) ∧
      (nibble % 4 ≠ k % 4 → nibble / 4 ≠ k % 4 → b.value f sh book k j = none)) ∧
    let half := sh.k / 2
    let code := ((b.lane j (k / half)).1.getD (k % half / 8) 0).toNat / 2 ^ (4 * (k % 8)) % 16
    let x := (b.lane j (if sh.k = 64 then k / half else 0)).2
    let t := QTy.of (x.toNat % 256) (x.getLsbD 16) (x.toNat / 256 % 16)
    let entry := Fp.decode .bf16 ((book.getD code 0).toNat % 2 ^ 16)
    (∀ f ∈ [SFmt.q4k64, .q4k32], b.value f sh book k j = some (t.scaled (x.toNat % 256) code, t.flag code)) ∧
    ∀ f ∈ [SFmt.lut4k64, .lut4k32], b.value f sh book k j = some (entry.shift ((x.toNat % 64 : Nat) - 32), flagIf entry.isSig fNV)

/-- What a pass does to its tile (R269 to R275, R277, R285): on a name that is lost it does nothing, unless it makes it anew; a wrong format or kind,
or a LUT4 scale of another type, leaves the name lost; else each row of the captured mask, and no other, takes its 64 sums and its row sum, and
the flags are posted. The stream's format is that at the grant (assumption log 19). -/
def PassesUpdateTiles : Prop :=
  (∀ (t : PassTy) (f : SFmt) (b : Block) (book row : List Word) (acc : Nat → Nat) (sum : Nat),
    let sh := PassTy.shape t
    let r := passRow t f b book row acc sum
    r.1.length = 64 ∧
    (sh.kind = .f32 → (∀ j, j < 64 → r.1[j]? = some (passF32 sh row (fun k => b.value f sh book k j) (acc j))) ∧
      r.2 = passF32 sh row (fun _ => some (.fin false 1 0, 0)) sum) ∧
    (sh.kind = .i32 → (∀ j, j < 64 → r.1[j]? = some (passI32 row (fun k => packed .i8 (b.lane j (k / 16)).1 (k % 16)) (acc j), 0)) ∧
      r.2 = (passI32 row (fun _ => 1) sum, 0)) ∧
    (sh.kind = .f64 → (∀ j, j < 64 → r.1[j]? = some (passF64 row (fun k => packed .f64 (b.lane j (k / 4)).1 (k % 4)) (acc j))) ∧ r.2 = (sum, 0))) ∧
  (∀ (s : State) (c w z : Nat) (t : PassTy) (f : SFmt) (b : Block) (book : List Word) (rows : List (Nat × List Word)) (lane : Nat) (ws : List Word),
    let k := (PassTy.shape t).kind
    let tiles := (s.zname c w z).tiles
    let x := s.passRows c w z t f b book rows
    let old := x.2.zrow c k tiles lane
    let r := passRow t f b book ws (rowElem k old) (rowElem .f32 old 64)
    s.passRows c w z t f b book [] = (0, s) ∧
    s.passRows c w z t f b book (rows ++ [(lane, ws)]) =
      (r.1.foldl (fun fl e => fl ||| e.2) (x.1 ||| r.2.2), x.2.putZrow c k tiles lane (rowWords k r.1 r.2))) ∧
  (∀ (s : State) (c w z : Nat) (sc zp : List Word) (lanes : List Nat) (lane : Nat),
    let tiles := (s.zname c w z).tiles
    let x := s.scaleRows c w z sc zp lanes
    let old := x.2.zrow c .f32 tiles lane
    let l := (upTo 64).map fun j => scaleElem (rowElem .f32 old j) (rowElem .f32 old 64) (sc.getD j 0).toNat (zp.getD j 0).toNat
    s.scaleRows c w z sc zp [] = (0, s) ∧
    s.scaleRows c w z sc zp (lanes ++ [lane]) =
      (l.foldl (fun fl e => fl ||| e.2) x.1, x.2.putZrow c .f32 tiles lane (rowWords .f32 l (rowElem .f32 old 64, 0)))) ∧
  ∀ (s : State) (e : QEntry) (r : Run),
    (∀ t nw st z rows book, e.op? = some (.pass t nw st z rows book) →
      let n := s.zname e.core e.warp z
      (nw = false → n.lost ≠ none → s.performRequest e r = s) ∧
      (nw = true ∨ n.lost = none → ∀ b f, r.block = some b → r.fmt = some f →
        let bad := passBad t nw (some f) n = true ∨ (∃ ty, t = .mmal ty) ∧ b.lutBad (PassTy.shape t) = true
        (bad → s.performRequest e r = s.lose e.core e.warp z .format) ∧
        (¬ bad → let x := s.passRows e.core e.warp z t f b book rows; s.performRequest e r = x.2.post e.core e.warp x.1))) ∧
    ∀ z lanes sc zp, e.op? = some (.zscale z lanes sc zp) →
      let n := s.zname e.core e.warp z
      (n.lost ≠ none ∨ n.held = none → s.performRequest e r = s) ∧
      (n.lost = none → ∀ k, n.held = some k → k ≠ .f32 → s.performRequest e r = s.lose e.core e.warp z .format) ∧
      (n.lost = none → n.held = some .f32 → let x := s.scaleRows e.core e.warp z sc zp lanes; s.performRequest e r = x.2.post e.core e.warp x.1)

/-- What an entry of the tile port does (R281, R287 to R292, R295): fresh tiles whose rows of the captured mask are zero, or hold the words that were
read, while the others keep their values; the words of a row stored, or given to a lane; tiles given back; a subscription ended. -/
def TileEntriesPerform : Prop :=
  (∀ (s : State) (e : QEntry) (k : ZKind) (z pc : Nat) (lanes : List Nat) (rows : List TileRow),
    let c := e.core
    let w := e.warp
    let o : Origin := { core := c, slot := none, ctx := s.taskCtx (s.warpTask c w), priv := e.priv }
    let n := s.zname c w z
    (∀ t, s.bindFresh c w z k lanes = some t → s.tileEntry e (.zclr k z lanes) = t.entryDone e.id) ∧
    (s.bindFresh c w z k lanes = none → s.tileEntry e (.zclr k z lanes) = s) ∧
    ((s.freeTiles c).length < ZKind.tiles k → s.tileEntry e (.zld k z rows pc) = s) ∧
    (ZKind.tiles k ≤ (s.freeTiles c).length → ∀ got t,
      (∀ f : State → List (Nat × List Word) → EngRes, s.loadRows o k f rows [] = f t got) → ∀ u, t.bindFresh c w z k (got.map (·.1)) = some u →
      s.tileEntry e (.zld k z rows pc) = (got.foldl (fun t g => t.putZrow c k (t.zname c w z).tiles g.1 g.2) u).entryDone e.id) ∧
    (∀ sel ls, s.tileEntry e (.zmov z sel k ls) = (ls.foldl (fun t l => t.updThread c l.2.1 fun u => u.answer l.2.2 0 (natOfWords (
      if n.lost ≠ none ∨ n.held ≠ some k then List.replicate 8 (0x7FC00000 : Word)
      else if k ≠ .f64 ∧ sel = 8 then ((t.zrow c k n.tiles l.1).drop 64).take 1 else ((t.zrow c k n.tiles l.1).drop (8 * sel)).take 8)) 0) s).entryDone e.id) ∧
    (∀ bf, (n.lost ≠ none ∨ n.held ≠ some k → s.tileEntry e (.zsto bf z k rows pc) = s.entryDone e.id) ∧
      (n.lost = none → n.held = some k → ∀ v fl t, s.storeRows o bf k n.tiles rows = .val v fl t →
        s.tileEntry e (.zsto bf z k rows pc) = (t.post c w fl).entryDone e.id)) ∧
    s.tileEntry e (.zrel z) =
      ((s.freeOf c n.tiles).updName c w z fun n => { n with held := none, tiles := [], lost := none }).entryDone e.id ∧
    s.tileEntry e (.zwait z) = s.entryDone e.id ∧ s.tileEntry e (.strend z) = (s.endSub c w z).entryDone e.id) ∧
  (∀ (s t : State) (c w z : Nat) (k : ZKind) (lanes : List Nat) (x : Warp), s.warp? c w = some x → z < x.names.length →
    (∀ y ∈ s.eng.tiles, y.words.length = 2080) → (∀ m ∈ (s.zname c w z).tiles, (s.tile? c m).isSome) → s.bindFresh c w z k lanes = some t →
    let n := s.zname c w z
    let m := t.zname c w z
    m.held = some k ∧ m.lost = none ∧ m.tiles.length = ZKind.tiles k ∧ (∀ a ∈ m.tiles, s.tile? c a = none) ∧
    ∀ i, i < 32 → t.zrow c k m.tiles i =
      if i ∈ lanes ∨ n.held ≠ some k then List.replicate (ZKind.words k) 0 else s.zrow c k n.tiles i) ∧
  ∀ (s : State) (o : Origin) (k : ZKind) (f : State → List (Nat × List Word) → EngRes) (r : TileRow) (rs : List TileRow) (got : List (Nat × List Word)),
    s.loadRows o k f [] got = f s got ∧
    ∀ v fl t, s.readRow { o with slot := some r.slot } r (rowParts r.va (ZKind.width k) (ZKind.count k)) = .val v fl t →
      s.loadRows o k f (r :: rs) got = t.loadRows o k f rs (got ++ [(r.lane, wordsOfNat (ZKind.words k) v)])

/-- COPY_ENTRY, COPYS_ENTRY, COPYM_ENTRY and PRISM_SERVE (R243, R244, R245, R253, R354): the entry at the head of its queue is worked on, all
bytes it has left, or a number of steps, in their order; how many a step performs is log 59 of the assumptions. -/
def CopyChannelsWork : Prop :=
  (∀ (s : State) (e : QEntry) (j : CopyJob),
    let c := s.arg.x
    let q := s.arg.y
    (s.eng.queue.find? fun e => e.core == c && e.queue == .q q) = some e → e.item = .copy j → s.held (.copy e.id) = false →
    s.acting j.task = true →
    let l := Lens.ofWords j.snap
    let o : Origin := { core := c, slot := some j.slot, ctx := s.taskCtx j.task, priv := e.priv }
    let n := if s.arg.n = 0 then l.tileBytes j.ty - j.done else s.arg.n
    let run := fun (f : State → Nat → Nat → Elem1) => (Host.Outcome.next (s.copyRun o q l e j f n j.done j.value j.flags) : Host.Outcome State Fault Refusal)
    (j.op = .copy → exec .copyEntry s = run fun t i v => t.copyIn o q l j [j.task] i v) ∧
    (j.op = .copys → exec .copysEntry s = run fun t i _ => t.copyOut o q l j i) ∧
    (∀ m, j.op = .copym m → exec .copymEntry s = run fun t i v => t.copyIn o q l j (match t.thread? c j.slot with
      | some u => (match t.receivers { u with task := j.task } m with
        | some rs => rs.map (·.1)
        | none => [])
      | none => []) i v)) ∧
  ∀ (s : State) (e : QEntry) (j : GathJob), e ∈ s.eng.queue → e.item = .gath j → coreCluster e.core = s.arg.x → s.held (.gath e.id) = false →
    s.eng.isHead e.id = true → ∃ k, exec .prismServe { s with arg := { s.arg with y := k } } =
      .next ({ s with arg := { s.arg with y := k } }.serveGath e j)

/-- MATRIX_GRANT, PASS_COMPLETE, GRANT_AGEING, TILE_PORT_PERFORM, WATCHDOG_TRIP and PASS_ABANDON (R261, R271, R278, R279, R281). An abandoned pass
stops its engine and raises WATCHDOG (assumption log 17); a pinned grain holds up the tile port of its core, in the order in which its entries were
placed (R288; assumption log 77). -/
def MatrixEngineSteps : Prop :=
  (∀ (s : State) (e : QEntry), s.arg.y < 4 → (s.engine s.arg.x).stopped = false → (s.engine s.arg.x).busy = false →
    (∀ r ∈ (s.engine s.arg.x).runs, r.array ≠ s.arg.y) → s.grantOf (4 * s.arg.x + s.arg.y) = some e →
    exec .matrixGrant s = .next (s.grant s.arg.x s.arg.y e) ∧
    e ∈ s.eng.queue ∧ e.core = 4 * s.arg.x + s.arg.y ∧ s.ready e = true ∧
    ((∃ x ∈ s.eng.queue, x.core = e.core ∧ s.ready x = true ∧ x.aged = true) → e.aged = true) ∧
    (e.aged = true → ∀ x ∈ s.eng.queue, x.core = e.core → s.ready x = true → x.aged = true → e.since ≤ x.since) ∧
    (e.aged = false → ∀ x ∈ s.eng.queue, x.core = e.core → s.ready x = true →
      s.entryPrio x ≤ s.entryPrio e ∧ (s.entryPrio x = s.entryPrio e → e.since ≤ x.since))) ∧
  (∀ (s : State) (r : Run) (e : QEntry), s.runOf s.arg.x s.arg.y = some r → s.entry? r.entry = some e →
    (∀ op, e.op? = some op → r.start + (match op with | .pass (.mma .f64f64) _ _ _ _ _ => 64 | _ => 8) ≤ s.dev.cycle →
      exec .passComplete s = .next (((s.performRequest e r).dropRun s.arg.x s.arg.y).entryDone e.id)) ∧
    ((s.engine s.arg.x).stopped = false → r.start + 65536 ≤ s.dev.cycle →
      exec .watchdogTrip s = .next ((s.updEngine s.arg.x fun g => { g with stopped := true }).raise (s.arg.x / 32)
        { kind := .watchdog, ctx := s.taskCtx (s.runTask r), src := s.arg.x, data := BitVec.ofNat 32 s.arg.x, addr := 0 })) ∧
    (∀ m, s.haltMoment (s.runTask r) = some m →
      m + 64 ≤ s.dev.cycle ∨ ((s.engine s.arg.x).stopped = true ∧ r.start + 65536 ≤ s.dev.cycle) →
      exec .passAbandon s = .next ((((match e.op?.bind TileOp.name with
        | some z => s.lose e.core e.warp z .reset
        | none => s).dropRun s.arg.x s.arg.y).entryDone e.id).stopEngine s.arg.x (s.runTask r)))) ∧
  (∀ (s : State) (task : Nat) (t : Task), s.task? task = some t →
    let moments := (if t.phase = .halting then [t.haltAt] else []) ++
      match s.ctx? t.ctx with | some c => if c.phase = .halting then [c.haltAt] else [] | none => []
    (moments = [] → s.haltMoment task = none) ∧
    (moments ≠ [] → ∃ m ∈ moments, s.haltMoment task = some m ∧ ∀ x ∈ moments, m ≤ x)) ∧
  (∀ s : State, exec .grantAgeing s =
    .next (s.updEng fun g => { g with queue := g.queue.map (s.agedEntry (4 * s.arg.x + s.arg.y)) })) ∧
  ∀ (s : State) (e : QEntry) (op : TileOp) (l : List (QEntry × TileOp)), s.qm s.arg.x s.arg.y = (e, op) :: l → s.eng.isHead e.id = true →
    s.acting (s.warpTask s.arg.x s.arg.y) = true → s.held (.tile e.id) = false →
    let stalled := ∃ x ∈ s.eng.queue, x.core = e.core ∧ x.id < e.id ∧ s.acting (s.warpTask x.core x.warp) = true ∧ s.tileStalled x = true
    (stalled → exec .tilePortPerform s = .next s) ∧ (¬ stalled → exec .tilePortPerform s = .next (s.tileEntry e op))

/-- SWEEP_START, CURSOR_ADVANCE, SWEEP_WAKE, SWEEP_DISPATCH and JOB_END (R322 to R326, R331, R332, R336): a job that is to end now hands out
and tests nothing more, and a restored one first reads its words again. The cursor stays at a chunk while a wake for one of its elements is on its way, so
that it finds its element in the sweep it was sent in (Table 16-5). The end writes the signature once. -/
def SweepEngineSteps : Prop :=
  (∀ (s : State) (j : Job), s.job? s.arg.x = some j →
    let c := s.arg.x
    let mine := (j.elems.mapIdx fun i e => (j.place i, e)).filter fun x => x.1 == j.cursor
    let on := j.running = true ∧ j.halted = false
    (on → j.ended = true → s.jobOver j = false → s.held (.sweep j.task) = false → exec .sweepStart s = .next (s.nextSweep c)) ∧
    (s.jobOver j = true → j.halted = false → s.held (.jobEnd j.task) = false → exec .jobEnd s = .next (s.finishJob c true)) ∧
    let walks := j.running = true ∧ j.halted = false ∧ j.ended = false ∧ s.jobOver j = false
    (walks → j.reread ≠ [] → s.held (.sweep j.task) = false → exec .cursorAdvance s = .next (s.rereads c j.reread)) ∧
    (walks → j.reread = [] → (∃ x ∈ mine, x.2.untested = true) →
      exec .cursorAdvance s = .next (s.updJob c fun j => s.testFlags j j.cursor)) ∧
    let due := ∃ w ∈ s.eng.wakes, w.core = c ∧ ∃ x ∈ mine, x.2.pos = w.pos
    (walks → j.reread = [] → (∀ x ∈ mine, x.2.untested = false) → due ∨ (∃ x ∈ mine, x.2.out = true ∨ x.2.ready = true) →
      exec .cursorAdvance s = .next s) ∧
    (walks → j.reread = [] → ¬ due → (∀ x ∈ mine, x.2.untested = false ∧ x.2.out = false ∧ x.2.ready = false) →
      exec .cursorAdvance s = .next (s.updJob c fun j =>
        let k := s.testFlags { j with cursor := j.cursor + 1 } (j.cursor + 1)
        if k.chunks ≤ k.cursor then { k with ended := true, sweeps := k.sweeps + 1 } else k)) ∧
    (s.jobActs j = true → (∀ t ∈ s.threads, t.core = c → ∀ r, t.dispatch = some r → r.due = false) →
      j.batch (s.nextGroup c).length ≠ [] →
      exec .sweepDispatch s = .next (s.handBatch c (j.batch (s.nextGroup c).length) (sweepAddr (s.nextGroup c)) ((s.nextGroup c).map (·.slot))))) ∧
  (∀ (s : State) (c : Nat) (j : Job), s.job? c = some j →
    let o : Origin := { core := c, slot := none, ctx := j.ctx, priv := match s.ctx? j.ctx with | some x => x.priv | none => false }
    let sealed := fun (t : State) => (t.updJob c fun _ => { j with stamp := 0 }).closeJob c { j with stamp := 0 }
    (j.stamp = 0 → s.finishJob c true = sealed s) ∧
    (j.stamp ≠ 0 → ∀ v fl t, s.engWrite o j.stamp 8 (schedSig j.sched) = .val v fl t → s.finishJob c true = sealed t)) ∧
  ∀ (s : State) (w : Wake), (s.eng.wakes.filter fun w => w.core == s.arg.x)[s.arg.y]? = some w →
    exec .sweepWake s = .next ((s.updEng fun g => { g with wakes := g.wakes.erase w }).updJob s.arg.x fun j =>
      if j.running then j.updElem w.pos fun e => if e.abandoned || e.out then e else { e with cond := .awake } else j)

end Sys2Proof.Claims

/-- The steps of the lens table, the copy channels, the Prism, the matrix engine and the sweep engine. -/
def Obligations.EngineSteps : Prop :=
    Claims.LensEntriesSettle ∧
    Claims.TileGeometry ∧
    Claims.ElementsThroughLenses ∧
    Claims.CopiesDeliver ∧
    Claims.GathersServe ∧
    Claims.PassSums ∧
    Claims.PassOperands ∧
    Claims.PassesUpdateTiles ∧
    Claims.TileEntriesPerform ∧
    Claims.CopyChannelsWork ∧
    Claims.MatrixEngineSteps ∧
    Claims.SweepEngineSteps

/-- REPLICA_APPLY, LEAF_SWITCH and the steps of a mirror window (R69, R316, R361, R362). A KREBAL is in flight until no cut is MOVING in any replica and
its threads have their answer; in that step the costs become 0 where it was to clear them. -/
def Obligations.MeshAndMirrorSteps : Prop :=
  (∀ (s : State) (m : Mesh) (before rest : List (Nat × CutTable)) (x : Nat × CutTable), s.mesh? s.arg.x s.arg.y = some m →
    m.msgs = before ++ x :: rest → x.1 = s.arg.z → (∀ y ∈ before, y.1 ≠ s.arg.z) →
    exec .replicaApply s = .next ((s.updMesh m.ctx m.num fun m =>
      { m with reps := m.reps.set s.arg.z x.2, msgs := before ++ rest }).settleRebal m.ctx m.num |>.closeRebal m.ctx m.num)) ∧
  (∀ (s : State) (m : Mesh), s.mesh? s.arg.x s.arg.y = some m → (∀ x ∈ m.migr, x.key ≠ s.arg.z) →
    exec .leafSwitch s = .next (s.closeRebal s.arg.x s.arg.y)) ∧
  (∀ (s : State) (ctx n : Nat) (m : Mesh) (c : Context), s.mesh? ctx n = some m → s.ctx? ctx = some c →
    let ended := m.inFlight = true ∧ (∀ x ∈ m.table.cuts, x.st = false) ∧ m.msgs = [] ∧ m.waiter = []
    let ends := fun (t : State) => t.updMesh ctx n fun m => { m with inFlight := false, clear := false }
    let o : Origin := { core := 0, slot := none, ctx := ctx, priv := c.priv }
    (¬ ended → s.closeRebal ctx n = s) ∧
    (ended → s.held (.switch ctx n noLeaf) = false → m.clear = false → s.closeRebal ctx n = ends s) ∧
    (ended → s.held (.switch ctx n noLeaf) = false → m.clear = true → ∀ l t,
      (∀ f : List LeafRec → State → MeshRes, s.readSegs o 0 [] f m.segs = f l t) → ∀ v u,
      t.curveWrites o (fun t => .val 0 (ends t)) (l.filterMap fun r => (m.segs[r.seg]?).map fun g => (g.lbase + 16 * r.idx + 14, 2, 0)) = .val v u →
      s.closeRebal ctx n = u)) ∧
  (∀ (s : State) (m : Mesh) (x : Migrant) (c : Context), s.mesh? s.arg.x s.arg.y = some m →
    (m.migr.find? fun x => x.key == s.arg.z) = some x → s.pinCount m x = 0 → s.held (.switch s.arg.x s.arg.y s.arg.z) = false →
    s.ctx? s.arg.x = some c →
    ∀ v t, s.switchLeaf { core := x.from_, slot := none, ctx := s.arg.x, priv := c.priv } m x = .val v t →
      exec .leafSwitch s = .next t) ∧
  (∀ (s : State) (r : Mirror), s.mirror? s.arg.x = some r →
    (r.phase ≠ .copy → exec .mirrorRecall s = .next ((s.updMem fun m => m.recallAll (m.ownedIn r.page r.size)).updMirror r.page fun r =>
      { r with phase := .recall })) ∧
    (r.phase = .recall → s.mem.ownedIn r.page r.size = [] → (r.bias = true → r.oldHome = 4 → r.size ≤ 64 * r.answered) →
      exec .mirrorCopy s = .next (s.updMirror r.page fun r => { r with phase := .copy })) ∧
    (r.phase = .copy → r.mesh = none → ∀ t, s.endWindow r = some t → exec .mirrorSwitch s = .next t)) ∧
  ∀ (s : State) (x : MirStart) (a e level : Nat) (l : Leaf),
    (s.dev.starts.find? fun x => x.ctx == s.arg.x && x.va == s.arg.y && x.newHome == s.arg.z) = some x → x.mesh = none →
    s.leafEntry x.ctx x.va = some (a, e, level) → Leaf.ofEntry e level = some l →
    (∀ r ∈ s.dev.mirrors, r.page ≠ l.pa) → l.home ≠ x.newHome → (s.dev.mirrors.filter fun r => r.oldHome == l.home).length < 16 →
    let es := s.windowEntries id x.ctx l.pa (x.va :: x.also)
    (∀ y ∈ es, s.mem.retry none y.1 8 = false) →
    exec .mirrorEntry s = .next
      (let t := ((s.writeEntries x.newHome true es).dropPage l.pa l.size).updDev fun d => { d with mirrors := d.mirrors ++
        [{ page := l.pa, size := l.size, ctx := x.ctx, va := x.va, oldHome := l.home, newHome := x.newHome
           phase := .entry, mesh := none, bias := x.bias, also := x.also }] }
       t.updDev fun d => { d with starts := d.starts.erase x })

namespace Sys2Proof.Claims

/-- HOME_REQUEST (R359, R228, R236, R375, R376): a request that nothing holds back is performed behind the release that it carries, leaves its home's
queue and joins the result it fills, its acquire follows, and an access of its thread that could not be made is made again; a read of poison stalls
its lane instead; the store of a word that nobody owns writes its bytes alone; and a number that names no request names a range operation, of which an
ICINV waits for the earlier CWBs and CWBINVs of its thread. -/
def HomesServeRequests : Prop :=
  (∀ (s : State) (r : Req), (s.mem.reqs.find? fun r => r.id == s.arg.x) = some r → s.canServe r = true →
    (r.kind.reads = true → s.mem.poisoned r.key r.width = true → exec .homeRequest s = .next (s.stallReq r .poison)) ∧
    (¬ (r.kind.reads = true ∧ s.mem.poisoned r.key r.width = true) →
      let s0 := match r.rel with | some sc => s.releaseNow r.core sc | none => s
      let done := s0.perform r
      let t := done.2.2.updMem fun m =>
        let m := { m with reqs := m.reqs.filter (fun q => q.id != r.id), early := m.early.filter fun e => e.req != r.id }
        if r.na then m.stage r.home r.key else m
      let a := if r.pend = 0 then t else t.updThread r.core r.slot fun u => u.answer r.pend r.shift done.1 done.2.1
      let b := if r.count = 0 then a else r.lanes.foldl (fun t k => t.updThread r.core k fun u => u.answer r.count 0 0 0) a
      let d := match r.acq with | some sc => b.acquireCore r.core sc | none => b
      exec .homeRequest s = .next (d.updThread r.core r.slot fun u =>
        if u.status = .parked .retry then { u with status := .eligible } else u))) ∧
  (∀ (s : State) (r : RangeReq), (s.mem.reqs.find? fun r => r.id == s.arg.x) = none → (s.mem.ranges.find? fun r => r.id == s.arg.x) = some r →
    let before := ∃ q ∈ s.mem.ranges, q.id < s.arg.x ∧ q.core = r.core ∧ q.slot = r.slot ∧ (q.op = .cwb ∨ q.op = .cwbinv)
    (r.op = .icinv → before → exec .homeRequest s = .next s) ∧
    (¬ (r.op = .icinv ∧ before) → exec .homeRequest s = .next (s.updMem fun m =>
      { m.rangeOp r.op r.core r.scope r.runs with ranges := m.ranges.filter fun x => x.id != r.id }))) ∧
  ∀ (s : State) (r : Req), r.kind = .storeWt ∨ r.kind = .storeNc → r.pin = none → Memory.wf s.mem.cells = true →
    (∀ w ∈ pairsOf (wordKeys r.key r.width), s.mem.owner? w = none) →
    ∀ a, Memory.read (s.perform r).2.2.mem.cells a =
      if r.key ≤ a ∧ a < r.key + r.width then BitVec.ofNat 8 (r.data / 256 ^ (a - r.key)) else Memory.read s.mem.cells a

/-- PIN_END, L1_EVICTION, INTEGRITY_ERROR, TRANSLATION_WALK and FAULT_RECORD_RESUME (R352, R215, R227, R228, R369, R398, R400). An error that a hop
mends ends the row of failed transfers of its word; a link retrains up to eight times before the word is poisoned. The links of the M-stacks, the
bridges and the Korlas Link ports are told by number (the model's choice, assumption log 10). -/
def MemorySystemSteps : Prop :=
  (∀ s : State, exec .pinEnd s = .next (s.endPins s.arg.x fun p =>
    p.group.all fun k => match s.thread? s.arg.x k with
      | some t => !t.live
      | none => true)) ∧
  (∀ s : State, (∀ p ∈ s.mem.pins, p.core = s.arg.x → p.grain / 512 ≠ s.arg.y / 512) →
    exec .l1Eviction s = .next (s.updMem fun m => m.evict s.arg.x (s.arg.y / 512 * 512))) ∧
  (∀ (s : State) (c line : Nat), ∀ x ∈ (s.mem.evict c line).l1, x.core = c → x.key / 512 ≠ line / 512) ∧
  (∀ s : State, s.arg.x ≠ 5 →
    let hop := s.arg.x
    let word := s.arg.y / 8 * 8
    let count := match s.dev.hops.find? fun h => h.1 == hop with | some h => h.2 | none => 0
    let tries := match s.dev.retries.find? fun x => x.1 == hop && x.2.1 == word with | some x => x.2.2 | none => 0
    let counted := s.updDev fun d => { d with hops := (d.hops.filter fun h => h.1 != hop) ++ [(hop, count + 1)] }
    let others := fun (t : State) (new : List (Nat × Nat × Nat)) => t.updDev fun d => { d with
      retries := (d.retries.filter fun x => !(x.1 == hop && x.2.1 == word)) ++ new }
    let die := if hop ≤ 2 then s.arg.n / 2 else s.arg.n
    let marked := fun (t : State) => (t.updMem fun m => { m with poison := insertNat word m.poison }).raise die
      { kind := .poison, ctx := s.arg.z, src := s.arg.n, data := BitVec.ofNat 32 hop, addr := BitVec.ofNat 64 (word % 2 ^ 56) }
    let link := if hop = 1 then 32 + s.arg.n else s.arg.v.toNat
    let next := others counted [(hop, word, tries + 1)]
    (s.arg.flag0 = false → exec .integrityError s = .next (others counted [])) ∧
    (s.arg.flag0 = true →
      (hop ≠ 1 → hop ≠ 3 → exec .integrityError s = .next (marked counted)) ∧
      (hop = 1 ∨ hop = 3 → tries < 8 → exec .integrityError s = .next (if isLink link then next.retrain link else next)) ∧
      (hop = 1 ∨ hop = 3 → 8 ≤ tries → exec .integrityError s = .next (marked (others counted []))))) ∧
  (∀ s : State, s.arg.x = 5 →
    let core := s.arg.n
    let word := s.arg.y / 8 * 8
    let count := match s.dev.hops.find? fun h => h.1 == 5 with | some h => h.2 | none => 0
    let counted := s.updDev fun d => { d with hops := (d.hops.filter fun h => h.1 != 5) ++ [(5, count + 1)] }
    let dirty := ∃ x ∈ s.mem.l1, x.core = core ∧ x.key / 32 = s.arg.y / 32 ∧ x.written = true
    (¬ dirty → exec .integrityError s = .next (counted.updMem fun m => m.refetch core s.arg.y)) ∧
    (dirty → exec .integrityError s = .next ((counted.updMem fun m =>
      let m := m.lose core word
      { m with poison := insertNat word m.poison }).raise (coreDie core)
      { kind := .poison, ctx := s.arg.z, src := core, data := 5, addr := BitVec.ofNat 64 (word % 2 ^ 56) }))) ∧
  (∀ (m : MemSys) (c a : Nat), m.pins = [] → m.refetch c a =
    { m with l1 := m.l1.map fun x => if x.core = c ∧ x.key / 32 = a / 32 then { x with val := m.wordNow x.key } else x }) ∧
  (∀ (m : MemSys) (c w : Nat) (x : L1Word), x ∈ (m.lose c w).l1 ↔ x ∈ m.l1 ∧ ¬ (x.core = c ∧ x.key / 8 = w / 8)) ∧
  (∀ (s : State) (m : Miss), s.missAt s.arg.x s.arg.y = some m → m.phase = .walking →
    (∀ l t, s.walk m.ctx m.va = (.ok l, t) →
      let t' := m.cores.foldl (fun t c => t.fillTlb c m.ctx m.va l) t
      exec .translationWalk s = .next (if l.refuses m.kind (!m.unpriv) = 0 then t'.freeMiss m.die m.num
        else t'.walkFault m (l.refuses m.kind (!m.unpriv)) false)) ∧
    (∀ r t, s.walk m.ctx m.va = (.fault r, t) → exec .translationWalk s = .next (t.walkFault m r false))) ∧
  ∀ s : State, exec .faultRecordResume s = .next
    ((sortBy (fun (a b : Miss) => a.order < b.order) (s.mem.miss.filter fun m => m.ctx == s.arg.x && m.phase == .queued)).foldl
      (fun t m => t.recordTurn m.die m.num) s)

/-- EVENT_ENQUEUE and EVENT_READ (R407): the queue of a die holds at most 256 events, in their order. -/
def EventQueues : Prop :=
  (∀ (s : State) (e : Event) (rest : List Event), (s.arbiter s.arg.x).held = e :: rest → (s.arbiter s.arg.x).queue.length < 256 →
    exec .eventEnqueue s = .next ((s.putArbiter { s.arbiter s.arg.x with
      queue := (s.arbiter s.arg.x).queue ++ [e], held := rest }).deliverEvent s.arg.x)) ∧
  (∀ (s : State) (e : Event) (rest : List Event), (s.arbiter s.arg.x).queue = e :: rest →
    exec .eventRead s = .next ((s.putArbiter { s.arbiter s.arg.x with queue := rest }).updDev fun d => { d with eventOut := some e })) ∧
  (∀ s : State, (s.arbiter s.arg.x).queue = [] → exec .eventRead s = .next (s.updDev fun d => { d with eventOut := none })) ∧
  ∀ (s : State) (d : Nat) (e : Event),
    let a := s.arbiter d
    s.eventWaiter? d = none → (s.raise d e).arbiter d =
      if a.held = [] ∧ a.queue.length < 256 then { a with queue := a.queue ++ [e] } else { a with held := a.held ++ [e] }

/-- A word that a core owns, read at its home (R358 to R360): what its owner has written is brought home, and the home then grants it anew. A grant
is recorded with its package and core (R368). -/
def OwnedWordsAreRecalled : Prop :=
  (∀ (m : MemSys) (w c : Nat) (x : L1Word), w % 4 = 0 → m.owner? w = some (0, c) → m.pinnedWord w = false → m.l1? c w = some x →
    Memory.wf m.cells = true →
    (m.recallAll [w]).owner? w = none ∧
    (m.recallAll [w]).homeValue w 4 = if x.written then x.val.toNat else Memory.readN m.cells w 4) ∧
  ∀ (m : MemSys) (pkg c g w : Nat), m.othersLine pkg c w = false → (m.own pkg c g w).owner? w = some (pkg, c)

/-- SNPINV, SNPDATA, SNPCUR, HOST_MEM_READ, HOST_MEM_WRITE, PEER_REQUEST and PEER_REQUEST_TIMEOUT (R365, R366, R368, R369). The places of host and
peer memory among the addresses are the model's choice (assumption log 55). -/
def HostAndPeerRequests : Prop :=
  (∀ (s : State) (i : Instr), i = .snpInv ∨ i = .snpData →
    let line := s.arg.x / 64 * 64
    let stays := fun (x : CacheWord) =>
      (x.key < 2 ^ 56 + line ∨ 2 ^ 56 + line + 64 ≤ x.key) ∧ (x.tag = 4 → x.key < line ∨ line + 64 ≤ x.key)
    exec i s = .next (s.updMem fun m => { m with rdc := m.rdc.filter fun x => decide (stays x) })) ∧
  (∀ s : State, exec .snpCur s = .next s) ∧
  (∀ s : State, s.dev.boot ≠ .shutdown → s.dev.boot ≠ .held →
    let a := s.arg
    (s.mem.poisoned a.x a.y = true → exec .hostMemRead s = .next (s.updDev fun d => { d with hostRead := [], hostPoison := true })) ∧
    (s.mem.poisoned a.x a.y = false → s.mem.retry none a.x a.y = true → exec .hostMemRead s = .next s) ∧
    (s.mem.poisoned a.x a.y = false → s.mem.retry none a.x a.y = false →
      exec .hostMemRead s = .next (let t := s.updMem fun m => m.recallAll (wordKeys a.x a.y)
        t.updDev fun d => { d with hostRead := bytesOfNat a.y (t.mem.homeValue a.x a.y), hostPoison := false })) ∧
    (s.mem.poisoned a.x a.y = false → s.mem.retry none a.x a.y = false →
      (∀ w ∈ pairsOf (wordKeys a.x a.y), s.mem.owner? w = none) →
      exec .hostMemRead s = .next (s.updDev fun d => { d with
        hostRead := bytesOfNat a.y (Memory.readN s.mem.cells a.x a.y), hostPoison := false })) ∧
    (s.mem.retry none a.x a.data.length = false → (∀ w ∈ pairsOf (wordKeys a.x a.data.length), s.mem.owner? w = none) →
      Memory.wf s.mem.cells = true → ∃ t, exec .hostMemWrite s = .next t ∧ ∀ x, Memory.read t.mem.cells x =
        if a.x ≤ x ∧ x < a.x + a.data.length then a.data.getD (x - a.x) 0 else Memory.read s.mem.cells x) ∧
    (a.kind = .read → s.mem.retry none a.z a.n = false → s.mem.poisoned a.z a.n = false →
      exec .peerRequest s = .next ((s.readOrdered a.z a.n).2.updDev fun d =>
        { d with peerRead := bytesOfNat a.n (s.readOrdered a.z a.n).1 })) ∧
    (a.kind = .write → s.mem.retry none a.z a.data.length = false → (∀ w ∈ pairsOf (wordKeys a.z a.data.length), s.mem.owner? w = none) →
      Memory.wf s.mem.cells = true → ∃ t, exec .peerRequest s = .next t ∧ ∀ x, Memory.read t.mem.cells x =
        if a.z ≤ x ∧ x < a.z + a.data.length then a.data.getD (x - a.z) 0 else Memory.read s.mem.cells x) ∧
    (a.kind = .own →
      let g := if a.n = 32 ∨ a.n = 512 then a.n else 128
      let value := fun (t : State) => t.updDev fun d => { d with peerRead := bytesOfNat g (t.mem.homeValue (a.z / g * g) g) }
      let blocked := ∃ w ∈ lineWords g a.z, s.mem.retry none w 4 = true
      (blocked → exec .peerRequest s = .next s) ∧
      (¬ blocked → s.mirrored a.z = true → exec .peerRequest s = .next (value s)) ∧
      (¬ blocked → s.mirrored a.z = false → exec .peerRequest s = .next (value (s.updMem fun m =>
        ((grainWords g a.z).filter fun w => !m.watched w && !m.poisoned w 4).foldl (fun m w => m.own (a.x + 1) a.y g w)
          (m.recallAll ((lineWords g a.z).filter fun w => match m.owner? w with | some o => o != (a.x + 1, a.y) | none => false)))))) ∧
    (∀ f : Nat → Nat,
      (∃ o, a.kind = .atom o ∧ f = fun m => (atomNew o a.n m a.v.toNat).1) ∨
        (a.kind = .acas ∧ f = fun m => if m = natOfBytes a.data then a.v.toNat % 256 ^ a.n else m) →
      (s.mem.retry none a.z a.n = true ∨ s.mem.poisoned a.z a.n = true → exec .peerRequest s = .next s) ∧
      (s.mem.retry none a.z a.n = false → s.mem.poisoned a.z a.n = false →
        (∀ w ∈ pairsOf (wordKeys a.z a.n), s.mem.owner? w = none) → Memory.wf s.mem.cells = true →
        let old := Memory.readN s.mem.cells a.z a.n
        ∃ t, exec .peerRequest s = .next t ∧ t.dev.peerRead = bytesOfNat a.n old ∧ ∀ x, Memory.read t.mem.cells x =
          if a.z ≤ x ∧ x < a.z + a.n then BitVec.ofNat 8 (f old / 256 ^ (x - a.z)) else Memory.read s.mem.cells x))) ∧
  ∀ (s : State) (r : Req), (s.mem.reqs.find? fun r => r.id == s.arg.x) = some r → r.home = 5 → r.stall = none →
    r.since + 10500000 ≤ s.dev.cycle → (∀ l ∈ s.dev.links, l.1 ≠ s.arg.y) → s.goneUnits s.arg.y = false →
    exec .peerRequestTimeout s = .next ((s.stallReq r .link).raise (coreDie r.core)
      { kind := .link, ctx := r.ctx, src := s.arg.y, data := BitVec.ofNat 32 (s.arg.y % 2 ^ 16 + 3 * 2 ^ 16), addr := 0 })

end Sys2Proof.Claims

/-- The steps of homes, caches, walks, faults, events, the host and peers. -/
def Obligations.MemorySteps : Prop :=
    Claims.HomesServeRequests ∧
    Claims.MemorySystemSteps ∧
    Claims.EventQueues ∧
    Claims.OwnedWordsAreRecalled ∧
    Claims.HostAndPeerRequests

namespace Sys2Proof.Claims

/-- LAUNCH_QUEUE_TAKE (R80, R81, R429 to R431): a queue writes the status of the pour that failed last, in the context of that pour and while it runs; else,
enabled and with descriptors, it reads the next one, unless a pour of it has not started, those of a saved context among them; on a context that is not
live it passes the descriptor over with NOCTX. LQBASE is read through the table of the queue's context, a system access for no core gives core 0 in its
record, and the queue advances with a failure (the model's choices, assumption logs 20, 67 and 74). -/
def LaunchQueuesTake : Prop :=
  (∀ s : State,
    let x := s.queue s.arg.x
    (∀ ctx a st, x.report = some (ctx, a, st) →
      ((∀ c, s.ctx? ctx = some c → c.phase ≠ .running) → exec .launchQueueTake s = .next s) ∧
      ∀ c, s.ctx? ctx = some c → c.phase = .running → s.held (.queue s.arg.x) = false →
        ∀ t, s.sysWrite (s.systemOrigin 0 ctx) a 8 st = .done t →
          exec .launchQueueTake s = .next (t.putQueue { x with report := none })) ∧
    (x.report = none → x.en = false ∨ x.get = x.put → exec .launchQueueTake s = .next s) ∧
    (x.report = none → x.en = true → x.get ≠ x.put → x.size ≠ 0 →
      (s.ctx? x.ctx = none → exec .launchQueueTake s = .next (s.putQueue { x.taken with noctx := true })) ∧
      ∀ c, s.ctx? x.ctx = some c → c.phase = .running → s.held (.queue s.arg.x) = false →
        ((∃ p ∈ s.queuePours s.arg.x, p.started = false) → exec .launchQueueTake s = .next s) ∧
        ((∀ p ∈ s.queuePours s.arg.x, p.started = true) →
          (∀ ws, x.snap = some ws → exec .launchQueueTake s = .next (s.queueStart s.arg.x c (dwords (natOfWords ws) 8))) ∧
          (x.snap = none → ∀ v t, s.curveRead (s.systemOrigin 0 c.num) (x.base.toNat + 64 * (x.get.toNat % x.size.toNat)) 8
              (fun v s => .val v s) = .val v t →
            exec .launchQueueTake s = .next ((t.putQueue { x with snap := some (wordsOfNat 16 v) }).queueStart s.arg.x c (dwords v 8)))))) ∧
  (∀ (s : State) (q : Nat) (c : Context) (d : List Nat),
    (descBad true d = true → s.queueStart q c d = (s.putQueue ((s.queue q).fail d pourBadDesc)).queueReport q) ∧
    (descBad true d = false → 256 ≤ c.livePours.length ∨ (bitOf (wordAt d 5) 2 = true ∧ s.queuePours q ≠ []) → s.queueStart q c d = s)) ∧
  (∀ (x : LaunchQ) (d : List Nat) (st : Nat), x.fail d st =
    { x with get := x.get + 1, snap := none
             report := if wordAt d 3 = 0 ∨ wordAt d 3 % 8 ≠ 0 then x.report else some (x.ctx, wordAt d 3, st) }) ∧
  ∀ (s : State) (q ctx : Nat) (c : Context), s.ctx? ctx = some c → ∀ p, p.queue = some q →
    (c.phase ≠ .saved → p ∈ c.livePours → p ∈ s.queuePours q) ∧
    (∀ i, c.phase = .saved → (s.images.reverse.find? fun i => i.ctx.num == ctx) = some i → p ∈ i.ctx.livePours → p ∈ s.queuePours q)

/-- HEAT_REFILL, UNIT_PLACEMENT, ADMISSION_DECISION, ADMISSION_OVERDUE and CANDIDATE_RESERVED (R93, R105, R106, R107, R108). A reserved task that has
room halts no other. Where the sectors that cover a charge are all stopped the scan takes the first cluster with room, the tasks that are pre-empted are
taken youngest first with ties by the task list, and of two reserved candidates of one priority the one examined first keeps the core (the model's
choices, assumption logs 64, 65 and 73). -/
def TasksAreAdmitted : Prop :=
  (∀ s : State, exec .heatRefill s = .next (s.updDev fun d =>
    let n := d.cycle / 1050
    { d with
      refills := Nat.max d.refills n
      heat := d.heat.map fun h =>
        let sum := h.rem + (n - d.refills) * h.rate
        { h with level := min (h.cap : Int) (h.level + (sum / 256 : Nat)), rem := sum % 256 } })) ∧
  (∀ (s : State) (t : Task) (n : Node) (cl : Nat),
    let u := s.refill.trackRoom
    (u.tasks.find? fun t => t.ctx == s.arg.x && t.pour == s.arg.y && t.node == s.arg.z && u.candidate t && (u.unitCluster t).isNone
      && (match u.taskNode t with | some n => !n.sp | none => false)) = some t → u.taskNode t = some n → u.scan t = some cl →
    exec .unitPlacement s = .next (u.updPour t.ctx t.pour fun p => { p with nstates := p.nstates.zipIdx.map fun x =>
      if x.2 = t.node then { x.1 with placed := x.1.placed ++ [(t.unit, cl)], ptr := (cl + 1) % 128 } else x.1 })) ∧
  (∀ s : State,
    let u := s.continuePours.refill.trackRoom
    exec .admissionDecision s = .next (match u.pick s.arg.x s.arg.y (sortBy u.ahead (u.tasks.filter u.candidate)) with
      | some (t, c) => (u.admitOn t c).trackRoom
      | none => u)) ∧
  (∀ (s : State) (die sec c : Nat) (t : Task) (ts : List Task), s.pick die sec ts = some (t, c) →
    t ∈ ts ∧ s.admitCore die t = some c ∧ coreSector c = 3 * die + sec ∧ (s.covers t c = true ∨ s.long t.roomSince = true)) ∧
  (∀ (s : State) (t : Task) (c : Nat),
    let u := s.refill.trackRoom
    let order := sortBy u.ahead (u.tasks.filter u.candidate)
    u.task? s.arg.x = some t → u.candidate t = true → u.long t.roomSince = true → u.admitCore (u.homeDie t) t = some c →
    (∀ v k, u.pick (coreDie c) (coreSector c % 3) order = some (v, k) →
      exec .admissionOverdue s = .next (if v.id = t.id then (u.admitOn v k).trackRoom else u)) ∧
    (u.pick (coreDie c) (coreSector c % 3) order = none → exec .admissionOverdue s = .next u)) ∧
  (∀ s : State, ∃ f : Task → Task, s.trackRoom = { s with tasks := s.tasks.map f } ∧ ∀ t,
    let room := (s.targets (s.homeDie t) t).filter (s.hasRoom t)
    (s.candidate t = false → (f t).roomSince = none ∧ (f t).passedSince = none) ∧
    (s.candidate t = true → room = [] → (f t).roomSince = none ∧ (f t).passedSince = some (t.passedSince.getD s.dev.cycle)) ∧
    (s.candidate t = true → room ≠ [] → (f t).passedSince = none ∧
      ((∃ c ∈ room, s.covers t c = true) → (f t).roomSince = none) ∧
      ((∀ c ∈ room, s.covers t c = false) → (f t).roomSince = some (t.roomSince.getD s.dev.cycle)))) ∧
  ∀ (s : State) (t : Task),
    let u := s.trackRoom
    u.task? s.arg.x = some t → u.candidate t = true → t.reserved = true ∨ u.long t.passedSince = true →
    exec .candidateReserved s = .next ((u.updTask t.id fun t => { t with reserved := true }).requestRoom { t with reserved := true }) ∧
    ((∃ c ∈ s.targets (s.homeDie t) t, s.hasRoom t c = true) → s.requestRoom t = s)

/-- TASK_SAVE, TASK_RETIRE, RETIRE_RESUME and DIE_HALTED (R401, R404, R405, R418, R420, R423). The words of a save slot are free values (assumption log
28); while a task is halted or saved its cycles stand. -/
def TasksEndAndHalt : Prop :=
  (∀ (s : State) (t : Task) (c : Context) (n : Nat), s.task? s.arg.x = some t → t.phase = .halting → s.quiet [t.id] = true →
    s.held (.save t.id) = false → s.ctx? t.ctx = some c → t.saveSlot = some n →
    let w := s.openWords (c.tsbase + 2 ^ 21 * n) slotWords
    ∀ u, w.2.sysWrites (w.2.systemOrigin t.core t.ctx) w.1 = .done u → exec .taskSave s = .next (u.saveTask t)) ∧
  (∀ (t : Task) (now : Nat),
    (t.stopCount now).counting = none ∧
    (t.counting = none → (t.stopCount now).cycles = t.cycles) ∧
    (∀ m, t.counting = some m → (t.stopCount now).cycles = t.cycles + (now - m))) ∧
  (∀ (s : State) (ctx : Nat) (kill : Bool),
    (s.requestHalt ctx kill).tasks = s.tasks.map fun t => if t.ctx = ctx ∧ t.phase = .running then t.stopCount s.dev.cycle else t) ∧
  (∀ (s : State) (t : Task), s.task? s.arg.x = some t →
    (t.phase = .running → s.acting s.arg.x = true → s.finished s.arg.x = true →
      exec .taskRetire s = .next ((s.updTask s.arg.x fun t => { t with phase := .retiring 1 }).goOn s.arg.x)) ∧
    (∀ k, t.phase = .retiring k → exec .taskRetire s = .next (s.goOn s.arg.x)) ∧
    (t.phase = .retiring 3 → exec .retireResume s = .next (s.goOn s.arg.x))) ∧
  ∀ (s : State) (c : Context), s.ctx? s.arg.y = some c → s.arg.x < 4 → c.phase = .halting → s.arg.x ∉ c.haltedDies →
    s.dieStill s.arg.y s.arg.x = true →
    let all := decide (3 ≤ c.haltedDies.length)
    let t := s.haltDie s.arg.y s.arg.x all
    exec .dieHalted s = .next (if all ∧ c.kill then t.destroy s.arg.y else t) ∧
    t.mem.cells = s.mem.cells ∧
    ∀ c', t.ctx? s.arg.y = some c' → c'.haltedDies = c.haltedDies ++ [s.arg.x] ∧ c'.phase = (if all then .halted else .halting)

end Sys2Proof.Claims

/-- The steps that launch, place, save and retire tasks and halt dies. -/
def Obligations.TaskSteps : Prop :=
    Claims.LaunchQueuesTake ∧
    Claims.TasksAreAdmitted ∧
    Claims.TasksEndAndHalt

namespace Sys2Proof.Claims

/-- The registers of the launch queues, of the heat budgets and of the routers, and the integrity counters (R104, R228, R371, R372, R427 to R429): a
write of the host (flag0) to a register that is not the host's is discarded. What LQCTL does on an enabled queue, and that a queue disabled before it takes its
descriptor reads it again, are the model's choices (assumption logs 44, 45 and 74). -/
def RegisterWrites : Prop :=
  ∀ s : State,
    let a := s.arg
    let w : Word := a.v.setWidth 32
    let q := s.queue a.x
    let heat := fun (d k : Nat) (f : Heat → Heat) => if d < 4 ∧ k < 3 then s.refill.putHeat (f (s.refill.heat d k)) else s
    let unread := fun (m : Miss) => { m with waiters := m.waiters.filter (· != .queue a.x) }
    let forgotten : State := { s with
      mem := { s.mem with miss := s.mem.miss.map unread }
      images := s.images.map fun i => { i with miss := i.miss.map unread } }
    (a.x < 16 →
      exec .lqputWrite s = .next (s.putQueue (if q.size.toNat < (w - q.get).toNat then { q with ovf := true } else { q with put := w })) ∧
      (bitsOf w.toNat 30 6 = 0 → q.en = true ∧ w.toNat % 64 ≠ q.ctx → exec .lqctlWrite s = .next (s.putQueue { q with cfg := true })) ∧
      (bitsOf w.toNat 30 6 = 0 → ¬ (q.en = true ∧ w.toNat % 64 ≠ q.ctx) →
        (bitOf w.toNat 31 = true → exec .lqctlWrite s = .next (s.putQueue { q with en := true, ctx := w.toNat % 64 })) ∧
        (bitOf w.toNat 31 = false → exec .lqctlWrite s = .next
          ((if q.report = none then forgotten else s).putQueue { q with en := false, ctx := w.toNat % 64, snap := none }))) ∧
      (bitsOf w.toNat 30 6 ≠ 0 → exec .lqctlWrite s = .next s) ∧
      (w.toNat < 16 → exec .lqerrClear s = .next (s.putQueue { q with
        ovf := q.ovf && !bitOf w.toNat 0, cfg := q.cfg && !bitOf w.toNat 1, noctx := q.noctx && !bitOf w.toNat 2
        rfault := q.rfault && !bitOf w.toNat 3 })) ∧
      (16 ≤ w.toNat → exec .lqerrClear s = .next s)) ∧
    (a.flag0 = true → exec .hbctlWrite s = .next s ∧ exec .hbcapWrite s = .next s ∧
      ∀ r, a.reg = r → (∃ d k, r = .hbrate d k ∨ r = .hbcost d k) ∨ (∃ p, r = .qwgt0 p ∨ r = .qwgt1 p ∨ r = .hop p) →
        exec .registerWrite s = .next s) ∧
    (a.flag0 = false → exec .hbctlWrite s = .next (heat a.x a.y fun h => if 2 ≤ w.toNat then h
      else { h with en := w.toNat == 1, level := if w.toNat = 1 ∧ h.en = false then h.cap else h.level })) ∧
    (a.flag0 = false → exec .hbcapWrite s = .next (heat a.x a.y fun h => if 2 ^ 31 ≤ w.toNat then h
      else { h with cap := w.toNat, level := min h.level w.toNat })) ∧
    (match a.reg with
      | .lqbase n => n < 16 → exec .registerWrite s = .next (s.putQueue
          (if (s.queue n).en then { s.queue n with cfg := true } else { s.queue n with base := a.v }))
      | .lqsize n => n < 16 → exec .registerWrite s = .next (s.putQueue
          (if (s.queue n).en then { s.queue n with cfg := true } else { s.queue n with size := w }))
      | .hbrate d k => a.flag0 = false → exec .registerWrite s = .next (heat d k fun h => if 2 ^ 24 ≤ w.toNat then h else { h with rate := w.toNat })
      | .hbcost d k => a.flag0 = false → exec .registerWrite s = .next (heat d k fun h => { h with cost := w })
      | .hop n => a.flag0 = false → exec .registerWrite s = .next (s.updDev fun d =>
          { d with hops := d.hops.filter (fun h => h.1 != n) ++ [(n, w.toNat)] })
      | .qwgt0 p => a.flag0 = false → exec .registerWrite s = .next (s.putRouter { s.router p with wgt0 := w })
      | .qwgt1 p => a.flag0 = false → exec .registerWrite s = .next (s.putRouter { s.router p with wgt1 := w })
      | .mbreq k => exec .registerWrite s = .next (s.updMbox fun m => { m with req := m.req.set k w })
      | .mbirq => exec .registerWrite s = .next (if w.toNat / 4096 = 0
          then s.updMbox fun m => { m with irqEn := bitOf w.toNat 0, irqVec := bitsOf w.toNat 11 1 } else s)) ∧
    exec .routerArbitrate s = .next (s.putRouter (s.router a.x).arbitrate) ∧
    exec .g2Ageing s = .next (s.putRouter { s.router a.x with queue := (s.router a.x).queue.map fun m =>
      if m.tc ≤ 3 ∧ m.since + 65536 ≤ s.fabricCycle then { m with aged := true } else m })

/-- The mailbox (R438, R439): MBDOOR holds the number that was submitted and submits a request or answers BADREQ, MBSTAT clears OVF, and an answer
leaves the mailbox idle with seq in its response. What a write with a reserved bit does and what a request that is not well-formed is answered are
the model's choices (assumption logs 45 and 46). -/
def MailboxProtocol : Prop :=
  ∀ s : State,
    let m := s.dev.mbox
    let w : Word := s.arg.v.setWidth 32
    (s.dev.boot = .usable → w.toNat < 256 →
      (m.busy = true → exec .mbdoorWrite s = .next (s.updMbox fun m => { m with ovf := true })) ∧
      (m.busy = false → bitsOf (m.req.getD 0 0).toNat 15 8 = w.toNat → m.wellFormed = true →
        exec .mbdoorWrite s = .next (s.updMbox fun m => { m with busy := true, door := w.toNat })) ∧
      (m.busy = false → bitsOf (m.req.getD 0 0).toNat 15 8 ≠ w.toNat ∨ m.wellFormed = false →
        exec .mbdoorWrite s = .next (s.updMbox fun m => { m with busy := true, door := w.toNat, wait := none, answer := some (2, []) }))) ∧
    (s.dev.boot ≠ .usable ∨ 256 ≤ w.toNat → exec .mbdoorWrite s = .next s) ∧
    exec .mbstatClear s = .next (if bitOf w.toNat 9 ∧ w.toNat < 1024 then s.updMbox fun m => { m with ovf := false } else s) ∧
    ∀ st res, m.answer = some (st, res) ∨ (m.answer = none ∧ m.wait.bind s.waitOver = some (st, res)) →
      let seq := bitsOf (m.req.getD 0 0).toNat 15 8
      let t := s.updMbox fun m => { m with
        rsp := (BitVec.ofNat 32 (st + 256 * seq) :: res) ++ List.replicate (15 - res.length) 0
        done := seq, busy := false, wait := none, answer := none }
      exec .mailboxAnswer s = .next (if m.irqEn then t.updDev fun d => { d with msix := m.irqVec :: d.msix } else t)

/-- The requests of the mailbox (R435, R437, R438, Tables 22-7, 22-8): what each opcode does once it is submitted. The words of a save area, what a
SAVED event says of a SAVE, and the answers of HALT and BIAS are the model's choices (assumption logs 38, 39 and 42). -/
def MailboxRequests : Prop :=
  ∀ s : State,
    let m := s.dev.mbox
    let op := m.arg 0 % 256
    let ctx := bitsOf (m.arg 0) 21 16
    let long := fun (i : Nat) => m.arg i + 2 ^ 32 * m.arg (i + 1)
    let answered := fun (t : State) (st : Nat) (res : List Nat) =>
      t.updMbox fun m => { m with wait := none, answer := some (st, res.map (BitVec.ofNat 32)) }
    let waits := fun (t : State) (x : MbWait) => t.updMbox fun m => { m with wait := some x }
    m.busy = true → m.wait = none → m.answer = none →
    (op = 1 → s.ctx? ctx = none → long 1 % 64 = 0 → long 1 + 256 ≤ 768000000000 → s.mem.retry none (long 1) 256 = false →
      s.mem.poisoned (long 1) 256 = false →
      let r := s.readOrdered (long 1) 256
      exec .mbCreate s = .next (if entryOk r.1 then answered { r.2 with ctxs := r.2.ctxs ++ [contextOf ctx r.1] } 0 []
        else answered r.2 2 [])) ∧
    (op = 10 → exec .mbPowercap s = .next (if 400 ≤ m.arg 1 ∧ m.arg 1 ≤ 1600
      then answered (s.updDev fun d => d.putPower fun d => { d with pwrcap := m.arg 1 }) 0 [] else answered s 2 [])) ∧
    (op = 11 → m.arg 1 ≤ 3 → m.arg 2 ≤ 2 → m.arg 3 ≤ 1 → m.arg 4 < 2 ^ 31 → m.arg 5 < 2 ^ 24 →
      exec .mbHeat s = .next (answered (s.refill.putHeat
        (let h := s.refill.heat (m.arg 1) (m.arg 2)
         let a := { h with reqEn := m.arg 3 == 1, reqCap := m.arg 4, reqRate := m.arg 5, reqCost := BitVec.ofNat 32 (m.arg 6) }
         if h.held then a else a.asked)) 0 [])) ∧
    (op = 12 → exec .mbEngreset s = .next (if 127 < m.arg 1 then answered s 2 []
      else if s.engineBusy (m.arg 1) then s else answered (s.resetEngine (m.arg 1)) 0 [])) ∧
    (∀ i, (op = 2 ∧ i = .mbDestroy) ∨ (op = 3 ∧ i = .mbHalt) ∨ (op = 4 ∧ i = .mbSave) ∨ (op = 5 ∧ i = .mbLoad) ∨
        (op = 6 ∧ i = .mbTcmap) ∨ (op = 7 ∧ i = .mbMovepage) ∨ (op = 8 ∧ i = .mbBias) ∨ (op = 9 ∧ i = .mbTlbinv) →
      s.ctx? ctx = none → exec i s = .next (answered s 3 [])) ∧
    ∀ c, s.ctx? ctx = some c →
      (op = 2 → exec .mbDestroy s = .next ((waits s { op := 2, ctx := ctx }).preempt ctx true)) ∧
      (op = 3 → exec .mbHalt s = .next (if c.phase = .running then (waits s { op := 3, ctx := ctx }).preempt ctx false
        else answered s 1 [])) ∧
      (op = 4 → (long 1 % 65536 ≠ 0 → exec .mbSave s = .next (answered s 2 [])) ∧
        (long 1 % 65536 = 0 → c.phase ≠ .halted → exec .mbSave s = .next (answered s 1 [])) ∧
        (long 1 % 65536 = 0 → c.phase = .halted → ∀ size, s.saveCheck ctx (m.arg 3) = .go size →
          long 1 + 65536 * size ≤ 768000000000 →
          let f := (s.flushTasks (s.ctxTasks ctx)).newId
          ∀ t, f.2.physWrites (long 1) (imageWords f.1 size ctx) = some t →
            exec .mbSave s = .next (answered ((t.takeImage ctx f.1 size).raiseSaved 0 0 ctx (s.ctxCores ctx).length) 0 [0, size]))) ∧
      (op = 5 → (long 1 % 65536 ≠ 0 → exec .mbLoad s = .next (answered s 2 [])) ∧
        (long 1 % 65536 = 0 → c.phase ≠ .saved → exec .mbLoad s = .next (answered s 1 [])) ∧
        (long 1 % 65536 = 0 → c.phase = .saved → 768000000000 < long 1 + 64 → exec .mbLoad s = .next (answered s 4 [])) ∧
        (long 1 % 65536 = 0 → c.phase = .saved → long 1 + 64 ≤ 768000000000 → s.mem.retry none (long 1 + 16) 8 = false →
          s.mem.poisoned (long 1 + 16) 8 = false →
          let r := s.readOrdered (long 1 + 16) 8
          (r.2.imageFor ctx (m.arg 3) r.1 = none → exec .mbLoad s = .next (answered r.2 0 [2])) ∧
          ∀ i, r.2.imageFor ctx (m.arg 3) r.1 = some i →
            (768000000000 < long 1 + 65536 * i.size → exec .mbLoad s = .next (answered r.2 4 [])) ∧
            (long 1 + 65536 * i.size ≤ 768000000000 → ∀ ok t,
              r.2.physMatches (long 1) (imageWords i.num i.size ctx) = some (ok, t) →
              (ok = false → exec .mbLoad s = .next (answered t 0 [2])) ∧
              ∀ t', ok = true → t.loadImage i = some t' → exec .mbLoad s = .next (answered t' 0 [0])))) ∧
      (op = 6 → exec .mbTcmap s = .next (if m.arg 1 < 2 ^ 24
        then answered (s.updCtx ctx fun c => c.putTcmap (m.arg 1)) 0 [] else answered s 2 [])) ∧
      (op = 7 → m.arg 3 ≤ 3 → ∀ l, s.pageLeaf ctx (long 1) = some l → l.home ≤ 3 → exec .mbMovepage s = .next
        (waits (s.updDev fun d => { d with starts := d.starts ++
          [{ ctx := ctx, va := long 1, newHome := m.arg 3, mesh := none, bias := false }] }) { op := 7, ctx := ctx, va := long 1 })) ∧
      (op = 8 → m.arg 3 ≤ 1 → ∀ l, s.pageLeaf ctx (long 1) = some l → l.sh = true → l.home ≠ 5 → exec .mbBias s = .next
        (let home := if m.arg 3 = 0 then 4 else if l.home ≤ 3 then l.home else Config.biasDie l.pa % 4
         waits (s.updDev fun d => { d with starts := d.starts ++
           [{ ctx := ctx, va := long 1, newHome := home, mesh := none, bias := true }] })
          { op := 8, ctx := ctx, va := long 1 })) ∧
      (op = 8 → m.arg 3 ≤ 1 → ∀ l, s.pageLeaf ctx (long 1) = some l → l.sh = false ∨ l.home = 5 →
        exec .mbBias s = .next (answered s 2 [])) ∧
      (op = 9 →
        let len := long 3
        let lo := if len = 2 ^ 64 - 1 then 0 else if len = 0 then 2 ^ 64 else long 1
        let hi := if len = 2 ^ 64 - 1 then 2 ^ 64 else if len = 0 then 0 else long 1 + len
        let r : Drop := { ctx := some ctx, lo := lo, hi := hi }
        exec .mbTlbinv s = .next
          ((waits s { op := 9, ctx := ctx, reqs := s.dropReqs r, entries := s.dropEntries r }).dropXlates (some ctx) lo hi))

/-- Power, heat and boot (R434, R435, R436), and an engine reset by its register (R440), which the host may not write (R427). An image verifies where
both its signatures do and each public key has the hash of the fuses; a capped sector's rate is lowered in proportion to the cap (assumption log 43). What
reserved bits of PWRSTAT do, what a shutdown and a function reset leave, and the order in which requested heat values take effect are the model's
choices (assumption logs 45, 48 and 51). -/
def PowerAndBoot : Prop :=
  ∀ s : State,
    let d := s.dev
    let a := s.arg
    let w : Word := a.v.setWidth 32
    let sectors := [(0, 0), (0, 1), (0, 2), (1, 0), (1, 1), (1, 2), (2, 0), (2, 1), (2, 2), (3, 0), (3, 1), (3, 2)]
    exec .pwrstatClear s = .next (if bitOf w.toNat 0 ∧ w.toNat < 32 then s.updDev fun d => { d with therm := false } else s) ∧
    (d.boot = .usable → d.pwrcap < d.pwrnow → exec .powerCapEnforce s = .next
      ((sectors.foldl (fun t x => t.updHeat x.1 x.2 (Heat.lower d.pwrcap d.pwrnow)) s).updDev fun d => { d with capped := true })) ∧
    (d.capped = true → 100 * d.pwrnow < 95 * d.pwrcap → d.below + 105000000 ≤ d.cycle → d.restored + 10500000 ≤ d.cycle →
      ∀ x, sectors.find? (fun x => (s.heat x.1 x.2).held) = some x →
        let t := (s.updHeat x.1 x.2 Heat.asked).updDev fun d => { d with restored := d.cycle }
        exec .powerCapRestore s = .next (if ∃ x ∈ sectors, (t.heat x.1 x.2).held = true then t
          else t.updDev fun d => { d with capped := false })) ∧
    (∀ (h : Heat) (cap now : Nat),
      let dflt := Config.heatDefault h.die h.sector
      let b := if h.reqEn = true ∨ h.held = true then h
        else (((h.putCap (dflt.1 % 2 ^ 31)).putRate (dflt.2.1 % 2 ^ 24)).putCost dflt.2.2).putCtl 1
      h.lower cap now = if b.en then { b with rate := b.rate * cap / now, held := true } else b) ∧
    (a.x < 6 → d.boot ≠ .off → d.boot ≠ .shutdown → d.boot ≠ .held →
      ∃ t, exec .thermalShutdown s = .next t ∧ t.dev.boot = .shutdown ∧ t.dev.therm = true ∧ t.dev.thermDie = a.x ∧ t.issue = none ∧
        t.threads = [] ∧ t.warps = [] ∧ t.teams = [] ∧ t.tasks = [] ∧ t.ctxs = [] ∧ t.images = [] ∧
        ∀ k, k < 2 ^ 56 → Memory.read t.mem.cells k = Memory.unlisted) ∧
    exec .functionReset s = .next (if d.boot = .shutdown
      then s.updDev fun d => { d with boot := .held, wait := 2, pwrcap := 1600, queues := [], mbox := {} } else s) ∧
    exec .powerOn s = .next { State.reset with
      agenda := s.agenda, arg := s.arg, freeCtr := s.freeCtr, idCtr := s.idCtr
      dev := { boot := if d.boot = .shutdown ∨ d.boot = .held then .held else .fetching } } ∧
    (∀ n, d.boot = .waiting n → exec .bootFetchRetry s = .next
      (if d.bootAt + n * 1050000000 ≤ d.cycle then s.updDev fun d => { d with boot := .fetching } else s)) ∧
    (d.boot = .fetching → exec .bootImageFetched s = .next (s.updDev fun d =>
      if a.flag0 = true ∧ a.flag1 = true ∧ a.flag2 = true ∧ a.x = Config.fuseHash 0 ∧ a.y = Config.fuseHash 1 then { d with boot := .usable, wait := 2 }
      else { d with boot := .waiting d.wait, wait := Nat.min 64 (2 * d.wait), bootAt := d.cycle })) ∧
    exec .diesBelow85C s = .next (if d.boot = .held then s.updDev fun d => { d with boot := .fetching } else s) ∧
    (a.flag0 = false → a.x < 128 → w.toNat < 4 → bitOf w.toNat 0 = true → s.engineBusy a.x = false →
      exec .engrstcWrite s = .next (s.resetEngine a.x)) ∧
    (a.flag0 = true ∨ 128 ≤ a.x ∨ 4 ≤ w.toNat ∨ bitOf w.toNat 0 = false ∨ s.engineBusy a.x = true → exec .engrstcWrite s = .next s)

/-- What the host reads from BAR0 (R228, R427, R434, R436): 0 until an image has verified; 0 outside the power region after a thermal
shutdown; 0 in the regions that are not its own, where Adeing reads what they hold; and the launch queues, the mailbox, the power registers and the ports as Tables 22-2
and 22-6, R433 and R435 lay them out. -/
def BarReads : Prop :=
  ∀ s : State,
    let d := s.dev
    let bit := fun (b : Bool) (i : Nat) => if b = true then 2 ^ i else 0
    (d.boot ≠ .usable → d.boot ≠ .shutdown → ∀ r, s.hostBar r = 0) ∧
    (d.boot = .shutdown → ∀ r, r ≠ .pwrcap → r ≠ .pwrnow → r ≠ .pwrstat → s.hostBar r = 0) ∧
    (∀ off, 0x200000 ≤ off → s.hostBar (.at_ off) = 0) ∧
    (∀ die k, s.hostBar (.hbctl die k) = 0 ∧ s.hostBar (.hblvl die k) = 0 ∧ s.hostBar (.hbcap die k) = 0 ∧
      s.hostBar (.hbrate die k) = 0 ∧ s.hostBar (.hbcost die k) = 0) ∧
    (∀ n, s.hostBar (.hop n) = 0 ∧ ∀ k, d.hops.find? (fun h => h.1 == n) = some (n, k) → s.adeingBar (.hop n) = BitVec.ofNat 32 k) ∧
    (∀ die k, s.adeingBar (.hblvl die k) = BitVec.ofInt 32 (s.refill.heat die k).level) ∧
    (d.boot = .usable ∨ d.boot = .shutdown → s.hostBar .pwrcap = BitVec.ofNat 32 d.pwrcap ∧
      s.hostBar .pwrnow = BitVec.ofNat 32 d.pwrnow ∧
      s.hostBar .pwrstat = BitVec.ofNat 32 (bit d.therm 0 + 2 * d.thermDie + bit d.capped 4)) ∧
    (d.boot = .usable →
      (∀ q < 16, let x := s.queue q
        s.hostBar (.at_ (64 * q)) = x.base.setWidth 32 ∧ s.hostBar (.at_ (64 * q + 4)) = (x.base >>> 32).setWidth 32 ∧
        s.hostBar (.at_ (64 * q + 8)) = x.size ∧ s.hostBar (.at_ (64 * q + 0x0C)) = BitVec.ofNat 32 (bit x.en 31 + x.ctx) ∧
        s.hostBar (.at_ (64 * q + 0x10)) = x.put ∧ s.hostBar (.at_ (64 * q + 0x14)) = x.get ∧
        s.hostBar (.at_ (64 * q + 0x18)) = BitVec.ofNat 32 (bit x.ovf 0 + bit x.cfg 1 + bit x.noctx 2 + bit x.rfault 3)) ∧
      (∀ i < 16, s.hostBar (.at_ (0x100000 + 4 * i)) = d.mbox.req.getD i 0 ∧
        s.hostBar (.at_ (0x100040 + 4 * i)) = d.mbox.rsp.getD i 0) ∧
      s.hostBar (.at_ 0x100080) = BitVec.ofNat 32 d.mbox.door ∧
      s.hostBar (.at_ 0x100084) = BitVec.ofNat 32 (d.mbox.done + bit d.mbox.busy 8 + bit d.mbox.ovf 9) ∧
      s.hostBar (.at_ 0x100088) = BitVec.ofNat 32 (bit d.mbox.irqEn 0 + 2 * d.mbox.irqVec) ∧
      ∀ p, d.ports.find? (fun x => x.num == p.num) = some p →
        s.hostBar (.port p.num) = BitVec.ofNat 32 (p.state + 2 ^ 2 * p.peerPort + 2 ^ 8 * p.peerPkg))

/-- LINK_RETRAIN_BEGIN, LINK_RETRAIN_DONE and LINK_RETIRE (R408, R433): each raises LINK with its cause, a port that is up shows its peer, and a port,
a bridge or a base-die link that has not retrained within 100 ms is retired (their numbers are the model's, assumption log 10; so is the C-die whose arbiter
has the event, for a port one of the two joined to its X-die, assumption log 43). -/
def LinkSteps : Prop :=
  ∀ s : State,
    let n := s.arg.x
    let port := fun (t : State) (st : Nat) => t.updPort n fun p => { p with state := st }
    let raise := fun (t : State) (cause : Nat) => t.raise (if n < 12 then 2 * (n / 6) + Config.linkDie n % 2 else Config.linkDie n % 4)
      { kind := .link, ctx := 255, src := n, data := BitVec.ofNat 32 (n % 2 ^ 16 + cause * 2 ^ 16), addr := 0 }
    ((∀ l ∈ s.dev.links, l.1 ≠ n) → n ∉ s.dev.retiredUnits → exec .linkRetrainBegin s = .next
      (raise (port (s.updDev fun d => { d with links := d.links ++ [(n, d.cycle)] }) 1) 0)) ∧
    ((∃ l ∈ s.dev.links, l.1 = n) → exec .linkRetrainDone s = .next
      (raise ((s.updDev fun d => { d with links := d.links.filter fun l => l.1 != n }).updPort n fun p =>
        { p with state := 2, peerPort := s.arg.y % 2 ^ 6, peerPkg := s.arg.z % 2 ^ 24 }) 1)) ∧
    let link := n < 12 ∨ 16 ≤ n ∧ n < 20 ∨ 24 ≤ n ∧ n < 28 ∨ 32 ≤ n ∧ n < 40
    (¬ link → exec .linkRetire s = .next (s.updDev fun d => { d with retiredUnits := insertNat n d.retiredUnits })) ∧
    (link → (∃ l ∈ s.dev.links, l.1 = n ∧ l.2 + 105000000 ≤ s.dev.cycle) → exec .linkRetire s = .next
      (raise (port (s.updDev fun d => { d with links := d.links.filter (fun l => l.1 != n), retiredUnits := insertNat n d.retiredUnits })
        3) 2))

end Sys2Proof.Claims

/-- The registers, the mailbox, power, boot and links. -/
def Obligations.BoardSteps : Prop :=
    Claims.RegisterWrites ∧
    Claims.MailboxProtocol ∧
    Claims.MailboxRequests ∧
    Claims.PowerAndBoot ∧
    Claims.BarReads ∧
    Claims.LinkSteps
end

