-- ==== Sys2Proof/Laws/Memory.lean ====
section
/-! SUPPORT. Memory: its canonical form, which every memory operation keeps, and reading after writing. -/

namespace Sys2Proof.Machine

open Sys2Proof Host

/-! ## The canonical form -/

theorem Memory.wf_nil : Memory.wf [] = true := rfl

/-- The canonical form of a list with a head: the head is not what an unlisted byte reads as and lies below the next. -/
theorem Memory.wf_cons (c : Cell) (t : List Cell) :
    Memory.wf (c :: t) = true ↔ c.2 ≠ Memory.unlisted ∧ (∀ d, t.head? = some d → c.1 < d.1) ∧ Memory.wf t = true := by
  cases t with
  | nil => simp [Memory.wf]
  | cons d t => simp [Memory.wf, and_assoc]

/-- A canonical memory without its first cell. -/
theorem Memory.wf_tail {c : Cell} {t : List Cell} (h : Memory.wf (c :: t) = true) : Memory.wf t = true :=
  ((Memory.wf_cons c t).1 h).2.2

/-- The cell before a canonical memory stays below it when a byte above that cell is written. -/
theorem Memory.write_head (t : List Cell) (x a : Nat) (b : Byte) (ht : ∀ d, t.head? = some d → x < d.1) (hx : x < a)
    (hw : Memory.wf t = true) : ∀ d, (Memory.write t a b).head? = some d → x < d.1 := by
  intro d hd
  cases t with
  | nil =>
    by_cases hb : b = Memory.unlisted
    · simp [Memory.write, hb] at hd
    · simp [Memory.write, hb] at hd; subst hd; exact hx
  | cons c t =>
    have hc : x < c.1 := ht c rfl
    simp only [Memory.write] at hd
    split at hd
    · split at hd
      · simp at hd; subst hd; exact hc
      · simp at hd; subst hd; exact hx
    · split at hd
      · split at hd
        · have := ((Memory.wf_cons c t).1 hw).2.1 d hd
          omega
        · simp at hd; subst hd; exact hx
      · simp at hd; subst hd; exact hc

/-- Writing a byte keeps the canonical form. -/
theorem Memory.write_wf (m : List Cell) (a : Nat) (b : Byte) (h : Memory.wf m = true) :
    Memory.wf (Memory.write m a b) = true := by
  induction m with
  | nil =>
    simp only [Memory.write]
    split
    · rfl
    · rw [Memory.wf_cons]; exact ⟨by assumption, by simp, rfl⟩
  | cons c t ih =>
    have hc := (Memory.wf_cons c t).1 h
    simp only [Memory.write]
    split
    · split
      · exact h
      · rw [Memory.wf_cons]
        exact ⟨by assumption, by simp; omega, h⟩
    · split
      · split
        · exact hc.2.2
        · rw [Memory.wf_cons]
          refine ⟨by assumption, ?_, hc.2.2⟩
          intro d hd
          have := hc.2.1 d hd
          simp only []; omega
      · rw [Memory.wf_cons]
        exact ⟨hc.1, Memory.write_head t c.1 a b hc.2.1 (by omega) hc.2.2, ih hc.2.2⟩

/-- Writing bytes keeps the canonical form. -/
theorem Memory.writeN_wf (n : Nat) : ∀ (m : List Cell) (a v : Nat), Memory.wf m = true →
    Memory.wf (Memory.writeN m a n v) = true := by
  induction n with
  | zero => intro m a v h; exact h
  | succ n ih => intro m a v h; exact ih _ _ _ (Memory.write_wf m a _ h)

/-- A canonical memory rises: every later cell lies above its head. -/
theorem Memory.wf_above (c : Cell) (t : List Cell) (h : Memory.wf (c :: t) = true) : ∀ d ∈ t, c.1 < d.1 := by
  induction t generalizing c with
  | nil => simp
  | cons d t ih =>
    have hc := (Memory.wf_cons c _).1 h
    have hd := hc.2.1 d rfl
    intro e he
    rcases List.mem_cons.1 he with rfl | he
    · exact hd
    · have := ih d hc.2.2 e he
      omega

/-- Cells taken out of a canonical memory leave it canonical. -/
theorem Memory.filter_wf (p : Cell → Bool) (m : List Cell) (h : Memory.wf m = true) : Memory.wf (m.filter p) = true := by
  induction m with
  | nil => rfl
  | cons c t ih =>
    have ht := ih (Memory.wf_tail h)
    rw [List.filter_cons]
    split
    · rw [Memory.wf_cons]
      refine ⟨((Memory.wf_cons c t).1 h).1, ?_, ht⟩
      intro d hd
      have : d ∈ t.filter p := List.mem_of_mem_head? hd
      exact Memory.wf_above c t h d (List.mem_of_mem_filter this)
    · exact ht

/-- The memory after reset is canonical. -/
theorem Memory.reset_wf : Memory.wf State.reset.mem.cells = true := rfl

/-! ## Reading after writing -/

/-- Below the first cell of a memory every byte is unlisted. -/
theorem Memory.read_below (m : List Cell) (a : Nat) (h : ∀ d, m.head? = some d → a < d.1) : Memory.read m a = Memory.unlisted := by
  cases m with
  | nil => rfl
  | cons c t =>
    have := h c rfl
    simp only [Memory.read]
    rw [if_neg (by omega), if_pos this]

/-- What reads as what after one byte is written: that byte at its address, every other as before. -/
theorem Memory.read_write (m : List Cell) (a x : Nat) (b : Byte) (h : Memory.wf m = true) :
    Memory.read (Memory.write m a b) x = if x = a then b else Memory.read m x := by
  induction m with
  | nil =>
    by_cases hb : b = Memory.unlisted <;> by_cases hx : x = a <;> simp [Memory.write, Memory.read, hb, hx]
  | cons c t ih =>
    have hc := (Memory.wf_cons c t).1 h
    simp only [Memory.write]
    split
    · rename_i h1
      split
      · rename_i hb
        by_cases hx : x = a
        · subst hx hb
          rw [if_pos rfl]
          exact Memory.read_below _ _ (by simp; omega)
        · rw [if_neg hx]
      · by_cases hx : x = a
        · simp [Memory.read, hx]
        · by_cases hlt : x < a
          · rw [if_neg hx, Memory.read_below _ _ (by simp; omega), Memory.read_below _ _ (by simp; omega)]
          · simp [Memory.read, hx, hlt]
    · rename_i h1
      split
      · rename_i h2
        split
        · rename_i hb
          by_cases hx : x = a
          · subst hx
            rw [if_pos rfl, hb]
            exact Memory.read_below _ _ (fun d hd => by have := hc.2.1 d hd; omega)
          · rw [if_neg hx]
            by_cases hlt : x < a
            · rw [Memory.read_below t _ (fun d hd => by have := hc.2.1 d hd; omega), Memory.read_below _ _ (by simp; omega)]
            · simp only [Memory.read]
              rw [if_neg (by omega), if_neg (by omega)]
        · by_cases hx : x = a
          · simp [Memory.read, hx]
          · simp only [Memory.read, if_neg hx]
            rw [if_neg (by omega : ¬ x = c.1)]
            by_cases hlt : x < a
            · rw [if_pos hlt, if_pos (by omega)]
            · rw [if_neg hlt, if_neg (by omega)]
      · rename_i h2
        simp only [Memory.read]
        by_cases hxc : x = c.1
        · rw [if_pos hxc, if_pos hxc, if_neg (by omega)]
        · rw [if_neg hxc, if_neg hxc]
          by_cases hlt : x < c.1
          · rw [if_pos hlt, if_pos hlt, if_neg (by omega)]
          · rw [if_neg hlt, if_neg hlt]
            exact ih hc.2.2

/-- A byte outside the bytes written reads as before. -/
theorem Memory.read_writeN_other (n : Nat) : ∀ (m : List Cell) (a v x : Nat), Memory.wf m = true → (x < a ∨ a + n ≤ x) →
    Memory.read (Memory.writeN m a n v) x = Memory.read m x := by
  induction n with
  | zero => intros; rfl
  | succ n ih =>
    intro m a v x h hx
    simp only [Memory.writeN]
    rw [ih _ _ _ _ (Memory.write_wf m a _ h) (by omega), Memory.read_write _ _ _ _ h, if_neg (by omega)]

/-- Bytes written read back little-endian. -/
theorem Memory.readN_writeN (n : Nat) : ∀ (m : List Cell) (a v : Nat), Memory.wf m = true →
    Memory.readN (Memory.writeN m a n v) a n = v % 256 ^ n := by
  induction n with
  | zero => intro m a v _; simp [Memory.readN, Nat.mod_one]
  | succ n ih =>
    intro m a v h
    simp only [Memory.writeN, Memory.readN]
    rw [Memory.read_writeN_other _ _ _ _ _ (Memory.write_wf m a _ h) (by omega), Memory.read_write _ _ _ _ h, if_pos rfl,
      ih _ _ _ (Memory.write_wf m a _ h), BitVec.toNat_ofNat, show 256 ^ (n + 1) = 256 * 256 ^ n from Nat.pow_succ',
      Nat.mod_mul]

/-! ## Operations of the memory system keep the canonical form -/

/-- The memory of a memory system is canonical. -/
abbrev MemSys.wf (m : MemSys) : Prop := Memory.wf m.cells = true

theorem foldl_keeps {α β : Type} (p : α → Prop) (f : α → β → α) (h : ∀ a b, p a → p (f a b)) (l : List β) :
    ∀ a, p a → p (l.foldl f a) := by
  induction l with
  | nil => exact fun a ha => ha
  | cons b t ih => exact fun a ha => ih _ (h a b ha)

theorem MemSys.disown_wf (m : MemSys) (w : Nat) (h : m.wf) : (m.disown w).wf := h
theorem MemSys.putL1_wf (m : MemSys) (x : L1Word) (h : m.wf) : (m.putL1 x).wf := h
theorem MemSys.unpoison_wf (m : MemSys) (a n : Nat) (h : m.wf) : (m.unpoison a n).wf := h
theorem MemSys.own_wf (m : MemSys) (p c g w : Nat) (h : m.wf) : (m.own p c g w).wf := by
  unfold MemSys.own; dsimp only
  split
  · exact h
  · split <;> exact h
theorem MemSys.bringHome_wf (m : MemSys) (x : L1Word) (h : m.wf) : (m.bringHome x).wf := Memory.writeN_wf _ _ _ _ h
theorem MemSys.cover_wf (m : MemSys) (ws : List Nat) (h : m.wf) : (m.cover ws).wf := h
theorem MemSys.passOut_wf (m : MemSys) (c a n v : Nat) (h : m.wf) : (m.passOut c a n v).wf := h
theorem MemSys.onWay_wf (m : MemSys) (c a n v : Nat) (h : m.wf) : (m.onWay c a n v).wf := h
theorem MemSys.storeL1_wf (m : MemSys) (c a n v : Nat) (h : m.wf) : (m.storeL1 c a n v).wf := h
theorem MemSys.dropL1_wf (m : MemSys) (c : Nat) (p : L1Word → Bool) (h : m.wf) : (m.dropL1 c p).wf := h

/-- A recall keeps the canonical form. -/
theorem MemSys.recall_wf (m : MemSys) (w : Nat) (h : m.wf) : (m.recall w).wf := by
  unfold MemSys.recall
  split
  · exact h
  · split
    · exact h
    · split
      · exact Memory.writeN_wf _ _ _ _ h
      · split
        · exact h
        · dsimp only
          split
          · exact Memory.writeN_wf _ _ _ _ h
          · exact h

theorem MemSys.recallAll_wf (m : MemSys) (ws : List Nat) (h : m.wf) : (m.recallAll ws).wf :=
  MemSys.cover_wf _ _ <| foldl_keeps MemSys.wf MemSys.recall MemSys.recall_wf (pairsOf ws) m h

/-- A write performed at the home keeps the canonical form. -/
theorem MemSys.homeWrite_wf (m : MemSys) (a n v : Nat) (h : m.wf) : (m.homeWrite a n v).wf := by
  unfold MemSys.homeWrite
  dsimp only
  apply MemSys.unpoison_wf
  have h1 : MemSys.wf ((wordKeys a n).foldl (fun m w =>
      match m.owner? w with
      | some (_, c) =>
        (match m.l1? c w with
         | some x => m.putL1 { x with val := mergeWord x.val w a n v, written := true }
         | none => { m with cells := Memory.writeN m.cells w 4 (mergeWord (m.wordNow w) w a n v).toNat })
      | none => m) (m.recallAll (wordKeys a n))) := by
    apply foldl_keeps MemSys.wf
    · intro m w h
      split
      · split
        · exact h
        · exact Memory.writeN_wf _ _ _ _ h
      · exact h
    · exact MemSys.recallAll_wf m _ h
  split
  · exact Memory.writeN_wf _ _ _ _ h1
  · apply foldl_keeps MemSys.wf
    · intro m w h
      exact Memory.writeN_wf _ _ _ _ h
    · exact h1

theorem MemSys.writeBackWord_wf (m : MemSys) (x : L1Word) (h : m.wf) : (m.writeBackWord x).wf := by
  unfold MemSys.writeBackWord
  split
  · exact Memory.writeN_wf _ _ _ _ h
  · exact h

/-- The write-back of a core's dirty words keeps the canonical form. -/
theorem MemSys.writeBack_wf (m : MemSys) (c : Nat) (p : L1Word → Bool) (h : m.wf) : (m.writeBack c p).wf :=
  MemSys.cover_wf _ _ <| foldl_keeps MemSys.wf MemSys.writeBackWord MemSys.writeBackWord_wf _ m h

/-- Words dropped from an L1, which the home forgets as owned, keep the canonical form. -/
theorem MemSys.discard_wf (m : MemSys) (c : Nat) (p : L1Word → Bool) (h : m.wf) : (m.discard c p).wf :=
  MemSys.dropL1_wf _ _ _ (foldl_keeps MemSys.wf MemSys.disown MemSys.disown_wf _ m h)

/-- The work of a release keeps the canonical form. -/
theorem MemSys.releaseWork_wf (m : MemSys) (c : Nat) (h : m.wf) : (m.releaseWork c).wf :=
  MemSys.discard_wf _ _ _ (MemSys.writeBack_wf m c _ h)

/-- An eviction keeps the canonical form. -/
theorem MemSys.evict_wf (m : MemSys) (c line : Nat) (h : m.wf) : (m.evict c line).wf :=
  MemSys.discard_wf _ _ _ (MemSys.writeBack_wf m c _ h)

/-- Making room in an L1 keeps the canonical form. -/
theorem MemSys.makeRoom_wf (m m' : MemSys) (c a k : Nat) (h : m.wf) (e : m.makeRoom c a k = some m') : m'.wf := by
  unfold MemSys.makeRoom at e
  dsimp only at e
  split at e
  · cases e; exact h
  · split at e
    · cases e; exact MemSys.evict_wf _ _ _ h
    · cases e

/-! ## Steps of the state on memory -/

/-- The memory of a state is canonical. -/
abbrev State.memWf (s : State) : Prop := s.mem.wf

theorem State.fireWatches_wf (s : State) (a n : Nat) (h : s.memWf) : (s.fireWatches a n).memWf := by
  unfold State.fireWatches
  apply foldl_keeps State.memWf
  · intro s w h
    dsimp only
    split
    · exact h
    · split <;> exact h
  · exact h

/-- A write at the home, with the watches it fires, keeps the canonical form. -/
theorem State.writeHome_wf (s : State) (ag : Option Nat) (a n v : Nat) (h : s.memWf) : (s.writeHome ag a n v).memWf := by
  unfold State.writeHome
  apply State.fireWatches_wf
  cases ag with
  | none => exact MemSys.homeWrite_wf _ _ _ _ h
  | some c => exact MemSys.onWay_wf _ _ _ _ _ (MemSys.homeWrite_wf _ _ _ _ h)

/-- A unit's write at the home, with the watches it fires, keeps the canonical form. -/
theorem State.writeUnit_wf (s : State) (c a n v : Nat) (h : s.memWf) : (s.writeUnit c a n v).memWf :=
  State.fireWatches_wf _ _ _ (MemSys.passOut_wf _ _ _ _ _ (MemSys.homeWrite_wf _ _ _ _ h))

/-- An ordered read at the home keeps the canonical form. -/
theorem State.readOrdered_wf (s : State) (a n : Nat) (h : s.memWf) : (s.readOrdered a n).2.memWf :=
  MemSys.recallAll_wf _ _ h

theorem State.roomFor_wf (s t : State) (c a : Nat) (h : s.memWf) (e : s.roomFor c a = some t) : t.memWf := by
  unfold State.roomFor at e
  dsimp only at e
  split at e
  · cases e; exact h
  · split at e
    · rename_i m hm
      cases e
      exact MemSys.makeRoom_wf _ _ _ _ _ h hm
    · cases e

/-- A fill of a shared copy keeps the canonical form. -/
theorem State.fillSi_wf (s : State) (c g a : Nat) (val : Nat → Word) (pref : Bool) (at_ : Nat) (h : s.memWf) :
    (s.fillSi c g a val pref at_).memWf := by
  unfold State.fillSi
  split
  · exact h
  · rename_i t e
    apply foldl_keeps State.memWf
    · intro s w h
      split
      · exact h
      · split <;> exact h
    · exact State.roomFor_wf s t c a h e

/-- A grant of ownership keeps the canonical form. -/
theorem State.grantOwn_wf (s : State) (c g a : Nat) (h : s.memWf) : (s.grantOwn c g a).memWf := by
  unfold State.grantOwn
  split
  · exact h
  · rename_i t e
    apply foldl_keeps State.memWf
    · intro s w h
      split
      · exact h
      · exact MemSys.putL1_wf _ _ (MemSys.own_wf _ _ _ _ _ h)
    · exact MemSys.recallAll_wf _ _ (State.roomFor_wf s t c a h e)

/-- A private word brought into L1 keeps the canonical form. -/
theorem State.privWord_wf (s : State) (t : Thread) (key : Nat) (h : s.memWf) : (s.privWord t key).2.memWf := by
  unfold State.privWord
  split
  · exact h
  · dsimp only
    split
    · exact h
    · rename_i u e
      exact MemSys.putL1_wf _ _ (State.roomFor_wf s u _ _ h e)

/-- A private load keeps the canonical form. -/
theorem State.privLoad_wf (t : Thread) (n : Nat) : ∀ (s : State) (o : Nat), s.memWf → (s.privLoad t o n).2.memWf := by
  induction n with
  | zero => exact fun s o h => h
  | succ n ih => exact fun s o h => ih _ _ (State.privWord_wf s t _ h)

/-- A private store keeps the canonical form. -/
theorem State.privStore_wf (t : Thread) (n : Nat) : ∀ (s : State) (o v : Nat), s.memWf → (s.privStore t o v n).memWf := by
  induction n with
  | zero => exact fun s o v h => h
  | succ n ih =>
    intro s o v h
    unfold State.privStore
    dsimp only
    split
    · exact ih _ _ _ (Memory.write_wf _ _ _ h)
    · apply ih
      have := State.privWord_wf s t (s.privKey t o / 4 * 4) h
      split
      · exact this
      · exact Memory.writeN_wf _ _ _ _ this

/-- The loss of power keeps the canonical form of what stays. -/
theorem State.losePower_wf (s : State) (h : s.memWf) : s.losePower.memWf := Memory.filter_wf _ _ h

end Sys2Proof.Machine
end

