-- ==== Sys2Proof/Laws/State.lean ====
section
/-! SUPPORT. What each named update of the state does to each field of it: one lemma a field, so that no proof unfolds an update. -/

namespace Sys2Proof.Machine

@[simp] theorem State.updThread_issue (s : State) (c k : Nat) (f : Thread → Thread) : (s.updThread c k f).issue = s.issue := rfl
@[simp] theorem State.updThread_agenda (s : State) (c k : Nat) (f : Thread → Thread) : (s.updThread c k f).agenda = s.agenda := rfl
@[simp] theorem State.updThread_arg (s : State) (c k : Nat) (f : Thread → Thread) : (s.updThread c k f).arg = s.arg := rfl
@[simp] theorem State.updThread_freeCtr (s : State) (c k : Nat) (f : Thread → Thread) : (s.updThread c k f).freeCtr = s.freeCtr := rfl
@[simp] theorem State.updThread_idCtr (s : State) (c k : Nat) (f : Thread → Thread) : (s.updThread c k f).idCtr = s.idCtr := rfl
@[simp] theorem State.updThread_threads (s : State) (c k : Nat) (f : Thread → Thread) : (s.updThread c k f).threads = updWhere (Thread.is c k) f s.threads := rfl
@[simp] theorem State.updThread_warps (s : State) (c k : Nat) (f : Thread → Thread) : (s.updThread c k f).warps = s.warps := rfl
@[simp] theorem State.updThread_teams (s : State) (c k : Nat) (f : Thread → Thread) : (s.updThread c k f).teams = s.teams := rfl
@[simp] theorem State.updThread_tasks (s : State) (c k : Nat) (f : Thread → Thread) : (s.updThread c k f).tasks = s.tasks := rfl
@[simp] theorem State.updThread_mem (s : State) (c k : Nat) (f : Thread → Thread) : (s.updThread c k f).mem = s.mem := rfl
@[simp] theorem State.updThread_eng (s : State) (c k : Nat) (f : Thread → Thread) : (s.updThread c k f).eng = s.eng := rfl
@[simp] theorem State.updThread_ctxs (s : State) (c k : Nat) (f : Thread → Thread) : (s.updThread c k f).ctxs = s.ctxs := rfl
@[simp] theorem State.updThread_images (s : State) (c k : Nat) (f : Thread → Thread) : (s.updThread c k f).images = s.images := rfl
@[simp] theorem State.updThread_dev (s : State) (c k : Nat) (f : Thread → Thread) : (s.updThread c k f).dev = s.dev := rfl
@[simp] theorem State.updThread_fp64 (s : State) (c k : Nat) (f : Thread → Thread) : (s.updThread c k f).fp64 = s.fp64 := rfl

@[simp] theorem State.updWarp_issue (s : State) (c k : Nat) (f : Warp → Warp) : (s.updWarp c k f).issue = s.issue := rfl
@[simp] theorem State.updWarp_agenda (s : State) (c k : Nat) (f : Warp → Warp) : (s.updWarp c k f).agenda = s.agenda := rfl
@[simp] theorem State.updWarp_arg (s : State) (c k : Nat) (f : Warp → Warp) : (s.updWarp c k f).arg = s.arg := rfl
@[simp] theorem State.updWarp_freeCtr (s : State) (c k : Nat) (f : Warp → Warp) : (s.updWarp c k f).freeCtr = s.freeCtr := rfl
@[simp] theorem State.updWarp_idCtr (s : State) (c k : Nat) (f : Warp → Warp) : (s.updWarp c k f).idCtr = s.idCtr := rfl
@[simp] theorem State.updWarp_threads (s : State) (c k : Nat) (f : Warp → Warp) : (s.updWarp c k f).threads = s.threads := rfl
@[simp] theorem State.updWarp_warps (s : State) (c k : Nat) (f : Warp → Warp) : (s.updWarp c k f).warps = updWhere (Warp.is c k) f s.warps := rfl
@[simp] theorem State.updWarp_teams (s : State) (c k : Nat) (f : Warp → Warp) : (s.updWarp c k f).teams = s.teams := rfl
@[simp] theorem State.updWarp_tasks (s : State) (c k : Nat) (f : Warp → Warp) : (s.updWarp c k f).tasks = s.tasks := rfl
@[simp] theorem State.updWarp_mem (s : State) (c k : Nat) (f : Warp → Warp) : (s.updWarp c k f).mem = s.mem := rfl
@[simp] theorem State.updWarp_eng (s : State) (c k : Nat) (f : Warp → Warp) : (s.updWarp c k f).eng = s.eng := rfl
@[simp] theorem State.updWarp_ctxs (s : State) (c k : Nat) (f : Warp → Warp) : (s.updWarp c k f).ctxs = s.ctxs := rfl
@[simp] theorem State.updWarp_images (s : State) (c k : Nat) (f : Warp → Warp) : (s.updWarp c k f).images = s.images := rfl
@[simp] theorem State.updWarp_dev (s : State) (c k : Nat) (f : Warp → Warp) : (s.updWarp c k f).dev = s.dev := rfl
@[simp] theorem State.updWarp_fp64 (s : State) (c k : Nat) (f : Warp → Warp) : (s.updWarp c k f).fp64 = s.fp64 := rfl

@[simp] theorem State.updTeam_issue (s : State) (c k : Nat) (f : Team → Team) : (s.updTeam c k f).issue = s.issue := rfl
@[simp] theorem State.updTeam_agenda (s : State) (c k : Nat) (f : Team → Team) : (s.updTeam c k f).agenda = s.agenda := rfl
@[simp] theorem State.updTeam_arg (s : State) (c k : Nat) (f : Team → Team) : (s.updTeam c k f).arg = s.arg := rfl
@[simp] theorem State.updTeam_freeCtr (s : State) (c k : Nat) (f : Team → Team) : (s.updTeam c k f).freeCtr = s.freeCtr := rfl
@[simp] theorem State.updTeam_idCtr (s : State) (c k : Nat) (f : Team → Team) : (s.updTeam c k f).idCtr = s.idCtr := rfl
@[simp] theorem State.updTeam_threads (s : State) (c k : Nat) (f : Team → Team) : (s.updTeam c k f).threads = s.threads := rfl
@[simp] theorem State.updTeam_warps (s : State) (c k : Nat) (f : Team → Team) : (s.updTeam c k f).warps = s.warps := rfl
@[simp] theorem State.updTeam_teams (s : State) (c k : Nat) (f : Team → Team) : (s.updTeam c k f).teams = updWhere (Team.is c k) f s.teams := rfl
@[simp] theorem State.updTeam_tasks (s : State) (c k : Nat) (f : Team → Team) : (s.updTeam c k f).tasks = s.tasks := rfl
@[simp] theorem State.updTeam_mem (s : State) (c k : Nat) (f : Team → Team) : (s.updTeam c k f).mem = s.mem := rfl
@[simp] theorem State.updTeam_eng (s : State) (c k : Nat) (f : Team → Team) : (s.updTeam c k f).eng = s.eng := rfl
@[simp] theorem State.updTeam_ctxs (s : State) (c k : Nat) (f : Team → Team) : (s.updTeam c k f).ctxs = s.ctxs := rfl
@[simp] theorem State.updTeam_images (s : State) (c k : Nat) (f : Team → Team) : (s.updTeam c k f).images = s.images := rfl
@[simp] theorem State.updTeam_dev (s : State) (c k : Nat) (f : Team → Team) : (s.updTeam c k f).dev = s.dev := rfl
@[simp] theorem State.updTeam_fp64 (s : State) (c k : Nat) (f : Team → Team) : (s.updTeam c k f).fp64 = s.fp64 := rfl

@[simp] theorem State.updTask_issue (s : State) (n : Nat) (f : Task → Task) : (s.updTask n f).issue = s.issue := rfl
@[simp] theorem State.updTask_agenda (s : State) (n : Nat) (f : Task → Task) : (s.updTask n f).agenda = s.agenda := rfl
@[simp] theorem State.updTask_arg (s : State) (n : Nat) (f : Task → Task) : (s.updTask n f).arg = s.arg := rfl
@[simp] theorem State.updTask_freeCtr (s : State) (n : Nat) (f : Task → Task) : (s.updTask n f).freeCtr = s.freeCtr := rfl
@[simp] theorem State.updTask_idCtr (s : State) (n : Nat) (f : Task → Task) : (s.updTask n f).idCtr = s.idCtr := rfl
@[simp] theorem State.updTask_threads (s : State) (n : Nat) (f : Task → Task) : (s.updTask n f).threads = s.threads := rfl
@[simp] theorem State.updTask_warps (s : State) (n : Nat) (f : Task → Task) : (s.updTask n f).warps = s.warps := rfl
@[simp] theorem State.updTask_teams (s : State) (n : Nat) (f : Task → Task) : (s.updTask n f).teams = s.teams := rfl
@[simp] theorem State.updTask_tasks (s : State) (n : Nat) (f : Task → Task) : (s.updTask n f).tasks = updWhere (fun t => t.id == n) f s.tasks := rfl
@[simp] theorem State.updTask_mem (s : State) (n : Nat) (f : Task → Task) : (s.updTask n f).mem = s.mem := rfl
@[simp] theorem State.updTask_eng (s : State) (n : Nat) (f : Task → Task) : (s.updTask n f).eng = s.eng := rfl
@[simp] theorem State.updTask_ctxs (s : State) (n : Nat) (f : Task → Task) : (s.updTask n f).ctxs = s.ctxs := rfl
@[simp] theorem State.updTask_images (s : State) (n : Nat) (f : Task → Task) : (s.updTask n f).images = s.images := rfl
@[simp] theorem State.updTask_dev (s : State) (n : Nat) (f : Task → Task) : (s.updTask n f).dev = s.dev := rfl
@[simp] theorem State.updTask_fp64 (s : State) (n : Nat) (f : Task → Task) : (s.updTask n f).fp64 = s.fp64 := rfl

@[simp] theorem State.updCtx_issue (s : State) (n : Nat) (f : Context → Context) : (s.updCtx n f).issue = s.issue := rfl
@[simp] theorem State.updCtx_agenda (s : State) (n : Nat) (f : Context → Context) : (s.updCtx n f).agenda = s.agenda := rfl
@[simp] theorem State.updCtx_arg (s : State) (n : Nat) (f : Context → Context) : (s.updCtx n f).arg = s.arg := rfl
@[simp] theorem State.updCtx_freeCtr (s : State) (n : Nat) (f : Context → Context) : (s.updCtx n f).freeCtr = s.freeCtr := rfl
@[simp] theorem State.updCtx_idCtr (s : State) (n : Nat) (f : Context → Context) : (s.updCtx n f).idCtr = s.idCtr := rfl
@[simp] theorem State.updCtx_threads (s : State) (n : Nat) (f : Context → Context) : (s.updCtx n f).threads = s.threads := rfl
@[simp] theorem State.updCtx_warps (s : State) (n : Nat) (f : Context → Context) : (s.updCtx n f).warps = s.warps := rfl
@[simp] theorem State.updCtx_teams (s : State) (n : Nat) (f : Context → Context) : (s.updCtx n f).teams = s.teams := rfl
@[simp] theorem State.updCtx_tasks (s : State) (n : Nat) (f : Context → Context) : (s.updCtx n f).tasks = s.tasks := rfl
@[simp] theorem State.updCtx_mem (s : State) (n : Nat) (f : Context → Context) : (s.updCtx n f).mem = s.mem := rfl
@[simp] theorem State.updCtx_eng (s : State) (n : Nat) (f : Context → Context) : (s.updCtx n f).eng = s.eng := rfl
@[simp] theorem State.updCtx_ctxs (s : State) (n : Nat) (f : Context → Context) : (s.updCtx n f).ctxs = updWhere (fun c => c.num == n) f s.ctxs := rfl
@[simp] theorem State.updCtx_images (s : State) (n : Nat) (f : Context → Context) : (s.updCtx n f).images = s.images := rfl
@[simp] theorem State.updCtx_dev (s : State) (n : Nat) (f : Context → Context) : (s.updCtx n f).dev = s.dev := rfl
@[simp] theorem State.updCtx_fp64 (s : State) (n : Nat) (f : Context → Context) : (s.updCtx n f).fp64 = s.fp64 := rfl

@[simp] theorem State.updMem_issue (s : State) (f : MemSys → MemSys) : (s.updMem f).issue = s.issue := rfl
@[simp] theorem State.updMem_agenda (s : State) (f : MemSys → MemSys) : (s.updMem f).agenda = s.agenda := rfl
@[simp] theorem State.updMem_arg (s : State) (f : MemSys → MemSys) : (s.updMem f).arg = s.arg := rfl
@[simp] theorem State.updMem_freeCtr (s : State) (f : MemSys → MemSys) : (s.updMem f).freeCtr = s.freeCtr := rfl
@[simp] theorem State.updMem_idCtr (s : State) (f : MemSys → MemSys) : (s.updMem f).idCtr = s.idCtr := rfl
@[simp] theorem State.updMem_threads (s : State) (f : MemSys → MemSys) : (s.updMem f).threads = s.threads := rfl
@[simp] theorem State.updMem_warps (s : State) (f : MemSys → MemSys) : (s.updMem f).warps = s.warps := rfl
@[simp] theorem State.updMem_teams (s : State) (f : MemSys → MemSys) : (s.updMem f).teams = s.teams := rfl
@[simp] theorem State.updMem_tasks (s : State) (f : MemSys → MemSys) : (s.updMem f).tasks = s.tasks := rfl
@[simp] theorem State.updMem_mem (s : State) (f : MemSys → MemSys) : (s.updMem f).mem = f s.mem := rfl
@[simp] theorem State.updMem_eng (s : State) (f : MemSys → MemSys) : (s.updMem f).eng = s.eng := rfl
@[simp] theorem State.updMem_ctxs (s : State) (f : MemSys → MemSys) : (s.updMem f).ctxs = s.ctxs := rfl
@[simp] theorem State.updMem_images (s : State) (f : MemSys → MemSys) : (s.updMem f).images = s.images := rfl
@[simp] theorem State.updMem_dev (s : State) (f : MemSys → MemSys) : (s.updMem f).dev = s.dev := rfl
@[simp] theorem State.updMem_fp64 (s : State) (f : MemSys → MemSys) : (s.updMem f).fp64 = s.fp64 := rfl

@[simp] theorem State.updEng_issue (s : State) (f : Eng → Eng) : (s.updEng f).issue = s.issue := rfl
@[simp] theorem State.updEng_agenda (s : State) (f : Eng → Eng) : (s.updEng f).agenda = s.agenda := rfl
@[simp] theorem State.updEng_arg (s : State) (f : Eng → Eng) : (s.updEng f).arg = s.arg := rfl
@[simp] theorem State.updEng_freeCtr (s : State) (f : Eng → Eng) : (s.updEng f).freeCtr = s.freeCtr := rfl
@[simp] theorem State.updEng_idCtr (s : State) (f : Eng → Eng) : (s.updEng f).idCtr = s.idCtr := rfl
@[simp] theorem State.updEng_threads (s : State) (f : Eng → Eng) : (s.updEng f).threads = s.threads := rfl
@[simp] theorem State.updEng_warps (s : State) (f : Eng → Eng) : (s.updEng f).warps = s.warps := rfl
@[simp] theorem State.updEng_teams (s : State) (f : Eng → Eng) : (s.updEng f).teams = s.teams := rfl
@[simp] theorem State.updEng_tasks (s : State) (f : Eng → Eng) : (s.updEng f).tasks = s.tasks := rfl
@[simp] theorem State.updEng_mem (s : State) (f : Eng → Eng) : (s.updEng f).mem = s.mem := rfl
@[simp] theorem State.updEng_eng (s : State) (f : Eng → Eng) : (s.updEng f).eng = f s.eng := rfl
@[simp] theorem State.updEng_ctxs (s : State) (f : Eng → Eng) : (s.updEng f).ctxs = s.ctxs := rfl
@[simp] theorem State.updEng_images (s : State) (f : Eng → Eng) : (s.updEng f).images = s.images := rfl
@[simp] theorem State.updEng_dev (s : State) (f : Eng → Eng) : (s.updEng f).dev = s.dev := rfl
@[simp] theorem State.updEng_fp64 (s : State) (f : Eng → Eng) : (s.updEng f).fp64 = s.fp64 := rfl

@[simp] theorem State.updDev_issue (s : State) (f : Dev → Dev) : (s.updDev f).issue = s.issue := rfl
@[simp] theorem State.updDev_agenda (s : State) (f : Dev → Dev) : (s.updDev f).agenda = s.agenda := rfl
@[simp] theorem State.updDev_arg (s : State) (f : Dev → Dev) : (s.updDev f).arg = s.arg := rfl
@[simp] theorem State.updDev_freeCtr (s : State) (f : Dev → Dev) : (s.updDev f).freeCtr = s.freeCtr := rfl
@[simp] theorem State.updDev_idCtr (s : State) (f : Dev → Dev) : (s.updDev f).idCtr = s.idCtr := rfl
@[simp] theorem State.updDev_threads (s : State) (f : Dev → Dev) : (s.updDev f).threads = s.threads := rfl
@[simp] theorem State.updDev_warps (s : State) (f : Dev → Dev) : (s.updDev f).warps = s.warps := rfl
@[simp] theorem State.updDev_teams (s : State) (f : Dev → Dev) : (s.updDev f).teams = s.teams := rfl
@[simp] theorem State.updDev_tasks (s : State) (f : Dev → Dev) : (s.updDev f).tasks = s.tasks := rfl
@[simp] theorem State.updDev_mem (s : State) (f : Dev → Dev) : (s.updDev f).mem = s.mem := rfl
@[simp] theorem State.updDev_eng (s : State) (f : Dev → Dev) : (s.updDev f).eng = s.eng := rfl
@[simp] theorem State.updDev_ctxs (s : State) (f : Dev → Dev) : (s.updDev f).ctxs = s.ctxs := rfl
@[simp] theorem State.updDev_images (s : State) (f : Dev → Dev) : (s.updDev f).images = s.images := rfl
@[simp] theorem State.updDev_dev (s : State) (f : Dev → Dev) : (s.updDev f).dev = f s.dev := rfl
@[simp] theorem State.updDev_fp64 (s : State) (f : Dev → Dev) : (s.updDev f).fp64 = s.fp64 := rfl

@[simp] theorem State.mapExec_issue (s : State) (L : Latch) (f : Thread → Thread) : (s.mapExec L f).issue = s.issue := rfl
@[simp] theorem State.mapExec_agenda (s : State) (L : Latch) (f : Thread → Thread) : (s.mapExec L f).agenda = s.agenda := rfl
@[simp] theorem State.mapExec_arg (s : State) (L : Latch) (f : Thread → Thread) : (s.mapExec L f).arg = s.arg := rfl
@[simp] theorem State.mapExec_freeCtr (s : State) (L : Latch) (f : Thread → Thread) : (s.mapExec L f).freeCtr = s.freeCtr := rfl
@[simp] theorem State.mapExec_idCtr (s : State) (L : Latch) (f : Thread → Thread) : (s.mapExec L f).idCtr = s.idCtr := rfl
@[simp] theorem State.mapExec_threads (s : State) (L : Latch) (f : Thread → Thread) : (s.mapExec L f).threads = s.threads.map fun t => if t.core == L.core && L.exec.contains t.slot then f t else t := rfl
@[simp] theorem State.mapExec_warps (s : State) (L : Latch) (f : Thread → Thread) : (s.mapExec L f).warps = s.warps := rfl
@[simp] theorem State.mapExec_teams (s : State) (L : Latch) (f : Thread → Thread) : (s.mapExec L f).teams = s.teams := rfl
@[simp] theorem State.mapExec_tasks (s : State) (L : Latch) (f : Thread → Thread) : (s.mapExec L f).tasks = s.tasks := rfl
@[simp] theorem State.mapExec_mem (s : State) (L : Latch) (f : Thread → Thread) : (s.mapExec L f).mem = s.mem := rfl
@[simp] theorem State.mapExec_eng (s : State) (L : Latch) (f : Thread → Thread) : (s.mapExec L f).eng = s.eng := rfl
@[simp] theorem State.mapExec_ctxs (s : State) (L : Latch) (f : Thread → Thread) : (s.mapExec L f).ctxs = s.ctxs := rfl
@[simp] theorem State.mapExec_images (s : State) (L : Latch) (f : Thread → Thread) : (s.mapExec L f).images = s.images := rfl
@[simp] theorem State.mapExec_dev (s : State) (L : Latch) (f : Thread → Thread) : (s.mapExec L f).dev = s.dev := rfl
@[simp] theorem State.mapExec_fp64 (s : State) (L : Latch) (f : Thread → Thread) : (s.mapExec L f).fp64 = s.fp64 := rfl

@[simp] theorem State.advance_issue (s : State) (L : Latch) : (s.advance L).issue = s.issue := rfl
@[simp] theorem State.advance_agenda (s : State) (L : Latch) : (s.advance L).agenda = s.agenda := rfl
@[simp] theorem State.advance_arg (s : State) (L : Latch) : (s.advance L).arg = s.arg := rfl
@[simp] theorem State.advance_freeCtr (s : State) (L : Latch) : (s.advance L).freeCtr = s.freeCtr := rfl
@[simp] theorem State.advance_idCtr (s : State) (L : Latch) : (s.advance L).idCtr = s.idCtr := rfl
@[simp] theorem State.advance_threads (s : State) (L : Latch) : (s.advance L).threads = s.threads.map (Thread.advance L) := rfl
@[simp] theorem State.advance_warps (s : State) (L : Latch) : (s.advance L).warps = s.warps := rfl
@[simp] theorem State.advance_teams (s : State) (L : Latch) : (s.advance L).teams = s.teams := rfl
@[simp] theorem State.advance_tasks (s : State) (L : Latch) : (s.advance L).tasks = s.tasks := rfl
@[simp] theorem State.advance_mem (s : State) (L : Latch) : (s.advance L).mem = s.mem := rfl
@[simp] theorem State.advance_eng (s : State) (L : Latch) : (s.advance L).eng = s.eng := rfl
@[simp] theorem State.advance_ctxs (s : State) (L : Latch) : (s.advance L).ctxs = s.ctxs := rfl
@[simp] theorem State.advance_images (s : State) (L : Latch) : (s.advance L).images = s.images := rfl
@[simp] theorem State.advance_dev (s : State) (L : Latch) : (s.advance L).dev = s.dev := rfl
@[simp] theorem State.advance_fp64 (s : State) (L : Latch) : (s.advance L).fp64 = s.fp64 := rfl

@[simp] theorem State.unlatch_issue (s : State) : (s.unlatch).issue = none := rfl
@[simp] theorem State.unlatch_agenda (s : State) : (s.unlatch).agenda = s.agenda := rfl
@[simp] theorem State.unlatch_arg (s : State) : (s.unlatch).arg = s.arg := rfl
@[simp] theorem State.unlatch_freeCtr (s : State) : (s.unlatch).freeCtr = s.freeCtr := rfl
@[simp] theorem State.unlatch_idCtr (s : State) : (s.unlatch).idCtr = s.idCtr := rfl
@[simp] theorem State.unlatch_threads (s : State) : (s.unlatch).threads = s.threads := rfl
@[simp] theorem State.unlatch_warps (s : State) : (s.unlatch).warps = s.warps := rfl
@[simp] theorem State.unlatch_teams (s : State) : (s.unlatch).teams = s.teams := rfl
@[simp] theorem State.unlatch_tasks (s : State) : (s.unlatch).tasks = s.tasks := rfl
@[simp] theorem State.unlatch_mem (s : State) : (s.unlatch).mem = s.mem := rfl
@[simp] theorem State.unlatch_eng (s : State) : (s.unlatch).eng = s.eng := rfl
@[simp] theorem State.unlatch_ctxs (s : State) : (s.unlatch).ctxs = s.ctxs := rfl
@[simp] theorem State.unlatch_images (s : State) : (s.unlatch).images = s.images := rfl
@[simp] theorem State.unlatch_dev (s : State) : (s.unlatch).dev = s.dev := rfl
@[simp] theorem State.unlatch_fp64 (s : State) : (s.unlatch).fp64 = s.fp64 := rfl

/-! ## The FP64 units (R193) -/

theorem State.takeFp64_shape (s : State) (i : Instr) (L : Latch) : ∃ x, s.takeFp64 i L = { s with fp64 := x } := by
  unfold State.takeFp64; split
  · exact ⟨_, rfl⟩
  · exact ⟨s.fp64, rfl⟩

@[simp] theorem State.takeFp64_issue (s : State) (i : Instr) (L : Latch) : (s.takeFp64 i L).issue = s.issue := by
  obtain ⟨_, h⟩ := s.takeFp64_shape i L; rw [h]
@[simp] theorem State.takeFp64_agenda (s : State) (i : Instr) (L : Latch) : (s.takeFp64 i L).agenda = s.agenda := by
  obtain ⟨_, h⟩ := s.takeFp64_shape i L; rw [h]
@[simp] theorem State.takeFp64_arg (s : State) (i : Instr) (L : Latch) : (s.takeFp64 i L).arg = s.arg := by
  obtain ⟨_, h⟩ := s.takeFp64_shape i L; rw [h]
@[simp] theorem State.takeFp64_freeCtr (s : State) (i : Instr) (L : Latch) : (s.takeFp64 i L).freeCtr = s.freeCtr := by
  obtain ⟨_, h⟩ := s.takeFp64_shape i L; rw [h]
@[simp] theorem State.takeFp64_idCtr (s : State) (i : Instr) (L : Latch) : (s.takeFp64 i L).idCtr = s.idCtr := by
  obtain ⟨_, h⟩ := s.takeFp64_shape i L; rw [h]
@[simp] theorem State.takeFp64_threads (s : State) (i : Instr) (L : Latch) : (s.takeFp64 i L).threads = s.threads := by
  obtain ⟨_, h⟩ := s.takeFp64_shape i L; rw [h]
@[simp] theorem State.takeFp64_warps (s : State) (i : Instr) (L : Latch) : (s.takeFp64 i L).warps = s.warps := by
  obtain ⟨_, h⟩ := s.takeFp64_shape i L; rw [h]
@[simp] theorem State.takeFp64_teams (s : State) (i : Instr) (L : Latch) : (s.takeFp64 i L).teams = s.teams := by
  obtain ⟨_, h⟩ := s.takeFp64_shape i L; rw [h]
@[simp] theorem State.takeFp64_tasks (s : State) (i : Instr) (L : Latch) : (s.takeFp64 i L).tasks = s.tasks := by
  obtain ⟨_, h⟩ := s.takeFp64_shape i L; rw [h]
@[simp] theorem State.takeFp64_mem (s : State) (i : Instr) (L : Latch) : (s.takeFp64 i L).mem = s.mem := by
  obtain ⟨_, h⟩ := s.takeFp64_shape i L; rw [h]
@[simp] theorem State.takeFp64_eng (s : State) (i : Instr) (L : Latch) : (s.takeFp64 i L).eng = s.eng := by
  obtain ⟨_, h⟩ := s.takeFp64_shape i L; rw [h]
@[simp] theorem State.takeFp64_ctxs (s : State) (i : Instr) (L : Latch) : (s.takeFp64 i L).ctxs = s.ctxs := by
  obtain ⟨_, h⟩ := s.takeFp64_shape i L; rw [h]
@[simp] theorem State.takeFp64_images (s : State) (i : Instr) (L : Latch) : (s.takeFp64 i L).images = s.images := by
  obtain ⟨_, h⟩ := s.takeFp64_shape i L; rw [h]
@[simp] theorem State.takeFp64_dev (s : State) (i : Instr) (L : Latch) : (s.takeFp64 i L).dev = s.dev := by
  obtain ⟨_, h⟩ := s.takeFp64_shape i L; rw [h]
@[simp] theorem State.takeFp64_thread? (s : State) (i : Instr) (L : Latch) (c k : Nat) : (s.takeFp64 i L).thread? c k = s.thread? c k := by
  simp [State.thread?]
@[simp] theorem State.takeFp64_warp? (s : State) (i : Instr) (L : Latch) (c k : Nat) : (s.takeFp64 i L).warp? c k = s.warp? c k := by
  simp [State.warp?]

/-- The FP64 units after a word, in a state with the same units in the same cycle (R193). -/
theorem State.takeFp64_fp64 {s t : State} (i : Instr) (L : Latch) (h : t.fp64 = s.fp64) (hd : t.dev = s.dev) :
    (t.takeFp64 i L).fp64 = (s.takeFp64 i L).fp64 := by
  unfold State.takeFp64; split <;> simp [h, hd]

/-- A word that needs no FP64 unit takes none (R193). -/
@[simp] theorem State.takeFp64_other (s : State) {i : Instr} (L : Latch) (h : Instr.isFp64 i = false) : s.takeFp64 i L = s := by
  simp [State.takeFp64, h]

/-! ## Records found again -/

theorem find?_map_of_key {α : Type} (p : α → Bool) (f : α → α) (h : ∀ x, p (f x) = p x) (l : List α) :
    (l.map f).find? p = (l.find? p).map f := by
  induction l with
  | nil => rfl
  | cons a t ih => by_cases hp : p a <;> simp [h, hp, ih]

/-- A thread in a slot, after a map that keeps cores and slots. -/
theorem State.thread?_map (s t : State) (f : Thread → Thread) (h : t.threads = s.threads.map f)
    (key : ∀ x, (f x).core = x.core ∧ (f x).slot = x.slot) (c k : Nat) : t.thread? c k = (s.thread? c k).map f := by
  unfold State.thread?
  rw [h]
  exact find?_map_of_key _ f (fun x => by simp [Thread.is, key]) _

/-- A thread that is found lies in its slot. -/
theorem State.thread?_key {s : State} {c k : Nat} {u : Thread} (h : s.thread? c k = some u) : u.core = c ∧ u.slot = k := by
  have := List.find?_some h
  simpa [Thread.is] using this

theorem State.thread?_mapExec (s : State) (L : Latch) (f : Thread → Thread)
    (key : ∀ x, (f x).core = x.core ∧ (f x).slot = x.slot) (c k : Nat) :
    (s.mapExec L f).thread? c k = (s.thread? c k).map fun t => if t.core == L.core && L.exec.contains t.slot then f t else t :=
  State.thread?_map s _ _ rfl (fun x => by split <;> simp [key]) c k

@[simp] theorem State.mapExec_id (s : State) (L : Latch) : s.mapExec L id = s := by
  unfold State.mapExec
  simp

/-- An executing thread after a change of the executing threads. -/
theorem State.thread?_mapExec_exec {s : State} {L : Latch} {k : Nat} {u : Thread} (h : s.thread? L.core k = some u)
    (hk : k ∈ L.exec) (f : Thread → Thread) (key : ∀ x, (f x).core = x.core ∧ (f x).slot = x.slot) :
    (s.mapExec L f).thread? L.core k = some (f u) := by
  rw [State.thread?_mapExec s L f key, h]
  simp [State.thread?_key h, hk]

theorem Thread.advance_key (L : Latch) (x : Thread) : (x.advance L).core = x.core ∧ (x.advance L).slot = x.slot := by
  unfold Thread.advance
  split
  · split <;> exact ⟨rfl, rfl⟩
  · exact ⟨rfl, rfl⟩

theorem State.thread?_advance (s : State) (L : Latch) (c k : Nat) :
    (s.advance L).thread? c k = (s.thread? c k).map (Thread.advance L) :=
  State.thread?_map s _ _ rfl (Thread.advance_key L) c k

theorem State.thread?_updThread (s : State) (c k : Nat) (f : Thread → Thread)
    (key : ∀ x, (f x).core = x.core ∧ (f x).slot = x.slot) (c' k' : Nat) :
    (s.updThread c k f).thread? c' k' = (s.thread? c' k').map fun t => if Thread.is c k t then f t else t :=
  State.thread?_map s _ _ rfl (fun x => by split <;> simp [key]) c' k'

/-- A warp in a slot, after the update of a warp that keeps its slot. -/
theorem State.warp?_updWarp (s : State) (c k : Nat) (f : Warp → Warp)
    (key : ∀ x, (f x).core = x.core ∧ (f x).slot = x.slot) (c' k' : Nat) :
    (s.updWarp c k f).warp? c' k' = (s.warp? c' k').map fun w => if Warp.is c k w then f w else w := by
  unfold State.warp? State.updWarp updWhere
  exact find?_map_of_key _ _ (fun x => by split <;> simp [Warp.is, key]) _

end Sys2Proof.Machine
end

