-- ==== Sys2Proof/Laws/Ops.lean ====
section
/-! SUPPORT. What the frame around an instruction word does: how it ends, and what it leaves as it was. -/

namespace Sys2Proof.Machine

open Sys2Proof

/-! ## The end of a compound -/

theorem Thread.placed_refl (u : Thread) : Thread.placed u u := ⟨rfl, .inl rfl⟩

theorem Thread.countGuard_shape (e g : Bool) (u : Thread) : ∃ gu, u.countGuard e g = { u with guard := gu } := by
  unfold Thread.countGuard
  split
  · exact ⟨u.guard, rfl⟩
  · split
    · exact ⟨_, rfl⟩
    · split
      · exact ⟨u.guard, rfl⟩
      · exact ⟨_, rfl⟩

theorem Thread.countGuard_eq (e : Bool) (u : Thread) : u.countGuard e false = { u with guard := guardBehind e u.guard } := by
  unfold Thread.countGuard guardBehind
  cases e <;> cases h : u.guard <;> simp only [Bool.false_eq_true, if_false, if_true, false_or, true_or]
  all_goals (first | rfl | (rw [← h]))

theorem Thread.parkAtMarker_shape (L : Latch) (u : Thread) :
    ∃ st mk ms, u.parkAtMarker L = { u with status := st, mark := mk, mates := ms } ∧
      (st = u.status ∨ u.status = .eligible ∧ st = .parked .marker) := by
  unfold Thread.parkAtMarker
  split
  · split
    next h =>
      split
      · exact ⟨u.status, u.mark, u.mates, rfl, .inl rfl⟩
      · exact ⟨_, u.mark, _, rfl, .inr ⟨h, rfl⟩⟩
    · exact ⟨u.status, true, u.mates, rfl, .inl rfl⟩
    all_goals exact ⟨u.status, u.mark, u.mates, rfl, .inl rfl⟩
  · exact ⟨u.status, u.mark, u.mates, rfl, .inl rfl⟩

/-- What the end of a compound changes in a thread: its guard range, and its park at the marker. -/
theorem Thread.passed_shape (e g : Bool) (L : Latch) (u : Thread) :
    ∃ st gu mk ms, u.passed e g L = { u with status := st, guard := gu, mark := mk, mates := ms } ∧
      (st = u.status ∨ u.status = .eligible ∧ st = .parked .marker) := by
  unfold Thread.passed
  split
  · exact ⟨u.status, u.guard, u.mark, u.mates, rfl, .inl rfl⟩
  · obtain ⟨gu, hg⟩ := u.countGuard_shape e g
    rw [hg]
    obtain ⟨st, mk, ms, hm, hs⟩ := Thread.parkAtMarker_shape L { u with guard := gu }
    exact ⟨st, gu, mk, ms, hm, hs⟩

/-- The guard range of a thread that has no repeat left, behind a compound that does not set it (R115). -/
theorem Thread.passed_guard (e : Bool) (L : Latch) (u : Thread) (h : u.repLeft = 0) :
    (u.passed e false L).guard = guardBehind e u.guard := by
  have hr : u.replays L = false := by simp [Thread.replays, h]
  unfold Thread.passed
  rw [hr, Thread.countGuard_eq]
  obtain ⟨st, mk, ms, hm, -⟩ := Thread.parkAtMarker_shape L { u with guard := guardBehind e u.guard }
  simp only [Bool.false_eq_true, if_false]
  rw [hm]

theorem Thread.passed_placed (e g : Bool) (L : Latch) (u : Thread) : Thread.placed u (u.passed e g L) := by
  obtain ⟨_, _, _, _, h, hs⟩ := u.passed_shape e g L
  rw [h]; exact ⟨rfl, hs⟩

/-- What the end of a compound keeps of a thread. -/
theorem Thread.passed_keeps (e g : Bool) (L : Latch) (u : Thread) :
    (u.passed e g L).core = u.core ∧ (u.passed e g L).slot = u.slot ∧ (u.passed e g L).pc = u.pc ∧
      (u.passed e g L).repLeft = u.repLeft := by
  obtain ⟨_, _, _, _, h, -⟩ := u.passed_shape e g L
  rw [h]; exact ⟨rfl, rfl, rfl, rfl⟩

theorem Thread.finish_key (i : Instr) (L : Latch) (u : Thread) :
    (u.finish i L).core = u.core ∧ (u.finish i L).slot = u.slot := by
  unfold Thread.finish
  split
  · exact ⟨(u.passed_keeps ..).1, (u.passed_keeps ..).2.1⟩
  · exact ⟨rfl, rfl⟩

/-- What the end of a compound makes of the guard range of a thread of its group (R115). -/
def Thread.counted (i : Instr) (last : Bool) (u v : Thread) : Prop :=
  Instr.setsGuard i = false → (last = true → u.repLeft = 0 → v.guard = guardBehind (Instr.endsGuard i) u.guard) ∧
    (last = false → v.guard = u.guard)

theorem Thread.finish_spec (i : Instr) (L : Latch) (u : Thread) :
    (u.finish i L).pc = u.pc ∧ (u.finish i L).repLeft = u.repLeft ∧
      if u.core = L.core ∧ u.slot ∈ L.group then Thread.placed u (u.finish i L) ∧ Thread.counted i true u (u.finish i L)
      else u.finish i L = u := by
  unfold Thread.finish
  simp only [beq_iff_eq, Bool.and_eq_true, List.contains_iff_mem]
  split
  · refine ⟨(u.passed_keeps ..).2.2.1, (u.passed_keeps ..).2.2.2, u.passed_placed .., fun h => ⟨fun _ hr => ?_, nofun⟩⟩
    rw [h]; exact u.passed_guard _ L hr
  · exact ⟨rfl, rfl, rfl⟩

/-- What the end of a compound can change: threads of the group, where the warp stands in its compound, and the issue slot. -/
theorem State.finish_shape (s : State) (i : Instr) (L : Latch) :
    ∃ F C, s.finish i L = { s with issue := none, threads := s.threads.map F, warps := updWhere (Warp.is L.core L.warp) (fun w => { w with cur := C }) s.warps } ∧
      (∀ u : Thread, (F u).core = u.core ∧ (F u).slot = u.slot) ∧
      ∀ u : Thread, (F u).pc = u.pc ∧ (F u).repLeft = u.repLeft ∧
        if u.core = L.core ∧ u.slot ∈ L.group then Thread.placed u (F u) ∧ Thread.counted i (Decidable.decide (L.n ≤ L.j + 1)) u (F u) else F u = u := by
  unfold State.finish
  split
  next h =>
    refine ⟨Thread.finish i { L with waits := s.groupWaits L }, none, rfl, fun u => u.finish_key .., fun u => ?_⟩
    simpa [h] using u.finish_spec i { L with waits := s.groupWaits L }
  next h =>
    refine ⟨id, _, by rw [List.map_id]; rfl, fun u => ⟨rfl, rfl⟩, fun u => ⟨rfl, rfl, ?_⟩⟩
    split
    · exact ⟨u.placed_refl, fun _ => ⟨fun hl => by simp [h] at hl, fun _ => rfl⟩⟩
    · rfl

@[simp] theorem State.finish_mem (s : State) (i : Instr) (L : Latch) : (s.finish i L).mem = s.mem := by
  obtain ⟨_, _, h, -⟩ := s.finish_shape i L; rw [h]
@[simp] theorem State.finish_eng (s : State) (i : Instr) (L : Latch) : (s.finish i L).eng = s.eng := by
  obtain ⟨_, _, h, -⟩ := s.finish_shape i L; rw [h]
@[simp] theorem State.finish_tasks (s : State) (i : Instr) (L : Latch) : (s.finish i L).tasks = s.tasks := by
  obtain ⟨_, _, h, -⟩ := s.finish_shape i L; rw [h]
@[simp] theorem State.finish_teams (s : State) (i : Instr) (L : Latch) : (s.finish i L).teams = s.teams := by
  obtain ⟨_, _, h, -⟩ := s.finish_shape i L; rw [h]
@[simp] theorem State.finish_ctxs (s : State) (i : Instr) (L : Latch) : (s.finish i L).ctxs = s.ctxs := by
  obtain ⟨_, _, h, -⟩ := s.finish_shape i L; rw [h]
@[simp] theorem State.finish_images (s : State) (i : Instr) (L : Latch) : (s.finish i L).images = s.images := by
  obtain ⟨_, _, h, -⟩ := s.finish_shape i L; rw [h]
@[simp] theorem State.finish_dev (s : State) (i : Instr) (L : Latch) : (s.finish i L).dev = s.dev := by
  obtain ⟨_, _, h, -⟩ := s.finish_shape i L; rw [h]
@[simp] theorem State.finish_agenda (s : State) (i : Instr) (L : Latch) : (s.finish i L).agenda = s.agenda := by
  obtain ⟨_, _, h, -⟩ := s.finish_shape i L; rw [h]
@[simp] theorem State.finish_arg (s : State) (i : Instr) (L : Latch) : (s.finish i L).arg = s.arg := by
  obtain ⟨_, _, h, -⟩ := s.finish_shape i L; rw [h]
@[simp] theorem State.finish_freeCtr (s : State) (i : Instr) (L : Latch) : (s.finish i L).freeCtr = s.freeCtr := by
  obtain ⟨_, _, h, -⟩ := s.finish_shape i L; rw [h]
@[simp] theorem State.finish_idCtr (s : State) (i : Instr) (L : Latch) : (s.finish i L).idCtr = s.idCtr := by
  obtain ⟨_, _, h, -⟩ := s.finish_shape i L; rw [h]
@[simp] theorem State.finish_fp64 (s : State) (i : Instr) (L : Latch) : (s.finish i L).fp64 = s.fp64 := by
  obtain ⟨_, _, h, -⟩ := s.finish_shape i L; rw [h]
@[simp] theorem State.finish_issue (s : State) (i : Instr) (L : Latch) : (s.finish i L).issue = none := by
  obtain ⟨_, _, h, -⟩ := s.finish_shape i L; rw [h]

/-- A thread after the end of a compound: of the issue group, it is placed; any other is as it was. -/
theorem State.thread?_finish (s : State) (i : Instr) (L : Latch) (c k : Nat) :
    match s.thread? c k with
    | none => (s.finish i L).thread? c k = none
    | some u => ∃ v, (s.finish i L).thread? c k = some v ∧ v.pc = u.pc ∧ v.repLeft = u.repLeft ∧
        if c = L.core ∧ k ∈ L.group then Thread.placed u v ∧ Thread.counted i (Decidable.decide (L.n ≤ L.j + 1)) u v else v = u := by
  obtain ⟨F, C, h, hk, hF⟩ := s.finish_shape i L
  have key := State.thread?_map s (s.finish i L) F (by rw [h]) hk c k
  cases hu : s.thread? c k with
  | none => simp [key, hu]
  | some u =>
    have hc := State.thread?_key hu
    exact ⟨F u, by rw [key, hu]; rfl, (hF u).1, (hF u).2.1, by simpa [hc.1, hc.2] using (hF u).2.2⟩

/-- A warp after the end of a compound: only where its warp stands in the compound has changed. -/
theorem State.warp?_finish (s : State) (i : Instr) (L : Latch) (c k : Nat) :
    match s.warp? c k with
    | none => (s.finish i L).warp? c k = none
    | some w => if c = L.core ∧ k = L.warp then ∃ cur, (s.finish i L).warp? c k = some { w with cur := cur }
        else (s.finish i L).warp? c k = some w := by
  have main : ∃ x, (s.finish i L).warp? c k = (s.updWarp L.core L.warp fun w => { w with cur := x }).warp? c k := by
    obtain ⟨F, C, h, -⟩ := s.finish_shape i L
    exact ⟨C, by rw [h]; rfl⟩
  obtain ⟨x, hx⟩ := main
  have hx := hx.trans (State.warp?_updWarp s L.core L.warp (fun w => { w with cur := x }) (fun _ => ⟨rfl, rfl⟩) c k)
  rw [hx]
  cases hw : s.warp? c k with
  | none => simp
  | some w =>
    have hk : w.core = c ∧ w.slot = k := by
      have := List.find?_some hw
      simpa [Warp.is] using this
    simp only [Option.map_some, Warp.is, hk.1, hk.2, beq_iff_eq, Bool.and_eq_true]
    split
    · exact ⟨x, rfl⟩
    · rfl

/-! ## The execution of a word -/

theorem Ops.instr_some {s : State} {L : Latch} (h : s.issue = some L) (i : Instr) (body : Latch → State → Res) :
    Ops.instr i s body = .next (s.run i L body) := by
  unfold Ops.instr; simp [h]

/-- A word whose body is done: its effect, then the end of its issue slot. -/
theorem Ops.instr_done {s : State} {L : Latch} {i : Instr} (h : s.executes L i) (body : Latch → State → Res) {t : State}
    (hb : body L (s.advance L) = .done t) : Ops.instr i s body = .next ((t.finish i L).takeFp64 i L) := by
  rw [Ops.instr_some h.1]
  unfold State.run
  have he : L.exec.isEmpty = false := by simpa using h.2.2.1
  simp [h.2.1, he, h.2.2.2.1, h.2.2.2.2, hb]

/-- A word whose body traps. -/
theorem Ops.instr_trap {s : State} {L : Latch} {i : Instr} (h : s.executes L i) (body : Latch → State → Res) {c n : Nat}
    (hb : body L (s.advance L) = .trap c n) : Ops.instr i s body = .next (s.trap L c n) := by
  rw [Ops.instr_some h.1]
  unfold State.run
  have he : L.exec.isEmpty = false := by simpa using h.2.2.1
  simp [h.2.1, he, h.2.2.2.1, h.2.2.2.2, hb]

/-- A word that its unit cannot accept now. -/
theorem Ops.instr_stall {s : State} {L : Latch} {i : Instr} (h : s.executes L i) (body : Latch → State → Res) {t : State}
    (hb : body L (s.advance L) = .stall t) : Ops.instr i s body = .next (s.stall t L) := by
  rw [Ops.instr_some h.1]
  unfold State.run
  have he : L.exec.isEmpty = false := by simpa using h.2.2.1
  simp [h.2.1, he, h.2.2.2.1, h.2.2.2.2, hb]

/-- A word that fails one of the checks of R129 traps. -/
theorem Ops.instr_check {s : State} {L : Latch} {i : Instr} (h : s.issue = some L) (body : Latch → State → Res) {c : Nat}
    (hc : s.check i L = some c) : Ops.instr i s body = .next (s.trap L c 0) := by
  rw [Ops.instr_some h]
  unfold State.run
  simp [hc]

/-- A word that no lane executes only passes (R141). -/
theorem Ops.instr_masked {s : State} {L : Latch} {i : Instr} (h : s.issue = some L) (body : Latch → State → Res)
    (hc : s.check i L = none) (hf : s.fp64Busy i L = false) (he : L.exec = []) :
    Ops.instr i s body = .next (((s.advance L).finish i L).takeFp64 i L) := by
  rw [Ops.instr_some h]
  unfold State.run
  simp [hc, he, hf]

/-- A word whose FP64 unit is taken, or that must follow an acquire still to be performed, is not accepted (R193, R375). -/
theorem Ops.instr_held {s : State} {L : Latch} {i : Instr} (h : s.issue = some L) (body : Latch → State → Res)
    (hc : s.check i L = none) (he : L.exec ≠ []) (hb : s.fp64Busy i L = true ∨ s.awaits i L = true) :
    Ops.instr i s body = .next (s.stall s L) := by
  rw [Ops.instr_some h]
  unfold State.run
  have he : L.exec.isEmpty = false := by simpa using he
  rcases hb with hb | hb <;> simp [hc, he, hb]

/-- The group passes the compound: every thread outside it is as it was. -/
theorem Thread.advance_shape (L : Latch) (u : Thread) :
    ∃ pc r, u.advance L = { u with pc := pc, repLeft := r } ∧ (¬ (u.core = L.core ∧ u.slot ∈ L.group) → pc = u.pc ∧ r = u.repLeft) := by
  unfold Thread.advance
  split
  next h =>
    simp only [beq_iff_eq, Bool.and_eq_true, List.contains_iff_mem] at h
    split
    · exact ⟨_, _, rfl, fun n => absurd h n⟩
    · exact ⟨_, _, rfl, fun n => absurd h n⟩
  next => exact ⟨u.pc, u.repLeft, rfl, fun _ => ⟨rfl, rfl⟩⟩

/-- Where the group stands behind this repeat (R114). -/
theorem Thread.advance_group (L : Latch) (u : Thread) (h : u.core = L.core ∧ u.slot ∈ L.group) :
    (u.advance L).pc = (if L.n ≤ L.j + 1 then L.at_ + 4 else L.first) ∧
      (u.advance L).repLeft = (if L.n ≤ L.j + 1 then 0 else L.n - (L.j + 1)) ∧ (u.advance L).guard = u.guard := by
  unfold Thread.advance
  simp only [beq_iff_eq, Bool.and_eq_true, List.contains_iff_mem, h, and_self, if_true]
  split <;> exact ⟨rfl, rfl, rfl⟩

/-- What `f` may do to where a thread stands, when `i` is its instruction: only a control transfer moves it, only GUARD and ERET set its
guard range, and it is not sent back into a compound that has ended. -/
def Stays (i : Instr) (f : Thread → Thread) : Prop :=
  ∀ x, (Instr.endsGuard i = false → (f x).pc = x.pc ∧ (f x).repLeft = x.repLeft) ∧ (Instr.setsGuard i = false → (f x).guard = x.guard) ∧
    (x.repLeft = 0 → (f x).repLeft = 0)

/-- A change that leaves where a thread stands alone. -/
theorem Stays.of_same (i : Instr) {f : Thread → Thread} (h : ∀ x, (f x).pc = x.pc ∧ (f x).repLeft = x.repLeft ∧ (f x).guard = x.guard) :
    Stays i f := fun x => ⟨fun _ => ⟨(h x).1, (h x).2.1⟩, fun _ => (h x).2.2, fun e => by rw [(h x).2.1, e]⟩

/-- The answer of an instruction whose executing lanes become what `f` makes of them, and whose warp what `g` makes of it. -/
def State.answers (s : State) (L : Latch) (i : Instr) (o : Host.Outcome State Fault Refusal) (f : Thread → Thread)
    (g : Warp → Warp) : Prop :=
  ∃ t, o = .next t ∧ t.issue = none ∧ s.lanesDo t L i f ∧ s.warpsDo t L g ∧ s.sameElse t ∧ t.fp64 = (s.takeFp64 i L).fp64 ∧
    ∀ a, Memory.read t.mem.cells a = Memory.read s.mem.cells a

theorem completes_of_answers {s : State} {L : Latch} {i : Instr} {f : Thread → Thread} {g : Warp → Warp}
    (h : s.answers L i (exec i s) f g) : Completes s L i f g := h

/-- The end of a compound that changed executing lanes and its warp alone. -/
theorem State.finish_answers (s : State) (L : Latch) (i : Instr) (f f' : Thread → Thread) (g : Warp → Warp)
    (kf : ∀ x, (f' x).core = x.core ∧ (f' x).slot = x.slot) (kg : ∀ x, (g x).core = x.core ∧ (g x).slot = x.slot)
    (hf : ∀ u pc r, Thread.placed (f u) (f' { u with pc := pc, repLeft := r })) (kp : Stays i f') :
    s.answers L i (.next (((((s.advance L).mapExec L f').updWarp L.core L.warp g).finish i L).takeFp64 i L)) f g := by
  refine ⟨_, rfl, by simp, ?_, ?_, ?_, ?_, ?_⟩
  · intro c k
    have e : (((s.advance L).mapExec L f').updWarp L.core L.warp g).thread? c k
        = (s.thread? c k).map fun u => if (u.advance L).core == L.core && L.exec.contains (u.advance L).slot
            then f' (u.advance L) else u.advance L := by
      show ((s.advance L).mapExec L f').thread? c k = _
      rw [State.thread?_mapExec _ _ _ kf, State.thread?_advance, Option.map_map]; rfl
    have fin := State.thread?_finish (((s.advance L).mapExec L f').updWarp L.core L.warp g) i L c k
    rw [e] at fin
    simp only [State.takeFp64_thread?]
    cases hu : s.thread? c k with
    | none => simpa [hu] using fin
    | some u =>
      simp only [hu, Option.map_some] at fin
      obtain ⟨v, hv, hpc, hrep, hp⟩ := fin
      refine ⟨v, hv, ?_⟩
      have hk := State.thread?_key hu
      obtain ⟨pc, r, ha, hout⟩ := u.advance_shape L
      have hc := (u.advance_key L)
      simp only [hc.1, hc.2, hk.1, hk.2, beq_iff_eq, Bool.and_eq_true, List.contains_iff_mem] at hp hout hpc hrep
      by_cases hcore : c = L.core
      · have hst : k ∈ L.group → Thread.stands L i u v := by
          intro hg
          have hadv := u.advance_group L ⟨hk.1.trans hcore, hk.2.symm ▸ hg⟩
          simp only [hcore, hg, and_self, if_true, true_and] at hp hpc hrep
          obtain ⟨-, hcount⟩ := hp
          unfold Thread.stands
          simp only [hk.2]
          by_cases hx : k ∈ L.exec
          · simp only [hx, if_true] at hcount hpc hrep
            have kx := kp (u.advance L)
            refine ⟨fun he => ?_, fun hs => ?_⟩
            · have he : Instr.endsGuard i = false := by simpa [hx] using he
              rw [hpc, hrep, (kx.1 he).1, (kx.1 he).2, hadv.1, hadv.2.1]; exact ⟨rfl, rfl⟩
            · obtain ⟨h1, h2⟩ := hcount hs
              by_cases hl : L.n ≤ L.j + 1
              · rw [if_pos hl] at hadv
                rw [if_pos hl, h1 (by simpa using hl) (kx.2.2 (by rw [hadv.2.1, if_pos hl])), kx.2.1 hs, hadv.2.2]
              · rw [if_neg hl, h2 (by simpa using hl), kx.2.1 hs, hadv.2.2]
          · simp only [hx, if_false] at hcount hpc hrep
            refine ⟨fun _ => by rw [hpc, hrep, hadv.1, hadv.2.1]; exact ⟨rfl, rfl⟩, fun hs => ?_⟩
            obtain ⟨h1, h2⟩ := hcount hs
            by_cases hl : L.n ≤ L.j + 1
            · rw [if_pos hl, h1 (by simpa using hl) (by rw [hadv.2.1, if_pos hl]), hadv.2.2]
            · rw [if_neg hl, h2 (by simpa using hl), hadv.2.2]
        by_cases hx : k ∈ L.exec
        · simp only [hcore, hx, and_self, if_true, true_and, or_true] at hp ⊢
          rw [ha] at hp
          have p1 := hf u pc r
          refine ⟨?_, hst⟩
          split at hp
          · refine ⟨?_, ?_⟩
            · have := hp.1.1; rw [p1.1] at this; simpa using this
            · rcases hp.1.2 with q | ⟨q, w⟩
              · rw [q]; exact p1.2
              · rcases p1.2 with z | ⟨z, y⟩
                · exact .inr ⟨z ▸ q, w⟩
                · rw [y] at q; cases q
          · rw [hp]; exact p1
        · by_cases hg : k ∈ L.group
          · simp only [hcore, hx, hg, and_false, and_true, if_true, true_or, if_false] at hp ⊢
            rw [ha] at hp
            exact ⟨⟨by simpa using hp.1.1, hp.1.2⟩, fun _ => hst hg⟩
          · simp only [hcore, hx, hg, and_false, or_false, if_false] at hp ⊢
            obtain ⟨rfl, rfl⟩ := hout (by simp [hg])
            rw [hp, ha]
      · simp only [hcore, false_and, if_false] at hp ⊢
        obtain ⟨rfl, rfl⟩ := hout (by simp [hcore])
        rw [hp, ha]
  · intro c k
    have fin := State.warp?_finish (((s.advance L).mapExec L f').updWarp L.core L.warp g) i L c k
    rw [State.warp?_updWarp _ _ _ _ kg] at fin
    simp only [State.takeFp64_warp?]
    have e : ((s.advance L).mapExec L f').warp? c k = s.warp? c k := rfl
    rw [e] at fin
    cases hw : s.warp? c k with
    | none => simpa [hw] using fin
    | some w =>
      have hk : w.core = c ∧ w.slot = k := by
        have := List.find?_some hw
        simpa [Warp.is] using this
      simp only [hw, Option.map_some, Warp.is, hk.1, hk.2, beq_iff_eq, Bool.and_eq_true] at fin ⊢
      split at fin
      next q => simpa [q] using fin
      next q => simpa [q] using fin
  · exact ⟨by simp, by simp, by simp, by simp, by simp, by simp, by simp, by simp, by simp, by simp⟩
  · refine State.takeFp64_fp64 (s := s) i L ?_ ?_ <;> simp
  · simp

/-- An instruction whose body changes executing lanes and its warp alone. -/
theorem Ops.instr_answers {s : State} {L : Latch} {i : Instr} (h : s.executes L i) (body : Latch → State → Res)
    (f f' : Thread → Thread) (g : Warp → Warp)
    (hb : body L (s.advance L) = .done (((s.advance L).mapExec L f').updWarp L.core L.warp g))
    (kf : ∀ x, (f' x).core = x.core ∧ (f' x).slot = x.slot) (kg : ∀ x, (g x).core = x.core ∧ (g x).slot = x.slot)
    (hf : ∀ u pc r, Thread.placed (f u) (f' { u with pc := pc, repLeft := r })) (kp : Stays i f') :
    s.answers L i (Ops.instr i s body) f g := by
  rw [Ops.instr_done h body hb]
  exact s.finish_answers L i f f' g kf kg hf kp

@[simp] theorem State.updWarp_id (s : State) (c w : Nat) : s.updWarp c w id = s := by
  unfold State.updWarp updWhere
  simp

/-- A word that no lane executes leaves every lane as it is (R141). -/
theorem Ops.masked_completes {s : State} {L : Latch} {i : Instr} (h : s.issue = some L) (hc : s.check i L = none)
    (hf : s.fp64Busy i L = false) (hx : L.exec = []) (body : Latch → State → Res) (he : exec i s = Ops.instr i s body) : Completes s L i id id := by
  have := s.finish_answers L i id id id (fun _ => ⟨rfl, rfl⟩) (fun _ => ⟨rfl, rfl⟩) (fun u pc r => ⟨rfl, .inl rfl⟩)
    (Stays.of_same i fun _ => ⟨rfl, rfl, rfl⟩)
  rw [State.mapExec_id, State.updWarp_id, ← Ops.instr_masked h body hc hf hx, ← he] at this
  exact this

/-- An instruction whose body changes executing lanes alone. -/
theorem Ops.instr_lanes {s : State} {L : Latch} {i : Instr} (h : s.executes L i) (body : Latch → State → Res)
    (f f' : Thread → Thread) (hb : body L (s.advance L) = .done ((s.advance L).mapExec L f'))
    (kf : ∀ x, (f' x).core = x.core ∧ (f' x).slot = x.slot)
    (hf : ∀ u pc r, Thread.placed (f u) (f' { u with pc := pc, repLeft := r })) (kp : Stays i f') :
    s.answers L i (Ops.instr i s body) f id := by
  refine Ops.instr_answers h body f f' id ?_ kf (fun _ => ⟨rfl, rfl⟩) hf kp
  rw [hb, State.updWarp_id]

/-- An instruction whose body changes executing lanes and its warp completes. -/
theorem Ops.completes_warp {s : State} {L : Latch} {i : Instr} (h : s.executes L i) (body : Latch → State → Res)
    (he : exec i s = Ops.instr i s body) (f f' : Thread → Thread) (g : Warp → Warp)
    (hb : body L (s.advance L) = .done (((s.advance L).mapExec L f').updWarp L.core L.warp g))
    (kf : ∀ x, (f' x).core = x.core ∧ (f' x).slot = x.slot) (kg : ∀ x, (g x).core = x.core ∧ (g x).slot = x.slot)
    (hf : ∀ u pc r, Thread.placed (f u) (f' { u with pc := pc, repLeft := r })) (kp : Stays i f') : Completes s L i f g := by
  have := Ops.instr_answers h body f f' g hb kf kg hf kp
  rw [← he] at this
  exact this

/-- An instruction whose body changes its executing lanes completes. -/
theorem Ops.completes_lanes {s : State} {L : Latch} {i : Instr} (h : s.executes L i) (body : Latch → State → Res)
    (he : exec i s = Ops.instr i s body) (f f' : Thread → Thread)
    (hb : body L (s.advance L) = .done ((s.advance L).mapExec L f'))
    (kf : ∀ x, (f' x).core = x.core ∧ (f' x).slot = x.slot)
    (hf : ∀ u pc r, Thread.placed (f u) (f' { u with pc := pc, repLeft := r })) (kp : Stays i f') : Completes s L i f id := by
  have := Ops.instr_lanes h body f f' hb kf hf kp
  rw [← he] at this
  exact this

/-- Where executing threads stand after an instruction whose body maps them. -/
theorem Ops.leaves_lanes {s : State} {L : Latch} {i : Instr} (h : s.executes L i) (body : Latch → State → Res)
    (he : exec i s = Ops.instr i s body) (f : Thread → Thread)
    (hb : body L (s.advance L) = .done ((s.advance L).mapExec L f))
    (kf : ∀ x, (f x).core = x.core ∧ (f x).slot = x.slot) (P : Thread → Thread → Prop)
    (hP : ∀ k ∈ L.exec, ∀ u, s.thread? L.core k = some u →
      ∀ v : Thread, v.pc = (f (u.advance L)).pc → v.repLeft = (f (u.advance L)).repLeft → P u v) : Leaves s L i P := by
  refine ⟨_, by rw [he]; exact Ops.instr_done h body hb, ?_⟩
  intro k hk u hu
  have e : ((s.advance L).mapExec L f).thread? L.core k
      = (s.thread? L.core k).map fun u => if (u.advance L).core == L.core && L.exec.contains (u.advance L).slot
          then f (u.advance L) else u.advance L := by
    rw [State.thread?_mapExec _ _ _ kf, State.thread?_advance, Option.map_map]; rfl
  have fin := State.thread?_finish ((s.advance L).mapExec L f) i L L.core k
  have hc := State.thread?_key hu
  have ha := u.advance_key L
  rw [e, hu] at fin
  simp only [Option.map_some, ha.1, ha.2, hc.1, hc.2, beq_self_eq_true, List.contains_iff_mem, hk, if_true,
    Bool.true_and] at fin
  obtain ⟨v, hv, h1, h2, -⟩ := fin
  exact ⟨v, by rw [State.takeFp64_thread?]; exact hv, hP k hk u hu v h1 h2⟩

/-- The executing lanes of the state whose group has moved on. -/
theorem State.lanes_advance (s : State) (L : Latch) : (s.advance L).lanes L = (s.lanes L).map (Thread.advance L) := by
  unfold State.lanes State.at
  rw [List.map_filterMap]
  congr 1
  funext k
  exact State.thread?_advance ..

theorem State.mem_lanes {s : State} {L : Latch} {k : Nat} {u : Thread} (h : s.thread? L.core k = some u) (hk : k ∈ L.exec) :
    u ∈ s.lanes L := by
  unfold State.lanes State.at
  rw [List.mem_filterMap]
  exact ⟨k, hk, h⟩

/-- The registers that an instruction reads do not depend on where the thread stands. -/
theorem Thread.advance_reads (L : Latch) (u : Thread) :
    (∀ n, (u.advance L).reg n = u.reg n) ∧ (∀ n, (u.advance L).pair n = u.pair n) ∧ (∀ n, (u.advance L).pred n = u.pred n) ∧
      (u.advance L).wb = u.wb ∧ (u.advance L).lane = u.lane := by
  obtain ⟨pc, r, h, -⟩ := u.advance_shape L
  rw [h]
  exact ⟨fun _ => rfl, fun _ => rfl, fun _ => rfl, rfl, rfl⟩

/-- An arithmetic instruction whose value no placement of the thread enters. -/
theorem Ops.alu_answers {s : State} {L : Latch} {i : Instr} (h : s.executes L i) (d : Reg) (n : Nat) (f : Thread → Fr)
    (hf : ∀ u pc r, f { u with pc := pc, repLeft := r } = f u) :
    s.answers L i (Ops.alu i d n s f) (fun u => Thread.willWrite d n (f u).1 (f u).2 u) id := by
  refine Ops.instr_lanes h _ _ (fun t => t.addPending (t.result d.toNat n (f t).1 (f t).2)) rfl (fun _ => ⟨rfl, rfl⟩) ?_
    (Stays.of_same i fun _ => ⟨rfl, rfl, rfl⟩)
  intro u pc r
  simp only [hf u pc r]
  exact ⟨rfl, .inl rfl⟩

/-- An instruction that writes a predicate. -/
theorem Ops.test_answers {s : State} {L : Latch} {i : Instr} (h : s.executes L i) (d : Reg) (f : Thread → Bool × BitVec 7)
    (hf : ∀ u pc r, f { u with pc := pc, repLeft := r } = f u) :
    s.answers L i (Ops.test i d s f) (fun u => Thread.willSet d (f u).1 (f u).2 u) id := by
  refine Ops.instr_lanes h _ _ (fun t => t.addPending (predResult d.toNat (f t).1 (f t).2)) rfl (fun _ => ⟨rfl, rfl⟩) ?_
    (Stays.of_same i fun _ => ⟨rfl, rfl, rfl⟩)
  intro u pc r
  simp only [hf u pc r]
  exact ⟨rfl, .inl rfl⟩

/-- Two descriptions of the lanes that agree describe the same answer. -/
theorem State.answers_congr {s : State} {L : Latch} {i : Instr} {o : Host.Outcome State Fault Refusal} {f f' : Thread → Thread}
    {g : Warp → Warp} (h : s.answers L i o f g) (hf : ∀ u, f' u = f u) : s.answers L i o f' g := by
  have : f' = f := funext hf
  subst this
  exact h

/-- An arithmetic instruction writes the registers that its value says. -/
theorem Ops.writes {s : State} {L : Latch} {i : Instr} {d : Reg} (f : Thread → Fr) (g : Thread → Word × BitVec 7)
    (he : exec i s = Ops.alu i d 1 s f) (hf : ∀ u pc r, f { u with pc := pc, repLeft := r } = f u)
    (hg : ∀ u, f u = ((g u).1.toNat, (g u).2)) : Writes s L i d g := by
  intro h
  have := Ops.alu_answers h d 1 f hf
  rw [← he] at this
  exact State.answers_congr this fun u => by simp [hg]

/-- As Ops.writes, for a pair. -/
theorem Ops.writesPair {s : State} {L : Latch} {i : Instr} {d : Reg} (f : Thread → Fr) (g : Thread → Pair × BitVec 7)
    (he : exec i s = Ops.alu i d 2 s f) (hf : ∀ u pc r, f { u with pc := pc, repLeft := r } = f u)
    (hg : ∀ u, f u = ((g u).1.toNat, (g u).2)) : WritesPair s L i d g := by
  intro h
  have := Ops.alu_answers h d 2 f hf
  rw [← he] at this
  exact State.answers_congr this fun u => by simp [hg]

/-- As Ops.writes, for a predicate. -/
theorem Ops.writesPred {s : State} {L : Latch} {i : Instr} {d : Reg} (f : Thread → Bool × BitVec 7) (g : Thread → Bool)
    (he : exec i s = Ops.test i d s f) (hf : ∀ u pc r, f { u with pc := pc, repLeft := r } = f u)
    (hg : ∀ u, f u = (g u, 0)) : WritesPred s L i d g := by
  intro h
  have := Ops.test_answers h d f hf
  rw [← he] at this
  exact State.answers_congr this fun u => by simp [hg]

/-- A word that accesses pages does so before it has any effect. -/
theorem Ops.accesses {s : State} {L : Latch} {i : Instr} (h : s.executes L i) (body : Latch → State → Res) {kind : Access}
    {xs : List LaneAcc} {e : (Thread → Bool) → State → State}
    (hi : exec i s = Ops.instr i s body)
    (hb : body L (s.advance L) = (s.advance L).withPages L kind xs fun go t => .done (e go t)) :
    Accesses s L i kind xs e := by
  unfold State.withPages at hb
  constructor
  · intro hall
    have hf : ((s.advance L).untranslated L.core kind xs).filter ((s.advance L).meetsFault L.core kind) =
        (s.advance L).untranslated L.core kind xs := List.filter_eq_self.2 hall
    unfold Ends
    rw [hi]
    apply Ops.instr_done h
    simpa [hf] using hb
  · rintro ⟨x, hx, hn⟩
    unfold Stalls
    rw [hi]
    apply Ops.instr_stall h
    have hl : ¬ (((s.advance L).untranslated L.core kind xs).filter ((s.advance L).meetsFault L.core kind)).length =
        ((s.advance L).untranslated L.core kind xs).length := by
      intro e
      have := List.length_filter_eq_length_iff.1 e x hx
      simp [hn] at this
    simpa [hl] using hb

end Sys2Proof.Machine
end

