-- ==== Sys2Proof/Laws/Reads.lean ====
section
/-! SUPPORT. The reads of the Curve Unit and of the sweep engine hand what they read to a continuation: that they end in a value does not
depend on the continuation. -/

namespace Sys2Proof.Machine

open Sys2Proof

/-- A result handed on: the value goes to the continuation, and every other end stays. -/
def MeshRes.next (r : MeshRes) (k : Nat → State → MeshRes) : MeshRes :=
  match r with
  | .val v s => k v s
  | .fault a b c s => .fault a b c s
  | .wait => .wait
  | .mig keys => .mig keys
  | .stop => .stop

theorem State.curvePart_next (s : State) (o : Origin) (va n : Nat) (k : Nat → State → MeshRes) :
    s.curvePart o va n k = (s.curvePart o va n .val).next k := by
  unfold State.curvePart
  split
  · rfl
  · rfl
  · rfl
  · dsimp only
    split
    · rfl
    · split
      · rfl
      · split <;> rfl

theorem State.curveRead_next (o : Origin) (n : Nat) : ∀ (s : State) (va : Nat) (k : Nat → State → MeshRes),
    s.curveRead o va n k = (s.curveRead o va n .val).next k := by
  induction n with
  | zero => intro s va k; rfl
  | succ n ih =>
    intro s va k
    simp only [State.curveRead]
    rw [State.curvePart_next s o _ 8 (fun v s => s.curveRead o (va + 8) n fun w s => k (v + 2 ^ 64 * w) s),
      State.curvePart_next s o _ 8 (fun v s => s.curveRead o (va + 8) n fun w s => .val (v + 2 ^ 64 * w) s)]
    cases s.curvePart o (va % 2 ^ 64) 8 .val with
    | val v t =>
      simp only [MeshRes.next]
      rw [ih t _ (fun w s => k (v + 2 ^ 64 * w) s), ih t _ (fun w s => .val (v + 2 ^ 64 * w) s)]
      cases t.curveRead o (va + 8) n .val <;> rfl
    | fault a b c t => rfl
    | wait => rfl
    | mig _ => rfl
    | stop => rfl

theorem State.recordRead_next (s : State) (o : Origin) (t : Thread) (va n : Nat) (k : Nat → State → MeshRes) :
    s.recordRead o t va n k = (s.recordRead o t va n .val).next k := by
  unfold State.recordRead
  split
  · split
    · rfl
    · split <;> rfl
  · exact s.curveRead_next ..

/-- A record whose read ends in a value hands it to every continuation. -/
theorem State.recordRead_val {s t : State} {o : Origin} {u : Thread} {va n v : Nat} (h : s.recordRead o u va n .val = .val v t)
    (k : Nat → State → MeshRes) : s.recordRead o u va n k = k v t := by
  rw [State.recordRead_next, h]; rfl

/-! ## Reads that are given a continuation -/

/-- A read either hands one value, in one state, to whatever continuation it is given, or ends in one way whatever its continuation is. -/
def HandsOn {α : Type} (g : (α → State → MeshRes) → MeshRes) : Prop :=
  (∃ a t, ∀ k, g k = k a t) ∨ ∃ r, ∀ k, g k = r

theorem HandsOn.value {α : Type} (a : α) (s : State) : HandsOn fun k => k a s := .inl ⟨a, s, fun _ => rfl⟩

theorem HandsOn.bind {α β : Type} {g : (α → State → MeshRes) → MeshRes} {h : α → State → (β → State → MeshRes) → MeshRes} (hg : HandsOn g)
    (hh : ∀ a t, HandsOn (h a t)) : HandsOn fun k => g fun a t => h a t k := by
  rcases hg with ⟨a, t, e⟩ | ⟨r, e⟩
  · rcases hh a t with ⟨b, u, e'⟩ | ⟨r, e'⟩
    · exact .inl ⟨b, u, fun k => (e _).trans (e' k)⟩
    · exact .inr ⟨r, fun k => (e _).trans (e' k)⟩
  · exact .inr ⟨r, fun _ => e _⟩

theorem HandsOn.of_next {g : (Nat → State → MeshRes) → MeshRes} (h : ∀ k, g k = (g .val).next k) : HandsOn g := by
  match e : g .val with
  | .val v t => exact .inl ⟨v, t, fun k => by rw [h, e]; rfl⟩
  | .fault a b c t => exact .inr ⟨.fault a b c t, fun k => by rw [h, e]; rfl⟩
  | .wait => exact .inr ⟨.wait, fun k => by rw [h, e]; rfl⟩
  | .mig x => exact .inr ⟨.mig x, fun k => by rw [h, e]; rfl⟩
  | .stop => exact .inr ⟨.stop, fun k => by rw [h, e]; rfl⟩

/-- A read that comes to a value which passes a test hands that value to every continuation. -/
theorem HandsOn.passes {α : Type} {g : (α → State → MeshRes) → MeshRes} (hg : HandsOn g) (test : α → State → Bool)
    (h : (match g fun a t => if test a t then .val 0 t else .stop with | .val _ _ => true | _ => false) = true)
    (hw : (match g fun _ _ => .wait with | .wait => true | _ => false) = true) : ∃ a t, test a t = true ∧ ∀ k, g k = k a t := by
  rcases hg with ⟨a, t, e⟩ | ⟨r, e⟩
  · refine ⟨a, t, ?_, e⟩
    rw [e] at h
    cases ht : test a t with
    | true => rfl
    | false => rw [ht] at h; cases h
  · rw [e] at h hw
    cases r <;> first | cases h; done | cases hw

theorem State.readSeg_handsOn (o : Origin) (g : Seg) (d n : Nat) : ∀ (s : State) (i : Nat) (acc : List LeafRec),
    HandsOn fun k => s.readSeg o g d i acc k n := by
  induction n with
  | zero => exact fun s _ acc => .value acc s
  | succ n ih => exact fun s i acc => .bind (.of_next fun k => s.curveRead_next o _ _ k) fun v t => ih t (i + 1) _

theorem State.readSegs_handsOn (o : Origin) (gs : List Seg) : ∀ (s : State) (d : Nat) (acc : List LeafRec),
    HandsOn fun k => s.readSegs o d acc k gs := by
  induction gs with
  | nil => exact fun s _ acc => .value acc s
  | cons g gs ih => exact fun s d acc => .bind (s.readSeg_handsOn o g d _ 0 acc) fun l t => ih t (d + 1) l

theorem State.readStack_handsOn (o : Origin) (base n : Nat) : ∀ (s : State) (i : Nat) (acc : List Nat),
    HandsOn fun k => s.readStack o base i acc k n := by
  induction n with
  | zero => exact fun s _ acc => .value acc s
  | succ n ih => exact fun s i acc => .bind (.of_next fun k => s.curvePart_next o _ _ k) fun v t => ih t (i + 1) _

theorem State.readStacks_handsOn (o : Origin) (gs : List Seg) : ∀ (s : State) (acc : List Nat), HandsOn fun k => s.readStacks o acc k gs := by
  induction gs with
  | nil => exact fun s acc => .value acc s
  | cons g gs ih => exact fun s acc => .bind (s.readStack_handsOn o g.sbase _ 0 acc) fun l t => ih t l

theorem State.recordRead_handsOn (s : State) (o : Origin) (u : Thread) (va n : Nat) : HandsOn fun k => s.recordRead o u va n k :=
  .of_next fun k => s.recordRead_next o u va n k

/-- The values that the sweep engine reads at a list of addresses, where every read ends in one. -/
def State.readsAll (s : State) (o : Origin) (n : Nat) (acc : List Nat) : List Nat → Option (List Nat × State)
  | [] => some (acc, s)
  | va :: vas => match s.engReadNew o (va % 2 ^ 64) n with
    | .val v _ t => t.readsAll o n (acc ++ [v]) vas
    | _ => none

theorem State.swReads_all (o : Origin) (n : Nat) (k : List Nat → State → MeshRes) (vas : List Nat) : ∀ (s : State) (acc : List Nat)
    (ws : List Nat) (t : State), s.readsAll o n acc vas = some (ws, t) → s.swReads o n acc k vas = k ws t := by
  induction vas with
  | nil => intro s acc ws t h; cases h; rfl
  | cons va vas ih =>
    intro s acc ws t h
    simp only [State.readsAll] at h
    simp only [State.swReads, State.swRead]
    split at h
    · next v _ u e => rw [e]; exact ih u _ ws t h
    · cases h

end Sys2Proof.Machine
end

