-- ==== Sys2Proof/Laws/Writes.lean ====
section
/-! SUPPORT. Memory at rest, in which no word is owned, pinned, poisoned, watched or asked for: a write at a home then writes its bytes and
nothing else, and a walk changes nothing. -/

namespace Sys2Proof.Machine

open Sys2Proof

/-- No word is owned, pinned, poisoned, watched or asked for, and memory is canonical. -/
structure MemSys.Still (m : MemSys) : Prop where
  owners : m.owners = []
  pins : m.pins = []
  poison : m.poison = []
  watches : m.watches = []
  reqs : m.reqs = []
  wf : Memory.wf m.cells = true

theorem MemSys.Still.retry {m : MemSys} (h : m.Still) (g : Option Nat) (a n : Nat) : m.retry g a n = false := by
  simp [MemSys.retry, h.pins]

theorem MemSys.Still.poisoned {m : MemSys} (h : m.Still) (a n : Nat) : m.poisoned a n = false := by
  simp [MemSys.poisoned, h.poison]

theorem MemSys.Still.owner? {m : MemSys} (h : m.Still) (w : Nat) : m.owner? w = none := by
  simp [MemSys.owner?, h.owners]

theorem MemSys.Still.recall {m : MemSys} (h : m.Still) (w : Nat) : m.recall w = m := by
  simp [MemSys.recall, h.owner?]

theorem MemSys.Still.cover {m : MemSys} (h : m.Still) (ws : List Nat) : m.cover ws = m := by
  obtain ⟨h1, h2, h3, h4, h5, h6⟩ := h
  cases m
  simp only at h3
  subst h3
  rfl

/-- A fold that changes nothing. -/
theorem foldl_fix {α β : Type} (f : α → β → α) (a : α) (l : List β) (h : ∀ b, f a b = a) : l.foldl f a = a := by
  induction l with
  | nil => rfl
  | cons b l ih => rw [List.foldl_cons, h, ih]

theorem MemSys.Still.recallAll {m : MemSys} (h : m.Still) (ws : List Nat) : m.recallAll ws = m := by
  unfold MemSys.recallAll
  rw [foldl_fix MemSys.recall m (pairsOf ws) h.recall, h.cover]

theorem MemSys.Still.homeWrite {m : MemSys} (h : m.Still) (a n v : Nat) :
    m.homeWrite a n v = { m with cells := Memory.writeN m.cells a n v } := by
  unfold MemSys.homeWrite
  dsimp only
  rw [h.recallAll, foldl_fix _ m _ (fun w => by simp only [h.owner?]), if_pos (by simp [h.owner?])]
  simp [MemSys.unpoison, h.poison]

theorem State.readOrdered_still {s : State} (h : s.mem.Still) (a n : Nat) : s.readOrdered a n = (s.mem.homeValue a n, s) := by
  simp only [State.readOrdered, State.updMem, h.recallAll]

theorem State.fireWatches_none {s : State} (h : s.mem.watches = []) (a n : Nat) : s.fireWatches a n = s := by
  simp [State.fireWatches, h]

/-- A write at the home. -/
theorem State.writeHome_still {s : State} (h : s.mem.Still) (g : Option Nat) (a n v : Nat) :
    (s.writeHome g a n v).mem.Still ∧ (s.writeHome g a n v).mem.cells = Memory.writeN s.mem.cells a n v ∧
    (s.writeHome g a n v).ctxs = s.ctxs := by
  have hw := Memory.writeN_wf n s.mem.cells a v h.wf
  have key : ∀ t : State, t.mem.Still → t.mem.cells = Memory.writeN s.mem.cells a n v → t.ctxs = s.ctxs →
      (t.fireWatches a n).mem.Still ∧ (t.fireWatches a n).mem.cells = Memory.writeN s.mem.cells a n v ∧ (t.fireWatches a n).ctxs = s.ctxs := by
    intro t ht hc hx
    rw [State.fireWatches_none ht.watches]
    exact ⟨ht, hc, hx⟩
  unfold State.writeHome
  rw [h.homeWrite]
  cases g with
  | none => exact key _ ⟨h.owners, h.pins, h.poison, h.watches, h.reqs, hw⟩ rfl rfl
  | some c => exact key _ ⟨h.owners, h.pins, h.poison, h.watches, h.reqs, hw⟩ rfl rfl

/-- A write of a unit at the home. -/
theorem State.writeUnit_still {s : State} (h : s.mem.Still) (c a n v : Nat) :
    (s.writeUnit c a n v).mem.Still ∧ (s.writeUnit c a n v).mem.cells = Memory.writeN s.mem.cells a n v ∧
    (s.writeUnit c a n v).ctxs = s.ctxs := by
  have hw := Memory.writeN_wf n s.mem.cells a v h.wf
  unfold State.writeUnit
  rw [h.homeWrite, State.fireWatches_none (by exact h.watches)]
  exact ⟨⟨h.owners, h.pins, h.poison, h.watches, h.reqs, hw⟩, rfl, rfl⟩

/-- A write at the home for an engine or a unit. -/
theorem State.writeBy_still {s : State} (h : s.mem.Still) (o : Origin) (a n v : Nat) :
    (s.writeBy o a n v).mem.Still ∧ (s.writeBy o a n v).mem.cells = Memory.writeN s.mem.cells a n v ∧
    (s.writeBy o a n v).ctxs = s.ctxs := by
  unfold State.writeBy
  split
  · exact State.writeHome_still h ..
  · exact State.writeUnit_still h ..

/-- The home's value of a part depends on the bytes from its first word on. -/
theorem Memory.readN_congr {m m' : List Host.Cell} (n : Nat) : ∀ a, (∀ x, a ≤ x → Memory.read m x = Memory.read m' x) →
    Memory.readN m a n = Memory.readN m' a n := by
  induction n with
  | zero => intros; rfl
  | succ n ih =>
    intro a h
    simp only [Memory.readN]
    rw [h a (Nat.le_refl a), ih (a + 1) fun x hx => h x (by omega)]

theorem MemSys.Still.homeValue {m : MemSys} (h : m.Still) (a n : Nat) : m.homeValue a n =
    natOfWords ((wordKeys a n).map fun w => BitVec.ofNat 32 (Memory.readN m.cells w 4)) / 256 ^ (a % 4) % 256 ^ n := by
  have : m.wordNow = fun w => BitVec.ofNat 32 (Memory.readN m.cells w 4) := by
    funext w; simp [MemSys.wordNow, h.owner?]
  simp only [MemSys.homeValue, this]

theorem MemSys.Still.homeValue_congr {m m' : MemSys} (h : m.Still) (h' : m'.Still) (a n : Nat)
    (hr : ∀ x, a / 4 * 4 ≤ x → Memory.read m.cells x = Memory.read m'.cells x) : m.homeValue a n = m'.homeValue a n := by
  rw [h.homeValue, h'.homeValue]
  congr 3
  apply List.map_congr_left
  intro w hw
  obtain ⟨i, -, rfl⟩ := List.mem_map.1 hw
  rw [Memory.readN_congr 4 _ fun x hx => hr x (by omega)]

theorem State.drainPart_still {s : State} (h : s.mem.Still) (c k a n : Nat) : s.drainPart c k a n = some s := by
  simp [State.drainPart, State.drain, h.reqs]

theorem State.settleOwn_still {s : State} (h : s.mem.Still) (o : Origin) (a n : Nat) : s.settleOwn o a n = some s := by
  unfold State.settleOwn
  split
  · exact s.drainPart_still h ..
  · rfl

/-- Bytes outside a write read as before. -/
theorem Memory.readN_writeN_other (k : Nat) : ∀ (m : List Host.Cell) (a n v b : Nat), Memory.wf m = true → (b + k ≤ a ∨ a + n ≤ b) →
    Memory.readN (Memory.writeN m a n v) b k = Memory.readN m b k := by
  induction k with
  | zero => intros; rfl
  | succ k ih =>
    intro m a n v b h hd
    simp only [Memory.readN]
    rw [Memory.read_writeN_other n m a v b h (by omega), ih m a n v (b + 1) h (by omega)]

/-- Bytes are less than their count says. -/
theorem Memory.readN_lt (k : Nat) : ∀ (m : List Host.Cell) (a : Nat), Memory.readN m a k < 256 ^ k := by
  induction k with
  | zero => intros; simp [Memory.readN]
  | succ k ih =>
    intro m a
    have := ih m (a + 1)
    have := (Memory.read m a).isLt
    simp only [Memory.readN, Nat.pow_succ]
    omega

/-- Bytes in two parts. -/
theorem Memory.readN_add (k n : Nat) : ∀ (m : List Host.Cell) (a : Nat),
    Memory.readN m a (k + n) = Memory.readN m a k + 256 ^ k * Memory.readN m (a + k) n := by
  induction k with
  | zero => intros; simp [Memory.readN]
  | succ k ih =>
    intro m a
    rw [Nat.succ_add]
    simp only [Memory.readN]
    rw [ih m (a + 1), Nat.pow_succ', show a + 1 + k = a + (k + 1) by omega, Nat.mul_add, Nat.mul_assoc]
    omega

/-- A pair of words of the home is its eight bytes. -/
theorem MemSys.Still.homeValue8 {m : MemSys} (h : m.Still) {a : Nat} (ha : a % 4 = 0) : m.homeValue a 8 = Memory.readN m.cells a 8 := by
  have hw : wordKeys a 8 = [a, a + 4] := by
    have e : (a + 8 + 3) / 4 - a / 4 = 2 := by omega
    have f : a / 4 * 4 = a := by omega
    simp only [wordKeys, e, f]
    rfl
  have h1 := Memory.readN_lt 4 m.cells a
  have h2 := Memory.readN_lt 4 m.cells (a + 4)
  have e8 : Memory.readN m.cells a 8 = Memory.readN m.cells a 4 + 256 ^ 4 * Memory.readN m.cells (a + 4) 4 := by
    exact Memory.readN_add 4 4 m.cells a
  rw [h.homeValue, hw, ha]
  simp only [List.map_cons, List.map_nil, natOfWords, BitVec.toNat_ofNat]
  omega

/-- Words in device memory are all written. -/
theorem State.physWrites_still (ws : List Nat) : ∀ (s : State), s.mem.Still → ∀ a, ∃ t, s.physWrites a ws = some t := by
  induction ws with
  | nil => exact fun s _ _ => ⟨s, rfl⟩
  | cons w ws ih =>
    intro s h a
    rw [State.physWrites, if_neg (by simp [h.retry])]
    exact ih _ (State.writeHome_still h none a 8 w).1 _

end Sys2Proof.Machine
end

