-- ==== Sys2Proof/Tests/Slice0.lean ====
section
/-! SUPPORT. Tests of the model against the spec's own tables and examples, and witnesses that the hypotheses of the statements can be
met. -/

set_option Elab.async false

namespace Sys2Proof.Tests

open Sys2Proof Sys2Proof.Machine

/-! ## Words, one of every form, written out from Tables 6-11 to 6-24: the word, its marker bit, what it stands for -/

/-- Class 0, control (Table 6-11). -/
def class0 : List (BitVec 32 × Bool × Instr) :=
  [(0x00000000, false, .nop), (0x803FFFFD, true, .bra 2097149), (0x00412345, false, .call 74565),
   (0x00641000, false, .calli 16 32), (0x80801000, true, .ret 32), (0x00A01000, false, .jmpi 32), (0x00C00000, false, .exit),
   (0x80E00000, true, .yield), (0x01843FFE, false, .bcmp .gt 16 0xfffffffe), (0x0214D000, false, .rep 41 true false true),
   (0x0236C000, false, .guard 5 true 3), (0x02555555, false, .limm), (0x02600060, false, .wbase 96),
   (0x82803FF0, true, .wbaseAdd 0xfffffff0), (0x02A03FFF, false, .trap 16383), (0x02C00011, false, .sysc 17),
   (0x82E00000, true, .fbar), (0xFFFFFFFF, true, .ill)]

theorem test_decode_class0 : ∀ x ∈ class0, decodeWord none x.1 = .ok { marker := x.2.1, instr := x.2.2 } := by decide

/-- Class 1, integer. -/
def class1 : List (BitVec 32 × Bool × Instr) :=
  [(0x08241030, false, .add true 16 32 48), (0x88641030, true, .addc true 16 32 48), (0x08A41030, false, .sub true 16 32 48),
   (0x08E41030, false, .subb true 16 32 48), (0x89241030, true, .mul true 16 32 48), (0x09641030, false, .mulh .n32 16 32 48),
   (0x09A41030, false, .mad true 16 32 48), (0x89E41030, true, .div .n32 16 32 48), (0x0A241030, false, .divTrap .n32 16 32 48),
   (0x0A641030, false, .rem .n32 16 32 48), (0x8AC41030, true, .min .i64 16 32 48), (0x0B441030, false, .max .i64 16 32 48),
   (0x0B841000, false, .abs 16 32), (0x8BA41000, true, .neg 16 32), (0x0BC41030, false, .and 16 32 48),
   (0x0BE41030, false, .or 16 32 48), (0x8C041030, true, .xor 16 32 48), (0x0C241000, false, .not 16 32),
   (0x0C441030, false, .andn 16 32 48), (0x8C641030, true, .shl 16 32 48), (0x0C841030, false, .shl64 16 32 48),
   (0x0CA41030, false, .shr 16 32 48), (0x8CC41030, true, .shr64 16 32 48), (0x0CE41030, false, .shra 16 32 48),
   (0x0D041030, false, .shra64 16 32 48), (0x8D241030, true, .rot 16 32 48), (0x0D441030, false, .sel 16 32 48),
   (0x0D641030, false, .lea 16 32 48)]

theorem test_decode_class1 : ∀ x ∈ class1, decodeWord none x.1 = .ok { marker := x.2.1, instr := x.2.2 } := by decide

/-- Class 2, immediates. -/
def class2 : List (BitVec 32 × Bool × Instr) :=
  [(0x9024107D, true, .addI true 16 32 0xfffffffd), (0x1044107D, false, .mulI 16 32 0xfffffffd),
   (0x1064107D, false, .andI 16 32 0xfffffffd), (0x9084107D, true, .orI 16 32 0xfffffffd),
   (0x10A4107D, false, .xorI 16 32 0xfffffffd), (0x10E41009, false, .shlI true 16 32 9), (0x91241009, true, .shrI true 16 32 9),
   (0x11641009, false, .shraI true 16 32 9), (0x11841009, false, .rotI 16 32 9), (0x91A4107D, true, .minIS 16 32 0xfffffffd),
   (0x11C4107D, false, .minIU 16 32 0xfffffffd), (0x11E4107D, false, .maxIS 16 32 0xfffffffd),
   (0x9204107D, true, .maxIU 16 32 0xfffffffd), (0x12241007, false, .leaI 16 32 7), (0x12442001, false, .movi 16 0xffffe001),
   (0x92642001, true, .movi64 16 8193)]

theorem test_decode_class2 : ∀ x ∈ class2, decodeWord none x.1 = .ok { marker := x.2.1, instr := x.2.2 } := by decide

/-- Class 3, predicates and bit fields. -/
def class3 : List (BitVec 32 × Bool × Instr) :=
  [(0x1A60D030, false, .pset .gt .n64 3 32 48), (0x1C00C286, false, .pand 3 5 6), (0x9C20C286, true, .por 3 5 6),
   (0x1C40C286, false, .pxor 3 5 6), (0x1C60C280, false, .pnot 3 5), (0x9C840280, true, .pmovReg 16 5),
   (0x1CA0D000, false, .pmovPred 3 32), (0x1CE41030, false, .bfx true 16 32 48), (0x9D041030, true, .bfi 16 32 48),
   (0x1D241000, false, .popc 16 32), (0x1D441000, false, .clz 16 32), (0x9D641000, true, .ctz 16 32),
   (0x1D841000, false, .brev 16 32)]

theorem test_decode_class3 : ∀ x ∈ class3, decodeWord none x.1 = .ok { marker := x.2.1, instr := x.2.2 } := by decide

/-- Class 4, thread, warp, mask and team. -/
def class4 : List (BitVec 32 × Bool × Instr) :=
  [(0x20040880, false, .smov 16 17), (0xA0241000, true, .swr 16 32), (0x20441000, false, .tjoin 16 32),
   (0x20641000, false, .tleave 16 32), (0xA081C000, true, .mjoin 7), (0x20A20000, false, .mleave 8),
   (0x20C24000, false, .mwait 9), (0xA0E29000, true, .mset 10 32), (0x21040580, false, .mread 16 11),
   (0x21241000, false, .wregrp 16 32), (0xA1400004, true, .wpart 4), (0x21641000, false, .groute 16 32),
   (0x21841000, false, .wsort 16 32), (0xA1A40280, true, .lcomp 16 5), (0x21E41000, false, .match true 16 32),
   (0x2240C280, false, .vote .all 3 5), (0xA2C41030, true, .shfl .down 16 32 48), (0x23C41000, false, .redw .and 16 32),
   (0x24C41000, false, .scanw .and 16 32)]

theorem test_decode_class4 : ∀ x ∈ class4, decodeWord none x.1 = .ok { marker := x.2.1, instr := x.2.2 } := by decide

/-- Class 5, floating point. -/
def class5 : List (BitVec 32 × Bool × Instr) :=
  [(0xA8041030, true, .faddF32 16 32 48), (0x28241030, false, .faddF16 16 32 48), (0x28441030, false, .faddBf16 16 32 48),
   (0xA8641030, true, .fsubF32 16 32 48), (0x28841030, false, .fsubF16 16 32 48), (0x28A41030, false, .fsubBf16 16 32 48),
   (0xA8C41030, true, .fmulF32 16 32 48), (0x28E41030, false, .fmulF16 16 32 48), (0x29041030, false, .fmulBf16 16 32 48),
   (0xA9241030, true, .ffmaF32 16 32 48), (0x29441030, false, .ffmaF16 16 32 48), (0x29641030, false, .ffmaBf16 16 32 48),
   (0xA9841030, true, .fminF32 16 32 48), (0x29A41030, false, .fminF16 16 32 48), (0x29C41030, false, .fminBf16 16 32 48),
   (0xA9E41030, true, .fmaxF32 16 32 48), (0x2A041030, false, .fmaxF16 16 32 48), (0x2A241030, false, .fmaxBf16 16 32 48),
   (0xAA441000, true, .fnegF32 16 32), (0x2A641000, false, .fnegF16 16 32), (0x2A841000, false, .fnegBf16 16 32),
   (0xAAA41000, true, .fabsF32 16 32), (0x2AC41000, false, .fabsF16 16 32), (0x2AE41000, false, .fabsBf16 16 32),
   (0xABC0D030, true, .fcmp .un 3 32 48), (0x2C041006, false, .fsel 16 32 6), (0x2C241030, false, .fdiv 16 32 48),
   (0xAC441000, true, .fsqrt 16 32), (0x2C641000, false, .frcp 16 32), (0x2C841000, false, .frsq 16 32),
   (0xACA41000, true, .fexp2 16 32), (0x2CC41000, false, .flog2 16 32), (0x2CE41000, false, .fsin 16 32),
   (0xAD041000, true, .fcos 16 32), (0x2D241000, false, .ftanh 16 32), (0x2D441000, false, .fclass 16 32),
   (0xAD641000, true, .frndRne 16 32), (0x2D841000, false, .frndRz 16 32), (0x2DA41000, false, .frndRd 16 32),
   (0xADC41000, true, .frndRu 16 32), (0x2DE41030, false, .fscale 16 32 48), (0x2E241030, false, .hfma2 .bf16 16 32 48),
   (0xAE441030, true, .dot4E4m3 16 32 48), (0x2E641030, false, .dot4E5m2 16 32 48), (0x2E841030, false, .dot4I8 16 32 48)]

theorem test_decode_class5 : ∀ x ∈ class5, decodeWord none x.1 = .ok { marker := x.2.1, instr := x.2.2 } := by decide

/-- Class 6, 64-bit floating point and conversion. -/
def class6 : List (BitVec 32 × Bool × Instr) :=
  [(0xB0041030, true, .faddF64 16 32 48), (0x30241030, false, .fsubF64 16 32 48), (0x30441030, false, .fmulF64 16 32 48),
   (0xB0641030, true, .ffmaF64 16 32 48), (0x30841030, false, .fminF64 16 32 48), (0x30A41030, false, .fmaxF64 16 32 48),
   (0xB0C41030, true, .fdivF64 16 32 48), (0x30E41000, false, .fsqrtF64 16 32), (0x31C0D030, false, .fcmpF64 .un 3 32 48),
   (0xB2441000, true, .frndF64 .rd 16 32), (0x32841000, false, .fnegF64 16 32), (0x32A41000, false, .fabsF64 16 32),
   (0xB2C41000, true, .fclassF64 16 32), (0x32E41030, false, .fscaleF64 16 32 48), (0x33041030, false, .cvtqDec 16 32 48),
   (0xB3241030, true, .cvtqEnc 16 32 48), (0x3344105C, false, .cvtxIns .e4m3 3 .rna 16 32),
   (0x33641028, false, .cvtxExt .bf16 1 16 32), (0xB3840000, true, .flagr 16), (0x33A01000, false, .flagc 32),
   (0x33C40000, false, .rng 16), (0xB3E01030, true, .rngseed 32 48), (0x3684103F, false, .cvt true .e5m2 .f64 .dyn 16 32)]

theorem test_decode_class6 : ∀ x ∈ class6, decodeWord none x.1 = .ok { marker := x.2.1, instr := x.2.2 } := by decide

/-- Class 7, loads and stores (Table 6-18). -/
def class7 : List (BitVec 32 × Bool × Instr) :=
  [(0x39A4107D, false, .ld .si .b64 16 32 0xfffffffd), (0xBC44107D, true, .st .wt .b128 16 32 0xfffffffd),
   (0x3D24107D, false, .lds .b16 16 32 0xfffffffd), (0x3E24107D, false, .sts .b128 16 32 0xfffffffd),
   (0xBE64103F, true, .ldx true 16 32 63), (0x3EA4103E, false, .stx true 16 32 62)]

theorem test_decode_class7 : ∀ x ∈ class7, decodeWord none x.1 = .ok { marker := x.2.1, instr := x.2.2 } := by decide

/-- Class 8, caches, lenses, copies and the Prism (Table 6-19). -/
def class8 : List (BitVec 32 × Bool × Instr) :=
  [(0x4000907D, false, .pref 2 32 0xfffffffd), (0xC0211030, true, .cwb .die 32 48), (0x40415030, false, .cinv .pkg 32 48),
   (0x40619030, false, .cwbinv .sys 32 48), (0xC080D030, true, .icinv .cluster 32 48), (0x40A01009, false, .lensld 32 9),
   (0x40C00009, false, .lensinv 9), (0xC0E41009, true, .lensq 16 32 9), (0x41441009, false, .copy 2 16 32 9),
   (0x41C41009, false, .copys 2 16 32 9), (0xC2441009, true, .copym 2 16 32 9), (0x428005C1, false, .qfence .pkg true 65),
   (0x42A0005A, false, .cwait 90), (0xC2C0107D, true, .feset 32 0xfffffffd), (0x42E0107D, false, .feclr 32 0xfffffffd),
   (0x43241006, false, .cstore true 16 32 6), (0xC3641006, true, .xpand true 16 32 6),
   (0x45C41009, false, .gath true .n32 16 32 9), (0x46241009, false, .scat .f16 16 32 9)]

theorem test_decode_class8 : ∀ x ∈ class8, decodeWord none x.1 = .ok { marker := x.2.1, instr := x.2.2 } := by decide

/-- Class 9, atomics, fences and rendezvous (Table 6-20). -/
def class9 : List (BitVec 32 × Bool × Instr) :=
  [(0xC8641004, true, .ldAcq .b64 .die 16 32), (0x49041004, false, .stRel .b64 .die 16 32),
   (0x4AA41030, false, .atom .min true 16 32 48), (0xCB641030, true, .acas true 16 32 48),
   (0x4D401030, false, .red .fadd false 32 48), (0x4D80C000, false, .fenceAcq .cluster), (0xCDA14000, true, .fenceRel .pkg),
   (0x4DC18000, false, .fenceAcqrel .sys), (0x4DE41030, false, .waitvB32 16 32 48), (0xCE041030, true, .waitvB64 16 32 48),
   (0x4E25D002, false, .binit 23 32 2), (0x4E459001, false, .barv 22 32 1), (0xCE655030, true, .barvr 21 32 48),
   (0x4E850003, false, .bwait 20 3), (0x4EA40982, false, .btest 16 19 2)]

theorem test_decode_class9 : ∀ x ∈ class9, decodeWord none x.1 = .ok { marker := x.2.1, instr := x.2.2 } := by decide

/-- Class 10, matrix (Table 6-21). -/
def class10 : List (BitVec 32 × Bool × Instr) :=
  [(0xD0DAD000, true, .mma .f16f16 true 5 3 32), (0x52279000, false, .mmas true false 3 6 32),
   (0x52DC5000, false, .mmaq .bf16 true 6 1 32), (0xD335504D, true, .mmal .e5m2 true 2 5 32 77),
   (0x53854000, false, .zclr .f64 5), (0x53A3907D, false, .zld .i32 6 32 0xfffffffd), (0xD3C40289, true, .zmov 16 5 9),
   (0x53E19030, false, .zscale 6 32 48), (0x5421507D, false, .zsto true 5 32 0xfffffffd), (0xD4410000, true, .zrel 4),
   (0x5461C000, false, .zwait 7), (0x54841000, false, .spack 16 32), (0xD4AF5030, true, .strpub .sE5m2 5 32 48),
   (0x54C14100, false, .strsub 5 256), (0x54E18000, false, .strend 6), (0xD5041003, true, .mstat 16 32 3)]

theorem test_decode_class10 : ∀ x ∈ class10, decodeWord none x.1 = .ok { marker := x.2.1, instr := x.2.2 } := by decide

/-- Class 11, mesh (Table 6-22). -/
def class11 : List (BitVec 32 × Bool × Instr) :=
  [(0x5804100B, false, .kenc 11 16 32), (0x58241005, false, .kdec 5 16 32), (0xD844100E, true, .kpar 14 16 32),
   (0x58641067, false, .kchld 7 6 16 32), (0x58841005, false, .kref 5 16 32), (0xD8A41003, true, .kcoars 3 16 32),
   (0x58C41034, false, .knbr .zm 6 16 32), (0x58E41019, false, .knext .xp 3 16 32), (0xD9041004, true, .kown 4 16 32),
   (0x59241006, false, .kcost 6 16 32), (0x5944100D, false, .krebal true 5 16 32), (0xD9641002, true, .kcutq 2 16 32),
   (0x5984100B, false, .kmeshCurve 11 16 32), (0x59A41005, false, .kmeshDef 5 16 32), (0xD9C40006, true, .kmeshRel 6 16)]

theorem test_decode_class11 : ∀ x ∈ class11, decodeWord none x.1 = .ok { marker := x.2.1, instr := x.2.2 } := by decide

/-- Class 12, sweep and launch (Table 6-23). -/
def class12 : List (BitVec 32 × Bool × Instr) :=
  [(0x60041009, false, .swbeg 16 32 9), (0x60200000, false, .swnext), (0xE0401000, true, .swret 32),
   (0x60641009, false, .swake 16 32 9), (0x60840001, false, .swend true 16), (0xE0A40002, true, .swstat 16 2),
   (0x6204107D, false, .pour 16 32 0xfffffffd), (0x62241009, false, .edgeq 16 32 9), (0xE2441004, true, .gangq 16 32 4)]

theorem test_decode_class12 : ∀ x ∈ class12, decodeWord none x.1 = .ok { marker := x.2.1, instr := x.2.2 } := by decide

/-- Class 13, system (Table 6-24). -/
def class13 : List (BitVec 32 × Bool × Instr) :=
  [(0x6804000D, false, .ctlr 16 13), (0x6820100C, false, .ctlw 32 12), (0xE8441030, true, .tlbinv 16 32 48),
   (0x68600000, false, .eret), (0x68841001, false, .preempt true 16 32), (0xE8A41000, true, .ctxsv 16 32),
   (0x68C41000, false, .ctxld 16 32), (0x68E01000, false, .engrst 32), (0xE9040001, true, .evtq true 16),
   (0x69241030, false, .tresume 16 32 48)]

theorem test_decode_class13 : ∀ x ∈ class13, decodeWord none x.1 = .ok { marker := x.2.1, instr := x.2.2 } := by decide

/-- The worked example of Table 6-26: its words from 0x0010_0004 on, behind the LIMM of its first line. -/
def version1 : List (BitVec 32 × Bool × Instr) :=
  [(0x38400400, false, .ld .dflt .b32 0 8 0), (0x38404404, false, .ld .dflt .b32 1 8 4), (0xB8418418, true, .ld .dflt .b32 6 8 24),
   (0x28028082, false, .faddF32 10 1 2), (0xA802C184, true, .faddF32 11 3 4), (0xA9228280, true, .ffmaF32 10 5 0),
   (0xBAC0041C, true, .st .dflt .b32 0 8 28), (0x00C00000, false, .exit)]

theorem test_decode_version1 : ∀ x ∈ version1, decodeWord none x.1 = .ok { marker := x.2.1, instr := x.2.2 } := by decide +kernel

theorem test_decode_version1_limm : decodeWord none 0x02400080 = .ok { marker := false, instr := .limm } ∧
    limmImm 0x02400080 = 0x80 ∧ decodeWord (some 0x80) 0x92620000 = .ok { marker := true, instr := .movi64 8 0x00200000 } := by decide +kernel

/-- The word of CVT.e4m3.f32 v5, v4, under Table 10-5. -/
theorem test_decode_cvt_example : decodeWord none 0x34614207 = .ok { marker := false, instr := .cvt false .e4m3 .f32 .dyn 5 4 } := by decide +kernel

/-- Codes and patterns that no entry admits (Tables 6-11 to 6-24, R113, R203): unassigned functions, fixed bits that are not 0, a prefix with
a marker, reserved classes and reserved codes. -/
theorem test_decode_refuses : ∀ x ∈ ([(0x03000000, .unassigned), (0x00C00001, .reservedField), (0x82400000, .prefixMisuse),
    (0x12800000, .unassigned), (0x1DA00000, .unassigned), (0x25000000, .unassigned), (0x3EC00000, .unassigned), (0x43800000, .unassigned),
    (0x4EC00000, .unassigned), (0x55200000, .unassigned), (0x60C00000, .unassigned), (0x69400000, .unassigned), (0x70000000, .reservedClass),
    (0x78000000, .reservedClass), (0x7FFFFFFF, .reservedClass), (0x34014205, .illegalField), (0x37E14207, .illegalField)] :
    List (BitVec 32 × Reject)), decodeWord none x.1 = .error x.2 := by decide +kernel

/-! ## WellFormed -/

theorem test_wellFormed_holds : ∀ x ∈ class1 ++ class2 ++ class7 ++ class8 ++ class12, WellFormed x.2.2 = true := by decide +kernel

/-- Ill-formed terms: the ranges of R129 step 3, one by one. -/
theorem test_wellFormed_refuses_fields : ∀ i ∈ ([.leaI 16 32 8, .wpart 5, .ldx true 16 32 64, .stx true 16 32 64, .pref 3 32 0, .lensld 32 256,
    .lensinv 256, .lensq 16 32 256, .copy 0 16 32 256, .copys 0 16 32 256, .copym 0 16 32 256, .gath false .f32 16 32 256, .scat .f32 16 32 256,
    .swbeg 16 32 256, .swake 16 32 256, .qfence .thread true 0, .qfence .die false 1, .cwait 0, .strsub 8 1, .strsub 1 0, .strsub 1 257, .strend 8,
    .strpub .e4m3 0 16 1, .mstat 16 32 6, .gangq 16 32 6, .swstat 16 5, .ctlr 16 14, .ctlw 16 14, .cvt true .f16 .f32 .rne 16 32,
    .cvtxIns .f16 2 .rne 16 32, .cvtxExt .bf16 3 16 32, .swr 15 16] : List Instr), Instr.fieldsOk i = false ∧ WellFormed i = false := by decide +kernel

/-- Ill-formed terms: registers that R119 refuses. -/
theorem test_wellFormed_refuses_registers : ∀ i ∈ ([.add true 17 32 48, .add true 16 33 48, .add true 16 32 49, .ld .dflt .b128 18 32 0,
    .ld .dflt .b32 0 127 0, .pset .eq .i32 8 0 0, .mjoin 12, .bwait 24 0, .zrel 8, .smov 0 25, .mma .f64f64 false 0 0 8, .kown 0 4 0] :
    List Instr), Instr.aligned i = false ∧ WellFormed i = false := by decide +kernel

/-- Ill-formed terms: immediates that no word carries (R111, R116). -/
theorem test_wellFormed_refuses_immediates : ∀ i ∈ ([.addI false 16 32 0x08000000, .shlI false 16 32 0x08000000] : List Instr),
    (Instr.immForm i).encodable = false ∧ WellFormed i = false := by decide +kernel

/-! ## One step -/

/-- A thread of a privileged context, alone on core 0, whose packer has chosen it. -/
def ready : State := State.reset.withFetchWord 32 0

/-- Its issue slot. -/
def slot0 : Latch := { core := 0, warp := 0, first := BitVec.ofNat 64 placeVa, at_ := BitVec.ofNat 64 placeVa, group := [0], exec := [0] }

/-- The same thread with some of its registers set. -/
def loaded (xs : List (Nat × Word)) : State :=
  ready.updThread 0 0 fun u => { u with regs := xs.foldl (fun r x => r.set x.1 x.2) u.regs }

/-- The results that the thread has outstanding after one instruction: their values and their flags. -/
def gives (i : Instr) (s : State) : List (Nat × BitVec 7) :=
  match exec i s with
  | .next t => (match t.thread? 0 0 with
    | some u => u.pending.map fun p => (p.val, p.flags)
    | none => [])
  | .fault _ | .refused _ => []

/-- A step of a state. -/
def next (s : State) : State :=
  match step s with
  | .next t => t
  | .fault _ | .refused _ => s

theorem test_add_wraps : gives (.add false 3 1 2) (loaded [(1, 0xFFFFFFFF), (2, 2)]) = [(1, 0)] := by decide +kernel
theorem test_sub_source_is_destination : gives (.sub false 1 1 1) (loaded [(1, 7)]) = [(0, 0)] := by decide +kernel
theorem test_addc_carry : gives (.addc false 3 1 2) (loaded [(1, 0xFFFFFFFF), (2, 1)]) = [(1, 0)] := by decide +kernel
theorem test_mulh_signed : gives (.mulh .i32 3 1 2) (loaded [(1, 0xFFFFFFFF), (2, 2)]) = [(0xFFFFFFFF, 0)] := by decide +kernel
theorem test_mulh_unsigned : gives (.mulh .n32 3 1 2) (loaded [(1, 0xFFFFFFFF), (2, 2)]) = [(1, 0)] := by decide +kernel
/-- R174. -/
theorem test_div_by_zero : gives (.div .i32 3 1 2) (loaded [(1, 5)]) = [(0xFFFFFFFF, 0)] := by decide +kernel
theorem test_rem_by_zero : gives (.rem .i32 3 1 2) (loaded [(1, 5)]) = [(5, 0)] := by decide +kernel
theorem test_div_truncates : gives (.div .i32 3 1 2) (loaded [(1, 0xFFFFFFF9), (2, 2)]) = [(0xFFFFFFFD, 0)] := by decide +kernel
/-- R175: an amount of the width gives 0. -/
theorem test_shl_width : gives (.shl 3 1 2) (loaded [(1, 1), (2, 32)]) = [(0, 0)] := by decide +kernel
theorem test_shra_width : gives (.shra 3 1 2) (loaded [(1, 0x80000000), (2, 0xFFFFFFFF)]) = [(0xFFFFFFFF, 0)] := by decide +kernel
/-- R179: the field is cut at bit 31. -/
theorem test_bfx_cut : gives (.bfx false 3 1 2) (loaded [(1, 0xF0000000), (2, 0x0000081C)]) = [(15, 0)] := by decide +kernel
/-- R180. -/
theorem test_clz_zero : gives (.clz 3 1) (loaded []) = [(32, 0)] := by decide +kernel
/-- A 64-bit immediate pair of MOVI is zero-extended (Table 6-26: v9 = 0). -/
theorem test_movi64 : gives (.movi64 8 0x00200000) (loaded []) = [(0x00200000, 0)] := by decide +kernel
/-- 1 + 2^−24 lies midway and goes to the even 1 (R191). -/
theorem test_fadd_tie : gives (.faddF32 3 1 2) (loaded [(1, 0x3F800000), (2, 0x33800000)]) = [(0x3F800000, fNX)] := by decide +kernel
theorem test_fdiv_by_zero : gives (.fdiv 3 1 2) (loaded [(1, 0x3F800000), (2, 0x80000000)]) = [(0xFF800000, fDZ)] := by decide +kernel
/-- R195: −0 lies below +0. -/
theorem test_fmin_zeros : gives (.fminF32 3 1 2) (loaded [(1, 0), (2, 0x80000000)]) = [(0x80000000, 0)] := by decide +kernel
/-- Table 10-5. -/
theorem test_cvt_e4m3 : gives (.cvt false .e4m3 .f32 .rne 3 1) (loaded [(1, 0x3DCCCCCD)]) = [(0x1D, fNX)] := by decide +kernel
theorem test_vote_ballot : gives (.vote .ballot 3 0) (ready.updThread 0 0 fun u => { u with preds := 1 }) = [(1, 0)] := by decide +kernel

/-! ## Witnesses: each word executes in some state -/

/-- A word that passes the checks in the state of the lone thread executes there. With `witness_checks_pass` this meets the hypothesis
`executes` of every statement about an instruction that has no further one. -/
theorem executes_of_check (i : Instr) (h : ready.check i slot0 = none) : ready.executes slot0 i :=
  ⟨rfl, h, by decide, by simp [State.fp64Busy, show ready.fp64 = [] from rfl],
    by simp [State.awaits, State.acquiring, MemSys.seen, show ready.mem.reqs = [] from rfl]⟩

theorem witness_checks_pass : ∀ x ∈ class0 ++ class1 ++ class2 ++ class3 ++ class4 ++ class5 ++ class6 ++ class7 ++ class8 ++ class9 ++ class10 ++
    class11 ++ class12 ++ class13, x.2.2 = .ill ∨ ready.check x.2.2 slot0 = none := by decide +kernel

/-- The state in which the lone thread stands in a context changed by `f`. -/
def inCtx (f : Context → Context) : State := ready.updCtx 0 f

/-- The word that the issue slot reads, and what holds in the state after its fetch. -/
def fetches (s : State) (p : BitVec 32 → State → Bool) : Bool :=
  match s.issue with
  | some L => (match s.fetchAt L L.at_.toNat with
    | .word w t => p w t
    | .wait _ => false)
  | none => false

/-- StepRunsTheDecodedWord, ClassThirteenIsPrivileged, ReservedClassesAreIllegal: a fetched word is read. -/
theorem reads_of_fetches (s : State) (L : Latch) (p : BitVec 32 → State → Bool) (hi : s.issue = some L) (hh : L.held = none)
    (h : fetches s p = true) : ∃ w t, s.readsWord L w t ∧ p w t = true := by
  unfold fetches at h
  rw [hi] at h
  dsimp only at h
  split at h
  · next w t hf => exact ⟨w, t, ⟨hi, .inr ⟨hh, hf⟩⟩, h⟩
  · exact absurd h (by simp)

theorem witness_StepRunsTheDecodedWord_decodes : fetches ready (fun w _ => decodeWord none w == .ok { marker := false, instr := .nop }) = true := by
  decide +kernel

theorem witness_StepRunsTheDecodedWord_traps : fetches (State.reset.withFetchWord 32 0x03000000)
    (fun w _ => decodeWord none w == .error .unassigned) = true := by decide +kernel

theorem witness_StepRunsTheDecodedWord_fetch : ∃ u x, ready.issue = some slot0 ∧ ready.groupOf slot0 = [u] ∧ u.fetched = [] ∧
    ready.xlate 0 (ready.latchCtx slot0) placeVa .fetch (ready.privileged u) = some x ∧
    ready.cached 0 (ready.latchCtx slot0) placeVa = some x ∧ ready.mem.iword? 0 (x.leaf.key placeVa) = none ∧
    ready.mem.retry (some 0) (x.leaf.key placeVa) 4 = false ∧ ready.mem.poisoned (x.leaf.key placeVa) 4 = false :=
  ⟨placeThread, { ctx := 0, va := placeVa, leaf := placeLeaf }, by decide +kernel⟩

theorem witness_DecodingUndoesEncoding : ∀ x ∈ class1 ++ class7 ++ class13, WellFormed x.2.2 = true ∧
    encode x.2.1 x.2.2 = some (none, x.1) := by decide +kernel

/-- An immediate that needs a LIMM. -/
theorem witness_DecodingUndoesEncoding_limm : WellFormed (.addI false 3 1 0xFFFFFC18) = true ∧
    encode true (.addI false 3 1 0xFFFFFC18) = some (some 0x1FFFF8, 0x9000C098) := by decide +kernel

theorem witness_EncodingUndoesDecoding : ∃ d, decodeWord none 0x28028082 = .ok d ∧ d.instr ≠ .limm :=
  ⟨{ marker := false, instr := .faddF32 10 1 2 }, by decide +kernel⟩

theorem witness_EveryStepKeepsMemoryCanonical : Memory.wf (State.reset.withFetchWord 32 0x28028082).mem.cells = true ∧
    (State.reset.withFetchWord 32 0x28028082).mem.cells ≠ [] ∧
    (∃ t, step (State.reset.withFetchWord 32 0x28028082) = .next t) := by
  refine ⟨by decide +kernel, by decide +kernel, ?_⟩
  rw [step]; exact ⟨_, rfl⟩

theorem witness_MemoryHoldsWhatIsWritten : Memory.wf (Memory.writeN [] 0x100 4 0x01020304) = true ∧
    Memory.wf (Memory.writeN (Memory.writeN [] 0x100 4 0x01020304) 0x101 1 0) = true := by decide +kernel

theorem witness_ClassThirteenIsPrivileged : fetches ((State.reset.withFetchWord 32 0x6BFFFFFF).updCtx 0 fun c => { c with priv := false })
    (fun w t => w.extractLsb' 27 4 == 13 && (t.at 0 [0]).any fun u => !t.privileged u) = true := by decide +kernel

theorem witness_ReservedClassesAreIllegal : ∀ w ∈ [0x70000000, 0x77FFFFFF, 0x78000000, 0x7FFFFFFF],
    fetches (State.reset.withFetchWord 32 w) (fun w _ => w.extractLsb' 27 4 == 14 || w.extractLsb' 27 4 == 15) = true := by decide +kernel

/-- A word that fails its check, and one that no lane executes. -/
theorem witness_ChecksAndMaskedWords : (encodeFields (.add true 17 0 0)).isSome ∧ ready.check (.add true 17 0 0) slot0 = some 1 ∧
    ready.check (.add true 16 0 0) { slot0 with exec := [] } = none := by decide +kernel

theorem witness_ChecksComeInOrder : Instr.isSystem .eret = true ∧
    (∃ u ∈ (inCtx fun c => { c with priv := false }).at 0 [0], (inCtx fun c => { c with priv := false }).privileged u = false) ∧
    Instr.fieldsOk (.wpart 5) = false ∧ Instr.isClass0 .yield = true ∧
    (∃ u ∈ (ready.updThread 0 0 fun u => { u with guard := some { g := true, left := 1 } }).at 0 [0], u.guard.isSome) ∧
    (∀ o ∈ Instr.operands (.add true 254 0 0), o.aligned = false ∨ ∀ u ∈ ready.at 0 [0], o.inRows u.regs.length u.wb = true) := by decide +kernel

/-- The lone thread under a page table: 1 GiB pages at virtual addresses 0, writable, and 2^30, read-only, on the same physical addresses
(R395, Tables 20-4 and 20-5). -/
def paged (tvec trbase : Pair) : State :=
  (ready.updMem fun m => { m with cells := Memory.writeN (Memory.writeN (Memory.writeN m.cells 0x80000000 8 0x80001001)
    0x80001000 8 0x400000000000000B) 0x80001008 8 0x400000004000000F }).updCtx 0 fun c =>
      { c with ptroot := 0x80000000, tvec := tvec, trbase := trbase, fqbase := 0x8000, rrbase := 0x9000 }

/-- A pin of a grain by core 1. -/
def otherPin (grain : Nat) : Pin := { id := 1, core := 1, slot := 0, grain := grain, size := 128, scope := .core, group := [0] }

/-- How the record of a trap would be written: 1 written, 2 a fault, 3 held back. -/
def outcome (s : State) : Nat :=
  match s.ctx? 0 with
  | none => 0
  | some c =>
    match (((s.updWarp 0 0 fun w => { w with cur := none }).unlatch).passOthers slot0).writeTraps slot0 c 1 5 0 (s.at 0 [0]) with
    | .done _ => 1
    | .fault _ _ _ => 2
    | .retry _ => 3

/-- TrapEntry: a record that can be written, one on a read-only page, and one in a grain that another core has pinned. -/
theorem witness_TrapEntry : ((paged 0x4000 0x8000).at 0 [0]).head? = some placeThread ∧ outcome (paged 0x4000 0x8000) = 1 ∧
    outcome (paged 0x4000 0x40008000) = 2 ∧
    outcome ((paged 0x4000 0x8000).updMem fun m => { m with pins := [otherPin 0x8000] }) = 3 := by decide +kernel

theorem witness_TrapEntry_twice : (∃ u ∈ (ready.updThread 0 0 fun u => { u with handler := true }).at 0 [0], u.handler = true) ∧
    (∃ c, ready.ctx? 0 = some c ∧ (c.tvec = 0 ∨ c.trbase = 0)) := ⟨by decide +kernel, placeCtx, by decide +kernel⟩

theorem witness_TrapRecordLayout : (31 : Nat) < 2 ^ 32 ∧ (5 : Nat) < 2 ^ 8 ∧ (0x3FFF : Nat) < 2 ^ 32 ∧ slot0.n - slot0.j ≤ 64 ∧
    (∀ g, ({ placeThread with guard := some { g := true, left := 8 } } : Thread).guard = some g → g.left ≤ 8) := by
  refine ⟨by decide, by decide, by decide, by decide, ?_⟩
  rintro g ⟨⟩; decide

/-- DivisionResults: lanes with a divisor, and a lane without one. -/
theorem witness_DivisionResults : (∀ u ∈ (loaded [(2, 1)]).lanes slot0, u.v 2 ≠ 0) ∧ (∃ u ∈ ready.lanes slot0, u.v 2 = 0) := by decide +kernel

/-- ControlTransfers: an aligned target at the top of memory, a misaligned one, and the conditions of BCMP. -/
theorem witness_ControlTransfers : (∀ u ∈ (loaded [(2, 0xFFFFFFFC), (3, 0xFFFFFFFF)]).lanes slot0, (u.vv 2).extractLsb' 0 2 = 0) ∧
    (¬ ∀ u ∈ (loaded [(2, 2)]).lanes slot0, (u.vv 2).extractLsb' 0 2 = 0) ∧ (∀ u ∈ ready.lanes slot0, u.slot ∈ slot0.group) ∧
    slot0.n ≤ slot0.j + 1 := by decide +kernel

/-- ControlEffects: window bases in range, at its end and beyond it. -/
theorem witness_ControlEffects : (∀ u ∈ ready.lanes slot0, (240 : Int) % 16 = 0 ∧ (0 : Int) ≤ 240 ∧ (240 : Int) < u.regs.length) ∧
    (¬ ∀ u ∈ ready.lanes slot0, (256 : Int) % 16 = 0 ∧ (0 : Int) ≤ 256 ∧ (256 : Int) < u.regs.length) := by decide +kernel

theorem witness_PrefixesAreKept : ready.check (.rep 63 true true true) slot0 = none ∧ ready.check .limm slot0 = none ∧
    ready.check (.rep 1 true false false) { slot0 with rep := some (2, false, false, false) } = some 1 := by decide +kernel

theorem witness_ExitEndsThreads : ∃ u w, ready.thread? 0 0 = some u ∧ ready.mem.watches = [] ∧ ready.warp? 0 u.warp = some w ∧ w.masks.length = 12 :=
  ⟨placeThread, placeWarp, by decide +kernel⟩

/-- ReductionTrees, ReorderingSortsEachTile: a tile size that is a power of two, and lanes in ascending order. -/
theorem witness_ReductionTrees : ready.tileSize slot0 = 2 ^ 5 ∧
    (ready.updWarp 0 0 fun w => { w with wpart := 0 }).tileSize slot0 = 2 ^ 1 := by decide +kernel

theorem witness_ReorderingSortsEachTile :
    let ts := [placeThread, { placeThread with slot := 1, lane := 1 }, { placeThread with slot := 2, lane := 31 }]
    (0 : Nat) < 4 ∧ 32 % 4 = 0 ∧ ts.Pairwise (fun x y => x.lane < y.lane) ∧ (ts.map (·.slot)).Nodup ∧ (∀ x ∈ ts, x.lane < 32) := by
  decide +kernel

/-- SpecialRegistersRead: a task and a warp of the thread; SpecialRegistersWritten: values at the ends of their range. -/
theorem witness_SpecialRegistersRead : ∃ k w, ready.task? placeThread.task = some k ∧ ready.warp? placeThread.core placeThread.warp = some w :=
  ⟨placeTask, placeWarp, by decide +kernel⟩

theorem witness_SpecialRegistersWritten :
    let v := fun (s : State) => match (s.lanes slot0).head? with | some u => (u.v 1).toNat | none => 0
    v (loaded [(1, 4)]) = 4 ∧ v (loaded [(1, 5)]) = 5 ∧ ready.check (.swr 14 1) slot0 = none ∧ ready.check (.swr 16 1) slot0 = none ∧
    (∀ i < 4, ready.check (.swr (BitVec.ofNat 7 (21 + i)) 1) slot0 = none) ∧ ready.check (.wpart 4) slot0 = none := by decide +kernel

theorem witness_LaneMaskEffects : ready.warp? 0 0 = some placeWarp := by decide +kernel

/-- TeamInstructions: a lane in fewer than four teams and one in four, a team that exists and one that does not. -/
theorem witness_TeamInstructions : placeThread.inFour = false ∧ ({ placeThread with teams := [0, 1, 2, 3] } : Thread).inFour = true ∧
    ready.team? 0 0 = some placeTeam ∧ ready.team? 0 63 = none ∧ 0 ∈ placeTeam.members ∧
    (∃ m ∈ placeTeam.members, ∃ x, ready.thread? 0 m = some x ∧ x.task = placeThread.task) ∧ ready.member placeThread 0 = .at_ 0 0 ∧
    ready.member placeThread 1 = .absent := by
  refine ⟨by decide, by decide, by decide +kernel, by decide +kernel, by decide, ⟨0, by decide, placeThread, by decide +kernel, rfl⟩, rfl, rfl⟩

/-- FloatComparison: NaNs, infinities, finite values and a common exponent. -/
theorem witness_FloatComparison : (Fp.decode .f32 0x7FC00000).isNan = true ∧ (Fp.decode .f32 0x3F800000).isNan = false ∧
    Fp.decode .f32 0xFF800000 = .inf true ∧ (∃ m p e, Fp.decode .f32 0x3F800000 = .fin m p e) := by
  exact ⟨by decide +kernel, by decide +kernel, by decide +kernel, false, 8388608, -23, by decide +kernel⟩

/-- Fp64UnitsAreTakenForTwoCycles: the unit of the pipe taken in the cycle before. -/
theorem witness_Fp64UnitsAreTakenForTwoCycles :
    let s : State := { (ready.updDev fun d => { d with cycle := 8 }) with fp64 := [(0, 7)] }
    s.issue = some slot0 ∧ s.check (.faddF64 16 32 48) slot0 = none ∧ s.dev.cycle = 7 + 1 ∧ (2 * slot0.core + slot0.warp % 2, 7) ∈ s.fp64 := by
  decide +kernel

/-! ## Witnesses: memory, queues and engines -/

/-- A lens record of 16 FP32 elements at 0x10200 (Tables 2-8, 2-9), with further bits of its control word. -/
def lensRecord (more : Nat) : List Word := [0x10200, 0, 0, 0, 0, 0, 16, 0, 0, 0, 0, 0, 0, 0, BitVec.ofNat 32 (10 + more), 0]

/-- The lone thread with lens entry 3 in a state. -/
def withLens (st : LensState) (more : Nat) (s : State) : State :=
  s.putLens 0 { num := 3, state := st, snap := lensRecord more }

/-- The state in which the effect of a word begins. -/
abbrev begun (s : State) : State := s.advance slot0

/-- NeedsLens: the three states of an entry. -/
theorem witness_NeedsLens : ((begun ready).lens 0 3).state = .empty ∧ ((begun (withLens .loading 0 ready)).lens 0 3).state = .loading ∧
    ((begun (withLens .loaded 0 ready)).lens 0 3).state = .loaded := by decide +kernel

/-- A miss-table entry of a page, in a phase. -/
def missOf (page : Nat) (p : MissPhase) : Miss :=
  { die := 0, num := 0, ctx := 0, page := page, kind := .read, unpriv := false, write := false, waiters := [], phase := p }

/-- Accesses: every access translated, one that misses, and one that meets a walk that has faulted. -/
theorem witness_Accesses :
    let at_ := fun (va : Word) (s : State) => (begun s).untranslated 0 .read (accessesOf ((begun (loaded [(8, va)])).lanes slot0) 8 0 4)
    let missed : State := (loaded [(8, 0x900000)]).updMem fun m => { m with miss := [missOf 0x90 .recorded] }
    at_ 0x10FFC (loaded [(8, 0x10FFC)]) = [] ∧
    (∃ x ∈ at_ 0x900000 (loaded [(8, 0x900000)]), (begun (loaded [(8, 0x900000)])).meetsFault 0 .read x = false) ∧
    at_ 0x900000 missed ≠ [] ∧ (∀ x ∈ at_ 0x900000 missed, (begun missed).meetsFault 0 .read x = true) := by decide +kernel

theorem witness_LoadsAndStores :
    let s := loaded [(8, 0x10FFC)]
    let bad := loaded [(8, 0), (9, 0xFFFF0000)]
    (((begun s).lanes slot0).filter fun u => (begun s).windowBad u (u.addr 8 0) 4) = [] ∧ (∀ u ∈ (begun s).lanes slot0, u.relScope = none) ∧
    (begun s).untranslated 0 .write (accessesOf ((begun s).lanes slot0) 8 0 4) = [] ∧
    (((begun bad).lanes slot0).filter fun u => (begun bad).windowBad u (u.addr 8 0) 4) ≠ [] := by decide +kernel

/-- LoadsAndStoresComplete: an access inside a page at its end, of every kind. -/
theorem witness_LoadsAndStoresComplete :
    let s := loaded [(8, 0x10FFC)]
    (∀ u ∈ (begun s).lanes slot0, (begun s).windowBad u (u.addr 8 0) 4 = false) ∧ s.check (.ld .dflt .b32 0 8 0) slot0 = none ∧
    s.check (.st .dflt .b32 0 8 0) slot0 = none ∧ (begun s).untranslated 0 .read (accessesOf ((begun s).lanes slot0) 8 0 4) = [] ∧
    (begun s).untranslated 0 .write (accessesOf ((begun s).lanes slot0) 8 0 4) = [] := by decide +kernel

/-- PartsOfAccesses: a word in the L1, one that is not, one that the core owns, and an access of type .nc. -/
theorem witness_PartsOfAccesses :
    let m := fun (h : Hold) => ready.updMem fun m => { m with
      l1 := [{ core := 0, key := 0x10100, val := 7, hold := h }], owners := [{ line := 0x10100, pkg := 0, core := 0, grain := 128, bits := 1 }] }
    ready.thread? 0 0 = some placeThread ∧ placeLeaf.key 0x10100 = 0x10100 ∧ placeLeaf.ldTy .dflt ≠ .nc ∧ placeLeaf.ldTy .nc = .nc ∧
    ready.overlaps 0 0 0x10100 4 = false ∧ (m .own).mem.l1Value 0 0x10100 4 true = some 7 ∧ ready.mem.l1Value 0 0x10100 4 true = none ∧
    (∀ w ∈ wordKeys 0x10100 4, (m .own).mem.watched w = false ∧ (m .own).mem.owner? w = some (0, 0) ∧ ((m .own).mem.l1? 0 w).isSome) ∧
    ready.mem.owner? 0x10100 ≠ some (0, 0) := by decide +kernel

/-- The lone thread in a task with a scratchpad of two lines, the first of them full. -/
def padded : State := ready.updScratch 0 fun x => { x with lines := 2, full := [0] }

theorem witness_ScratchpadLanes :
    let x := padded.scratch 0
    ¬ (252 % 4 ≠ 0 ∨ 128 * x.lines < 252 + 4) ∧ (256 % 4 ≠ 0 ∨ 128 * x.lines < 256 + 4) ∧ x.emptyLine 252 4 = some 1 ∧
    (∀ l ≤ 1, 0 / 128 ≤ l → l ≤ (0 + 4 - 1) / 128 → l ∈ x.full) ∧ Memory.wf x.bytes = true := by decide +kernel

/-- ScratchpadAccesses: the thread's own gang of one, an absent member, and the route to its own core. -/
theorem witness_ScratchpadAccesses : ∃ t, (begun ready).lowest slot0 = some t ∧ (begun ready).member t 0 = .at_ 0 0 ∧
    (begun ready).member t 1 = .absent ∧ (begun ready).badRoute slot0 9 0 = none := ⟨_, rfl, rfl, rfl, by decide +kernel⟩

/-- Compaction: ranks that all have their translation. -/
theorem witness_Compaction_ranks : ∀ x ∈ ((ready.at 0 [0]).zipIdx : List (Thread × Nat)),
    ready.windowBad x.1 ((0x10100 + x.2 * 4) % 2 ^ 64) 4 = false ∧
    ∀ e ∈ LaneAcc.ends { slot := x.1.slot, va := (0x10100 + x.2 * 4) % 2 ^ 64, width := 4 },
      (windowOff e).isSome = true ∨ (ready.xlate x.1.core (ready.ctxOf x.1) e .write (ready.privileged x.1)).isSome = true := by decide +kernel

/-- How the ranks of a CSTORE of one participant end, and whether a record has its place. -/
def rankEnd (s : State) (base : Nat) : Nat :=
  match (s.ranks .write base 4 7 (fun s _ _ => s) 0 (s.at 0 [0])).2.1 with
  | .all => 1
  | .violation => 2
  | .fault _ _ _ => 3
  | .wait => 4

theorem witness_Compaction : rankEnd ready 0x10100 = 1 ∧ rankEnd ready 0xFFFF000000000000 = 2 ∧ rankEnd ready 0x900000 = 3 ∧
    rankEnd (ready.updMem fun m => { m with pins := [otherPin 0x10100] }) 0x10100 = 4 ∧
    (∀ u ∈ (begun ready).lanes slot0, u.midway = none ∧ u.relScope = none) ∧ ready.mem.pins = [] ∧
    (ready.faultEntry (missOf 0x90 .walking) (.lane 0 0 0)).isSome = true ∧
    ((begun ready).lanes slot0).filter (fun u => u.pred 1) = [] ∧ (∀ u ∈ ready.lanes slot0, u.live = true) ∧
    (((ready.updThread 0 0 fun u => { u with preds := 2 }).lanes slot0).filter fun u => u.pred 1) ≠ [] := by decide +kernel

/-- CacheInstructions: a thread with nothing to drain, and one whose own request waits behind a pin. -/
def requestOf (kind : ReqKind) : Req := { id := 5, core := 0, slot := 0, ctx := 0, kind := kind, key := 0x10100, va := 0x10100, width := 4, data := 9 }

theorem witness_CacheInstructions : (ready.drainAll 0 0).isSome = true ∧
    ((ready.updMem fun m => { m with reqs := [requestOf .storeWt], pins := [otherPin 0x10100] }).drainAll 0 0).isNone = true := by decide +kernel

theorem witness_RangeOperations : Memory.wf ready.mem.cells = true ∧ 3 ≤ Scope.ord .cluster ∧
    (∀ x ∈ [({ core := 0, key := 0x10100, val := 7, hold := .own, written := true } : L1Word)], x.core = 0 ∧ x.written = true ∧ 0x10104 ≥ x.key + 4) := by
  decide +kernel

/-- LensInstructions: the record of a valid lens and of a malformed one; an address outside the window; a running job of a team of the thread on
the entry. -/
def jobOn (n : Nat) : Job :=
  { core := 0, team := 0, task := 0, ctx := 0, lens := n, snap := lensRecord 0x4000, sched := [], stamp := 0, elems := [] }

theorem witness_LensInstructions : (Lens.ofWords (lensRecord 0)).recordOk (fun _ => false) = true ∧
    (Lens.ofWords (lensRecord 0xC0)).recordOk (fun _ => false) = false ∧ windowOff 0x10100 = none ∧
    (begun ready).teamJob 0 ((begun ready).lanes slot0) 0 3 = false ∧
    (begun (ready.updEng fun g => { g with jobs := [jobOn 3] })).teamJob 0 ((begun ready).lanes slot0) 0 3 = true ∧
    (match (begun ready).orderedLoad 0 0 placeThread 0x10100 ((upTo 8).map fun k => (8 * k, 8)) with | .val _ _ => true | _ => false) = true ∧
    (match (ready.updMem fun m => { m with pins := [otherPin 0x10100] }).orderedLoad 0 0 placeThread 0x10100
      ((upTo 8).map fun k => (8 * k, 8)) with | .wait => true | _ => false) = true := by decide +kernel

/-- CopyInstructions: a control word in range and a reserved one, a raw and a converting copy, a lens that a copy accepts, and the capacity of a
channel. -/
theorem witness_CopyInstructions :
    let args := (((begun padded).lanes slot0).map fun u => u.copyArg 4 8 false)
    (∀ x ∈ args, badCtl x.ctl = false) ∧ (∃ x ∈ [({ placeThread with regs := List.replicate 256 0xFFFFFFFF }).copyArg 4 8 false], badCtl x.ctl = true) ∧
    (Lens.ofWords (lensRecord 0)).cmp = false ∧ (Lens.ofWords (lensRecord 0)).isLut = false ∧ (Lens.ofWords (lensRecord 0)).isQ4 = false ∧
    (Lens.ofWords (lensRecord 0x10000)).cmp = true ∧ (begun padded).queued 0 (.q 2) < 16 := by decide +kernel

/-- An entry of a queue. -/
def entryOf (id : Nat) (q : QName) (item : QItem) : QEntry := { id := id, core := 0, warp := 0, queue := q, item := item }

theorem witness_CopyInstructions_full :
    16 ≤ (ready.updEng fun g => { g with queue := (upTo 16).map fun k => entryOf k (.q 2) (.fence 0) }).queued 0 (.q 2) := by decide +kernel

/-- COPYM: a mask of the thread's own gang, and the task that receives. -/
theorem witness_CopyInstructions_many : ready.gangSize placeThread = 1 ∧ ready.unstarted placeThread 1 = none ∧
    (match ready.receivers placeThread 1 with | some rs => rs.map (·.1) == [0] | none => false) = true := by decide +kernel

/-- QueueInstructions: a warp with nothing in its queues, and one that waits for an entry. -/
theorem witness_QueueInstructions : (ready.eng.queue.filter fun e => e.core == 0 && e.warp == 0 && (queueSet slot0 0x41).contains e.queue) = [] ∧
    ((ready.updEng fun g => { g with queue := [entryOf 1 (.q 0) (.fence 0)] }).eng.queue.filter fun e => e.core == 0 && e.warp == 0 &&
      (queueSet slot0 0x41).contains e.queue) ≠ [] ∧ ready.task? 0 = some placeTask ∧ ready.queueLen 0 (.qm 0) < 16 ∧
    16 ≤ (ready.updEng fun g => { g with queue := (upTo 16).map fun k => entryOf k (.qm 0) (.fence 0) }).queueLen 0 (.qm 0) := by decide +kernel

/-- PrismInstructions: a read-only and a writable lens, and room in the Prism. -/
theorem witness_PrismInstructions : (Lens.ofWords (lensRecord 0x200)).ro = true ∧ (Lens.ofWords (lensRecord 0)).ro = false ∧
    (begun ready).prismLoad 0 < 256 ∧ (begun ready).lanes slot0 ≠ [] ∧ (Lens.ofWords (lensRecord 0)).place [15, 0, 0, 0] = some 15 ∧
    (Lens.ofWords (lensRecord 0)).place [16, 0, 0, 0] = none := by decide +kernel

theorem witness_AcquiresAndReleases : ready.thread? 0 0 = some placeThread ∧
    (∃ x ∈ [({ core := 0, key := 0x10100, val := 7, hold := .own } : L1Word)], x.hold = .own) := by decide +kernel

/-- AtomicInstructions: an aligned address, a misaligned one and one in the private window; a page that is translated. -/
theorem witness_AtomicInstructions :
    let off := fun (n : Nat) (u : Thread) => decide ((u.vv 8).toNat % n ≠ 0) || decide ((u.vv 8).toNat / 2 ^ 48 = 0xFFFF)
    ((loaded [(8, 0x10100)]).lanes slot0).find? (off 8) = none ∧ (((loaded [(8, 0x10104)]).lanes slot0).find? (off 8)).isSome = true ∧
    (((loaded [(8, 0), (9, 0xFFFF0000)]).lanes slot0).find? (off 8)).isSome = true ∧ ready.leafOf placeThread 0x10100 = some placeLeaf ∧
    placeThread.relScope = none := by decide +kernel

theorem witness_AtomicOperations : (2 ^ 32 - 1 : Nat) < 2 ^ (8 * 4) ∧ (requestOf (.atom .add)).key % (requestOf (.atom .add)).width = 0 ∧
    Memory.wf ready.mem.cells = true ∧ (∀ w ∈ wordKeys 0x10100 4, ready.mem.owner? w = none) ∧ ready.mem.watches = [] := by decide +kernel

theorem witness_BtestCountsPhases : ∀ u ∈ ready.lanes slot0, u.teams.getD 0 255 ≠ 255 ∧ (ready.team? 0 (u.teams.getD 0 255)).isSome = true := by
  decide +kernel

/-- RendezvousInstructions: an empty team slot and one in use, counts at the ends of their range, and expected counts set and not set. -/
theorem witness_RendezvousInstructions :
    (∃ u ∈ (begun ready).lanes slot0, u.teams.getD 1 255 = 255) ∧ (∀ u ∈ (begun ready).lanes slot0, u.teams.getD 0 255 ≠ 255) ∧
    (begun ready).team? 0 0 = some placeTeam ∧ (begun ready).team? 0 255 = none ∧ (placeTeam.point 5).e = 0 ∧
    (∀ u ∈ (loaded [(1, 65535)]).lanes slot0, (u.v 1).toNat ≤ 65535) ∧ (∃ u ∈ (loaded [(1, 65536)]).lanes slot0, 65535 < (u.v 1).toNat) := by
  decide +kernel

theorem witness_PointEvents : ({ e := 2, arr := [(2, .core)] } : Point).due = true ∧ ({ e := 2, arr := [(1, .core)] } : Point).due = false ∧
    5 < placeTeam.points.length ∧ ready.team? 0 0 = some placeTeam ∧ ready.thread? 0 0 = some placeThread := by decide +kernel

/-- MatrixRequests, StreamInstructions: a warp with a subscription and without one; free and full queues. -/
def subscribed : State := ready.updWarp 0 0 fun w => { w with subs := [{ stream := 5, cursor := 0, window := 1 }] }

theorem witness_MatrixRequests : (∃ w, (begun subscribed).warp? 0 0 = some w ∧ w.sub? 5 ≠ none ∧ w.sub? 4 = none) ∧
    ((begun subscribed).qm 0 0).length < 16 ∧ ((begun ready).zname 0 0 3).bound = false ∧
    ((ready.updName 0 0 3 fun n => { n with bound := true }).zname 0 0 3).bound = true ∧ (begun ready).qmFull slot0 = false ∧
    (begun ready).tableFull slot0 = false ∧
    16 ≤ ((ready.updEng fun g => { g with queue := (upTo 16).map fun k => entryOf k (.qm 0) (.tile (.zrel 0)) }).qm 0 0).length :=
  ⟨⟨_, rfl, by decide +kernel⟩, by decide +kernel⟩

/-- TileInstructions: a name that holds tiles, one that is not bound, one that has lost them; parts in and out of range. -/
theorem witness_TileInstructions :
    let bound := ready.updName 0 0 5 fun n => { n with bound := true, held := some .f32, tiles := [0] }
    let lost := ready.updName 0 0 5 fun n => { n with bound := true, lost := some .reset }
    (bound.zname 0 0 5).bound = true ∧ bound.lostNow 0 0 5 = none ∧ (ready.zname 0 0 5).bound = false ∧ lost.lostNow 0 0 5 = some .reset ∧
    ((ready.qm 0 0).filter fun x => x.2.name == some 5) = [] ∧ slot0.left = 0 ∧ ready.queueLen 0 (.qm 0) < 16 ∧
    (((begun ready).lanes slot0).filter fun u => u.zwait.isNone) ≠ [] ∧
    (let back := ready.updThread 0 0 fun u => { u with zwait := some none }
     (((begun back).lanes slot0).filter fun u => u.zwait.isNone) = [] ∧ (((begun back).lanes slot0).findSome? fun u => u.zwait.join) = none) ∧
    (let lostAt := ready.updThread 0 0 fun u => { u with zwait := some (some .reset) }
     (((begun lostAt).lanes slot0).findSome? fun u => u.zwait.join) = some .reset) ∧
    (((loaded [(8, 0x10100)]).lanes slot0).map fun u => (u.addr 8 0) / 2 ^ 48) = [0] := by decide +kernel

theorem witness_StreamInstructions :
    ((((begun ready).engine 0).stream 5).blocks.filter fun k => k.quarters.any fun q => q.1 == 0).length < 4 ∧
    (((begun ready).engine 0).stream 5).fmt = none ∧ ((begun subscribed).qm 0 0).length < 16 := by decide +kernel

theorem witness_MatrixStatus : ready.warp? 0 0 = some placeWarp ∧ (ready.zname 0 0 3).bound = false ∧
    ((ready.updName 0 0 3 fun n => { n with bound := true }).zname 0 0 3).bound = true := by decide +kernel

/-! ## Witnesses: meshes and sweeps -/

/-- The Z-order curve in two dimensions, 16 levels deep. -/
def zOrder : Curve :=
  { ctx := 0, num := 3, d := 2, minlev := 0, maxlev := 16, faces := 0, bal := false, table := [(0, 0), (0, 1), (0, 2), (0, 3)] }

/-- A mesh without leaves on that curve, owned by core 0. -/
def emptyMesh : Mesh :=
  { ctx := 0, num := 2, cutsVa := 0, segsVa := 0, nslots := 4, desc := 3, segs := [], table := { cuts := [{ key := 0, own := 0 }] }
    reps := List.replicate 4 { cuts := [{ key := 0, own := 0 }] } }

/-- The lone thread with the curve and the mesh. -/
def meshed : State := ready.updEng fun g => { g with curves := [zOrder], meshes := [emptyMesh] }

theorem witness_KeyArithmetic : ready.curve? (ready.latchCtx slot0) 3 = none ∧ meshed.curve? (meshed.latchCtx slot0) 3 = some zOrder ∧
    zOrder.keyOk 0 = true ∧ zOrder.keyOk 1 = false ∧ zOrder.keyOk (16 * 2 ^ 58) = true ∧ zOrder.keyOk (17 * 2 ^ 58) = false := by decide +kernel

theorem witness_KeysDecodeToTheirCoordinates : (∀ q, q < 4 → (zOrder.entry 0 q).1 < 1 ∧ (zOrder.entry 0 q).2 < 4 ∧
    ∀ p, p < 4 → (zOrder.entry 0 p).2 = (zOrder.entry 0 q).2 → p = q) ∧ 29 * zOrder.d ≤ 58 := by decide +kernel

/-- RefineAndCoarsen, MeshLookups: no mesh, a mesh and its curve, keys of it and other keys, and leaves that are read. -/
theorem witness_RefineAndCoarsen : ready.mesh? (ready.originOf placeThread).ctx 2 = none ∧
    meshed.mesh? (meshed.originOf placeThread).ctx 2 = some emptyMesh ∧ meshed.curve? (meshed.originOf placeThread).ctx emptyMesh.desc = some zOrder := by
  decide +kernel

theorem witness_RefineAndCoarsen_leaves (f : List LeafRec → State → MeshRes) :
    meshed.leaves (meshed.originOf placeThread) emptyMesh zOrder (fun s => .val 7 s) f = f [] meshed := rfl

/-- The checks behind the leaves: a leaf at rest and one that migrates, a level at the end and one inside. -/
theorem witness_RefineAndCoarsen_checks :
    let l : List LeafRec := [{ seg := 0, idx := 0, key := 0, slot := 1, mig := false, res := 0, user := 0, cost := 0 }]
    (leafWithKey l 0).toList.length = 1 ∧ (∀ r ∈ (leafWithKey l 0).toList, r.mig = false) ∧ meshed.meshBusy 0 2 = false ∧
    (meshed.updEng fun g => { g with jobs := [{ jobOn 3 with snap := lensRecord 0x40080 }] }).meshBusy 0 2 = true ∧ (0 : Nat) / 2 ^ 58 ≠ zOrder.maxlev ∧
    16 * 2 ^ 58 / 2 ^ 58 = zOrder.maxlev ∧ (∀ x ∈ zOrder.children 0, (emptyMesh.rep 0).owner x = (emptyMesh.rep 0).owner 0) := by decide +kernel

theorem witness_MeshLookups : (emptyMesh.reps.getD 0 emptyMesh.table).owner 0 < 512 ∧ (48 : Nat) < 2 ^ 32 := by decide +kernel

/-- MeshInstructions: addresses of records, aligned and not; numbers in use and free. -/
theorem witness_MeshInstructions : (∃ u, (begun ready).lowest slot0 = some u ∧ (u.vv 8).toNat % 16 = 0) ∧
    (∃ x ∈ meshed.eng.meshes, x.ctx = 0 ∧ x.desc = 3) ∧ (∀ x ∈ ready.eng.meshes, ¬ (x.ctx = 0 ∧ x.desc = 3)) ∧
    (begun meshed).mesh? 0 2 = some emptyMesh ∧ (begun meshed).mesh? 0 1 = none ∧ (begun meshed).lensNames 0 2 = false ∧
    emptyMesh.inFlight = false ∧ (begun meshed).nodeBusy 0 2 = false := ⟨⟨_, rfl, by decide +kernel⟩, by decide +kernel⟩

/-- Records that the Curve Unit reads through a page table. -/
theorem witness_MeshInstructions_reads : ∃ h s', ∀ f : Nat → State → MeshRes,
    (paged 0 0).recordRead ((paged 0 0).originOf placeThread) placeThread 0x8000 2 f = f h s' := by
  match e : (paged 0 0).recordRead ((paged 0 0).originOf placeThread) placeThread 0x8000 2 .val with
  | .val v t => exact ⟨v, t, fun f => State.recordRead_val e f⟩
  | .fault _ _ _ _ | .wait | .mig _ | .stop =>
    have h : (match (paged 0 0).recordRead ((paged 0 0).originOf placeThread) placeThread 0x8000 2 .val with
      | .val _ _ => true | _ => false) = true := by decide +kernel
    rw [e] at h; cases h

/-- The headers and tables of curves that are well formed and that are not. -/
theorem witness_MeshInstructions_checks : curveHeaderOk 0x06000000 0 = true ∧ curveHeaderOk 0 1 = false ∧
    curveTableOk 0x06000000 [0, 1, 2, 3] = true ∧ curveTableOk 0x06000000 [0, 1, 2, 2] = false := by decide +kernel

/-- A schedule of one sweep at scope .core whose entry of state 0 is 0x10000 (Table 16-2). -/
def schedule : List Word := [0x10000] ++ List.replicate 33 0 ++ [0x400001, 0] ++ List.replicate 4 0

/-- SweepBegins: each check passed and failed. -/
theorem witness_SweepBegins : schedOk schedule = true ∧ schedOk [] = false ∧ (Lens.ofWords (lensRecord 0x4000)).ctx ≠ 0 ∧
    (Lens.ofWords (lensRecord 0x4000)).ro = false ∧ (Lens.ofWords (lensRecord 0)).ctx = 0 ∧
    (Lens.ofWords (lensRecord 0x4080)).order = 2 ∧ (Lens.ofWords (lensRecord 0x4000)).order ≠ 2 ∧
    ready.team? 0 0 ≠ none ∧ 0 ∈ placeThread.teams ∧ ready.job? 0 = none ∧ ready.team? 0 63 = none ∧
    ((ready.updEng fun g => { g with jobs := [jobOn 3] }).job? 0).map (·.running) = some true := by decide +kernel

/-- SweepBegins, Table 16-4: a job of one element, a share past the last, a sequence of one element too many, and a curve-keyed lens with and
without its mesh. -/
theorem witness_SweepBegins_ranges :
    (sweepRange (Lens.ofWords (lensRecord 0x4000)) 0 1).isSome = true ∧ 65536 % 65536 < 65536 / 65536 ∧ 65537 / 65536 ≤ 65537 % 65536 ∧
    262144 < (Lens.ofWords ((lensRecord 0x4000).set 6 262145)).count ∧ (Lens.ofWords ((lensRecord 0x4000).set 6 262144)).count = 262144 ∧
    (Lens.ofWords (lensRecord 0x4080)).mesh = 0 ∧ meshed.mesh? 0 0 = none ∧ meshed.mesh? 0 2 = some emptyMesh := by decide +kernel

theorem witness_SweepBegins_leaves (o : Origin) (f : List LeafRec → State → MeshRes) : meshed.readSegs o 0 [] f emptyMesh.segs = f [] meshed := rfl

/-- The reads of a list of addresses that all end. -/
theorem swReads_of (s : State) (o : Origin) (n : Nat) (vas : List Nat) (h : (s.readsAll o n [] vas).isSome = true) : ∃ ws t,
    ∀ f : List Nat → State → MeshRes, s.swReads o n [] f vas = f ws t := by
  match e : s.readsAll o n [] vas with
  | some (ws, t) => exact ⟨ws, t, fun f => State.swReads_all _ _ _ _ _ _ _ _ e⟩
  | none => rw [e] at h; cases h

/-- SweepBegins: a schedule, its stamp and the context words of a job, read through a page table. -/
theorem witness_SweepBegins_reads : ∃ sched s', ∀ f : List Word → State → MeshRes,
    (paged 0 0).schedRead ((paged 0 0).originOf placeThread) placeThread 0x8000 f = f sched s' := by
  obtain ⟨ws, t, h⟩ := swReads_of (paged 0 0) ((paged 0 0).originOf placeThread) 8 ((upTo 20).map fun i => 0x8000 + 8 * i) (by decide +kernel)
  exact ⟨ws.flatMap fun w => wordsOfNat 2 w, t, fun f => by
    rw [State.schedRead, show windowOff 0x8000 = none by decide]; exact h _⟩

theorem witness_SweepBegins_words : ∃ ws s', ∀ f : List Nat → State → MeshRes,
    (paged 0 0).swReads ((paged 0 0).originOf placeThread) 4 [] f [0x8000] = f ws s' := swReads_of _ _ _ _ (by decide +kernel)

theorem witness_SweepBegins_stamp : ∃ s', ∀ f : Nat → State → MeshRes,
    (paged 0 0).swRead ((paged 0 0).originOf placeThread) 0x8000 8 f = f (schedSig schedule) s' := by
  match e : (paged 0 0).engReadNew ((paged 0 0).originOf placeThread) (0x8000 % 2 ^ 64) 8 with
  | .val v w t =>
    have h : (match (paged 0 0).engReadNew ((paged 0 0).originOf placeThread) (0x8000 % 2 ^ 64) 8 with
      | .val v _ _ => v == schedSig schedule | _ => false) = true := by decide +kernel
    rw [e] at h
    exact ⟨t, fun f => by rw [State.swRead, e]; exact congrArg (fun n => f n t) (beq_iff_eq.1 h)⟩
  | .fault _ _ _ _ | .wait | .stop =>
    have h : (match (paged 0 0).engReadNew ((paged 0 0).originOf placeThread) (0x8000 % 2 ^ 64) 8 with
      | .val _ _ _ => true | _ => false) = true := by decide +kernel
    rw [e] at h; cases h

/-- The job of one awake element with the schedule, and the release that its start needs. -/
theorem witness_SweepBegins_start :
    [some Cond.awake] = [(0 : Nat)].map (fun w => ready.condNow { jobOn 3 with sched := schedule } (BitVec.ofNat 32 w)) ∧
    schedInit schedule = 0 ∧ (jobOn 3).core = slot0.core ∧
    (ready.releaseCore 0 ({ jobOn 3 with sched := schedule } : Job).scope (slot0.exec ++ ready.busySlots 0).eraseDups).isSome = true := by
  decide +kernel

/-- A core whose engine runs a job with one awake element. -/
def sweeping : State := ready.updEng fun g => { g with jobs := [{ jobOn 3 with sched := schedule, elems := [{ pos := 5, cond := .awake }] }] }

theorem witness_SweepNext : (∀ u ∈ (begun sweeping).lanes slot0, u.dispatch = none ∧ u.wb + (begun sweeping).nextTop u < u.regs.length) ∧
    (∃ u ∈ (begun sweeping).lanes slot0, ((begun sweeping).jobOf u).isSome) ∧ (∀ u ∈ (begun ready).lanes slot0, (begun ready).jobOf u = none) ∧
    (∃ j, (begun sweeping).job? 0 = some j ∧ (begun sweeping).jobActs j = true ∧ (j.batch 1).length = 1) :=
  ⟨by decide +kernel, by decide +kernel, by decide +kernel, _, rfl, by decide +kernel⟩

/-- A thread that holds element 5. -/
def holding : State := sweeping.updThread 0 0 fun u => { u with dispatch := some { elem := 5, addr := 0x10000 } }

theorem witness_SweepInstructions : (∃ u ∈ (begun ready).lanes slot0, u.dispatch = none) ∧ (∀ u ∈ (begun holding).lanes slot0, u.dispatch ≠ none) ∧
    condOf schedule 0 0 = some .awake ∧ condOf schedule 0 0x10000000 = none ∧ (Lens.ofWords (lensRecord 0x4000)).holds 15 = true ∧
    (Lens.ofWords (lensRecord 0x4000)).holds 16 = false := by decide +kernel

/-- SweepInstructionsComplete: a thread that returns an element, and one that wakes an element of a loaded lens with contexts. -/
theorem witness_SweepInstructionsComplete :
    let lensed := withLens .loaded 0x4000 (loaded [(8, 15)])
    holding.check (.swret 1) slot0 = none ∧ (∀ u ∈ (begun holding).lanes slot0, u.dispatch ≠ none ∧
      ∃ j, (begun holding).job? 0 = some j ∧ condOf j.sched ((begun holding).jobLines j) (u.v 1) ≠ none) ∧
    (begun holding).untranslated 0 .write (((begun holding).lanes slot0).map fun u => { slot := u.slot, width := 4, va := match u.dispatch with
      | some r => (Lens.ofWords (jobOn 3).snap).ctxAddr r.elem % 2 ^ 64
      | none => 0 }) = [] ∧
    lensed.check (.swake 0 8 3) slot0 = none ∧ ((begun lensed).lens 0 3).state = .loaded ∧
    ((begun lensed).lanes slot0).map (fun u => (Lens.ofWords ((begun lensed).lens 0 3).snap).holds (u.v 8).toNat) = [true] ∧
    (begun lensed).untranslated 0 .write (((begun lensed).lanes slot0).map fun u =>
      { slot := u.slot, va := (Lens.ofWords ((begun lensed).lens 0 3).snap).ctxAddr (u.v 8).toNat % 2 ^ 64, width := 4 }) = [] ∧
    ready.check (.swend true 16) slot0 = none ∧ ready.check (.swstat 16 4) slot0 = none := by
  refine ⟨by decide +kernel, ?_, by decide +kernel⟩
  have h : ∀ u ∈ (begun holding).lanes slot0, u.dispatch ≠ none ∧ (match (begun holding).job? 0 with
      | some j => (condOf j.sched ((begun holding).jobLines j) (u.v 1)).isSome | none => false) = true := by decide +kernel
  intro u hu
  refine ⟨(h u hu).1, ?_⟩
  have h2 := (h u hu).2
  cases hj : (begun holding).job? 0 with
  | none => rw [hj] at h2; cases h2
  | some j => exact ⟨j, rfl, fun hn => by rw [hj] at h2; dsimp only at h2; rw [hn] at h2; cases h2⟩

theorem witness_ReturnedElements : ∃ u j r, holding.thread? 0 0 = some u ∧ holding.job? 0 = some j ∧ u.dispatch = some r ∧
    (let va := (Lens.ofWords j.snap).ctxAddr r.elem % 2 ^ 64
     holding.leafOf u va = some placeLeaf ∧ holding.mem.retry (some 0) (placeLeaf.key va) 4 = false ∧ placeLeaf.key va % 4 = 0 ∧
     holding.mem.owner? (placeLeaf.key va) = none) ∧ holding.mem.reqs = [] ∧ holding.mem.watches = [] ∧ j.held = [] ∧ holding.eng.owed = [] ∧
    Memory.wf holding.mem.cells = true ∧ (holding.returnElem 0 0 0xF0000000).isSome = true :=
  ⟨_, _, _, rfl, rfl, rfl, by decide +kernel⟩

/-! ## Witnesses: accesses of any length -/

/-- Leaf entries one after another, each a 1 GiB page on physical address 2^30. -/
def leafCells (a : Nat) : Nat → List Host.Cell
  | 0 => []
  | n + 1 => [(a, 0x0B), (a + 3, 0x40), (a + 7, 0x40)] ++ leafCells (a + 8) n

/-- A page table that maps the first 512 GiB, entry by entry, on the same 1 GiB (R395, Tables 20-4 and 20-5). -/
def flatCells : List Host.Cell := [(0x80000000, 1), (0x80000001, 0x10), (0x80000003, 0x80)] ++ leafCells 0x80001000 512

/-- Its page. -/
def flatLeaf : Leaf :=
  { pa := 2 ^ 30, size := 2 ^ 30, grain := 128, rtype := 0, home := 0, mir := false, sh := false, priv := false, x := true, ro := false }

theorem leafCells_above (n : Nat) : ∀ a, ∀ d, (leafCells a n).head? = some d → d.1 = a := by
  cases n with
  | zero => intro a d h; cases h
  | succ n => intro a d h; cases h; rfl

theorem leafCells_wf (n : Nat) : ∀ a, Memory.wf (leafCells a n) = true := by
  induction n with
  | zero => intro a; rfl
  | succ n ih =>
    intro a
    have h := leafCells_above n (a + 8)
    simp only [leafCells, List.cons_append, List.nil_append]
    rw [Memory.wf_cons, Memory.wf_cons, Memory.wf_cons]
    refine ⟨(by decide : (0x0B : Byte) ≠ 0), fun d hd => by cases hd; simp, (by decide : (0x40 : Byte) ≠ 0), fun d hd => by cases hd; simp,
      (by decide : (0x40 : Byte) ≠ 0), fun d hd => ?_, ih _⟩
    rw [h d hd]; simp

theorem leafCells_read (n : Nat) : ∀ a i, i < n → Memory.readN (leafCells a n) (a + 8 * i) 8 = 0x400000004000000B := by
  induction n with
  | zero => intro a i h; omega
  | succ n ih =>
    intro a i h
    have hb : ∀ x, a + 8 ≤ x → Memory.read (leafCells a (n + 1)) x = Memory.read (leafCells (a + 8) n) x := by
      intro x hx
      simp only [leafCells, List.cons_append, List.nil_append, Memory.read]
      rw [if_neg (by omega), if_neg (by omega), if_neg (by omega), if_neg (by omega), if_neg (by omega), if_neg (by omega)]
    cases i with
    | zero =>
      simp [Memory.readN, leafCells, Memory.read, Memory.unlisted, Nat.add_assoc]
    | succ i =>
      rw [show a + 8 * (i + 1) = a + 8 + 8 * i by omega, Memory.readN_congr 8 _ fun x hx => hb x (by omega)]
      exact ih (a + 8) i (by omega)

theorem flatCells_wf : Memory.wf flatCells = true := by
  unfold flatCells
  simp only [List.cons_append, List.nil_append]
  rw [Memory.wf_cons, Memory.wf_cons, Memory.wf_cons]
  refine ⟨by decide, fun d hd => by cases hd; decide, by decide, fun d hd => by cases hd; decide, by decide, fun d hd => ?_, leafCells_wf _ _⟩
  rw [leafCells_above _ _ d hd]; decide

theorem flatCells_root : Memory.readN flatCells 0x80000000 8 = 0x80001001 := by
  have h : ∀ x, x < 0x80001000 → Memory.read (leafCells 0x80001000 512) x = 0 := fun x hx =>
    Memory.read_below _ _ fun d hd => by rw [leafCells_above _ _ d hd]; exact hx
  simp [Memory.readN, flatCells, Memory.read, Memory.unlisted, h]

theorem flatCells_table (i : Nat) (h : i < 512) : Memory.readN flatCells (0x80001000 + 8 * i) 8 = 0x400000004000000B := by
  rw [← leafCells_read 512 0x80001000 i h]
  refine Memory.readN_congr 8 _ fun x hx => ?_
  simp only [flatCells, List.cons_append, List.nil_append, Memory.read]
  rw [if_neg (by omega), if_neg (by omega), if_neg (by omega), if_neg (by omega), if_neg (by omega), if_neg (by omega)]

/-- A state at rest whose context 0 stands under that table. -/
structure Flat (s : State) : Prop where
  still : s.mem.Still
  ctx : ∃ c, s.ctx? 0 = some c ∧ c.ptroot = 0x80000000
  table : ∀ x, 2 ^ 31 ≤ x → Memory.read s.mem.cells x = Memory.read flatCells x

theorem Flat.value {s : State} (h : Flat s) {a : Nat} (ha : 2 ^ 31 ≤ a) (h4 : a % 4 = 0) :
    s.mem.homeValue a 8 = Memory.readN flatCells a 8 := by
  rw [h.still.homeValue8 h4]
  exact Memory.readN_congr 8 a fun x hx => h.table x (by omega)

theorem Flat.walk {s : State} (h : Flat s) {va : Nat} (hva : va < 2 ^ 39) : s.walk 0 va = (.ok flatLeaf, s) := by
  obtain ⟨c, hc, hp⟩ := h.ctx
  have h0 : va / 2 ^ 48 = 0 := Nat.div_eq_of_lt (by omega)
  have h1 : va / 2 ^ (21 + 9 * 2) % 512 = 0 := by rw [Nat.div_eq_of_lt (by omega)]
  have h2 : va / 2 ^ (21 + 9 * 1) % 512 < 512 := Nat.mod_lt _ (by decide)
  have hr := h.value (a := 0x80000000) (by decide) (by decide)
  rw [flatCells_root] at hr
  have ht := h.value (a := 0x80001000 + 8 * (va / 2 ^ (21 + 9 * 1) % 512)) (by omega) (by omega)
  rw [flatCells_table _ h2] at ht
  have n1 : nextTable 0x80001001 3 = some 0x80001000 := by decide
  have l1 : Leaf.ofEntry 0x400000004000000B 2 = some flatLeaf := by decide
  have b1 : bitOf 0x80001001 0 = true := by decide
  have b2 : bitOf 0x80001001 1 = false := by decide
  have b3 : bitOf 0x400000004000000B 0 = true := by decide
  have b4 : bitOf 0x400000004000000B 1 = true := by decide
  have hp' : c.ptroot.toNat = 0x80000000 := by rw [hp]; rfl
  unfold State.walk
  rw [if_neg (not_not_intro h0), hc]
  simp only [hp', State.walkAt, h1, Nat.mul_zero, Nat.add_zero, h.still.retry, h.still.poisoned, State.readOrdered_still h.still, hr, ht, n1, l1,
    b1, b2, b3, b4, Bool.not_true, Bool.false_eq_true, if_false, if_true]

theorem Flat.walkFor {s : State} (h : Flat s) {va : Nat} (hva : va < 2 ^ 39) (k : Access) (hk : k ≠ .fetch) (p : Bool) :
    s.walkFor 0 va k p = (.ok flatLeaf, s) := by
  have hr : flatLeaf.refuses k p = 0 := by cases k <;> first | exact absurd rfl hk | rfl
  simp only [State.walkFor, h.walk hva, hr, if_true]

theorem Flat.write {s : State} (h : Flat s) (o : Origin) {a : Nat} (n v : Nat) (ha : a + n ≤ 2 ^ 31) : Flat (s.writeBy o a n v) := by
  obtain ⟨hs, hc, hx⟩ := State.writeBy_still h.still o a n v
  obtain ⟨c, h0, hp⟩ := h.ctx
  refine ⟨hs, ⟨c, ?_, hp⟩, fun x hx' => ?_⟩
  · rw [← h0]; unfold State.ctx?; rw [hx]
  · rw [hc, Memory.read_writeN_other n _ a v x h.still.wf (by omega)]; exact h.table x hx'

/-- An address below the private window. -/
theorem windowOf_low (s : State) (o : Origin) {va : Nat} (hva : va < 2 ^ 39) : s.windowOf o va = none := by
  have h : windowOff va = none := by
    simp [windowOff]
    omega
  simp [State.windowOf, h]

theorem flatLeaf_key (va : Nat) : flatLeaf.key va = 2 ^ 30 + va % 2 ^ 30 := by
  simp [flatLeaf, Leaf.key]

/-- An engine notes the words of a thread's write. -/
def noted (o : Origin) (ws : List Nat) (s : State) : State :=
  match o.slot with
  | some k => s.updMem fun m => m.note o.core (some k) ws
  | none => s

theorem Flat.noted {s : State} (h : Flat s) (o : Origin) (ws : List Nat) : Flat (noted o ws s) := by
  unfold Tests.noted
  split
  · exact ⟨⟨h.still.owners, h.still.pins, h.still.poison, h.still.watches, h.still.reqs, h.still.wf⟩, h.ctx, h.table⟩
  · exact h

theorem Flat.engWrite {s : State} (h : Flat s) (o : Origin) (ho : o.ctx = 0) {va : Nat} (w : Nat) (h8 : va % 8 = 0) (hva : va < 2 ^ 39) :
    ∃ t, s.engWrite o (va % 2 ^ 64) 8 w = .val 0 0 t ∧ Flat t := by
  have e : va % 2 ^ 64 = va := Nat.mod_eq_of_lt (by omega)
  rw [e]
  refine ⟨_, ?_, (h.noted o (wordKeys (flatLeaf.key va) 8)).write o (a := flatLeaf.key va) 8 (w / 256 ^ 0 % 256 ^ 8)
    (by rw [flatLeaf_key]; omega)⟩
  simp only [State.engWrite, partsOf, windowOf_low s o hva, h8, ne_eq, not_true_eq_false, if_false, Nat.le_refl, if_true, State.engWriteParts, Nat.add_zero, e, ho,
    h.walkFor hva .write (by decide), h.still.retry, State.settleOwn_still h.still, Bool.false_eq_true]
  rfl

/-- The engine's writes of words from an aligned address all end. -/
theorem Flat.engWrites (o : Origin) (ho : o.ctx = 0) (ws : List Nat) : ∀ (s : State) (va : Nat), Flat s → va % 8 = 0 →
    va + 8 * ws.length ≤ 2 ^ 39 → ∃ x y t, s.engWrites o va ws = .val x y t := by
  induction ws with
  | nil => exact fun s _ _ _ _ => ⟨0, 0, s, rfl⟩
  | cons w ws ih =>
    intro s va h h8 hl
    simp only [List.length_cons] at hl
    obtain ⟨t, ht, hf⟩ := h.engWrite o ho w h8 (by omega)
    obtain ⟨x, y, u, hu⟩ := ih t (va + 8) hf (by omega) (by omega)
    exact ⟨x, y, u, by rw [State.engWrites, ht]; exact hu⟩

/-- So do writes of words on behalf of a context. -/
theorem Flat.sysWrites (ws : List (Nat × Nat × Nat)) : ∀ (s : State), Flat s → (∀ w ∈ ws, w.1 % 8 = 0 ∧ w.1 < 2 ^ 39 ∧ w.2.1 = 8) → ∀ (o : Origin), o.ctx = 0 →
    ∃ t, s.sysWrites o ws = .done t := by
  induction ws with
  | nil => exact fun s _ _ _ _ => ⟨s, rfl⟩
  | cons w ws ih =>
    intro s h hl o ho
    obtain ⟨h8, hva, hn⟩ := hl w List.mem_cons_self
    obtain ⟨u, hu⟩ := ih _ (h.write o (a := flatLeaf.key w.1) 8 w.2.2 (by rw [flatLeaf_key]; omega))
      (fun x hx => hl x (List.mem_cons_of_mem _ hx)) o ho
    refine ⟨u, ?_⟩
    simp only [State.sysWrites, State.sysWrite, ho, h.walkFor hva .write (by decide), hn, h.still.retry, Bool.false_eq_true, if_false]
    exact hu

/-- The engine's read of an aligned pair of words that its core does not hold. -/
theorem readNewest_still {s : State} (h : s.mem.Still) (hl : s.mem.l1 = []) (c a n : Nat) :
    s.readNewest c a n = (s.mem.homeValue a n, s) := by
  have hw : s.mem.wordFor c = s.mem.wordNow := by funext w; simp [MemSys.wordFor, MemSys.l1?, hl]
  simp only [State.readNewest, State.updMem, h.recallAll, State.readEngine, hw, MemSys.homeValue]

theorem Flat.engReadNew {s : State} (h : Flat s) (hl : s.mem.l1 = []) (o : Origin) (ho : o.ctx = 0) {va : Nat} (h8 : va % 8 = 0)
    (hva : va < 2 ^ 39) : s.engReadNew o (va % 2 ^ 64) 8 = .val (Memory.readN s.mem.cells (flatLeaf.key va) 8) 0 s := by
  have e : va % 2 ^ 64 = va := Nat.mod_eq_of_lt (by omega)
  have hk : flatLeaf.key va % 4 = 0 := by rw [flatLeaf_key]; omega
  have hn : s.mem.l1Value o.core (flatLeaf.key va) 8 true = none := by
    have hw : wordKeys (flatLeaf.key va) 8 = [flatLeaf.key va, flatLeaf.key va + 4] := by
      rw [wordKeys, show (flatLeaf.key va + 8 + 3) / 4 - flatLeaf.key va / 4 = 2 by omega, show flatLeaf.key va / 4 * 4 = flatLeaf.key va by omega]
      rfl
    simp [MemSys.l1Value, hw, MemSys.l1?, hl]
  rw [e]
  simp only [State.engReadNew, partsOf, h8, ne_eq, not_true_eq_false, if_false, Nat.le_refl, if_true, State.engParts, State.engPart, Nat.add_zero, windowOf_low s o hva,
    e, ho, h.walkFor hva .read (by decide), h.still.retry, h.still.poisoned, State.settleOwn_still h.still, Bool.false_eq_true, hn,
    readNewest_still h.still hl, h.still.homeValue8 hk, EngRes.bind, Nat.pow_zero, Nat.mul_one, show flatLeaf.rtype ≠ 3 by decide]

/-- The lone thread under that table, with context 1 beside its own and registers 8 and up set. -/
def saver (p : CtxPhase) (xs : List (Nat × Word)) : State :=
  let s := ((loaded xs).updMem fun m => { m with cells := flatCells }).updCtx 0 fun c => { c with ptroot := 0x80000000 }
  { s with ctxs := s.ctxs ++ [{ placeCtx with num := 1, phase := p }] }

theorem still_of {m : MemSys} (h : (m.owners, m.pins, m.poison, m.watches, m.reqs) = ([], [], [], [], [])) (hw : Memory.wf m.cells = true) :
    m.Still := by
  injection h with h1 h; injection h with h2 h; injection h with h3 h; injection h with h4 h5
  exact ⟨h1, h2, h3, h4, h5, hw⟩

theorem saver_flat (s : State) (hm : (s.mem.owners, s.mem.pins, s.mem.poison, s.mem.watches, s.mem.reqs) = ([], [], [], [], []))
    (hc : s.mem.cells = flatCells) (hx : (s.ctx? 0).map (·.ptroot) = some 0x80000000) : Flat s := by
  refine ⟨still_of hm (by rw [hc]; exact flatCells_wf), ?_, fun x _ => by rw [hc]⟩
  cases h : s.ctx? 0 with
  | none => rw [h] at hx; cases hx
  | some c => rw [h] at hx; exact ⟨c, rfl, Option.some.inj hx⟩

theorem imageSize_bounds (s : State) (c : Context) : 0 < s.imageSize c ∧ s.imageSize c < 2 ^ 23 := by
  unfold State.imageSize
  have := Nat.mod_lt (Config.imageUnits ((s.threads.filter fun t => s.ctxOf t == c.num).length + (s.ctxTasks c.num).length + c.pours.length))
    (show 0 < 2 ^ 23 by decide)
  simp only [Nat.max_def]
  split <;> omega

theorem imageWords_length (n size ctx : Nat) (h : 0 < size) : (imageWords n size ctx).length = 8192 * size := by
  simp only [imageWords, upTo, List.length_append, List.length_cons, List.length_nil, List.length_map, List.length_range]
  omega

/-- ContextsAreSavedAndRestored, CTXSV: a context that is not live, one that is not halted, one that is, with too little room and with
enough, and one with a retire under way. -/
theorem witness_ContextsAreSavedAndRestored :
    (begun (saver .halted [(8, 1)])).ctx? 2 = none ∧
    (((begun (saver .running [(8, 1)])).ctx? 1).map (·.phase) = some .running) ∧ (((begun (saver .halted [(8, 1)])).ctx? 1).map (·.phase) = some .halted) ∧
    (saver .halted [(8, 1)]).check (.ctxsv 0 8) slot0 = none ∧ ((begun (saver .halted [(8, 1)])).lowest slot0).isSome = true ∧
    (begun (saver .halted [(8, 1)])).quiet ((begun (saver .halted [(8, 1)])).ctxTasks 1) = true ∧
    (begun (saver .halted [(8, 1)])).retiresOn { placeCtx with num := 1 } = false ∧
    (begun { saver .halted [(8, 1)] with tasks := [placeTask, { placeTask with id := 1, ctx := 1, phase := .retiring 1 }] }).retiresOn
      { placeCtx with num := 1 } = true := by
  decide +kernel

theorem witness_ContextsAreSavedAndRestored_sizes (c : Context) :
    0 < (begun (saver .halted [(8, 1)])).imageSize c ∧ (begun (saver .halted [(8, 1), (9, 0xFFFFFFFF)])).imageSize c ≤ 0xFFFFFFFF :=
  ⟨(imageSize_bounds _ c).1, by have := (imageSize_bounds (begun (saver .halted [(8, 1), (9, 0xFFFFFFFF)])) c).2; omega⟩

theorem witness_ContextsAreSavedAndRestored_image (c : Context) :
    let u0 := begun (saver .halted [(8, 1), (9, 0xFFFFFFFF)])
    let f := (u0.flushTasks (u0.ctxTasks 1)).newId
    ∃ x y t, f.2.engWrites (f.2.originOf placeThread) 0 (imageWords f.1 (u0.imageSize c) 1) = .val x y t := by
  have hb := imageSize_bounds (begun (saver .halted [(8, 1), (9, 0xFFFFFFFF)])) c
  refine Flat.engWrites _ (by decide +kernel) _ _ 0 (saver_flat _ (by decide +kernel) rfl (by decide +kernel)) rfl ?_
  rw [imageWords_length _ _ _ hb.1]
  omega

/-- Three words of an image of context 1 in memory. -/
def imageCells (x y z : Nat) : List Host.Cell :=
  Memory.writeN (Memory.writeN (Memory.writeN flatCells (2 ^ 30) 8 x) (2 ^ 30 + 8) 8 y) (2 ^ 30 + 16) 8 z

/-- The lone thread with that image in memory, and miss-table entries in it and beside it. -/
def loader (cells : List Host.Cell) (p : CtxPhase) (inside beside : List Miss) : State :=
  { ((saver p [(8, 1)]).updMem fun m => { m with cells := cells, miss := beside }) with
    images := [{ num := 1, size := 0, ctx := { placeCtx with num := 1 }, tasks := [], curves := [], meshes := [], miss := inside, wptr := [] }] }

theorem imageCells_wf (x y z : Nat) : Memory.wf (imageCells x y z) = true :=
  Memory.writeN_wf _ _ _ _ (Memory.writeN_wf _ _ _ _ (Memory.writeN_wf _ _ _ _ flatCells_wf))

theorem imageCells_read (x y z : Nat) : Memory.readN (imageCells x y z) (2 ^ 30) 8 = x % 256 ^ 8 ∧
    Memory.readN (imageCells x y z) (2 ^ 30 + 8) 8 = y % 256 ^ 8 ∧ Memory.readN (imageCells x y z) (2 ^ 30 + 16) 8 = z % 256 ^ 8 := by
  have w1 := Memory.writeN_wf 8 flatCells (2 ^ 30) x flatCells_wf
  have w2 := Memory.writeN_wf 8 _ (2 ^ 30 + 8) y w1
  unfold imageCells
  refine ⟨?_, ?_, ?_⟩
  · rw [Memory.readN_writeN_other _ _ _ _ _ _ w2 (by omega), Memory.readN_writeN_other _ _ _ _ _ _ w1 (by omega),
      Memory.readN_writeN 8 _ _ _ flatCells_wf]
  · rw [Memory.readN_writeN_other _ _ _ _ _ _ w2 (by omega), Memory.readN_writeN 8 _ _ _ w1]
  · rw [Memory.readN_writeN 8 _ _ _ w2]

theorem loader_flat (x y z : Nat) (s : State)
    (hm : (s.mem.owners, s.mem.pins, s.mem.poison, s.mem.watches, s.mem.reqs) = ([], [], [], [], []))
    (hc : s.mem.cells = imageCells x y z) (hx : (s.ctx? 0).map (·.ptroot) = some 0x80000000) : Flat s := by
  refine ⟨still_of hm (by rw [hc]; exact imageCells_wf x y z), ?_, fun a ha => ?_⟩
  · cases h : s.ctx? 0 with
    | none => rw [h] at hx; cases hx
    | some c => rw [h] at hx; exact ⟨c, rfl, Option.some.inj hx⟩
  · have w1 := Memory.writeN_wf 8 flatCells (2 ^ 30) x flatCells_wf
    rw [hc, imageCells, Memory.read_writeN_other _ _ _ _ _ (Memory.writeN_wf _ _ _ _ w1) (by omega),
      Memory.read_writeN_other _ _ _ _ _ w1 (by omega), Memory.read_writeN_other _ _ _ _ _ flatCells_wf (by omega)]

theorem loads_check (x y z : Nat) (cells : List Host.Cell) (hcells : cells = imageCells x y z) (hw : imageWords 1 0 1 = [x, y, z])
    (hx : x < 256 ^ 8) (hy : y < 256 ^ 8) (hz : z < 256 ^ 8) (hd : z / 2 ^ 32 = 1) (p : CtxPhase) (a b : List Miss) (o : Origin)
    (ho : o.ctx = 0) (cap : Nat) :
    let s := begun (loader cells p a b)
    s.loadCheck o 1 cap 0 = .val (if s.isSaved 1 then 5 else 3) 0 s := by
  have h : Flat (begun (loader cells p a b)) := loader_flat x y z _ rfl hcells rfl
  have hl : (begun (loader cells p a b)).mem.l1 = [] := rfl
  have hc : (begun (loader cells p a b)).mem.cells = imageCells x y z := hcells
  obtain ⟨r0, r1, r2⟩ := imageCells_read x y z
  have e0 := h.engReadNew hl o ho (va := 0) (by decide) (by decide)
  have e1 := h.engReadNew hl o ho (va := 8) (by decide) (by decide)
  have e2 := h.engReadNew hl o ho (va := 16) (by decide) (by decide)
  rw [hc, flatLeaf_key] at e0 e1 e2
  rw [show 2 ^ 30 + 0 % 2 ^ 30 = 2 ^ 30 from rfl, r0, Nat.mod_eq_of_lt hx] at e0
  rw [show 2 ^ 30 + 8 % 2 ^ 30 = 2 ^ 30 + 8 from rfl, r1, Nat.mod_eq_of_lt hy] at e1
  rw [show 2 ^ 30 + 16 % 2 ^ 30 = 2 ^ 30 + 16 from rfl, r2, Nat.mod_eq_of_lt hz] at e2
  have hi : ∃ i, (begun (loader cells p a b)).imageFor 1 cap z = some i ∧ i.num = 1 ∧ i.size = 0 := by
    refine ⟨{ num := 1, size := 0, ctx := { placeCtx with num := 1 }, tasks := [], curves := [], meshes := [], miss := a, wptr := [] }, ?_, rfl, rfl⟩
    have hm : (begun (loader cells p a b)).images =
      [{ num := 1, size := 0, ctx := { placeCtx with num := 1 }, tasks := [], curves := [], meshes := [], miss := a, wptr := [] }] := rfl
    rw [State.imageFor, hm, hd]
    rfl
  obtain ⟨i, hi, hn, hs⟩ := hi
  dsimp only
  rw [State.loadCheck, show 0 + 16 = 16 from rfl, e2]
  simp only [EngRes.bind, hi, hn, hs, hw, State.engMatches, Nat.zero_add, e0, e1, e2, if_true, show (8 + 8 : Nat) = 16 from rfl]
  cases (begun (loader cells p a b)).isSaved 1 <;> rfl

/-- The words of an image of no size. -/
theorem imageWords_one : ∃ x y z, imageWords 1 0 1 = [x, y, z] ∧ x < 256 ^ 8 ∧ y < 256 ^ 8 ∧ z < 256 ^ 8 ∧ z / 2 ^ 32 = 1 := by
  have h1 := Config.partId.isLt
  have h2 := (Config.imageCrc 1).isLt
  refine ⟨0x47555253 + 2 ^ 32 * Config.partId.toNat, 0 % 2 ^ 32 + 2 ^ 32 * 1, (Config.imageCrc 1).toNat + 2 ^ 32 * (1 % 2 ^ 32), ?_, ?_, ?_, ?_, ?_⟩
  · unfold imageWords; exact List.append_nil _
  · omega
  · decide
  · generalize (Config.imageCrc 1).toNat = n at h2 ⊢
    rw [show (1 % 2 ^ 32 : Nat) = 1 from rfl, Nat.mul_one, Nat.add_comm]; omega
  · generalize (Config.imageCrc 1).toNat = n at h2 ⊢
    rw [show (1 % 2 ^ 32 : Nat) = 1 from rfl, Nat.mul_one, Nat.add_comm]; omega

/-- CTXLD: the checks of a context that stands saved, and of one that does not. -/
theorem witness_ContextsAreSavedAndRestored_check (p : CtxPhase) (a b : List Miss) : ∃ cells,
    let s := begun (loader cells p a b)
    s.loadCheck (s.originOf placeThread) 1 0 0 = .val (if s.isSaved 1 then 5 else 3) 0 s := by
  obtain ⟨x, y, z, hw, hx, hy, hz, hd⟩ := imageWords_one
  refine ⟨imageCells x y z, loads_check x y z _ rfl hw hx hy hz hd p a b _ ?_ 0⟩
  rfl

theorem witness_ContextsAreSavedAndRestored_load :
    (loader [] .saved [] []).check (.ctxld 0 8) slot0 = none ∧ ((begun (loader [] .saved [] [])).lowest slot0).isSome = true ∧
    (begun (loader [] .saved [] [])).isSaved 1 = true ∧ (begun (loader [] .halted [] [])).isSaved 1 = false ∧
    (∃ i, (begun (loader [] .saved [] [])).images.find? (fun i => (5 : Nat) == 4 + i.num) = some i ∧
      ((begun (loader [] .saved [] [])).loadImage i).isSome = true ∧
      ((begun (loader [] .saved [] [missOf 0x90 .recorded])).loadImage { i with miss := [missOf 0x90 .recorded] }).isSome = false) :=
  ⟨by decide +kernel, by decide +kernel, by decide +kernel, by decide +kernel, _, rfl, by decide +kernel, by decide +kernel⟩

theorem witness_ContextsAreSavedAndRestored_none : (match (begun (saver .halted [(8, 1)])).loadCheck
    ((begun (saver .halted [(8, 1)])).originOf placeThread) 1 0 0 with | .val v _ _ => v == 2 | _ => false) = true := by
  decide +kernel

/-! ## Witnesses: launches, traps and system instructions -/

/-- PourLaunchesPerLane: a lane whose record is read, words that are a descriptor and words that are not, a context with room for another
pour and one without, and a header that is no mould's. -/
theorem witness_PourLaunchesPerLane : ready.check (.pour 0 8 0) slot0 = none ∧ descBad false (dwords 1 8) = true ∧ descBad false (dwords 0 8) = false ∧
    placeCtx.livePours.length < 256 ∧ mouldHeaderOk (dwords 0 8) = false := by decide +kernel

/-- A pour of the lone thread's context. -/
def pourOf (q : Option Nat) (started : Bool) : Pour :=
  { ctx := 0, id := 0, frame := 0, arg := 0, cadr := 0, cval := 0, prio := 0, queue := q, nodes := [], edges := [], regions := [], nstates := []
    bits := [], started := started }

theorem witness_PourLaunchesPerLane_full : 256 ≤ ({ placeCtx with pours := List.replicate 256 (pourOf none true) } : Context).livePours.length := by
  decide +kernel

/-- Its records, read through a page table. -/
theorem witness_PourLaunchesPerLane_reads (va : Nat) (h : va = 0x8000 ∨ va = 0) : ∃ t c,
    (∀ f : Nat → State → MeshRes, (paged 0 0).recordRead ((paged 0 0).originOf placeThread) placeThread va 8 f = f 0 t) ∧
    t.ctx? ((paged 0 0).originOf placeThread).ctx = some c ∧ c.livePours.length < 256 := by
  match e : (paged 0 0).recordRead ((paged 0 0).originOf placeThread) placeThread va 8 .val with
  | .val v t =>
    have hv : (match (paged 0 0).recordRead ((paged 0 0).originOf placeThread) placeThread va 8 .val with
      | .val v t => v == 0 && (match t.ctx? 0 with | some c => decide (c.livePours.length < 256) | none => false) | _ => false) = true := by
      obtain rfl | rfl := h <;> decide +kernel
    rw [e] at hv
    simp only [Bool.and_eq_true, beq_iff_eq] at hv
    obtain ⟨rfl, hc⟩ := hv
    cases hx : t.ctx? 0 with
    | none => rw [hx] at hc; cases hc
    | some c => rw [hx] at hc; exact ⟨t, c, fun f => State.recordRead_val e f, hx, by simpa using hc⟩
  | .fault _ _ _ _ | .wait | .mig _ | .stop =>
    have hv : (match (paged 0 0).recordRead ((paged 0 0).originOf placeThread) placeThread va 8 .val with
      | .val _ _ => true | _ => false) = true := by obtain rfl | rfl := h <;> decide +kernel
    rw [e] at hv; cases hv

/-- ControlRegisters: reads of every register, and writes at the ends of the values that each takes. -/
theorem witness_ControlRegisters : (∀ n < 14, ready.check (.ctlr 8 (BitVec.ofNat 32 n)) slot0 = none) ∧
    (∀ n < 14, ready.check (.ctlw 8 (BitVec.ofNat 32 n)) slot0 = none) ∧ (begun ready).ctx? ((begun ready).latchCtx slot0) = some placeCtx ∧
    ((begun ready).lowest slot0).isSome = true ∧ ((begun ready).releaseBy 0 0 .sys).isSome = true ∧
    ((begun (ready.updMem fun m => { m with reqs := [requestOf .storeWt], pins := [otherPin 0x10100] })).releaseBy 0 0 .sys).isNone = true ∧
    (∀ v ∈ [0, 4, 64, 4096], v % 4 = 0) ∧ (0 - (0 : Pair)).toNat % 2 ^ 32 ≤ placeCtx.fqsize.toNat ∧
    ¬ (0 - (1 : Pair)).toNat % 2 ^ 32 ≤ placeCtx.fqsize.toNat := by decide +kernel

/-- The lone thread in its handler, with its trap record in a page, and bytes of the record. -/
def inHandler (trbase : Pair) (rpc : Nat) : State :=
  ((ready.updCtx 0 fun c => { c with trbase := trbase }).updThread 0 0 fun u => { u with handler := true }).updMem fun m =>
    { m with cells := Memory.writeN m.cells 0x11008 8 rpc }

/-- What HandlerReturns supposes: a record that translates, one that does not, and one whose walk has faulted. -/
def recordState (s : State) : Bool × Bool :=
  match (begun s).ctx? 0 with
  | none => (false, false)
  | some c =>
    let bad := (begun s).untranslated 0 .read (((begun s).lanes slot0).map fun u => { slot := u.slot, va := trapAddr c u, width := 32 })
    (bad.any fun x => !(begun s).meetsFault 0 .read x, bad.any fun x => (begun s).meetsFault 0 .read x)

/-- The resume PCs of the records read. -/
def resumes (s : State) : List Nat :=
  match (begun s).ctx? 0 with
  | none => []
  | some c => ((begun s).readRecords slot0 c ((begun s).lanes slot0)).1.map fun x => bitsOf x.2 127 64 % 4

theorem witness_HandlerReturns : (∃ u ∈ (begun ready).lanes slot0, u.handler = false) ∧ ready.check .eret slot0 = none ∧
    (∀ u ∈ (begun (inHandler 0x11000 8)).lanes slot0, u.handler = true) ∧ recordState (inHandler 0x11000 8) = (false, false) ∧
    recordState (inHandler 0x900000 8) = (true, false) ∧
    recordState ((inHandler 0x900000 8).updMem fun m => { m with miss := [missOf 0x90 .recorded] }) = (false, true) ∧
    resumes (inHandler 0x11000 8) = [0] ∧ resumes (inHandler 0x11000 6) = [2] := by decide +kernel

theorem witness_FaultsEndAndTranslationsDrop :
    let miss := ready.updMem fun m => { m with miss := [missOf 0x90 .recorded] }
    let pinned := (loaded [(32, 0)]).updMem fun m => { m with miss := [missOf 0x90 .recorded], reqs := [requestOf .storeWt], pins := [otherPin 0x10100] }
    ((begun ready).tresume 0 0 0 false).1 = 1 ∧ ((begun miss).tresume 0 0 0 false).1 ≠ 1 ∧ ((begun miss).releaseBy 0 0 .sys).isSome = true ∧
    ((begun pinned).tresume 0 0 0 false).1 ≠ 1 ∧ ((begun pinned).releaseBy 0 0 .sys).isNone = true ∧
    ready.check (.tresume 0 32 34) slot0 = none ∧ ready.check (.tlbinv 0 32 34) slot0 = none := by decide +kernel

/-- A TLBINV that must wait, and one that need not. -/
theorem witness_FaultsEndAndTranslationsDrop_waits :
    let r : Drop := { ctx := none, lo := 0, hi := 2 ^ 64 }
    let t := (ready.updMem fun m => { m with reqs := [requestOf (.load .own false)] }).dropXlates none 0 (2 ^ 64)
    t.performed (t.dropReqs r) (t.dropEntries r) = false ∧
    (ready.dropXlates none 0 (2 ^ 64)).performed ((ready.dropXlates none 0 (2 ^ 64)).dropReqs r) ((ready.dropXlates none 0 (2 ^ 64)).dropEntries r) = true := by
  decide +kernel

theorem witness_ContextsArePreempted : ready.check (.preempt true 0 8) slot0 = none ∧ ((begun ready).lowest slot0).isSome = true ∧
    (begun (saver .running [(8, 2)])).ctx? 2 = none ∧
    (∀ p ∈ [CtxPhase.running, .halting, .halted, .saved], ((begun (saver p [(8, 1)])).ctx? 1).map (·.phase) = some p) := by decide +kernel

/-- EngineResetsAndEventReads: a cluster beyond the last, one that is being reset and one that is not; a queue with an event and one without. -/
def eventOf : Event := { kind := .watchdog, ctx := 0, src := 3, data := 3, addr := 0 }

theorem witness_EngineResetsAndEventReads : (begun ready).lowest slot0 ≠ none ∧
    (∃ u, (begun (loaded [(8, 128)])).lowest slot0 = some u ∧ 128 ≤ (u.v 8).toNat) ∧
    (∃ u, (begun (loaded [(8, 127)])).lowest slot0 = some u ∧ (u.v 8).toNat < 128) ∧
    (∃ g ∈ (ready.updEng fun g => { g with engines := [{ cluster := 127, streams := [], busy := true }] }).eng.engines, g.cluster = 127 ∧ g.busy = true) ∧
    (begun ready).eng.engines = [] ∧ ready.check (.engrst 8) slot0 = none ∧ ready.check (.evtq true 16) slot0 = none ∧
    ((begun ready).arbiter 0).queue = [] ∧ ((begun (ready.putArbiter { die := 0, queue := [eventOf] })).arbiter 0).queue = [eventOf] :=
  ⟨by decide +kernel, ⟨_, rfl, by decide +kernel⟩, ⟨_, rfl, by decide +kernel⟩, by decide +kernel⟩

/-! ## Witnesses: the steps of the device -/

/-- The lone thread and nothing under way: its warp may be chosen. -/
def idle : State := { ready with issue := none }

/-- IssueDecisions: a warp that is chosen, with no compound under way, and one with a compound whose group stands at it. -/
def begunCompound : Compound :=
  { pc := BitVec.ofNat 64 placeVa, next := BitVec.ofNat 64 (placeVa + 4), word := 0, limm := none, n := 2, sD := false, sA := false, sB := false
    j := 1, group := [0] }

def halfway : State :=
  (idle.updWarp 0 0 fun w => { w with cur := some begunCompound }).updThread 0 0 fun u => { u with repLeft := 1 }

/-- Its warp has waited 256 cycles, and its PC has been passed over 64 times. -/
def starved : State := idle.updWarp 0 0 fun w => { w with waited := 256, unchosen := [(BitVec.ofNat 64 placeVa, 64)] }

theorem witness_IssueDecisions : idle.issue = none ∧ (∀ x ∈ idle.warps, x.core = 0 → x.slot % 2 = 0 → x.chosen = false) ∧
    (match chooseWarp (idle.candidates 0 0) with
      | some w => w.cur == none && choosePc w (pcsOf (idle.eligible w)) == some (BitVec.ofNat 64 placeVa)
      | none => false) = true ∧
    (match chooseWarp (halfway.candidates 0 0) with
      | some w => w.cur == some begunCompound && halfway.curLive 0 begunCompound
      | none => false) = true ∧
    (match chooseWarp (starved.candidates 0 0) with
      | some w => decide (256 ≤ w.waited) && (pcsOf (starved.eligible w)).any fun p => 64 ≤ w.passedOver p
      | none => false) = true := by decide +kernel

theorem witness_IssueDecisions_lists : (∃ x ∈ [{ placeWarp with waited := 256 }], 256 ≤ x.waited) ∧
    chooseWarp [{ placeWarp with waited := 256 }] = some { placeWarp with waited := 256 } ∧
    chooseWarp [{ placeWarp with yielded := true }] = some { placeWarp with yielded := true } ∧ chooseWarp [placeWarp] = some placeWarp ∧
    (∀ t ∈ [placeThread], placeWarp.passedOver t.pc < 64) ∧
    (∃ t ∈ [placeThread], 64 ≤ ({ placeWarp with unchosen := [(BitVec.ofNat 64 placeVa, 64)] } : Warp).passedOver t.pc) ∧
    choosePc placeWarp (pcsOf [placeThread]) = some placeThread.pc := by decide +kernel

/-- The lone thread with an outstanding result. -/
def waiting : State := ready.updThread 0 0 fun u => { u with pending := [{ id := 3, dests := [(.row 8, 0)], val := 7 }] }

theorem witness_ResultsReturn : ∃ u p, waiting.thread? waiting.arg.x waiting.arg.y = some u ∧ u.pending[waiting.arg.z]? = some p ∧ p.parts = 0 :=
  ⟨_, _, rfl, rfl, by decide +kernel⟩

/-- The lone thread parked. -/
def parkedFor (r : Park) : State := ready.updThread 0 0 fun u => { u with status := .parked r }

/-- A state with the arguments of a step. -/
def given (x y z : Nat) (s : State) : State := { s with arg := { s.arg with x := x, y := y, z := z } }

theorem witness_WaitsEnd :
    (∃ u, (parkedFor .marker).thread? 0 0 = some u ∧ u.status = .parked .marker ∧ u.pending = []) ∧
    (∃ w, (parkedFor (.mwait 0)).warp? 0 0 = some w ∧ ∀ t ∈ (parkedFor (.mwait 0)).threads, t.core = w.core → t.warp = w.slot →
      (w.mask 0).toNat.testBit t.lane = true → t.status = .parked (.mwait 0)) ∧
    (parkedFor (.wregrp 0 5)).participants 0 0 0 ≠ [] ∧
    (∀ w ∈ (parkedFor (.wregrp 0 5)).participants 0 0 0, ∀ t ∈ (parkedFor (.wregrp 0 5)).warpLive 0 w.slot, 0 ∈ t.teams →
      t.status = .parked (.wregrp 0 5)) :=
  ⟨⟨_, rfl, by decide +kernel⟩, ⟨_, rfl, by decide +kernel⟩, by decide +kernel, by decide +kernel⟩

/-- A watch that stands on no word. -/
def watchOf : Watch :=
  { id := 3, core := 0, slot := 0, key := 0x10100, width := 4, cmp := 0, rows := [8], registered := false, since := 0, pc := 0, rep := 0, guard := none }

/-- Arrivals behind a release, and of one instruction at one point: the first of them, behind whose requests nothing is left. -/
theorem witness_WaitsEnd_order :
    let a : Nat → Arrival := fun k =>
      { id := k, src := 1, slot := 0, core := 0, team := 0, point := 3, count := 1, scope := .die, rel := some .die, mark := 4, inst := 9 }
    let s := (ready.updEng fun g => { g with arrivals := [a 6, a 7] }).updMem fun m => { m with reqs := [{ requestOf .storeWt with core := 1 }] }
    (∀ r ∈ s.mem.reqs, r.core = (a 6).src → r.slot = (a 6).slot → (a 6).mark ≤ r.id) ∧
    (∀ y ∈ s.eng.arrivals, y.inst = (a 6).inst → y.core = 0 → y.team = 0 → y.point = 3 → (a 6).id ≤ y.id) := by decide +kernel

theorem witness_WaitsEnd_arrivals :
    (∃ x, ((ready.updEng fun g => { g with arrivals := [{ id := 0, src := 1, slot := 0, core := 0, team := 0, point := 3, count := 1, scope := .die }] }
      ).eng.arrivals.find? fun a => a.id == 0) = some x) ∧
    (∃ w, (((parkedFor (.waitv 3)).updMem fun m => { m with watches := [watchOf] }).mem.watches.find? fun w => w.core == 0 && w.slot == 0 && !w.registered)
      = some w ∧ w.since + 1024 ≤ ((parkedFor (.waitv 3)).updDev fun d => { d with cycle := 1024 }).dev.cycle) := ⟨⟨_, rfl⟩, ⟨_, rfl, by decide +kernel⟩⟩

/-- LensEntriesSettle: a loading entry with a record at the head of its queue, and one that is to be emptied. -/
def loadingLens (snap : Option (List Word)) : State :=
  ready.putLens 0 { num := 3, state := .loading, queue := [{ core := 0, slots := [0], snap := snap, pc := 0, rep := 0, guards := [none] }] }

theorem witness_LensEntriesSettle : ∀ snap ∈ [none, some (lensRecord 0)], ((loadingLens snap).lens 0 3).state = .loading ∧
    ((loadingLens snap).lens 0 3).queue.map (·.snap) = [snap] ∧ (loadingLens snap).lensRefs 0 3 = 0 ∧
    ((loadingLens snap).thread? 0 0).map (·.task) = some 0 ∧ (loadingLens snap).acting 0 = true := by decide +kernel

/-- A copy entry. -/
def copyOf (op : CopyOp) : CopyJob :=
  { op := op, slot := 0, task := 0, lens := 3, snap := lensRecord 0, coords := [0, 0, 0, 0], off := 0, ty := none }

theorem witness_CopyChannelsWork : (∀ op ∈ [CopyOp.copy, .copys, .copym 1],
      let s := padded.updEng fun g => { g with queue := [entryOf 5 (.q 2) (.copy (copyOf op))] }
      (s.eng.queue.find? fun e => e.core == 0 && e.queue == .q 2) = some (entryOf 5 (.q 2) (.copy (copyOf op))) ∧ s.held (.copy 5) = false ∧
      s.acting (copyOf op).task = true) ∧
    (let j : GathJob := { lens := 3, snap := lensRecord 0, ty := .f32, lanes := [], book := [], pc := 0 }
     let s := ready.updEng fun g => { g with queue := [entryOf 5 (.qg 0) (.gath j)] }
     entryOf 5 (.qg 0) (.gath j) ∈ s.eng.queue ∧ s.held (.gath 5) = false ∧ s.eng.isHead 5 = true) := by decide +kernel

/-- MatrixEngineSteps: a ready entry of an idle engine, a granted run past its time, a stopped entry of a tile operation. -/
def scaling : State := ready.updEng fun g => { g with queue := [entryOf 5 (.qm 0) (.tile (.zscale 0 [0] [] []))] }

def passing : State :=
  ((scaling.updEngine 0 fun g => { g with runs := [{ array := 0, entry := 5, start := 0, block := none, fmt := none }] }).updDev fun d =>
    { d with cycle := 65536 })

theorem witness_MatrixEngineSteps : (scaling.engine 0).stopped = false ∧ (scaling.engine 0).busy = false ∧ (scaling.engine 0).runs = [] ∧
    scaling.grantOf 0 = some (entryOf 5 (.qm 0) (.tile (.zscale 0 [0] [] []))) ∧ (passing.runOf 0 0).isSome = true ∧ (passing.entry? 5).isSome = true ∧
    (passing.engine 0).stopped = false ∧ 0 + 65536 ≤ passing.dev.cycle ∧
    (passing.updTask 0 fun t => { t with phase := .halting, haltAt := 7 }).haltMoment 0 = some 7 ∧ 7 + 64 ≤ passing.dev.cycle ∧
    (let tripped := (passing.updEngine 0 fun g => { g with stopped := true }).updTask 0 fun t => { t with phase := .halting, haltAt := 65536 }
     tripped.haltMoment 0 = some 65536 ∧ tripped.dev.cycle < 65536 + 64 ∧ (tripped.engine 0).stopped = true) := by decide +kernel

theorem witness_MatrixEngineSteps_tile :
    let s := ready.updEng fun g => { g with queue := [entryOf 5 (.qm 0) (.tile (.zrel 3))] }
    s.qm 0 0 = [(entryOf 5 (.qm 0) (.tile (.zrel 3)), .zrel 3)] ∧ s.eng.isHead 5 = true ∧ s.acting (s.warpTask 0 0) = true ∧
    s.held (.tile 5) = false := by decide +kernel

/-- A core whose engine runs a job in a state given by `f`. -/
def runJob (f : Job → Job) : State := ready.updEng fun g => { g with jobs := [f { jobOn 3 with sched := schedule }] }

theorem witness_SweepEngineSteps :
    let more := schedule.set 34 0x800001
    let j := fun (s : State) => s.job? 0
    (match j (runJob fun j => { j with sched := more, ended := true, elems := [{ pos := 5, cond := .awake }] }) with
      | some k => k.running && !k.halted && k.ended && !(ready.jobOver k) | none => false) = true ∧
    (match j (runJob fun j => { j with elems := [{ pos := 5, cond := .done }] }) with
      | some k => ready.jobOver k && !k.halted && !ready.held (.jobEnd 0) | none => false) = true ∧
    (({ pos := 5, cond := .flag 1 } : Elem).untested = true) ∧ ({ pos := 5, cond := .asleep } : Elem).untested = false ∧
    ({ pos := 5, cond := .asleep } : Elem).ready = false ∧ ready.held (.sweep 0) = false ∧
    (match j (runJob fun j => { j with reread := [5], elems := [{ pos := 5, cond := .asleep }] }) with
      | some k => k.running && !k.halted && !k.ended && !(ready.jobOver k) && k.reread != [] | none => false) = true ∧
    (match j (runJob fun j => { j with elems := [{ pos := 5, cond := .awake }] }) with
      | some k => ready.jobActs k && k.batch 1 != [] | none => false) = true ∧
    ((parkedFor (.sweep true 0 4)).nextGroup 0).length = 1 ∧
    ((ready.updEng fun g => { g with wakes := [{ core := 0, pos := 5 }] }).eng.wakes.filter fun w => w.core == 0)[0]? = some { core := 0, pos := 5 } := by
  decide +kernel

/-- MeshAndMirrorSteps: a message to a die, a leaf that may switch, windows in each phase, and a window asked for. -/
def switching : State := ready.updEng fun g =>
  { g with curves := [zOrder], meshes := [{ emptyMesh with msgs := [(0, { cuts := [] }), (1, { cuts := [] })]
                                                           migr := [{ key := 0, cut := 0, slot := 1, pages := [] }] }] }

theorem witness_MeshAndMirrorSteps : ∃ m x, switching.mesh? 0 2 = some m ∧ (m.migr.find? fun x => x.key == 0) = some x ∧ switching.pinCount m x = 0 ∧
    switching.held (.switch 0 2 0) = false ∧ switching.ctx? 0 = some placeCtx ∧
    (match switching.switchLeaf { core := x.from_, slot := none, ctx := 0, priv := true } m x with
      | .val _ _ => true | _ => false) = true ∧ m.msgs = [(0, { cuts := [] })] ++ (1, { cuts := [] }) :: [] :=
  ⟨_, _, rfl, rfl, by decide +kernel, by decide +kernel, rfl, by decide +kernel, rfl⟩

def mirrored (p : MirPhase) : State := (paged 0 0).updDev fun d =>
  { d with mirrors := [{ page := 0, size := 2 ^ 30, ctx := 0, va := 0, oldHome := 0, newHome := 1, phase := p, mesh := none }] }

/-- A bias flip to the host, whose lines have all been answered. -/
def flipped : Mirror :=
  { page := 0, size := 2 ^ 16, ctx := 0, va := 0, oldHome := 4, newHome := 1, phase := .recall, mesh := none, bias := true, answered := 1024 }

theorem witness_MeshAndMirrorSteps_bias : ∃ r ∈ [flipped], r.bias = true ∧ r.oldHome = 4 ∧ r.size ≤ 64 * r.answered := by decide

theorem witness_MeshAndMirrorSteps_windows : ((mirrored .entry).mirror? 0).isSome = true ∧ ((mirrored .recall).mem.ownedIn 0 (2 ^ 30)) = [] ∧
    (match (mirrored .copy).mirror? 0 with | some r => r.phase == .copy && r.mesh.isNone && ((mirrored .copy).endWindow r).isSome | none => false)
      = true := by decide +kernel

theorem witness_MeshAndMirrorSteps_start :
    (match (paged 0 0).leafEntry 0 0 with
      | some (_, e, level) => (match Leaf.ofEntry e level with
        | some l => l.home == 0 && l.pa == 0
            && ((paged 0 0).windowEntries id 0 l.pa [0]).all fun y => !(paged 0 0).mem.retry none y.1 8
        | none => false)
      | none => false) = true ∧ (paged 0 0).dev.mirrors = [] := by decide +kernel

/-- HomesServeRequests: a request that can be served, one that meets poison, and the store of a word that nobody owns. -/
theorem witness_HomesServeRequests :
    let s := ready.updMem fun m => { m with reqs := [requestOf .storeWt] }
    let p := ready.updMem fun m => { m with reqs := [requestOf (.load .si false)], poison := [0x10100] }
    (s.mem.reqs.find? fun r => r.id == 5) = some (requestOf .storeWt) ∧ s.canServe (requestOf .storeWt) = true ∧ ReqKind.storeWt.reads = false ∧
    p.canServe (requestOf (.load .si false)) = true ∧ (ReqKind.load .si false).reads = true ∧ p.mem.poisoned 0x10100 4 = true ∧
    Memory.wf s.mem.cells = true ∧ (∀ w ∈ wordKeys 0x10100 4, s.mem.owner? w = none) := by decide +kernel

/-- MemorySystemSteps: no pins of a line, a word dropped by an eviction, a hop that counts, and a walk that ends in a leaf and one that ends in
a fault. -/
def walking (page : Nat) (c : Bool) : State :=
  (if c then paged 0 0 else ready).updMem fun m => { m with miss := [missOf page .walking] }

theorem witness_MemorySystemSteps : (∀ p ∈ ready.mem.pins, p.core = 0 → p.grain / 512 ≠ 0x10100 / 512) ∧ (4 : Nat) ≠ 5 ∧
    ((walking 0 true).missAt 0 0).map (·.phase) = some .walking ∧
    (match (walking 0 true).walk 0 0 with | (.ok _, _) => true | _ => false) = true ∧
    (match (walking 0x90 false).walk 0 0x900000 with | (.fault _, _) => true | _ => false) = true := by decide +kernel

/-- INTEGRITY_ERROR: a link word in its last retry and one past it. -/
theorem witness_MemorySystemSteps_retries :
    let tries := fun (s : State) => match s.dev.retries.find? fun x => x.1 == 3 && x.2.1 == 0x10100 with | some x => x.2.2 | none => 0
    tries ready = 0 ∧ tries (ready.updDev fun d => { d with retries := [(3, 0x10100, 7)] }) < 8 ∧
    8 ≤ tries (ready.updDev fun d => { d with retries := [(3, 0x10100, 8)] }) := by decide +kernel

theorem witness_MemorySystemSteps_line : ∃ x ∈ (({ ready.mem with l1 := [{ core := 0, key := 0x10400, val := 7, hold := .si }] } : MemSys).evict 0 0x10200).l1,
    x.core = 0 := by decide +kernel

theorem witness_EventQueues :
    let s := ready.putArbiter { die := 0, queue := [eventOf], held := [eventOf] }
    (s.arbiter 0).held = [eventOf] ∧ (s.arbiter 0).queue = [eventOf] ∧ (s.arbiter 0).queue.length < 256 ∧ (ready.arbiter 0).queue = [] ∧
    ready.eventWaiter? 0 = none := by decide +kernel

/-- A package with a verified image. -/
def usable : State := ready.updDev fun d => { d with boot := .usable }

theorem witness_HostAndPeerRequests : usable.dev.boot = .usable ∧ usable.mem.poisoned 0x10100 8 = false ∧ usable.mem.retry none 0x10100 8 = false ∧
    (∀ w ∈ wordKeys 0x10100 8, usable.mem.owner? w = none) ∧ Memory.wf usable.mem.cells = true ∧
    (let r : Req := { requestOf .storeWt with home := 5 }
     let s := ready.updMem fun m => { m with reqs := [r] }
     (s.mem.reqs.find? fun r => r.id == 5) = some r ∧ r.stall = none ∧ r.since + 10500000 ≤ (s.updDev fun d => { d with cycle := 10500000 }).dev.cycle ∧
     (∀ l ∈ s.dev.links, l.1 ≠ 11) ∧ s.goneUnits 11 = false) := by
  decide +kernel

/-- LaunchQueuesTake: an enabled queue with a descriptor, on a context that is live and on one that is not. -/
def queued (ctx : Nat) : State := (paged 0 0).putQueue { num := 0, base := 0x8000, size := 16, en := true, ctx := ctx, put := 1 }

theorem witness_LaunchQueuesTake :
    let x := (queued 0).queue 0
    x.en = true ∧ x.get ≠ x.put ∧ x.size ≠ 0 ∧ (queued 1).ctx? ((queued 1).queue 0).ctx = none ∧ ((queued 0).ctx? x.ctx).map (·.phase) = some .running ∧
    (queued 0).held (.queue 0) = false ∧ (∀ k ∈ (queued 0).ctxs, ∀ p ∈ k.livePours, p.queue = some 0 → p.started = true) ∧ x.report = none ∧ x.snap = none ∧
    (match (queued 0).curveRead ((queued 0).systemOrigin 0 0) (x.base.toNat + 64 * (x.get.toNat % x.size.toNat)) 8 .val with
      | .val _ _ => true | _ => false) = true := by decide +kernel

/-- TasksAreAdmitted: a linear node of one task of one thread, ready on an idle package. -/
def nodeOf : Node :=
  { entry := 0x10000, nthr := 1, ngr := 0, sl := 0, ecls := 0, gang := 1, sp := false, mesh := 0, pcv := 0, gw := 1, cnt := 1, foff := 0 }

def candidateTask : Task := { id := 1, ctx := 0, pour := 0, node := 0, index := 0, rank := 0, key := 0, phase := .ready, nthr := 1, ngr := 0, prio := 0 }

def admitting (f : Task → Task) (cycle : Nat) : State :=
  { State.reset with
    tasks := [f candidateTask], dev := { cycle := cycle },
    ctxs := [{ placeCtx with pours := [{ pourOf none true with nodes := [nodeOf], nstates := [{ n := 1 }] }] }] }

theorem witness_TasksAreAdmitted_unit :
    let u := (admitting id 0).refill.trackRoom
    (match u.tasks.find? fun t => t.ctx == 0 && t.pour == 0 && t.node == 0 && u.candidate t && (u.unitCluster t).isNone
        && (match u.taskNode t with | some n => !n.sp | none => false) with
      | some t => u.taskNode t == some nodeOf && (u.scan t).isSome
      | none => false) = true := by decide +kernel

/-- The same task, which has had room since cycle 0 in sectors whose heat budgets are spent. -/
def spent (cycle : Nat) : State :=
  ((upTo 12).foldl (fun (s : State) k => s.putHeat { die := k / 3, sector := k % 3, en := true, cost := 0xFFFFFFFF })
    (admitting (fun t => { t with roomSince := some 0 }) cycle))

theorem witness_TasksAreAdmitted :
    (match (admitting id 0).pick 0 0 [candidateTask] with | some _ => true | none => false) = true ∧
    (let u := (spent 4200000).refill.trackRoom
     match u.task? 1 with
      | some t => u.candidate t && u.long t.roomSince && (match u.admitCore (u.homeDie t) t with
        | some c => (u.pick (coreDie c) (coreSector c % 3) (sortBy u.ahead (u.tasks.filter u.candidate))).isSome
        | none => false)
      | none => false) = true ∧
    (let u := (admitting (fun t => { t with reserved := true }) 0).trackRoom
     match u.task? 1 with | some t => u.candidate t && t.reserved | none => false) = true := by decide +kernel

/-- TasksEndAndHalt: a task that halts, one that has finished, one that retires, and a context that halts on its last die. -/
def halting : State :=
  { ((saver .running []).updTask 0 fun t => { t with phase := .halting, saveSlot := some 0 }) with issue := none }

theorem witness_TasksEndAndHalt_save : halting.quiet [0] = true ∧ halting.held (.save 0) = false ∧ (halting.task? 0).map (·.phase) = some .halting ∧
    (halting.ctx? 0).map (·.tsbase) = some 0 := by decide +kernel

theorem witness_TasksEndAndHalt_words (o : Origin) (ho : o.ctx = 0) :
    ∃ u, (halting.openWords 0 slotWords).2.sysWrites o (halting.openWords 0 slotWords).1 = .done u := by
  refine Flat.sysWrites _ _ (saver_flat _ (by rfl) rfl (by rfl)) ?_ o ho
  intro w hw
  simp only [State.openWords, List.mem_map, upTo, List.mem_range] at hw
  obtain ⟨i, hi, rfl⟩ := hw
  have : slotWords = 2 ^ 18 := rfl
  refine ⟨by omega, by omega, rfl⟩

theorem witness_TasksEndAndHalt :
    (let s := ready.updThread 0 0 fun u => { u with status := .exited }
     s.acting 0 = true ∧ s.finished 0 = true ∧ (s.task? 0).map (·.phase) = some .running) ∧
    (let s := ready.updTask 0 fun t => { t with phase := .retiring 3 }
     (s.task? 0).map (·.phase) = some (.retiring 3)) ∧
    (∀ l ∈ [[], [0, 1, 2]], let s := { idle with ctxs := [{ placeCtx with phase := .halting, haltedDies := l, kill := true }] }
     (s.ctx? 0).map (·.phase) = some .halting ∧ 3 ∉ l ∧ s.dieStill 0 3 = true) := by decide +kernel

/-! ## Witnesses: registers, the mailbox and power -/

/-- RegisterWrites: values at the ends of the ranges that its clauses name. -/
theorem witness_RegisterWrites : (15 : Nat) < 16 ∧ bitsOf 0x8000003F 30 6 = 0 ∧ bitsOf 0x80000040 30 6 ≠ 0 ∧ (15 : Nat) < 16 ∧ (16 : Nat) ≤ 16 := by decide

/-- The mailbox with a header and arguments. -/
def mailbox (op ctx : Nat) (args : List Nat) (f : Mailbox → Mailbox) (s : State) : State :=
  { s with dev := { s.dev with
    boot := .usable
    mbox := f { req := (BitVec.ofNat 32 (op + 256 * 7 + 65536 * ctx) :: args.map (BitVec.ofNat 32)) ++ List.replicate (15 - args.length) 0 } } }

theorem witness_MailboxProtocol :
    let m := fun (op : Nat) (f : Mailbox → Mailbox) => (mailbox op 0 [400] f ready).dev.mbox
    (m 10 fun m => { m with busy := true }).busy = true ∧ bitsOf ((m 10 id).req.getD 0 0).toNat 15 8 = 7 ∧ (m 10 id).wellFormed = true ∧
    (m 10 id).busy = false ∧ bitsOf ((m 10 id).req.getD 0 0).toNat 15 8 ≠ 8 ∧ (m 13 id).wellFormed = false ∧ ready.dev.boot ≠ .usable ∧
    (m 10 fun m => { m with answer := some (0, []) }).answer = some (0, []) ∧
    ((some { op := 2, ctx := 5 } : Option MbWait).bind ready.waitOver) = some (0, []) := by decide +kernel

/-- A request submitted and not yet performed. -/
def submitted (op ctx : Nat) (args : List Nat) (s : State) : State := mailbox op ctx args (fun m => { m with busy := true }) s

theorem witness_MailboxRequests : ∀ op ∈ [1, 2, 3, 4, 5, 6, 7, 8, 9, 10, 11, 12],
    let m := (submitted op 1 [0x10000, 0, 2] ready).dev.mbox
    m.busy = true ∧ m.wait = none ∧ m.answer = none ∧ m.arg 0 % 256 = op ∧ bitsOf (m.arg 0) 21 16 = 1 ∧ m.arg 1 % 65536 = 0 ∧
    (submitted op 1 [] ready).ctx? 1 = none ∧ ((submitted op 1 [] (saver .running [])).ctx? 1).isSome = true := by decide +kernel

theorem witness_MailboxRequests_values : (0 + 256 ≤ 768000000000) ∧ ready.mem.retry none 0 256 = false ∧ ready.mem.poisoned 0 256 = false ∧
    ((saver .halted []).ctx? 1).map (·.phase) = some .halted ∧ 65537 % 65536 ≠ 0 ∧
    (match (paged 0 0).pageLeaf 0 0 with | some l => decide (l.home ≤ 3) | none => false) = true := by decide +kernel

/-- SAVE: an image that its room holds, and words that are all written. -/
theorem witness_MailboxRequests_save : ∃ size t,
    let s := submitted 4 1 [0, 0, 0xFFFFFFFF] { saver .halted [] with issue := none }
    let f := (s.flushTasks (s.ctxTasks 1)).newId
    s.saveCheck 1 (s.dev.mbox.arg 3) = .go size ∧ 0 + 65536 * size ≤ 768000000000 ∧ f.2.physWrites 0 (imageWords f.1 size 1) = some t := by
  have hb := imageSize_bounds (submitted 4 1 [0, 0, 0xFFFFFFFF] { saver .halted [] with issue := none }) { placeCtx with num := 1, phase := .halted }
  have hl := Nat.not_lt.2 (Nat.le_of_lt (Nat.lt_trans hb.2 (show 2 ^ 23 < 0xFFFFFFFF by decide)))
  obtain ⟨t, ht⟩ := State.physWrites_still
    (imageWords ((submitted 4 1 [0, 0, 0xFFFFFFFF] { saver .halted [] with issue := none }).flushTasks
        ((submitted 4 1 [0, 0, 0xFFFFFFFF] { saver .halted [] with issue := none }).ctxTasks 1)).newId.1
      ((submitted 4 1 [0, 0, 0xFFFFFFFF] { saver .halted [] with issue := none }).imageSize { placeCtx with num := 1, phase := .halted }) 1) _
    (still_of (m := ((submitted 4 1 [0, 0, 0xFFFFFFFF] { saver .halted [] with issue := none }).flushTasks
        ((submitted 4 1 [0, 0, 0xFFFFFFFF] { saver .halted [] with issue := none }).ctxTasks 1)).newId.2.mem) (by decide +kernel) flatCells_wf) 0
  refine ⟨_, t, ?_, ?_, ht⟩
  · have hc : (submitted 4 1 [0, 0, 0xFFFFFFFF] { saver .halted [] with issue := none }).ctx? 1 = some { placeCtx with num := 1, phase := .halted } := by
      decide +kernel
    have hq : (submitted 4 1 [0, 0, 0xFFFFFFFF] { saver .halted [] with issue := none }).quiet
        ((submitted 4 1 [0, 0, 0xFFFFFFFF] { saver .halted [] with issue := none }).ctxTasks 1) = true := by decide +kernel
    have hr : (submitted 4 1 [0, 0, 0xFFFFFFFF] { saver .halted [] with issue := none }).retiresOn { placeCtx with num := 1, phase := .halted } = false := by
      decide +kernel
    have ha : (submitted 4 1 [0, 0, 0xFFFFFFFF] { saver .halted [] with issue := none }).dev.mbox.arg 3 = 0xFFFFFFFF := by decide +kernel
    simp only [State.saveCheck, hc, ha, hq, hr]
    rw [if_neg (by decide), if_neg hl, if_neg (by decide)]
  · omega

/-- Words of device memory that stand as expected. -/
theorem physMatches_still (ws : List Nat) : ∀ (s : State) (a : Nat), s.mem.Still → (∀ i (h : i < ws.length), s.mem.homeValue (a + 8 * i) 8 = ws[i]) →
    s.physMatches a ws = some (true, s) := by
  induction ws with
  | nil => exact fun s a _ _ => rfl
  | cons w ws ih =>
    intro s a h hw
    have h0 : s.mem.homeValue a 8 = w := hw 0 (by simp)
    simp only [State.physMatches, h.retry, h.poisoned, Bool.false_eq_true, if_false, State.readOrdered_still h, h0, if_true]
    refine ih s (a + 8) h fun i hi => ?_
    have := hw (i + 1) (by simpa using hi)
    simpa [Nat.mul_add, Nat.add_assoc, Nat.add_comm] using this

theorem loadImage_some (s : State) (i : Image) (hm : i.miss = []) (ht : i.tasks = []) : (s.loadImage i).isSome = true := by
  simp [State.loadImage, hm, ht, State.loadTasks]

/-- An image of no size. -/
def imageOf : Image :=
  { num := 1, size := 0, ctx := { placeCtx with num := 1 }, tasks := [], curves := [], meshes := [], miss := [], wptr := [] }

/-- LOAD: an image of a saved context in device memory, whose words match, and which is taken back. -/
theorem loads_match (s : State) (x y z : Nat) (hs : s.mem.Still) (hc : s.mem.cells = imageCells x y z) (hm : s.images = [imageOf])
    (hw : imageWords 1 0 1 = [x, y, z]) (hx : x < 256 ^ 8) (hy : y < 256 ^ 8) (hz : z < 256 ^ 8) (hd : z / 2 ^ 32 = 1) :
    s.readOrdered (2 ^ 30 + 16) 8 = (z, s) ∧ s.imageFor 1 0 z = some imageOf ∧
    s.physMatches (2 ^ 30) (imageWords 1 0 1) = some (true, s) ∧ (s.loadImage imageOf).isSome = true := by
  obtain ⟨r0, r1, r2⟩ := imageCells_read x y z
  have v0 : s.mem.homeValue (2 ^ 30) 8 = x := by rw [hs.homeValue8 (by decide), hc, r0, Nat.mod_eq_of_lt hx]
  have v1 : s.mem.homeValue (2 ^ 30 + 8) 8 = y := by rw [hs.homeValue8 (by decide), hc, r1, Nat.mod_eq_of_lt hy]
  have v2 : s.mem.homeValue (2 ^ 30 + 16) 8 = z := by rw [hs.homeValue8 (by decide), hc, r2, Nat.mod_eq_of_lt hz]
  refine ⟨by rw [State.readOrdered_still hs, v2], by rw [State.imageFor, hm, hd]; rfl, ?_, loadImage_some _ _ rfl rfl⟩
  rw [hw]
  refine physMatches_still _ s _ hs fun k hk => ?_
  match k, hk with
  | 0, _ => exact v0
  | 1, _ => exact v1
  | 2, _ => exact v2

theorem witness_MailboxRequests_load : ∃ (s : State) (z : Nat), s.mem.Still ∧ (s.ctx? 1).map (·.phase) = some .saved ∧ s.dev.mbox.busy = true ∧
    s.readOrdered (2 ^ 30 + 16) 8 = (z, s) ∧ s.imageFor 1 0 z = some imageOf ∧
    s.physMatches (2 ^ 30) (imageWords 1 0 1) = some (true, s) ∧ (s.loadImage imageOf).isSome = true := by
  obtain ⟨x, y, z, hw, hx, hy, hz, hd⟩ := imageWords_one
  generalize hc : imageCells x y z = cells
  have hs : (submitted 5 1 [2 ^ 30, 0, 0] (loader cells .saved [] [])).mem.Still := still_of rfl (hc ▸ imageCells_wf x y z :)
  exact ⟨submitted 5 1 [2 ^ 30, 0, 0] (loader cells .saved [] []), z, hs, rfl, rfl, loads_match _ x y z hs hc.symm rfl hw hx hy hz hd⟩

/-- PowerAndBoot, LinkSteps: a package above its cap, one that cools again with a sector held down, and each phase of its boot. -/
theorem witness_PowerAndBoot :
    let hot := ready.updDev fun d => { d with boot := .usable, pwrcap := 400, pwrnow := 401 }
    let cool := (ready.putHeat { die := 0, sector := 1, held := true }).updDev fun d => { d with capped := true, cycle := 105000000, pwrnow := 400 }
    hot.dev.boot = .usable ∧ hot.dev.pwrcap < hot.dev.pwrnow ∧ cool.dev.capped = true ∧ 100 * cool.dev.pwrnow < 95 * cool.dev.pwrcap ∧
    cool.dev.below + 105000000 ≤ cool.dev.cycle ∧ cool.dev.restored + 10500000 ≤ cool.dev.cycle ∧ (cool.heat 0 1).held = true ∧
    (hot.dev.boot ≠ .off ∧ hot.dev.boot ≠ .shutdown ∧ hot.dev.boot ≠ .held) ∧ (Boot.waiting 2 = .waiting 2) ∧ ready.engineBusy 127 = false ∧
    (ready.updEng fun g => { g with engines := [{ cluster := 127, streams := [], busy := true }] }).engineBusy 127 = true ∧ bitOf 3 0 = true ∧
    bitOf 2 0 = false := by decide +kernel

theorem witness_BarReads :
    let up := ready.updDev fun d => { d with boot := .usable, queues := [{ num := 15, base := 0x1234567890, en := true, ctx := 5 }]
                                             ports := [{ num := 3, state := 2, peerPort := 7, peerPkg := 9 }] }
    let down := ready.updDev fun d => { d with boot := .shutdown }
    (State.reset.dev.boot ≠ .usable ∧ State.reset.dev.boot ≠ .shutdown) ∧ down.dev.boot = .shutdown ∧ up.dev.boot = .usable ∧
    (∃ p, up.dev.ports.find? (fun x => x.num == p.num) = some p ∧ up.hostBar (.port p.num) = 0x91E) ∧
    up.hostBar (.at_ 0x3CC) = 0x80000005 ∧ up.hostBar (.at_ 0x3C4) = 0x12 ∧ down.hostBar .pwrcap = 1600 ∧ down.hostBar (.at_ 0x3CC) = 0 := by
  refine ⟨by decide +kernel, by decide +kernel, by decide +kernel,
    ⟨{ num := 3, state := 2, peerPort := 7, peerPkg := 9 }, by decide +kernel, by decide +kernel⟩, by decide +kernel, by decide +kernel,
    by decide +kernel, by decide +kernel⟩

theorem witness_LinkSteps : (∀ l ∈ ready.dev.links, l.1 ≠ 11) ∧ 11 ∉ ready.dev.retiredUnits ∧
    (let s := ready.updDev fun d => { d with links := [(11, 0)], cycle := 105000000 }
     ∃ l ∈ s.dev.links, l.1 = 11 ∧ l.2 + 105000000 ≤ s.dev.cycle) := by decide +kernel

theorem witness_RoundingDeliversNearest : (∃ m e, Fp.decode .f32 0x3F800000 = .fin false m e ∧ (0x3F800000 : Nat) < 2 ^ Fmt.width .f32) ∧
    (Fp.ofNum .f32 .rne (.fin false 1 (-200))).2 &&& fOF = 0 ∧ (Fp.ofNum .f32 .rne (.fin false 1 300)).2 &&& fOF ≠ 0 :=
  ⟨⟨8388608, -23, by decide +kernel, by decide⟩, by decide +kernel, by decide +kernel⟩

theorem witness_ApproximateFunctions : (Fp.decode .f32 0x7F800001).isNan = true ∧ (∃ m e, Fp.decode .f32 0xBF800000 = .fin true m e ∧ 0 < m) :=
  ⟨by decide +kernel, 8388608, -23, by decide +kernel, by decide⟩

/-! ## Witnesses: repeats, arithmetic and compaction -/

/-- An issue slot with a REP of two, which steps the given fields. -/
def repeated (sD sA sB : Bool) : Latch := { slot0 with rep := some (2, sD, sA, sB), n := 2 }

/-- RepeatsAreChecked: a stepped field that names no register, one that passes the end of its file, and one that does neither. -/
theorem witness_RepeatsAreChecked : (Instr.movi 16 5).fieldsOk = true ∧ Instr.isSystem (.movi 16 5) = false ∧ Instr.isClass0 (.movi 16 5) = false ∧
    (Instr.movi 16 5).fieldOperand .b = none ∧ ready.check (.movi 16 5) (repeated false false true) = some 1 ∧
    ((Instr.movi 127 5).fieldOperand .d).map (fun o => decide (o.file.size ≤ o.num + (2 - 1))) = some true ∧
    ready.check (.movi 127 5) (repeated true false false) = some 3 ∧ ready.check (.movi 16 5) (repeated true false false) = none := by decide +kernel

/-- RepeatsStepTheirFields: the word of FADD v10, v1, v2 at the second repeat. -/
theorem witness_RepeatsStepTheirFields : let w : BitVec 32 := 0x28028082
    w ≠ limmWord (limmImm w) ∧ (w.extractLsb' 14 7).toNat + 1 < 128 ∧ (w.extractLsb' 7 7).toNat + 1 < 128 ∧ (w.extractLsb' 0 7).toNat + 1 < 128 ∧
    ({ repeated true true true with j := 1 } : Latch).stepped w = 0x2802C103 := by decide +kernel

/-- ArithmeticIsExact, ApproximateFunctions: finite operands of both signs, a zero, and powers of two. -/
theorem witness_ArithmeticIsExact : Fp.decode .f32 0x3F800000 = .fin false (2 ^ 23) (-23) ∧ Fp.decode .f32 0xC0000000 = .fin true (2 ^ 23) (-22) ∧
    Fp.decode .f32 0x40000000 = .fin (!true) (2 ^ 23) (-22) ∧ (∃ e, Fp.decode .f32 0x80000000 = .fin true 0 e) ∧
    Claims.multiple (min (-22) 0) true (2 ^ 23) (-22) = -2 * 2 ^ (0 - min (-22 : Int) 0).toNat ∧
    Fp.decode .f32 0x43000000 = .fin false (2 ^ 23) (-16) ∧ 128 * 2 ^ (0 - min (-16 : Int) 0).toNat ≤ Claims.multiple (min (-16) 0) false (2 ^ 23) (-16) ∧
    Fp.decode .f32 0xC3170000 = .fin true (151 * 2 ^ 16) (-16) ∧
    Claims.multiple (min (-16) 0) true (151 * 2 ^ 16) (-16) ≤ -151 * 2 ^ (0 - min (-16 : Int) 0).toNat := by
  refine ⟨by decide +kernel, by decide +kernel, by decide +kernel, ⟨-149, by decide +kernel⟩, by decide +kernel, by decide +kernel,
    by decide +kernel, by decide +kernel, by decide +kernel⟩

theorem witness_SpecialOperands : (Fp.decode .f32 0x7FC00000).isNan = true ∧ Fp.decode .f32 0x7F800000 = .inf false ∧
    (∃ e, Fp.decode .f32 0 = .fin false 0 e) ∧
    Sys2Proof.Machine.Num.mul (Fp.decode .f32 0x7F800000) (Fp.decode .f32 0xBF800000) = some (.inf true) := by
  exact ⟨by decide +kernel, by decide +kernel, ⟨-149, by decide +kernel⟩, by decide +kernel⟩

theorem witness_IntegralsAndDotProducts : Fp.decode .f32 0x7F800001 = .nan true ∧ Fp.decode .f32 0x4B000000 = .fin false (2 ^ 23) 0 ∧
    (0 : Int) ≤ 0 ∧ (-23 : Int) < 0 ∧
    (∀ i < 4, Fp.decode .e5m2 (0x3C3C3C3C / 256 ^ i % 256) = .fin false 4 (-2)) ∧
    Sys2Proof.Machine.Num.mul (Fp.decode .e5m2 0x7C) (Fp.decode .e5m2 0) = none ∧ (Fp.decode .e5m2 0x7E).isNan = true ∧
    (∀ i < 4, Sys2Proof.Machine.Num.mul (Fp.decode .e5m2 (0x3C3C3C7E / 256 ^ i % 256)) (Fp.decode .e5m2 0x3C) ≠ none) := by decide +kernel

theorem witness_RoundingDeliversNearest_sticky : 2 ^ (Fmt.fb .f32 + 2) ≤ 2 ^ 25 ∧ 0 < 1 ∧ 1 < 2 ^ 1 := by decide

/-- Conversions: types of each kind. -/
theorem witness_Conversions : NumTy.fmt .f64 = some .f64 ∧ NumTy.fmt .e4m3 = some .e4m3 ∧ NumTy.fmt .i8 = none ∧ Fp.decode .f32 0xFF800000 = .inf true ∧
    Fp.decode .f32 0x7FC00000 = .nan false ∧ Fmt.bf16 ≠ .e4m3 ∧ Fmt.bf16 ≠ .e5m2 := by decide +kernel

/-- CompactionStops: an attempt that reached a rank, of the same participants and of others. -/
theorem witness_CompactionStops :
    let again := fun (l : List Nat) => (ready.updThread 0 0 fun u => { u with preds := 2, midway := some { id := 7, lanes := l, ranks := 1 } })
    let ts := fun (s : State) => ((begun s).lanes slot0).filter fun u => u.pred 1
    let earlier := fun (s : State) => (((begun s).lanes slot0).findSome? fun u => u.midway).filter fun m => m.lanes == (ts s).map fun (u : Thread) => u.lane
    (earlier (again [0])).isSome = true ∧ earlier (again [3]) = none ∧ earlier ready = none ∧
    (again [0]).check (.cstore false 4 8 1) slot0 = none := by decide +kernel

/-- CopyInstructions: room for every lane, an element that lies in the scratchpad, and an earlier attempt of the word, before and after its lane's entry. -/
theorem witness_CopyInstructions_places :
    let args := (((begun padded).lanes slot0).map fun u => u.copyArg 4 8 false)
    (∀ u ∈ (begun padded).lanes slot0, u.midway = none) ∧ (begun padded).queued 0 (.q 2) + ((begun padded).lanes slot0).length ≤ 16 ∧
    (∀ x ∈ args, (begun padded).copyBad (Lens.ofWords (lensRecord 0)) x [x.t.task] = false) ∧
    (∃ x ∈ args, (begun ready).copyBad (Lens.ofWords (lensRecord 0)) x [x.t.task] = true) ∧
    (∀ b ∈ [false, true], let s := padded.updThread 0 0 fun u => { u with midway := some { placed := b, snap := lensRecord 0 } }
      (((begun s).lanes slot0).findSome? fun u => u.midway).map (·.placed) = some b) := by decide +kernel

/-- COPYM: a mask of no member, and one that names a member which has not started. -/
theorem witness_CopyInstructions_members :
    (∃ x ∈ ((begun padded).lanes slot0).map fun u => u.copyArg 4 8 true, (x.mask == 0 || decide (2 ^ (begun padded).gangSize x.t ≤ x.mask)) = true) ∧
    (let s := (ready.updTask 0 fun k => { k with gang := some (1, 0) }).updCtx 0 fun c => { c with gangs :=
      [{ id := 1, ctx := 0, pour := 0, node := 0, k := 0, members := [(0, .running, 0), (9, .unstarted, 0)] }] }
     s.unstarted placeThread 2 = some (1, 1) ∧ s.unstarted placeThread 1 = none) := by decide +kernel

/-- PrismInstructions: room for a GATH's requests and none, and coordinates inside and outside the private window. -/
theorem witness_PrismInstructions_rooms : (begun ready).prismLoad 0 + slot0.exec.length ≤ 256 ∧
    (let s := ready.updEng fun g => { g with queue := [entryOf 5 (.qg 0) (.gath
      { lens := 3, snap := lensRecord 0x200, ty := .f32, lanes := List.replicate 256 { slot := 0, lane := 0, pend := 1, coords := [0, 0, 0, 0], addr := none, priv := true }, book := [], pc := 0 })] }
     256 < (begun s).prismLoad 0 + slot0.exec.length) ∧
    (((begun (loaded [(8, 0x10100)])).split slot0 8 0 16).1.length = 0) ∧
    (((begun (loaded [(9, 0xFFFF0000)])).split slot0 8 0 16).2.length = 0) := by decide +kernel

theorem witness_AtomicOperations_words : (requestOf (.atom .add)).pin = none ∧
    (∀ w ∈ pairsOf (wordKeys 0x10100 4), ready.mem.owner? w = none) := by decide +kernel

/-! ## Witnesses: meshes -/

/-- The lone thread under a page table, with a curve loaded and the records of a mesh of one leaf at 0x8000: header, segments, cut, leaf and free slot. -/
def recorded (last : Nat) : State :=
  let words := [(0x8000, 8, 0x10003), (0x8008, 8, 0x8300), (0x8010, 8, 0x8200), (0x8018, 8, 4), (0x8200, 8, 0x8400), (0x8208, 8, 0x100000004),
    (0x8210, 8, 0x8500), (0x8218, 8, 0x100000004), (0x8500, 4, last)]
  let placed := (paged 0 0).updMem fun m => { m with cells := words.foldl (fun c w => Memory.writeN c w.1 w.2.1 w.2.2) m.cells }
  (placed.updThread 0 0 fun u => { u with regs := u.regs.set 8 0x8000 }).updEng fun g => { g with curves := [zOrder] }

theorem test_kmesh_def : gives (.kmeshDef 2 4 8) (recorded 2) = [(0, 0)] := by decide +kernel
theorem test_kmesh_def_slot_twice : gives (.kmeshDef 2 4 8) (recorded 0) = [(7, 0)] := by decide +kernel
/-- Whether a read hands on, to a continuation that takes what passes a test, and to one that waits. -/
def comes {α : Type} (g : (α → State → MeshRes) → MeshRes) (test : α → State → Bool) : Bool :=
  (match g fun a t => if test a t then .val 0 t else .stop with | .val _ _ => true | _ => false) &&
    match g fun _ _ => .wait with | .wait => true | _ => false

theorem comes_value {α : Type} {g : (α → State → MeshRes) → MeshRes} (hg : HandsOn g) {test : α → State → Bool} (h : comes g test = true) :
    ∃ a t, test a t = true ∧ ∀ k, g k = k a t :=
  hg.passes test (Bool.and_eq_true_iff.mp h).1 (Bool.and_eq_true_iff.mp h).2

/-- The header and the segments of those records as they are read, and the leaf. -/
def meshWord : Nat := 0x10003 + 2 ^ 64 * (0x8300 + 2 ^ 64 * (0x8200 + 2 ^ 64 * 4))
def segsWord : Nat := 0x8400 + 2 ^ 64 * (0x100000004 + 2 ^ 64 * (0x8500 + 2 ^ 64 * 0x100000004))
def rootLeaf : LeafRec := { seg := 0, idx := 0, key := 0, slot := 0, mig := false, res := 0, user := 0, cost := 0 }

/-- The thread that issues, and the segments of the records. -/
def reader : Thread := ((begun (recorded 2)).lowest slot0).getD placeThread
def asker : Origin := (begun (recorded 2)).originOf reader
def recordedSegs : List Seg := (upTo 4).map fun i => Seg.ofBytes (segsWord / 2 ^ (256 * i) % 2 ^ 256)

/-- The tests of one read after another, from the last. -/
def stacksCome (s : State) : Bool := comes (fun k => s.readStacks asker [] k recordedSegs) fun x _ => decide (x = [2])
def leavesCome (s : State) : Bool :=
  comes (fun k => s.readSegs asker 0 [] k recordedSegs) fun x s => decide (x = [rootLeaf]) && stacksCome s
def cutsCome (s : State) : Bool := comes (fun k => s.recordRead asker reader 0x8300 (2 * 1) k) fun x s => decide (x = 0) && leavesCome s
def segsCome (s : State) : Bool :=
  decide (s.curve? asker.ctx (meshWord % 2 ^ 4) = some zOrder) &&
    comes (fun k => s.recordRead asker reader 0x8200 16 k) fun x s => decide (x = segsWord) && cutsCome s

/-- MeshDefinition: records that are all read, and whose values pass every check. -/
theorem witness_MeshDefinition_reads : (begun (recorded 2)).lowest slot0 = some reader ∧ (begun (recorded 2)).originOf reader = asker ∧ (reader.vv 8).toNat = 0x8000 ∧
    (begun (recorded 2)).mesh? asker.ctx 2 = none ∧
    ∃ s1 s2 s3 s4 s5, (∀ f : Nat → State → MeshRes,
        (begun (recorded 2)).recordRead asker reader 0x8000 8 f = f meshWord s1) ∧
      s1.curve? asker.ctx (meshWord % 2 ^ 4) = some zOrder ∧
      (∀ f : Nat → State → MeshRes, s1.recordRead asker reader 0x8200 16 f = f segsWord s2) ∧
      (∀ f : Nat → State → MeshRes, s2.recordRead asker reader 0x8300 (2 * 1) f = f 0 s3) ∧
      (∀ f : List LeafRec → State → MeshRes, s3.readSegs asker 0 [] f recordedSegs = f [rootLeaf] s4) ∧
      (∀ f : List Nat → State → MeshRes, s4.readStacks asker [] f recordedSegs = f [2] s5) := by
  refine ⟨by decide +kernel, rfl, by decide +kernel, by decide +kernel, ?_⟩
  have h : comes (fun k => (begun (recorded 2)).recordRead asker reader 0x8000 8 k)
      (fun x s => decide (x = meshWord) && segsCome s) = true := by decide +kernel
  obtain ⟨_, s1, h1, e1⟩ := comes_value (State.recordRead_handsOn ..) h
  simp only [Bool.and_eq_true, decide_eq_true_eq, segsCome] at h1
  obtain ⟨rfl, hc, h2⟩ := h1
  obtain ⟨_, s2, h2, e2⟩ := comes_value (State.recordRead_handsOn ..) h2
  simp only [Bool.and_eq_true, decide_eq_true_eq, cutsCome] at h2
  obtain ⟨rfl, h3⟩ := h2
  obtain ⟨_, s3, h3, e3⟩ := comes_value (State.recordRead_handsOn ..) h3
  simp only [Bool.and_eq_true, decide_eq_true_eq, leavesCome] at h3
  obtain ⟨rfl, h4⟩ := h3
  obtain ⟨_, s4, h4, e4⟩ := comes_value (State.readSegs_handsOn ..) h4
  simp only [Bool.and_eq_true, decide_eq_true_eq, stacksCome] at h4
  obtain ⟨rfl, h5⟩ := h4
  obtain ⟨_, s5, h5, e5⟩ := comes_value (State.readStacks_handsOn ..) h5
  cases of_decide_eq_true h5
  exact ⟨s1, s2, s3, s4, s5, e1, hc, e2, e3, e4, e5⟩

/-- The conditions on those values: each holds of them, and fails of others. -/
theorem witness_MeshDefinition_checks : bitsOf meshWord 15 4 = 0 ∧ bitsOf meshWord 63 27 = 0 ∧ meshWord / 2 ^ 224 = 0 ∧ bitsOf meshWord 26 16 = 1 ∧
    bitsOf meshWord 127 64 % 16 = 0 ∧ bitsOf meshWord 191 128 % 8 = 0 ∧ bitsOf meshWord 223 192 = 4 ∧
    (∀ g ∈ recordedSegs, g.lbase % 16 = 0 ∧ g.sbase % 4 = 0 ∧ g.lcount ≤ g.lcap ∧ g.scount ≤ g.scap ∧ (0 < g.lcap → 4 ≤ g.scap)) ∧
    (∃ g, recordedSegs[0]? = some g ∧ 0 < g.lcap) ∧ zOrder.keyOk 0 = true ∧ zOrder.minlev = 0 ∧ sortLeaves [rootLeaf] = [rootLeaf] ∧
    2 ^ (58 - rootLeaf.key / 2 ^ 58 * zOrder.d) = 2 ^ 58 ∧ (∀ x ∈ [0, 2], x < 4) ∧ [0, 2].Nodup ∧ ¬ [0, 0].Nodup ∧ bitsOf 0x10013 15 4 ≠ 0 ∧
    ¬ (0x8201 : Nat) % 64 = 0 := by decide +kernel

/-- Four leaves of one level, of different costs. -/
def fourLeaves : List LeafRec := (upTo 4).map fun i =>
  { seg := 0, idx := i, key := 2 ^ 58 + i * 2 ^ 56, slot := i, mig := false, res := 0, user := 0, cost := i + 1 }

/-- Whether a Curve Unit's write to an address finds its translation and no pin or owner in its way. -/
def writable (s : State) (va : Nat) : Bool :=
  match s.walkFor 0 va .write true with
  | (.ok l, t) => !t.mem.retry none (l.key va) 8 && (t.settleOwn asker (l.key va) 8).isSome
  | _ => false

/-- ReshapedRecords: too few free slots, no room, and room; entries of the stack that are read, in range and not; writes that are translated and not. -/
theorem witness_ReshapedRecords : (recordedSegs[rootLeaf.seg]?.map fun g => decide (g.scount < 2 ^ zOrder.d - 1)) = some true ∧
    (let g : Seg := { lbase := 0x8400, lcap := 4, lcount := 1, sbase := 0x8500, scap := 4, scount := 3 }
     2 ^ zOrder.d - 1 ≤ g.scount ∧
      g.lcount + (2 ^ zOrder.d - 1) ≤ g.lcap ∧ 3 < g.lcount + (2 ^ zOrder.d - 1)) ∧
    comes (fun k => (recorded 9).readStack asker 0x8500 0 [] k 3) (fun x _ => decide (x.length = 3 ∧ ∃ y ∈ x, 4 ≤ y)) = true ∧
    comes (fun k => (recorded 2).readStack asker 0x8500 0 [] k 3) (fun x _ => decide (x.length = 3 ∧ ∀ y ∈ x, y < 4)) = true ∧
    writable (recorded 2) 0x8400 = true ∧
    (match (recorded 2).walkFor 0 0x40000000 .write true with | (.fault _, _) => true | _ => false) = true ∧
    ((recorded 2).updMem fun m => { m with pins := [otherPin 0x8400] }).mem.retry none 0x8400 8 = true := by decide +kernel

/-- Rebalancing: masks that name the cuts and ones that do not, a cut that moves and one that has too few leaves, and a segment that would pass its room. -/
theorem witness_Rebalancing :
    let cuts : List Cut := [{ key := 0, own := 0 }, { key := 2 ^ 58 + 2 ^ 56, own := 128 }]
    let marks := [(0, false), (2 ^ 58 + 2 ^ 56, true)]
    comes (fun k => (recorded 2).recordRead asker reader (0x8500 / 8 * 8) 16 k) (fun x _ => decide (x = 2)) = true ∧
    Nat.testBit 2 0 = false ∧ Nat.testBit 2 1 = true ∧ (∀ j ∈ upTo 1024, 2 ≤ j → Nat.testBit 2 j = false) ∧ Nat.testBit 5 2 = true ∧
    newKeys fourLeaves marks = some [0, 2 ^ 58 + 3 * 2 ^ 56] ∧ newKeys [rootLeaf] marks = none ∧
    newKeys fourLeaves [(0, false), (2 ^ 58 + 3 * 2 ^ 56, true)] = some [0, 2 ^ 58 + 3 * 2 ^ 56] ∧
    (let t := ({ cuts := cuts } : CutTable).move [0, 2 ^ 58 + 3 * 2 ^ 56]
     (fourLeaves.filter fun r => t.owner r.key / 128 == 0).length = 3 ∧ (fourLeaves.filter fun r => t.owner r.key / 128 == 1).length = 1 ∧
     (fourLeaves.filter fun r => t.owner r.key != ({ cuts := cuts } : CutTable).owner r.key).length = 2) ∧
    (rangeStarts 2 [1, 2, 3, 4] = [3] ∧ rangeStarts 2 [0, 0] = [1]) := by decide +kernel

/-- CostCounters: a key of a cell inside a leaf, a key that is not well-formed, and a mesh whose leaves hold no cell. -/
theorem witness_CostCounters : meshed.mesh? 0 2 = some emptyMesh ∧ meshed.curve? 0 emptyMesh.desc = some zOrder ∧ zOrder.keyOk 1 = false ∧
    zOrder.keyOk (2 * 2 ^ 58) = true ∧ zOrder.leafOver [rootLeaf] (2 * 2 ^ 58) = some rootLeaf ∧ zOrder.contains 0 (2 * 2 ^ 58) = true ∧
    (∃ g, recordedSegs[rootLeaf.seg]? = some g) := ⟨rfl, rfl, by decide +kernel, by decide +kernel, by decide +kernel, by decide +kernel, _, rfl⟩

/-- MeshLookups: the words of a result group, and the statuses without a group. -/
theorem witness_MeshLookups_groups : (8 : Nat) < 16 ∧ meshed.mesh? 0 1 = none ∧ 2 * zOrder.d ≤ 4 ∧ ¬ 2 * zOrder.d ≤ 3 ∧
    (emptyMesh.reps.getD 0 emptyMesh.table).moving 0 = false := by decide +kernel

/-- StreamInstructions: a stream of another format whose blocks were all published in this cycle by higher slots, and one of an earlier cycle. -/
theorem witness_StreamInstructions_formats : ∀ at_ ∈ [0, 9],
    let q : Quarter := { data := [], extra := [], warp := 1, at_ := at_ }
    let x : Stream := { fmt := some .e5m2, blocks := [{ num := 0, quarters := [(0, q)] }] }
    (∃ g, x.fmt = some g ∧ g ≠ .e4m3) ∧ x.blocks ≠ [] ∧
    ((∀ k ∈ x.blocks, ∀ q ∈ k.quarters, q.1 = 0 % 4 ∧ q.2.at_ = ready.dev.cycle ∧ 0 < q.2.warp) ↔ at_ = 0) := by decide +kernel

/-! ## Witnesses: markers and engines -/

/-- MarkersRelease: the lone thread with a mate that is parked with it, whose result is on its way, or which waits for nothing. -/
def mated (ps : List Pending) : State :=
  let s := ready.updThread 0 0 fun u => { u with status := .parked .marker, mates := [0, 1] }
  { s with threads := s.threads ++ [{ placeThread with slot := 1, lane := 1, status := .parked .marker, mates := [0, 1], pending := ps }] }

theorem witness_MarkersRelease : ∀ ps ∈ ([[], [{ id := 3, dests := [(.row 8, 0)], val := 7 }]] : List (List Pending)),
    ((mated ps).thread? 0 0).map (fun u => (u.status, u.pending, u.mates)) = some (.parked .marker, [], [0, 1]) ∧
    ((mated ps).thread? 0 1).map (fun w => (w.status, w.mates, w.pending.any (mated ps).onTheWay)) = some (.parked .marker, [0, 1], !ps.isEmpty) ∧
    ((mated ps).thread? 0 1).map (·.pc) = ((mated ps).thread? 0 0).map (·.pc) := by decide +kernel

/-- How a read or an element ends in a value. -/
def endsIn (r : EngRes) (test : Nat → State → Bool) : Bool :=
  match r with
  | .val v _ t => test v t
  | _ => false

/-- TileGeometry, ElementsThroughLenses: each kind of lens, coordinates in and out of range, and the headers of a compressed tile. -/
theorem witness_ElementsThroughLenses : (Lens.ofWords (lensRecord 0)).fmt < 14 ∧ (Lens.ofWords (lensRecord 0)).cmp = false ∧
    (Lens.ofWords (lensRecord 0x10000)).cmp = true ∧ (Lens.ofWords (lensRecord 4)).fmt = 14 ∧ (Lens.ofWords (lensRecord 5)).fmt = 15 ∧
    (Lens.ofWords (lensRecord 0x104)).enc = true ∧ (Lens.ofWords (lensRecord 0)).numTy = some .f32 ∧
    (Lens.ofWords (lensRecord 0x400)).circ.getD 0 false = true ∧ (Lens.ofWords (lensRecord 0x400)).place [-1, 0, 0, 0] = some 15 ∧
    (∀ x ∈ [(0, 0), (1, 1)], ((upTo 64).filter fun i => Nat.testBit x.1 i).length = x.2 % 2 ^ 16) ∧
    ((upTo 64).filter fun i => Nat.testBit 1 i).length ≠ 0 % 2 ^ 16 ∧
    (∀ rd ∈ [fun (s : State) (_ _ : Nat) => EngRes.val 0 0 s], (match rd ready 0x10200 4 with | .val _ _ _ => true | _ => false) = true) ∧
    (64 / 64 ≠ 0) := by decide +kernel

/-- CopiesDeliver: a byte inside an element and one that begins it, elements in and out of range, reads and writes that are served, lines full and not. -/
theorem witness_CopiesDeliver :
    let l := Lens.ofWords (lensRecord 0)
    let o : Origin := { core := 0, slot := some 0, ctx := 0, priv := true }
    let s := (paged 0 0).updScratch 0 fun x => { x with lines := 2, full := [0] }
    l.sz none = 4 ∧ 5 % 4 ≠ 0 ∧ 4 % 4 = 0 ∧ l.place (l.tileCoords [16, 0, 0, 0] (4 / 4)) = none ∧ (l.place (l.tileCoords [0, 0, 0, 0] (0 / 4))).isSome = true ∧
    endsIn (l.fetch (fun s va n => s.engRead o va n) none [] 0 s) (fun _ _ => true) = true ∧ (s.scratch 0).isFull 0 = true ∧ (s.scratch 0).isFull 1 = false ∧
    endsIn (s.engWrite o (l.elemAddr 0) l.eb 7) (fun _ _ => true) = true ∧ Memory.wf (s.scratch 0).bytes = true ∧ (s.task? 0).isSome = true ∧
    0 < l.tileCount * l.sz none := by decide +kernel

/-- A GATH of one lane, through a lens that may be read only, whose result is outstanding. -/
def gathering (snap : List Word) : GathJob :=
  { lens := 3, snap := snap, ty := .f32, lanes := [{ lane := 0, slot := 0, coords := [0, 0, 0, 0], addr := none, pend := 3, priv := true }], book := [], pc := 0 }

/-- How the lane of that GATH is served: answers, faults, and whether it waits or stops. -/
def servedLane (s : State) (snap : List Word) : Nat × List Access × Bool × Nat :=
  let o : Origin := { core := 0, slot := none, ctx := 0, priv := true }
  let x := (gathering snap).lanes.foldl (fun (x : Served) g => x.next o (prismTag 0 3) (Lens.ofWords snap) (gathering snap) g) { s := s }
  (x.answers.length, x.faults.map fun f => f.2.1, x.waits, x.stops.length)

/-- GathersServe: coordinates in registers and in memory, a lane that is served and one that meets a malformed header. -/
theorem witness_GathersServe : servedLane (paged 0 0) (lensRecord 0x200) = (1, [], false, 0) ∧
    servedLane (recorded 1) ((lensRecord 0x10200).set 2 0x8500) = (0, [.format], false, 0) ∧ (Lens.ofWords (lensRecord 0x200)).ro = true ∧
    (gathering (lensRecord 0x200)).again = false ∧
    endsIn ((paged 0 0).engRead { core := 0, slot := some 0, ctx := 0, priv := true } 0x10100 16) (fun _ _ => true) = true ∧
    (Lens.ofWords (lensRecord 0)).ndim = 1 := by decide +kernel

/-- PassSums, PassOperands: products of each kind, and a quarter of a block. -/
theorem witness_PassSums : none ∈ ([none] : List (Option Sys2Proof.Machine.Num)) ∧
    some (.nan true) ∈ ([some (.nan true)] : List (Option Sys2Proof.Machine.Num)) ∧ some (.inf true) ∈ ([some (.inf true)] : List (Option Sys2Proof.Machine.Num)) ∧
    (0 < 1 ∧ ([some (.fin true 3 (-1))] : List (Option Sys2Proof.Machine.Num)) = (upTo 1).map (fun i => some (.fin ([true].getD i false) ([3].getD i 0) ([-1].getD i 0)))) ∧
    0 < (PassTy.shape (.mmas false)).k / (PassTy.shape (.mmas false)).size ∧ numBytes .e4m3 = 1 ∧ numBytes .bf16 = 2 ∧
    (let q : Quarter := { data := [], extra := [] }
     (([(1, q)] : List (Nat × Quarter)).find? fun x => x.1 == 17 / 16) = some (17 / 16, q)) := by decide +kernel

/-- A warp whose name 0 holds tile 0 of a kind, or has lost it. -/
def tiled (k : ZKind) (lost : Option LostCause) : State :=
  (ready.updName 0 0 0 fun n => { n with bound := true, kind := k, held := some k, tiles := upTo (ZKind.tiles k), lost := lost }).updEng fun g =>
    { g with tiles := (upTo (ZKind.tiles k)).map fun i => { core := 0, num := i, words := List.replicate 2080 0 } }

/-- PassesUpdateTiles: names that hold tiles of the request's kind or another, and that have lost them; a block of an accepted format and of another. -/
theorem witness_PassesUpdateTiles :
    ((tiled .f32 none).zname 0 0 0).lost = none ∧ ((tiled .f32 none).zname 0 0 0).held = some .f32 ∧ ((tiled .f64 none).zname 0 0 0).held = some .f64 ∧
    ((tiled .f32 (some .reset)).zname 0 0 0).lost ≠ none ∧ (ready.zname 0 0 0).held = none ∧
    passBad (.mmas false) false (some .sE4m3) ((tiled .f32 none).zname 0 0 0) = false ∧
    passBad (.mmas false) false (some .sE4m3) ((tiled .f64 none).zname 0 0 0) = true ∧
    passBad (.mmas false) true (some .i8) ((tiled .f32 none).zname 0 0 0) = true ∧
    ({ num := 0, quarters := [] } : Block).lutBad (PassTy.shape (.mmas false)) = false ∧ (PassTy.shape (.mmas false)).kind = .f32 := by decide +kernel

/-- TileEntriesPerform: tiles free and none, rows that are read and stored, and a name of the entry's kind. -/
theorem witness_TileEntriesPerform :
    let o : Origin := { core := 0, slot := none, ctx := 0, priv := true }
    let full := ready.updEng fun g => { g with tiles := (upTo 32).map fun i => { core := 0, num := i, words := [] } }
    (((tiled .f32 none).bindFresh 0 0 0 .f32 [0]).isSome = true ∧ (full.bindFresh 0 0 0 .f32 [0]).isNone = true ∧ (full.freeTiles 0).length < ZKind.tiles .f32 ∧
    ZKind.tiles .f32 ≤ ((tiled .f32 none).freeTiles 0).length ∧ ((tiled .f32 none).warp? 0 0).map (fun x => decide (0 < x.names.length)) = some true ∧
    (∀ y ∈ (tiled .f32 none).eng.tiles, y.words.length = 2080) ∧ (∀ m ∈ ((tiled .f32 none).zname 0 0 0).tiles, ((tiled .f32 none).tile? 0 m).isSome = true) ∧
    ((tiled .f32 none).zname 0 0 0).held = some .f32 ∧ ((tiled .f32 (some .format)).zname 0 0 0).lost ≠ none ∧
    endsIn ((tiled .f32 none).storeRows o false .f32 [0] []) (fun _ _ => true) = true ∧
    (match (paged 0 0).ctx? 0 with | some _ => true | none => false) = true) := by decide +kernel

theorem witness_TileEntriesPerform_rows (s : State) (o : Origin) (f : State → List (Nat × List Word) → EngRes) : s.loadRows o .f32 f [] [] = f s [] := rfl

/-- MatrixEngineSteps: the moments of a halt, of the task, of its context, of both and of neither; an entry that stands stalled in the port. -/
theorem witness_MatrixEngineSteps_moments : ready.haltMoment 0 = none ∧
    ((ready.updTask 0 fun t => { t with phase := .halting, haltAt := 7 }).updCtx 0 fun c => { c with phase := .halting, haltAt := 9 }).haltMoment 0 = some 7 ∧
    (ready.updCtx 0 fun c => { c with phase := .halting, haltAt := 9 }).haltMoment 0 = some 9 := by decide +kernel

/-- A port with a ZLD of a row in a pinned grain, and behind it an entry of another warp. -/
def porting (pins : List Pin) : State :=
  let row : TileRow := { lane := 0, slot := 0, va := 0x10100, leaves := [{ ctx := 0, va := 0x10000, leaf := placeLeaf }] }
  (ready.updEng fun g => { g with queue := [entryOf 4 (.qm 0) (.tile (.zld .f32 1 [row] 0)), { entryOf 5 (.qm 1) (.tile (.zrel 3)) with warp := 1 }] }).updMem
    fun m => { m with pins := pins }

theorem witness_MatrixEngineSteps_stalled :
    (porting [otherPin 0x10100]).tileStalled (entryOf 4 (.qm 0) (.tile (.zld .f32 1 [{ lane := 0, slot := 0, va := 0x10100, leaves := [{ ctx := 0, va := 0x10000, leaf := placeLeaf }] }] 0)))
      = true ∧ (4 < 5) ∧ (porting []).eng.queue.all (fun e => !(porting []).tileStalled e) = true := by decide +kernel

/-- SweepEngineSteps: a wake on its way to an element of the cursor's chunk, and a job whose stamp is still to be written and can be. -/
theorem witness_SweepEngineSteps_due :
    (let s := (runJob fun j => { j with elems := [{ pos := 5, cond := .asleep }] }).updEng fun g => { g with wakes := [{ core := 0, pos := 5 }] }
     match s.job? 0 with
     | some j => ((j.elems.mapIdx fun i e => (j.place i, e)).filter fun x => x.1 == j.cursor).any fun x => s.eng.wakes.any fun w => w.core == 0 && x.2.pos == w.pos
     | none => false) = true ∧
    (jobOn 3).stamp = 0 ∧
    endsIn ((paged 0 0).engWrite { core := 0, slot := none, ctx := 0, priv := true } 0x10100 8 (schedSig schedule)) (fun _ _ => true) = true := by decide +kernel

/-- MeshAndMirrorSteps: a KREBAL that has ended, with costs to clear and without, and one that has a message on its way. -/
theorem witness_MeshAndMirrorSteps_ends :
    let done := fun (clear : Bool) => ({ emptyMesh with inFlight := true, clear := clear } : Mesh)
    (∀ b ∈ [false, true], (done b).inFlight = true ∧ (∀ x ∈ (done b).table.cuts, x.st = false) ∧ (done b).msgs = [] ∧ (done b).waiter = [] ∧ (done b).clear = b) ∧
    emptyMesh.inFlight = false ∧ meshed.held (.switch 0 2 noLeaf) = false ∧ meshed.ctx? 0 = some placeCtx ∧ (∀ x ∈ emptyMesh.migr, x.key ≠ 0) := by
  decide +kernel

theorem witness_MeshAndMirrorSteps_ends_reads (s : State) (o : Origin) (f : List LeafRec → State → MeshRes) (g : State → MeshRes) :
    s.readSegs o 0 [] f emptyMesh.segs = f [] s ∧ s.curveWrites o g [] = g s := ⟨rfl, rfl⟩

/-- A CWB and an ICINV of one thread. -/
def rangeOf (id : Nat) (op : RangeOp) : RangeReq := { id := id, core := 0, slot := 0, ctx := 0, op := op, scope := .core, va := 0x10100, size := 4, runs := [] }

/-- HomesServeRequests: range operations in order; a request that carries a release, one that carries an acquire. -/
theorem witness_HomesServeRequests_ranges :
    let s := ready.updMem fun m => { m with ranges := [rangeOf 4 .cwb, rangeOf 5 .icinv] }
    (s.mem.reqs.find? fun r => r.id == 5) = none ∧ (s.mem.ranges.find? fun r => r.id == 5) = some (rangeOf 5 .icinv) ∧
    (∃ q ∈ s.mem.ranges, q.id < 5 ∧ q.core = 0 ∧ q.slot = 0 ∧ (q.op = .cwb ∨ q.op = .cwbinv)) ∧
    (∀ q ∈ s.mem.ranges, ¬ (q.id < 4 ∧ q.core = 0)) ∧ (∀ w ∈ pairsOf (wordKeys 0x10100 4), s.mem.owner? w = none) ∧
    (requestOf .storeWt).pin = none := by decide +kernel

/-- MemorySystemSteps: a line of core 0 that was written, and one that was not. -/
theorem witness_MemorySystemSteps_lines : ∀ b ∈ [false, true],
    let s := ready.updMem fun m => { m with l1 := [{ core := 0, key := 0x10100, val := 7, hold := .own, written := b }] }
    ((∃ x ∈ s.mem.l1, x.core = 0 ∧ x.key / 32 = 0x10104 / 32 ∧ x.written = true) ↔ b = true) ∧ s.mem.pins = [] := by decide +kernel

/-- OwnedWordsAreRecalled: a word that its owner has written, and a line that no other core holds. -/
theorem witness_OwnedWordsAreRecalled :
    let m : MemSys := (ready.mem.own 0 0 128 0x10100)
    let x : L1Word := { core := 0, key := 0x10100, val := 7, hold := .own, written := true }
    let w : MemSys := { m with l1 := [x] }
    0x10100 % 4 = 0 ∧ w.owner? 0x10100 = some (0, 0) ∧ w.pinnedWord 0x10100 = false ∧ w.l1? 0 0x10100 = some x ∧ Memory.wf w.cells = true ∧
    ready.mem.othersLine 0 0 0x10100 = false := by decide +kernel

/-- HostAndPeerRequests: the kinds of a peer's request, grains that nothing blocks and that a pin does, pages in a window and not. -/
theorem witness_HostAndPeerRequests_peers :
    let a : Arg := { ready.arg with x := 6, y := 3, z := 0x10100, n := 128, kind := .own }
    a.kind = .own ∧ (∀ w ∈ lineWords 128 a.z, ready.mem.retry none w 4 = false) ∧
    (∃ w ∈ lineWords 128 a.z, (ready.updMem fun m => { m with pins := [otherPin 0x10100] }).mem.retry none w 4 = true) ∧
    ready.mirrored a.z = false ∧ (mirrored .copy).mirrored 0x10100 = true ∧
    (∀ k ∈ [PeerReq.atom .add, .acas], ({ a with kind := k, n := 4 } : Arg).kind ≠ .own) ∧ ready.mem.retry none 0x10100 4 = false ∧
    ready.mem.poisoned 0x10100 4 = false ∧ (∀ w ∈ pairsOf (wordKeys 0x10100 4), ready.mem.owner? w = none) ∧ Memory.wf ready.mem.cells = true := by
  decide +kernel


/-- LaunchQueuesTake: a status to write, in a context that runs and in one that does not and where the write is made; a pour that has not started, of a context
that is live and of one that is saved; descriptors that are refused and accepted, with a status word and without. -/
theorem witness_LaunchQueuesTake_reports :
    let x := fun (s : State) => (s.putQueue { (queued 0).queue 0 with report := some (0, 0x8800, 2) }).queue 0
    (x (queued 0)).report = some (0, 0x8800, 2) ∧
    (∀ c, ((queued 0).updCtx 0 fun c => { c with phase := .halted }).ctx? 0 = some c → c.phase ≠ .running) ∧
    (match (queued 0).sysWrite ((queued 0).systemOrigin 0 0) 0x8800 8 2 with | .done _ => true | _ => false) = true := by
  refine ⟨by decide +kernel, fun c h => ?_, by decide +kernel⟩
  have : c.phase = .halted := by
    have e : (((queued 0).updCtx 0 fun c => { c with phase := .halted }).ctx? 0).map (·.phase) = some .halted := by decide +kernel
    rw [h] at e
    simpa using e
  rw [this]
  decide

theorem witness_LaunchQueuesTake_pours :
    let p := pourOf (some 0) false
    let live := (queued 0).updCtx 0 fun c => { c with pours := [p] }
    let saved : State := { (queued 0).updCtx 0 fun c => { c with phase := .saved } with images := [{ imageOf with ctx := { placeCtx with pours := [p] } }] }
    p.started = false ∧ p.queue = some 0 ∧ p ∈ live.queuePours 0 ∧ (live.ctx? 0).map (fun c => (c.phase, c.livePours)) = some (.running, [p]) ∧
    p ∈ saved.queuePours 0 ∧ (saved.ctx? 0).map (·.phase) = some .saved ∧
    ((saved.images.reverse.find? fun i => i.ctx.num == 0).map fun i => i.ctx.livePours) = some [p] ∧
    descBad true (dwords 1 8) = true ∧ descBad true (dwords 0 8) = false := by decide +kernel

/-- TasksAreAdmitted: a reserved task that has room, and one that has none since its core's warps are all taken. -/
theorem witness_TasksAreAdmitted_room :
    let u := (admitting (fun t => { t with reserved := true }) 0).trackRoom
    (∃ c ∈ u.targets (u.homeDie candidateTask) candidateTask, u.hasRoom candidateTask c = true) ∧
    u.candidate candidateTask = true ∧ u.candidate { candidateTask with phase := .running } = false ∧
    (u.targets (u.homeDie candidateTask) candidateTask).filter (u.hasRoom { candidateTask with nthr := 100000 }) = [] := by decide +kernel

/-- TasksEndAndHalt: a task whose cycles count since a moment, and one whose cycles stand. -/
theorem witness_TasksEndAndHalt_counts : (({ candidateTask with counting := some 5, cycles := 7 } : Task).stopCount 9).cycles = 11 ∧
    (({ candidateTask with cycles := 7 } : Task).stopCount 9).cycles = 7 := by decide +kernel

/-- RegisterWrites, PowerAndBoot, LinkSteps: the host as writer and not; a sector that budgets, and one that does not; ports and links that are none. -/
theorem witness_RegisterWrites_writers : (∀ b ∈ [false, true], ({ ready.arg with flag0 := b, reg := .hop 3 } : Arg).flag0 = b) ∧
    (ready.queue 0).report = none ∧ (({ die := 0, sector := 0, en := true, reqEn := true, rate := 256 } : Heat).lower 400 800).rate = 128 ∧
    (5 < 6) := by decide +kernel

theorem witness_LinkSteps_kinds : (11 < 12 ∨ 16 ≤ 11 ∧ 11 < 20) ∧ ¬ ((20 : Nat) < 12 ∨ 16 ≤ 20 ∧ 20 < 20 ∨ 24 ≤ 20 ∧ 20 < 28 ∨ 32 ≤ 20 ∧ 20 < 40) ∧
    (∃ l ∈ ([(11, 0)] : List (Nat × Nat)), l.1 = 11) := by decide

end Sys2Proof.Tests
end

section
/-! PROOFS. Words of the privileged and of the reserved classes (06 R126 to R129): the decoder gives them no instruction but those of
their class, and a step that reads one outside privileged mode, or of a reserved class, takes the trap of its class. -/

namespace Sys2Proof

/-! ## What a class of words decodes to -/

/-- A form that takes no LIMM decodes only without one. -/
@[simp] theorem rrr_eq_ok (limm : Option (BitVec 21)) (x : Except Reject Instr) (i : Instr) :
    rrr limm x = .ok i ↔ limm = none ∧ x = .ok i := by
  cases limm <;> simp [rrr]

/-- A form with a reserved field decodes only where that holds zero. -/
@[simp] theorem need0_eq_ok (z : BitVec 7) (x : Except Reject Instr) (i : Instr) :
    need0 z x = .ok i ↔ z = 0 ∧ x = .ok i := by
  by_cases h : z = 0#7 <;> simp [need0, h]

/-- A form of control bits decodes without a LIMM, or behind one that leaves the bits as they are. -/
@[simp] theorem ctl_eq_ok (limm : Option (BitVec 21)) (x : Except Reject Instr) (i : Instr) :
    ctl limm x = .ok i ↔ (∀ v, limm = some v → v = 0) ∧ x = .ok i := by
  cases limm with
  | none => simp [ctl]
  | some v => by_cases h : v = 0#21 <;> simp [ctl, h]

/-- A form whose fields are tested decodes only where the test holds. -/
@[simp] theorem tested_eq_ok (p : Prop) [Decidable p] (x : Except Reject Instr) (e : Reject) (i : Instr) :
    (if p then x else .error e) = .ok i ↔ p ∧ x = .ok i := by
  by_cases h : p <;> simp [h]

/-- The forms of class 13 are the system instructions (Table 6-24). -/
theorem decodeClass13_isSystem {limm : Option (BitVec 21)} {fn : BitVec 6} {d a b : BitVec 7} {i : Instr}
    (h : decodeClass13 limm fn d a b = .ok i) : Machine.Instr.isSystem i = true := by
  unfold decodeClass13 at h
  split at h <;> simp only [rrr_eq_ok, need0_eq_ok, ctl_eq_ok, tested_eq_ok, Except.ok.injEq, reduceCtorEq] at h
  case h_1 | h_2 | h_3 | h_10 => obtain ⟨-, rfl⟩ := h; rfl
  case h_5 | h_6 | h_7 => obtain ⟨-, -, rfl⟩ := h; rfl
  case h_8 | h_9 => obtain ⟨-, -, -, rfl⟩ := h; rfl
  case h_4 => obtain ⟨-, -, -, -, rfl⟩ := h; rfl

/-- A word of class 13 decodes to nothing but a system instruction (R128). -/
theorem decodeFields_isSystem {limm : Option (BitVec 21)} {f : Fields} {i : Instr} (hc : f.cls = 13)
    (h : decodeFields limm f = .ok i) : Machine.Instr.isSystem i = true := by
  simp only [decodeFields, hc] at h
  exact decodeClass13_isSystem h

/-- A word of a reserved class decodes to nothing but ILL (R127). -/
theorem decodeFields_reserved {limm : Option (BitVec 21)} {f : Fields} {i : Instr} (hc : f.cls = 14 ∨ f.cls = 15)
    (h : decodeFields limm f = .ok i) : i = .ill := by
  rcases hc with hc | hc <;> simp only [decodeFields, hc] at h
  · cases h
  · simp only [BitVec.ofNat_eq_ofNat, tested_eq_ok, rrr_eq_ok, Except.ok.injEq] at h
    exact h.2.2.symm

/-- A decoded word carries the instruction of its fields. -/
theorem decodeFields_of_decodeWord {limm : Option (BitVec 21)} {w : BitVec 32} {x : Decoded}
    (h : decodeWord limm w = .ok x) : decodeFields limm (Fields.ofWord w) = .ok x.instr := by
  unfold decodeWord at h
  split at h
  · cases h
  · next i hi =>
    split at h
    · cases h
    · split at h
      · cases h
      · cases h; exact hi

end Sys2Proof

namespace Sys2Proof.Machine

open Sys2Proof

/-! ## The step of the word that the issue slot reads -/

/-- The first repeat of a compound, and a word without REP, executes the word as it stands (R114). -/
theorem Latch.stepped_first {L : Latch} (w : BitVec 32) (h : L.rep = none ∨ L.j = 0) : L.stepped w = w := by
  unfold Latch.stepped
  split
  · next n sD sA sB hr =>
    have hj : L.j = 0 := h.resolve_left (by simp [hr])
    simp [repWord, hj]
  · rfl

/-- What the machine does next is to decode the word that its issue slot reads. -/
theorem State.readsWord.nextStep {s s' : State} {L : Latch} {w : BitVec 32} (h : s.readsWord L w s') :
    s.nextStep = s'.decodeNext L w := by
  obtain ⟨hi, ⟨hh, rfl⟩ | ⟨hh, hf⟩⟩ := h
  · simp [State.nextStep, State.nextWord, hi, hh]
  · simp [State.nextStep, State.nextWord, hi, hh, hf]

/-- A step that reads a word which decodes runs its instruction. -/
theorem State.readsWord.step_decoded {s s' : State} {L : Latch} {w : BitVec 32} {x : Decoded} (h : s.readsWord L w s')
    (hd : decodeWord L.limm (L.stepped w) = .ok x) :
    step s = exec x.instr { s' with issue := some { L with word := w, marker := x.marker } } := by
  have hd' : decodeWord L.limm (Latch.stepped { L with word := w } w) = .ok x := hd
  simp [step, h.nextStep, State.decodeNext, hd']

/-- The cause of a word that no entry admits (R129 steps 1 to 3): PRIVILEGE in class 13 outside privileged mode, else ILLEGAL. -/
def State.rejectCause (s : State) (L : Latch) (w : BitVec 32) : Nat :=
  if (Fields.ofWord w).cls == 13 && (s.at L.core L.who).any fun t => !s.privileged t then 2 else 1

theorem State.rejectCause_system {s : State} {L : Latch} {w : BitVec 32} (hc : (Fields.ofWord w).cls = 13)
    (hu : ∃ u ∈ s.at L.core L.who, s.privileged u = false) : s.rejectCause L w = 2 := by
  simpa [State.rejectCause, hc] using hu

theorem State.rejectCause_other {L : Latch} {w : BitVec 32} (s : State) (hc : (Fields.ofWord w).cls ≠ 13) :
    s.rejectCause L w = 1 := by
  have h13 : (Fields.ofWord w).cls ≠ 13#4 := hc
  simp [State.rejectCause, h13]

/-- A step that reads a word which no entry admits traps. -/
theorem State.readsWord.step_rejected {s s' : State} {L : Latch} {w : BitVec 32} {e : Reject} (h : s.readsWord L w s')
    (hd : decodeWord L.limm (L.stepped w) = .error e) :
    step s = .next (s'.trap { L with word := w } (s'.rejectCause L (L.stepped w)) 0) := by
  have hd' : decodeWord L.limm (Latch.stepped { L with word := w } w) = .error e := hd
  simp only [step, h.nextStep, State.decodeNext, hd']
  rfl

/-! ## A trap before the instruction takes effect -/

/-- A trap does not depend on what the issue slot holds: it closes it (R391). -/
theorem State.trap_of_issue (s : State) (o : Option Latch) (L : Latch) (cause info : Nat) :
    ({ s with issue := o } : State).trap L cause info = s.trap L cause info := by
  have hleft : ((({ s with issue := o } : State).updWarp L.core L.warp fun w => { w with cur := none }).unlatch) =
      (s.updWarp L.core L.warp fun w => { w with cur := none }).unlatch := rfl
  unfold State.trap
  rw [hleft]
  rfl

/-- ILL fails the first check of R129. -/
theorem State.check_ill (s : State) (L : Latch) : s.check .ill L = some 1 := by simp [State.check]

/-- A system instruction outside privileged mode fails the second check of R129. -/
theorem State.check_system {s : State} {L : Latch} {i : Instr} (hi : Instr.isSystem i = true)
    (hu : ∃ u ∈ s.at L.core L.who, s.privileged u = false) : s.check i L = some 2 := by
  have hne : i ≠ .ill := by rintro rfl; cases hi
  have hany : (s.at L.core L.who).any (fun t => !s.privileged t) = true := by simpa using hu
  simp [State.check, hne, hi, hany]

/-- A system instruction that fails a check of R129 traps. -/
theorem exec_system_trap {s : State} {L : Latch} {i : Instr} {c : Nat} (hs : s.issue = some L) (hi : Instr.isSystem i = true)
    (hc : s.check i L = some c) : exec i s = .next (s.trap L c 0) := by
  cases i with
  | ctlr | ctlw | tlbinv | eret | preempt | ctxsv | ctxld | engrst | evtq | tresume => exact Ops.instr_check hs _ hc
  | _ => cases hi

/-- A system instruction in the issue slot traps with cause PRIVILEGE where a thread is unprivileged. -/
theorem exec_system_latched {L : Latch} {i : Instr} (s : State) (hi : Instr.isSystem i = true)
    (hu : ∃ u ∈ s.at L.core L.who, s.privileged u = false) :
    exec i { s with issue := some L } = .next (s.trap L 2 0) := by
  rw [exec_system_trap (s := { s with issue := some L }) rfl hi (State.check_system hi hu), State.trap_of_issue]

/-- ILL traps with cause ILLEGAL. -/
theorem exec_ill {s : State} {L : Latch} (hs : s.issue = some L) : exec .ill s = .next (s.trap L 1 0) :=
  Ops.instr_check hs _ (State.check_ill s L)

/-- ILL in the issue slot traps with cause ILLEGAL. -/
theorem exec_ill_latched (s : State) (L : Latch) : exec .ill { s with issue := some L } = .next (s.trap L 1 0) := by
  rw [exec_ill (s := { s with issue := some L }) rfl, State.trap_of_issue]

/-! ## The classes 13, 14 and 15 -/

/-- Settles O8: a word of class 13 is a system instruction, which fails the second check of R129, or no instruction at all. -/
theorem classThirteenIsPrivileged : Obligations.ClassThirteenIsPrivileged := by
  unfold Obligations.ClassThirteenIsPrivileged
  intro s s' L w hr hj hc hu
  have hw := Latch.stepped_first w hj
  cases hd : decodeWord L.limm (L.stepped w) with
  | error e =>
    refine ⟨L.marker, ?_⟩
    rw [hr.step_rejected hd, hw, State.rejectCause_system hc hu]
  | ok x =>
    have hi : Instr.isSystem x.instr = true :=
      decodeFields_isSystem (f := Fields.ofWord w) hc (decodeFields_of_decodeWord (hw ▸ hd))
    refine ⟨x.marker, ?_⟩
    exact (hr.step_decoded hd).trans (exec_system_latched s' hi hu)

/-- A step that reads a word of a reserved class traps with cause ILLEGAL (R127). -/
theorem State.readsWord.step_reserved {s s' : State} {L : Latch} {w : BitVec 32} (hr : s.readsWord L w s')
    (hj : L.rep = none ∨ L.j = 0) (hc : w.extractLsb' 27 4 = 14 ∨ w.extractLsb' 27 4 = 15) :
    ∃ m, step s = .next (s'.trap { L with word := w, marker := m } 1 0) := by
  have hw := Latch.stepped_first w hj
  cases hd : decodeWord L.limm (L.stepped w) with
  | error e =>
    have h13 : (Fields.ofWord w).cls ≠ 13 := by
      show w.extractLsb' 27 4 ≠ 13
      rcases hc with h | h <;> rw [h] <;> decide
    refine ⟨L.marker, ?_⟩
    rw [hr.step_rejected hd, hw, State.rejectCause_other s' h13]
  | ok x =>
    have hi : x.instr = .ill :=
      decodeFields_reserved (f := Fields.ofWord w) hc (decodeFields_of_decodeWord (hw ▸ hd))
    refine ⟨x.marker, ?_⟩
    rw [hr.step_decoded hd, hi]
    exact exec_ill_latched s' _

/-- Settles O9: a word of a reserved class is ILL or no instruction at all, and ILL fails the first check of R129. -/
theorem reservedClassesAreIllegal : Obligations.ReservedClassesAreIllegal := by
  unfold Obligations.ReservedClassesAreIllegal
  exact ⟨fun _ _ _ _ hr hj hc => hr.step_reserved hj hc, by decide, by decide, fun _ _ hs => exec_ill hs⟩

end Sys2Proof.Machine
end

section
/-! PROOFS. Shifts, bit fields and bit counts (09 R175, R179, R180): the values that the model computes on numbers are those of the
operations on words of bits. -/

namespace Sys2Proof.Machine

open Sys2Proof

/-! ## Words that write the value of an arithmetic function -/

/-- An arithmetic instruction that sets no flag writes the word whose number it computes. -/
theorem Ops.writes32 {s : State} {L : Latch} {i : Instr} {d : Reg} (f : Thread → Nat) (g : Thread → Word)
    (he : exec i s = Ops.alu i d 1 s fun t => plain (f t)) (hf : ∀ u pc r, f { u with pc := pc, repLeft := r } = f u)
    (hg : ∀ u, f u = (g u).toNat) : Writes32 s L i d g :=
  Ops.writes _ _ he (fun u pc r => congrArg plain (hf u pc r)) fun u => congrArg plain (hg u)

/-- As Ops.writes32, for a pair. -/
theorem Ops.writes64 {s : State} {L : Latch} {i : Instr} {d : Reg} (f : Thread → Nat) (g : Thread → Pair)
    (he : exec i s = Ops.alu i d 2 s fun t => plain (f t)) (hf : ∀ u pc r, f { u with pc := pc, repLeft := r } = f u)
    (hg : ∀ u, f u = (g u).toNat) : Writes64 s L i d g :=
  Ops.writesPair _ _ he (fun u pc r => congrArg plain (hf u pc r)) fun u => congrArg plain (hg u)

/-! ## Two's complement -/

theorem sintN_eq_toInt (w n : Nat) : sintN w n = (BitVec.ofNat w n).toInt := by
  unfold sintN
  rw [BitVec.toInt_eq_toNat_cond, BitVec.toNat_ofNat]
  cases w with
  | zero => simp [Nat.mod_one]
  | succ w =>
    have h : n % 2 ^ (w + 1) < 2 ^ w ↔ 2 * (n % 2 ^ (w + 1)) < 2 ^ (w + 1) := by rw [Nat.pow_succ]; omega
    simp [h]

theorem sintN_toNat {w : Nat} (x : BitVec w) : sintN w x.toNat = x.toInt := by
  rw [sintN_eq_toInt, BitVec.ofNat_toNat, BitVec.setWidth_eq]

theorem modI_eq_toNat (w : Nat) (i : Int) : modI w i = (BitVec.ofInt w i).toNat := (BitVec.toNat_ofInt i).symm

/-! ## Shifts (R175) -/

theorem shiftL_toNat {w : Nat} (x : BitVec w) (n : Nat) : shiftL w x.toNat n = (x <<< n).toNat := by
  unfold shiftL
  split
  next h => rw [BitVec.shiftLeft_eq_zero h]; rfl
  next => rw [BitVec.toNat_shiftLeft, Nat.shiftLeft_eq]; rfl

theorem shiftR_toNat {w : Nat} (x : BitVec w) (n : Nat) : shiftR w x.toNat n = (x >>> n).toNat := by
  unfold shiftR
  split
  next h => rw [BitVec.ushiftRight_eq_zero h]; rfl
  next => rw [BitVec.toNat_ushiftRight, Nat.shiftRight_eq_div_pow]

/-- An amount of the width or more leaves the sign in every bit. -/
theorem sshiftRight_of_le {w : Nat} (x : BitVec w) {n : Nat} (h : w ≤ n) :
    x.sshiftRight n = if x.msb then BitVec.allOnes w else 0 := by
  ext i hi
  rw [BitVec.getElem_sshiftRight, dif_neg (by omega)]
  cases x.msb <;> simp

theorem shiftA_toNat {w : Nat} (x : BitVec w) (n : Nat) : shiftA w x.toNat n = (x.sshiftRight n).toNat := by
  have key : ∀ k, modI w (sintN w x.toNat / (2 ^ k : Nat)) = (x.sshiftRight k).toNat := fun k => by
    rw [modI_eq_toNat, sintN_toNat, ← Int.shiftRight_eq_div_pow, BitVec.sshiftRight_eq]
  unfold shiftA
  rw [key]
  split
  next h => rw [sshiftRight_of_le x h, sshiftRight_of_le x (Nat.le_refl w)]
  next => rfl

/-- Settles O14: the model shifts the number, and gives 0 or the sign for an amount of the width or more, as the shifts of words do. -/
theorem shiftsTakeTheWholeAmount : Obligations.ShiftsTakeTheWholeAmount := by
  unfold Obligations.ShiftsTakeTheWholeAmount
  intro s L d a b imm
  refine ⟨?_, ?_, ?_, ?_, ?_, ?_, ?_, ?_, ?_, ?_, ?_, ?_, fun x y n => ⟨fun h => ?_, fun h => ?_⟩⟩
  · exact Ops.writes32 _ _ rfl (fun _ _ _ => rfl) fun _ => shiftL_toNat _ _
  · exact Ops.writes64 _ _ rfl (fun _ _ _ => rfl) fun _ => shiftL_toNat _ _
  · exact Ops.writes32 _ _ rfl (fun _ _ _ => rfl) fun _ => shiftR_toNat _ _
  · exact Ops.writes64 _ _ rfl (fun _ _ _ => rfl) fun _ => shiftR_toNat _ _
  · exact Ops.writes32 _ _ rfl (fun _ _ _ => rfl) fun _ => shiftA_toNat _ _
  · exact Ops.writes64 _ _ rfl (fun _ _ _ => rfl) fun _ => shiftA_toNat _ _
  · exact Ops.writes32 _ _ rfl (fun _ _ _ => rfl) fun _ => shiftL_toNat _ _
  · exact Ops.writes64 _ _ rfl (fun _ _ _ => rfl) fun _ => shiftL_toNat _ _
  · exact Ops.writes32 _ _ rfl (fun _ _ _ => rfl) fun _ => shiftR_toNat _ _
  · exact Ops.writes64 _ _ rfl (fun _ _ _ => rfl) fun _ => shiftR_toNat _ _
  · exact Ops.writes32 _ _ rfl (fun _ _ _ => rfl) fun _ => shiftA_toNat _ _
  · exact Ops.writes64 _ _ rfl (fun _ _ _ => rfl) fun _ => shiftA_toNat _ _
  · exact ⟨BitVec.shiftLeft_eq_zero h, BitVec.ushiftRight_eq_zero h, sshiftRight_of_le x h⟩
  · exact ⟨BitVec.shiftLeft_eq_zero h, BitVec.ushiftRight_eq_zero h, sshiftRight_of_le y h⟩

/-! ## Bits of numbers -/

/-- Adding a power of two whose bit is clear sets that bit alone. -/
theorem testBit_add_two_pow {n i : Nat} (h : n.testBit i = false) (j : Nat) :
    (n + 2 ^ i).testBit j = (Decidable.decide (i = j) || n.testBit j) := by
  have hd : n = 2 ^ (i + 1) * (n / 2 ^ (i + 1)) + n % 2 ^ i := by
    have hm : n % 2 ^ (i + 1) = n % 2 ^ i := by
      rw [Nat.mod_pow_succ, ← Nat.toNat_testBit, h]; simp
    rw [← hm, Nat.div_add_mod]
  have hr : n % 2 ^ i < 2 ^ i := Nat.mod_lt _ (by positivity)
  rcases lt_trichotomy i j with hj | rfl | hj
  · have e : n + 2 ^ i = 2 ^ (i + 1) * (n / 2 ^ (i + 1)) + (2 ^ i + n % 2 ^ i) := by omega
    rw [e, Nat.testBit_two_pow_mul_add _ (by rw [Nat.pow_succ]; omega), if_neg (by omega)]
    conv_rhs => rw [hd, Nat.testBit_two_pow_mul_add _ (by rw [Nat.pow_succ]; omega), if_neg (by omega)]
    simp [hj.ne]
  · rw [Nat.add_comm, Nat.testBit_two_pow_add_eq, h]; simp
  · rw [Nat.add_comm, Nat.testBit_two_pow_add_gt hj]; simp [hj.ne']

theorem testBit_add_two_pow_if (b : Bool) {n i : Nat} (h : n.testBit i = false) (j : Nat) :
    (if b then n + 2 ^ i else n).testBit j = (Decidable.decide (i = j) && b || n.testBit j) := by
  cases b with
  | false => simp
  | true => simp [testBit_add_two_pow h]

theorem testBit_putBit_true (n i j : Nat) : (putBit n i true).testBit j = (Decidable.decide (i = j) || n.testBit j) := by
  unfold putBit
  split
  next h =>
    by_cases e : i = j
    · subst e; simp [h]
    · simp [e]
  next h => exact testBit_add_two_pow (by simpa using h) j

/-! ## Bit counts (R180) -/

theorem popcount_eq_countP (a n : Nat) : popcount a n = (List.range n).countP fun i => a.testBit i := by
  induction n with
  | zero => rfl
  | succ n ih => rw [List.range_succ, List.countP_append, ← ih]; simp [popcount]

theorem leadingZeros_eq_findIdx (a n : Nat) :
    leadingZeros a n = (List.range n).findIdx fun i => Decidable.decide (i < n) && a.testBit (n - 1 - i) := by
  induction n with
  | zero => rfl
  | succ n ih =>
    have e : ((fun i => Decidable.decide (i < n + 1) && a.testBit (n + 1 - 1 - i)) ∘ Nat.succ) =
        fun i => Decidable.decide (i < n) && a.testBit (n - 1 - i) := by
      funext i
      simp [show n - (i + 1) = n - 1 - i by omega]
    rw [List.range_succ_eq_map, List.findIdx_cons, List.findIdx_map, leadingZeros, ih, e]
    cases h : a.testBit n <;> simp [h, Nat.add_comm]

theorem findIdx_range_le (p : Nat → Bool) (n : Nat) : (List.range n).findIdx p ≤ n := by
  simpa using List.findIdx_le_length (p := p) (xs := List.range n)

theorem trailingZeros_eq_findIdx (a : Nat) : trailingZeros a = (List.range 32).findIdx fun i => a.testBit i := by
  unfold trailingZeros upTo
  rw [List.find?_eq_getElem?_findIdx]
  rcases (findIdx_range_le (fun i => a.testBit i) 32).lt_or_eq with h | h
  · rw [List.getElem?_range h]
  · rw [h]; rfl

/-- The first k steps of the reversal have set the highest k bits (R180). -/
theorem testBit_reverse_fold (a k j : Nat) (hk : k ≤ 32) :
    ((List.range k).foldl (fun r i => if a.testBit i then r + 2 ^ (31 - i) else r) 0).testBit j =
      (Decidable.decide (32 ≤ j + k ∧ j < 32) && a.testBit (31 - j)) := by
  induction k generalizing j with
  | zero => simp
  | succ k ih =>
    have ih := fun j => ih j (by omega)
    rw [List.range_succ, List.foldl_append, List.foldl_cons, List.foldl_nil,
      testBit_add_two_pow_if _ (by rw [ih]; simp; omega), ih]
    by_cases e : 31 - k = j
    · subst e
      simp [show 31 - (31 - k) = k by omega, show 31 - k + (k + 1) = 32 by omega, show 31 - k < 32 by omega]
    · have hj : (32 ≤ j + (k + 1) ∧ j < 32) ↔ (32 ≤ j + k ∧ j < 32) := by omega
      simp [e, hj]

theorem reverseBits_toNat (x : Word) : reverseBits x.toNat = x.reverse.toNat := by
  apply Nat.eq_of_testBit_eq
  intro j
  rw [← BitVec.getLsbD, BitVec.getLsbD_reverse, BitVec.getMsbD]
  exact (testBit_reverse_fold x.toNat 32 j (Nat.le_refl _)).trans (by simp [BitVec.getLsbD])

/-- A count of at most 32 is the number of its word. -/
theorem eq_toNat_ofNat {n : Nat} (h : n ≤ 32) : n = (BitVec.ofNat 32 n).toNat := by
  rw [BitVec.toNat_ofNat, Nat.mod_eq_of_lt (by omega)]

theorem popcount_toNat (x : Word) :
    popcount x.toNat 32 = (BitVec.ofNat 32 ((List.range 32).countP fun i => x.getLsbD i)).toNat := by
  rw [popcount_eq_countP]
  exact eq_toNat_ofNat (List.countP_le_length.trans_eq List.length_range)

theorem leadingZeros_toNat (x : Word) :
    leadingZeros x.toNat 32 = (BitVec.ofNat 32 ((List.range 32).findIdx fun i => x.getMsbD i)).toNat := by
  rw [leadingZeros_eq_findIdx]
  exact eq_toNat_ofNat (findIdx_range_le ..)

theorem trailingZeros_toNat (x : Word) :
    trailingZeros x.toNat = (BitVec.ofNat 32 ((List.range 32).findIdx fun i => x.getLsbD i)).toNat := by
  rw [trailingZeros_eq_findIdx]
  exact eq_toNat_ofNat (findIdx_range_le ..)

/-- Settles O16: each count of the model is a count or a first place over the 32 positions, and BREV moves bit i to 31 - i. -/
theorem bitCountResults : Obligations.BitCountResults := by
  unfold Obligations.BitCountResults
  intro s L d a
  refine ⟨?_, ?_, ?_, ?_, fun x => ⟨fun i hi => ?_, ?_⟩⟩
  · exact Ops.writes32 _ _ rfl (fun _ _ _ => rfl) fun _ => popcount_toNat _
  · exact Ops.writes32 _ _ rfl (fun _ _ _ => rfl) fun _ => leadingZeros_toNat _
  · exact Ops.writes32 _ _ rfl (fun _ _ _ => rfl) fun _ => trailingZeros_toNat _
  · exact Ops.writes32 _ _ rfl (fun _ _ _ => rfl) fun _ => reverseBits_toNat _
  · rw [BitVec.getLsbD_reverse, BitVec.getMsbD, decide_eq_true hi, Bool.true_and]
  · rintro rfl
    decide

/-! ## Bit fields (R179) -/

theorem fieldBits_eq (o w : Nat) : fieldBits o w = Claims.fieldCut o w := by
  simp [fieldBits, Claims.fieldCut]

theorem fieldCut_le (o w : Nat) : Claims.fieldCut o w ≤ 32 - o := by
  unfold Claims.fieldCut; split <;> omega

theorem extractLsb'_toNat (x : Word) (k n : Nat) : (x.extractLsb' k n).toNat = x.toNat / 2 ^ k % 2 ^ n := by
  rw [BitVec.extractLsb'_toNat, Nat.shiftRight_eq_div_pow]

/-- The word whose lowest `c` bits are set. -/
def lowOnes (c : Nat) : Word := BitVec.ofNat 32 (2 ^ c - 1)

theorem getLsbD_lowOnes {c i : Nat} (hi : i < 32) : (lowOnes c).getLsbD i = Decidable.decide (i < c) := by
  rw [lowOnes, BitVec.getLsbD_ofNat, Nat.testBit_two_pow_sub_one, decide_eq_true hi, Bool.true_and]

theorem field_toNat (x : Word) (o : Nat) {c : Nat} (hc : c ≤ 32) :
    ((x >>> o) &&& lowOnes c).toNat = x.toNat / 2 ^ o % 2 ^ c := by
  have h : 2 ^ c - 1 < 2 ^ 32 := by
    have := Nat.pow_le_pow_right (n := 2) (by decide) hc
    have := Nat.two_pow_pos c
    omega
  rw [BitVec.toNat_and, lowOnes, BitVec.toNat_ofNat, Nat.mod_eq_of_lt h, Nat.and_two_pow_sub_one_eq_mod, BitVec.toNat_ushiftRight,
    Nat.shiftRight_eq_div_pow]

theorem getLsbD_or_not_lowOnes (x : Word) {c i : Nat} (hi : i < 32) :
    (x ||| ~~~lowOnes c).getLsbD i = (x.getLsbD i || !Decidable.decide (i < c)) := by
  rw [BitVec.getLsbD_or, BitVec.getLsbD_not, getLsbD_lowOnes hi, decide_eq_true hi, Bool.true_and]

/-- A field extended from its highest bit has that bit in every place above it. -/
theorem signExtend_field {x : Word} {c : Nat} (hc : 0 < c) (hx : x.toNat < 2 ^ c) :
    (BitVec.ofNat c x.toNat).signExtend 32 = if x.getLsbD (c - 1) then x ||| ~~~lowOnes c else x := by
  have hm : (BitVec.ofNat c x.toNat).msb = x.getLsbD (c - 1) := by
    rw [BitVec.msb_eq_getLsbD_last, BitVec.getLsbD_ofNat, decide_eq_true (by omega), Bool.true_and]; rfl
  apply BitVec.eq_of_getLsbD_eq
  intro i hi
  rw [BitVec.getLsbD_signExtend, hm, BitVec.getLsbD_ofNat, decide_eq_true hi, Bool.true_and, apply_ite (BitVec.getLsbD · i),
    getLsbD_or_not_lowOnes x hi]
  by_cases h : i < c
  · simp [h, BitVec.getLsbD]
  · have hz : x.getLsbD i = false := Nat.testBit_eq_false_of_lt (hx.trans_le (Nat.pow_le_pow_right (by decide) (by omega)))
    simp only [h, hz]
    simp

/-- A field of a number replaced by the low bits of another. -/
theorem testBit_insert (d a o c j : Nat) :
    (d - d / 2 ^ o % 2 ^ c * 2 ^ o + a % 2 ^ c * 2 ^ o).testBit j =
      if o ≤ j ∧ j < o + c then a.testBit (j - o) else d.testBit j := by
  have hd : d = 2 ^ o * (2 ^ c * (d / 2 ^ o / 2 ^ c) + d / 2 ^ o % 2 ^ c) + d % 2 ^ o := by
    rw [Nat.div_add_mod, Nat.div_add_mod]
  have he : d - d / 2 ^ o % 2 ^ c * 2 ^ o + a % 2 ^ c * 2 ^ o =
      2 ^ o * (2 ^ c * (d / 2 ^ o / 2 ^ c) + a % 2 ^ c) + d % 2 ^ o := by
    rw [Nat.mul_add] at hd ⊢
    rw [Nat.mul_comm _ (2 ^ o), Nat.mul_comm _ (2 ^ o)]
    omega
  rw [he, Nat.testBit_two_pow_mul_add _ (Nat.mod_lt _ (Nat.two_pow_pos o)),
    Nat.testBit_two_pow_mul_add _ (Nat.mod_lt _ (Nat.two_pow_pos c))]
  simp only [Nat.testBit_mod_two_pow, Nat.testBit_div_two_pow]
  by_cases ho : j < o
  · simp [ho]
  · by_cases hc : j < o + c
    · simp [ho, hc, show j - o < c by omega, show o ≤ j by omega]
    · simp [ho, hc, show ¬ j - o < c by omega, show j - o - c + c + o = j by omega]

/-! ### The fields that BFX and BFI take from vB -/

theorem offset_toNat (b : Word) : b.toNat % 64 = (b.extractLsb' 0 6).toNat := by
  rw [extractLsb'_toNat, Nat.pow_zero, Nat.div_one]; rfl

theorem insertBits_toNat (b : Word) :
    insertBits b.toNat = Claims.fieldCut (b.extractLsb' 0 6).toNat (b.extractLsb' 8 6).toNat := by
  rw [extractLsb'_toNat b 8, ← offset_toNat, ← fieldBits_eq]; rfl

theorem extractField_eq (x : Bool) (a b : Nat) : extractField x a b =
    if insertBits b = 0 then 0 else
      if x then modI 32 (sintN (insertBits b) (a / 2 ^ (b % 64) % 2 ^ insertBits b)) else a / 2 ^ (b % 64) % 2 ^ insertBits b := rfl

theorem insertBits_le (b : Nat) : insertBits b ≤ 32 - b % 64 := by
  unfold insertBits; rw [fieldBits_eq]; exact fieldCut_le ..

/-- BFX is the field itself, which is 0 where it has no bits. -/
theorem extractField_false (a b : Nat) : extractField false a b = a / 2 ^ (b % 64) % 2 ^ insertBits b := by
  rw [extractField_eq]
  split
  next h => rw [h, Nat.pow_zero, Nat.mod_one]
  next => rfl

/-- BFX.i extends the field from its highest bit. -/
theorem extractField_true_toNat (a b : Word) {c : Nat} {f : Word} (hc : c = insertBits b.toNat)
    (hf : f.toNat = a.toNat / 2 ^ (b.toNat % 64) % 2 ^ insertBits b.toNat) : extractField true a.toNat b.toNat =
    (if c = 0 then 0 else if f.getLsbD (c - 1) then f ||| ~~~lowOnes c else f).toNat := by
  subst hc
  rw [extractField_eq, if_pos rfl, ← hf]
  split
  next => rfl
  next h =>
    rw [modI_eq_toNat, sintN_eq_toInt, ← signExtend_field (by omega) (hf ▸ Nat.mod_lt _ (Nat.two_pow_pos _))]
    rfl

theorem getLsbD_fieldMask (o c : Nat) {i : Nat} (hi : i < 32) :
    (lowOnes c <<< o).getLsbD i = Decidable.decide (o ≤ i ∧ i < o + c) := by
  rw [BitVec.getLsbD_shiftLeft, getLsbD_lowOnes (by omega), decide_eq_true hi, Bool.eq_iff_iff]
  simp; omega

/-- BFI puts the low bits of vA in the place of the field (R179). -/
theorem insertField_toNat (d a b : Word) {o c : Nat} (ho : o = b.toNat % 64) (hc : c = insertBits b.toNat) :
    insertField d.toNat a.toNat b.toNat =
      ((d &&& ~~~(lowOnes c <<< o)) ||| ((a <<< o) &&& (lowOnes c <<< o))).toNat := by
  have hle := insertBits_le b.toNat
  subst ho hc
  apply Nat.eq_of_testBit_eq
  intro j
  refine (testBit_insert ..).trans ?_
  simp only [BitVec.testBit_toNat]
  by_cases hj : j < 32
  · simp only [BitVec.getLsbD_or, BitVec.getLsbD_and, BitVec.getLsbD_not, getLsbD_fieldMask _ _ hj]
    split
    next h => simp [h, hj, BitVec.getLsbD_shiftLeft, Nat.not_lt.2 h.1, -BitVec.getLsbD_eq_getElem]
    next h => simp [h, hj]
  · rw [if_neg (by omega), BitVec.getLsbD_of_ge _ _ (by omega), BitVec.getLsbD_of_ge _ _ (by omega)]

/-- BFI leaves a lane whose field has no bits as it is, and writes the field of any other (R179). -/
theorem completes_bfi {s : State} {L : Latch} {d a b : Reg} (h : s.executes L (.bfi d a b)) :
    Completes s L (.bfi d a b) (fun u =>
      if insertBits (u.num b) = 0 then u else Thread.willWrite d 1 (insertField (u.num d) (u.num a) (u.num b)) 0 u) id := by
  refine Ops.completes_lanes h _ rfl _ _ rfl (fun x => ?_) (fun u pc r => ?_) (Stays.of_same _ fun x => ?_)
  · split <;> exact ⟨rfl, rfl⟩
  · by_cases he : insertBits (u.num b) = 0
    · rw [if_pos he, if_pos (by exact he)]
      exact ⟨rfl, .inl rfl⟩
    · rw [if_neg he, if_neg (by exact he)]
      exact ⟨rfl, .inl rfl⟩
  · split <;> exact ⟨rfl, rfl, rfl⟩

/-- Settles O15: the model takes the field by division and remainder, whose bits are those of the shifted and masked words. -/
theorem bitFieldResults : Obligations.BitFieldResults := by
  unfold Obligations.BitFieldResults
  intro s L d a b o c ones f
  have ho (u : Thread) : o u = (u.v b).toNat % 64 := (offset_toNat _).symm
  have hc (u : Thread) : c u = insertBits (u.v b).toNat := (insertBits_toNat _).symm
  have hf (u : Thread) : (f u).toNat = (u.v a).toNat / 2 ^ ((u.v b).toNat % 64) % 2 ^ insertBits (u.v b).toNat := by
    have hle := insertBits_le (u.v b).toNat
    rw [← ho, ← hc]
    exact field_toNat _ _ (by rw [hc]; omega)
  refine ⟨?_, ?_, fun h => ?_⟩
  · exact Ops.writes32 _ _ rfl (fun _ _ _ => rfl) fun u => (extractField_false _ _).trans (hf u).symm
  · exact Ops.writes32 _ _ rfl (fun _ _ _ => rfl) fun u => extractField_true_toNat _ _ (hc u) (hf u)
  · convert completes_bfi h using 2 with u
    rw [Thread.num, Thread.num, Thread.num, insertField_toNat _ _ _ (ho u) (hc u), ← hc]
    by_cases he : c u = 0 <;> simp [he, Nat.pos_iff_ne_zero, ones, lowOnes]

end Sys2Proof.Machine
end

section
/-! PROOFS. The instructions that act across the lanes of a tile (09 R184, R185): what each executing lane finds among the executing
threads of its tile, as they stood at issue. -/

namespace Sys2Proof.Machine

open Sys2Proof

/-! ## What an instruction reads of a thread that its compound has moved on -/

@[simp] theorem Thread.advance_v (L : Latch) (u : Thread) (r : Reg) : (u.advance L).v r = u.v r := (u.advance_reads L).1 _
@[simp] theorem Thread.advance_num (L : Latch) (u : Thread) (r : Reg) : (u.advance L).num r = u.num r :=
  congrArg BitVec.toNat (u.advance_v L r)
@[simp] theorem Thread.advance_opnd (L : Latch) (u : Thread) (w : Bool) (n : Nat) : (u.advance L).opnd w n = u.opnd w n := by
  simp [Thread.opnd, u.advance_reads L]
@[simp] theorem Thread.advance_pred (L : Latch) (u : Thread) (n : Nat) : (u.advance L).pred n = u.pred n :=
  (u.advance_reads L).2.2.1 n
@[simp] theorem Thread.advance_lane (L : Latch) (u : Thread) : (u.advance L).lane = u.lane := (u.advance_reads L).2.2.2.2

/-! ## Lane masks -/

theorem testBit_laneMask (ts : List Thread) (n : Nat) : (laneMask ts).testBit n = ts.any fun x => x.lane == n := by
  have key : ∀ m, (ts.foldl (fun m t => putBit m t.lane true) m).testBit n = (ts.any (fun x => x.lane == n) || m.testBit n) := by
    induction ts with
    | nil => intro m; rfl
    | cons t ts ih =>
      intro m
      rw [List.foldl_cons, ih, testBit_putBit_true, List.any_cons, Bool.or_left_comm, Bool.or_assoc]
      rfl
  rw [laneMask, key, Nat.zero_testBit, Bool.or_false]

@[simp] theorem laneMask_advance (L : Latch) (ts : List Thread) : laneMask (ts.map (Thread.advance L)) = laneMask ts := by
  simp [laneMask, List.foldl_map]

/-! ## Tiles -/

theorem tileOf_advance (n : Nat) (L : Latch) (ts : List Thread) (u : Thread) :
    tileOf n (ts.map (Thread.advance L)) u = (tileOf n ts u).map (Thread.advance L) := by
  simp [tileOf, List.filter_map, Function.comp_def]

/-- An instruction of a tile completes; its results are those of the tile's executing threads as they stood at issue. -/
theorem Ops.completes_tile {s : State} {L : Latch} {i : Instr} (h : s.executes L i) (f : List Thread → Nat → Thread → Pending)
    (he : exec i s = Ops.tile i s f) (p : Thread → Pending)
    (hf : ∀ u pc r, f ((s.tileMates L u).map (Thread.advance L)) (s.tileSize L) { u with pc := pc, repLeft := r } = p u) :
    Completes s L i (fun u => u.addPending (p u)) id := by
  refine Ops.completes_lanes h _ he _ _ rfl (fun _ => ⟨rfl, rfl⟩) (fun u pc r => ?_) (Stays.of_same _ fun _ => ⟨rfl, rfl, rfl⟩)
  dsimp only
  rw [State.lanes_advance, tileOf_advance, ← hf u pc r]
  exact ⟨rfl, .inl rfl⟩

theorem State.mem_tileMates {s : State} {L : Latch} {u x : Thread} :
    x ∈ s.tileMates L u ↔ x ∈ s.lanes L ∧ x.lane / s.tileSize L = u.lane / s.tileSize L := by
  simp [State.tileMates]

/-! ## MATCH and VOTE (R184) -/

theorem beq_toNat {w : Nat} (x y : BitVec w) : (x.toNat == y.toNat) = (x == y) := by
  rw [Bool.eq_iff_iff, beq_iff_eq, beq_iff_eq, BitVec.toNat_inj]

/-- MATCH writes the mask of the executing threads of the tile whose key is the lane's (R184). -/
theorem completes_match {s : State} {L : Latch} {w : Bool} {d a : Reg} (h : s.executes L (.match w d a)) :
    Completes s L (.match w d a) (fun u => Thread.willWrite d 1
      (laneMask ((s.tileMates L u).filter fun x => x.opnd w a.toNat == u.opnd w a.toNat)) 0 u) id := by
  refine Ops.completes_tile h _ (show exec _ s = execMatch w d a s from rfl) _ fun u pc r => ?_
  simp only [List.filter_map, laneMask_advance, Function.comp_def, Thread.advance_opnd]
  rfl

theorem isEmpty_filter_eq_all {α : Type} (p : α → Bool) (l : List α) : (l.filter p).isEmpty = l.all fun x => !p x := by
  rw [Bool.eq_iff_iff]
  simp

theorem length_filter_beq_eq_all {α : Type} (p : α → Bool) (l : List α) : ((l.filter p).length == l.length) = l.all p := by
  rw [Bool.eq_iff_iff, beq_iff_eq, List.length_filter_eq_length_iff, List.all_eq_true]

/-- VOTE.ballot writes the mask of the executing threads of the tile whose predicate is set (R184). -/
theorem completes_ballot {s : State} {L : Latch} {d a : Reg} (h : s.executes L (.vote .ballot d a)) :
    Completes s L (.vote .ballot d a) (fun u => Thread.willWrite d 1
      (laneMask ((s.tileMates L u).filter fun x => x.pred a.toNat)) 0 u) id := by
  refine Ops.completes_tile h _ (show exec _ s = execVote .ballot d a s from rfl) _ fun u pc r => ?_
  simp only [List.filter_map, laneMask_advance, Function.comp_def, Thread.advance_pred]
  rfl

theorem writesPred_any (s : State) (L : Latch) (d a : Reg) :
    WritesPred s L (.vote .any d a) d fun u => (s.tileMates L u).any fun x => x.pred a.toNat := by
  intro h
  refine Ops.completes_tile h _ (show exec _ s = execVote .any d a s from rfl) _ fun u pc r => ?_
  simp only [isEmpty_filter_eq_all, List.all_map, Function.comp_def, Thread.advance_pred,
    List.not_all_eq_any_not, Bool.not_not]

theorem writesPred_all (s : State) (L : Latch) (d a : Reg) :
    WritesPred s L (.vote .all d a) d fun u => (s.tileMates L u).all fun x => x.pred a.toNat := by
  intro h
  refine Ops.completes_tile h _ (show exec _ s = execVote .all d a s from rfl) _ fun u pc r => ?_
  simp only [length_filter_beq_eq_all, List.all_map, Function.comp_def, Thread.advance_pred]

theorem writesPred_uni (s : State) (L : Latch) (d a : Reg) :
    WritesPred s L (.vote .uni d a) d fun u =>
      (s.tileMates L u).all (fun x => x.pred a.toNat) || (s.tileMates L u).all fun x => !x.pred a.toNat := by
  intro h
  refine Ops.completes_tile h _ (show exec _ s = execVote .uni d a s from rfl) _ fun u pc r => ?_
  simp only [isEmpty_filter_eq_all, length_filter_beq_eq_all, List.all_map, Function.comp_def,
    Thread.advance_pred, Bool.or_comm]

/-- Settles O19: each vote is taken over the executing threads of the tile, whose registers and lanes are those at issue. -/
theorem tileVotes : Obligations.TileVotes := by
  unfold Obligations.TileVotes
  intro s L d a mates writesMask
  refine ⟨fun h => ?_, fun h => ?_, completes_ballot, writesPred_any s L d a, writesPred_all s L d a, writesPred_uni s L d a,
    testBit_laneMask, fun u hu => State.mem_tileMates.2 ⟨hu, rfl⟩⟩
  · convert completes_match h using 5 with u
    exact funext fun x => (beq_toNat _ _).symm
  · convert completes_match h using 5 with u
    exact funext fun x => (beq_toNat _ _).symm

/-! ## SHFL (R185) -/

theorem State.tileSize_pos (s : State) (L : Latch) : 0 < s.tileSize L := by
  unfold State.tileSize
  split
  · exact Nat.two_pow_pos _
  · decide

theorem shflSource_xor (b n l sel : Nat) : shflSource .xor b n l sel =
    if b ≤ (l ^^^ sel) ∧ (l ^^^ sel) < b + n then some (l ^^^ sel) else none := by
  simp only [shflSource, Bool.and_eq_true, decide_eq_true_eq]
  rfl

/-- The source lane of a shuffle lies in the tile of its thread (R185). -/
theorem shflSource_div {m : ShflMode} {n l sel j : Nat} (hn : 0 < n) (h : shflSource m (l / n * n) n l sel = some j) :
    j / n = l / n := by
  suffices l / n * n ≤ j ∧ j < l / n * n + n from (Nat.div_eq_iff hn).2 (by omega)
  have hl : l / n * n ≤ l ∧ l < l / n * n + n := ⟨Nat.div_mul_le_self l n, Nat.lt_div_mul_add hn⟩
  cases m with
  | xor =>
    rw [shflSource_xor, Option.ite_none_right_eq_some] at h
    obtain ⟨hj, ⟨⟩⟩ := h
    exact hj
  | idx | up | down =>
    simp only [shflSource, Option.ite_none_left_eq_some, Option.some.injEq] at h
    omega

/-- A lane of a tile is found among the executing threads of the tile, moved on, where it is found among all of them. -/
theorem State.find?_tileMates {s : State} {L : Latch} {u : Thread} {j : Nat} (h : j / s.tileSize L = u.lane / s.tileSize L) :
    ((s.tileMates L u).map (Thread.advance L)).find? (fun x => x.lane == j) =
      ((s.lanes L).find? fun x => x.lane == j).map (Thread.advance L) := by
  rw [List.find?_map, State.tileMates, List.find?_filter]
  congr 2
  funext x
  by_cases e : x.lane = j
  · simp [e, h]
  · simp [e]

/-- The vA of the executing thread in the lane `j`, or that of `u` where there is none. -/
def State.shuffled (s : State) (L : Latch) (a : Reg) (u : Thread) (j : Option Nat) : Word :=
  match j with
  | none => u.v a
  | some j => match (s.lanes L).find? fun x => x.lane == j with
    | some x => x.v a
    | none => u.v a

/-- SHFL writes the vA of its source lane. -/
theorem writes_shfl (s : State) (L : Latch) (m : ShflMode) (d a b : Reg) : Writes32 s L (.shfl m d a b) d fun u =>
    s.shuffled L a u (shflSource m (u.lane / s.tileSize L * s.tileSize L) (s.tileSize L) u.lane (u.v b).toNat) := by
  intro h
  refine Ops.completes_tile h _ (show exec _ s = execShfl m d a b s from rfl) _ fun u pc r => ?_
  have key : ∀ o : Option Nat, (∀ j, o = some j → j / s.tileSize L = u.lane / s.tileSize L) →
      (match (match o with
        | some j => ((s.tileMates L u).map (Thread.advance L)).find? fun (x : Thread) => x.lane == j
        | none => none) with
      | some x => x.num a
      | none => u.num a) = (s.shuffled L a u o).toNat := by
    rintro (_ | j) hj
    · rfl
    · dsimp only [State.shuffled]
      rw [State.find?_tileMates (hj j rfl)]
      cases (s.lanes L).find? fun x => x.lane == j with
      | none => rfl
      | some x => exact x.advance_num L a
  exact congrArg (fun v => u.result d.toNat 1 v 0) (key _ fun j => shflSource_div (s.tileSize_pos L))

/-- Settles O20: the source lane lies in the lane's own tile, so that it is found there where it executes at all. -/
theorem shuffleSources : Obligations.ShuffleSources := by
  unfold Obligations.ShuffleSources
  intro s L m d a b
  cases m with
  | idx | up | down => exact writes_shfl s L _ d a b
  | xor =>
    have h := writes_shfl s L .xor d a b
    simp only [shflSource_xor] at h
    exact h

end Sys2Proof.Machine
end

section
/-! PROOFS. The float forms that move, class and compare bit patterns (10 R195 to R198): sign bits and selection, the class of a pattern,
and the order of the values that two patterns have. -/

namespace Sys2Proof.Machine

open Sys2Proof

/-! ## Words that write a pattern or a truth value, with flags -/

/-- An arithmetic instruction completes with the value and the flags that its function computes. -/
theorem Ops.completes_alu {s : State} {L : Latch} {i : Instr} {d : Reg} {n : Nat} (h : s.executes L i) (f : Thread → Fr) {g : Thread → Fr}
    (he : exec i s = Ops.alu i d n s f) (hf : ∀ u pc r, f { u with pc := pc, repLeft := r } = f u) (hg : ∀ u, f u = g u) :
    Completes s L i (fun u => Thread.willWrite d n (g u).1 (g u).2 u) id := by
  obtain rfl : f = g := funext hg
  have := Ops.alu_answers h d n f hf
  rwa [← he] at this

/-- As Ops.completes_alu, for a predicate. -/
theorem Ops.completes_test {s : State} {L : Latch} {i : Instr} {d : Reg} (h : s.executes L i) (f : Thread → Bool × BitVec 7)
    (he : exec i s = Ops.test i d s f) (hf : ∀ u pc r, f { u with pc := pc, repLeft := r } = f u) :
    Completes s L i (fun u => Thread.willSet d (f u).1 (f u).2 u) id := by
  have := Ops.test_answers h d f hf
  rwa [← he] at this

/-- An operand of 32 bits is the whole register. -/
theorem Thread.lowNum_f32 (u : Thread) (r : Reg) : u.lowNum .f32 r = (u.v r).toNat := Nat.mod_eq_of_lt (u.v r).isLt

/-! ## Sign bits (R196) -/

theorem xor_two_pow_of_not_testBit {n k : Nat} (h : n.testBit k = false) : n ^^^ 2 ^ k = n + 2 ^ k := by
  apply Nat.eq_of_testBit_eq
  intro j
  rw [testBit_add_two_pow h, Nat.testBit_xor, Nat.testBit_two_pow]
  by_cases hj : k = j
  · subst hj; simp [h]
  · simp [hj]

theorem flipSign_eq_xor (f : Fmt) (n : Nat) : flipSign f n = n ^^^ 2 ^ (f.width - 1) := by
  unfold flipSign
  split
  next h =>
    have hc : (n ^^^ 2 ^ (f.width - 1)).testBit (f.width - 1) = false := by simp [h]
    have hn := xor_two_pow_of_not_testBit hc
    rw [Nat.xor_assoc, Nat.xor_self, Nat.xor_zero] at hn
    omega
  next h => exact (xor_two_pow_of_not_testBit (by simpa using h)).symm

theorem flipSign_toNat (f : Fmt) {w : Nat} (x : BitVec w) (h : f.width ≤ w) :
    flipSign f x.toNat = (x ^^^ BitVec.ofNat w (2 ^ (f.width - 1))).toNat := by
  have hw : f.width - 1 < w := by unfold Fmt.width at *; omega
  rw [flipSign_eq_xor, BitVec.toNat_xor, BitVec.toNat_ofNat, Nat.mod_eq_of_lt (Nat.pow_lt_pow_right (by decide) hw)]

theorem toNat_and_low {w n : Nat} (x : BitVec w) (h : n ≤ w) : (x &&& BitVec.ofNat w (2 ^ n - 1)).toNat = x.toNat % 2 ^ n := by
  have hn : 2 ^ n ≤ 2 ^ w := Nat.pow_le_pow_right (by decide) h
  have := Nat.two_pow_pos n
  rw [BitVec.toNat_and, BitVec.toNat_ofNat, Nat.mod_eq_of_lt (by omega), Nat.and_two_pow_sub_one_eq_mod]

theorem clearSign_toNat (f : Fmt) {w : Nat} (x : BitVec w) (h : f.width - 1 ≤ w) :
    clearSign f x.toNat = (x &&& BitVec.ofNat w (2 ^ (f.width - 1) - 1)).toNat := (toNat_and_low x h).symm

/-- The sign bit lies among the bits of the format. -/
theorem clearSign_mod (f : Fmt) (n : Nat) : clearSign f (n % 2 ^ f.width) = clearSign f n :=
  Nat.mod_mod_of_dvd _ (Nat.pow_dvd_pow 2 (Nat.sub_le ..))

/-- An operand of fewer bits than a register is the register with its other bits cleared. -/
theorem Thread.lowNum_toNat (u : Thread) (r : Reg) (f : Fmt) (h : f.width ≤ 32) :
    u.lowNum f r = (u.v r &&& BitVec.ofNat 32 (2 ^ f.width - 1)).toNat := (toNat_and_low _ h).symm

/-- FSEL writes vA in the lanes whose pB is set and has no result in the others (R196). -/
theorem completes_fsel {s : State} {L : Latch} {d a b : Reg} (h : s.executes L (.fsel d a b)) :
    Completes s L (.fsel d a b) (fun u => if u.pred b.toNat then Thread.willWrite d 1 (u.v a).toNat 0 u else u) id := by
  refine Ops.completes_lanes h _ (show exec _ s = execFsel d a b s from rfl) _ _ rfl (fun x => ?_) (fun u pc r => ?_)
    (Stays.of_same _ fun x => ?_)
  · split <;> exact ⟨rfl, rfl⟩
  · by_cases hb : u.pred b.toNat = true
    · rw [if_pos hb, if_pos (by exact hb)]
      exact ⟨rfl, .inl rfl⟩
    · rw [if_neg hb, if_neg (by exact hb)]
      exact ⟨rfl, .inl rfl⟩
  · split <;> exact ⟨rfl, rfl, rfl⟩

/-- Settles O25: the model adds or subtracts the power of two of the sign bit, or takes the remainder by it, which on words is to flip
or to clear that bit. -/
theorem signBitsAndSelection : Obligations.SignBitsAndSelection := by
  unfold Obligations.SignBitsAndSelection
  intro s L d a b
  refine ⟨?_, ?_, ?_, ?_, ?_, ?_, ?_, ?_, completes_fsel⟩
  · exact Ops.writes32 _ _ rfl (fun _ _ _ => rfl) fun u => by rw [Thread.lowNum_f32]; exact flipSign_toNat .f32 _ (by decide)
  · exact Ops.writes32 _ _ rfl (fun _ _ _ => rfl) fun u => by
      rw [Thread.lowNum_toNat u a .f16 (by decide)]; exact flipSign_toNat .f16 _ (by decide)
  · exact Ops.writes32 _ _ rfl (fun _ _ _ => rfl) fun u => by
      rw [Thread.lowNum_toNat u a .bf16 (by decide)]; exact flipSign_toNat .bf16 _ (by decide)
  · exact Ops.writes64 _ _ rfl (fun _ _ _ => rfl) fun u => flipSign_toNat .f64 _ (by decide)
  · exact Ops.writes32 _ _ rfl (fun _ _ _ => rfl) fun u => (clearSign_mod ..).trans (clearSign_toNat .f32 _ (by decide))
  · exact Ops.writes32 _ _ rfl (fun _ _ _ => rfl) fun u => (clearSign_mod ..).trans (clearSign_toNat .f16 _ (by decide))
  · exact Ops.writes32 _ _ rfl (fun _ _ _ => rfl) fun u => (clearSign_mod ..).trans (clearSign_toNat .bf16 _ (by decide))
  · exact Ops.writes64 _ _ rfl (fun _ _ _ => rfl) fun u => clearSign_toNat .f64 _ (by decide)

/-! ## Classes (R198) -/

/-- The fields of a pattern of a format other than E4M3, and the value that they give. -/
theorem Fp.decode_ieee {f : Fmt} (hf : f ≠ .e4m3) (n : Nat) : Fp.decode f n =
    (let b := n % 2 ^ f.width
     let neg := b.testBit (f.width - 1)
     let ex := b / 2 ^ f.fb % 2 ^ f.eb
     let fr := b % 2 ^ f.fb
     if ex = 2 ^ f.eb - 1 then if fr = 0 then .inf neg else .nan (!fr.testBit (f.fb - 1))
     else if ex = 0 then .fin neg fr f.qmin else .fin neg (2 ^ f.fb + fr) (f.qmin + ((ex : Int) - 1))) := by
  simp [Fp.decode, hf]

theorem beq_extractLsb' {w : Nat} (x : BitVec w) (k n : Nat) {v : Nat} (hv : v < 2 ^ n) :
    (x.extractLsb' k n == BitVec.ofNat n v) = Decidable.decide (x.toNat / 2 ^ k % 2 ^ n = v) := by
  rw [← beq_toNat, BitVec.extractLsb'_toNat, Nat.shiftRight_eq_div_pow, BitVec.toNat_ofNat, Nat.mod_eq_of_lt hv]
  rfl

/-- FCLASS sets the bit of the class that sign, exponent and fraction give (R198): a normal value has the hidden bit, so that it is
neither 0 nor below the least normal one. -/
theorem Fp.classify_toNat {f : Fmt} (hf : f ≠ .e4m3) (x : BitVec f.width) : Fp.classify f x.toNat =
    2 ^ Claims.classBit (x.getLsbD (f.width - 1)) (x.extractLsb' f.fb f.eb == BitVec.ofNat f.eb (2 ^ f.eb - 1))
      (x.extractLsb' f.fb f.eb == BitVec.ofNat f.eb 0) (x.extractLsb' 0 f.fb == BitVec.ofNat f.fb 0) (x.getLsbD (f.fb - 1)) := by
  have he := Nat.two_pow_pos f.eb
  have hq : (x.toNat % 2 ^ f.fb).testBit (f.fb - 1) = x.getLsbD (f.fb - 1) := by
    have hp : f.fb - 1 < f.fb := by cases f <;> decide
    rw [Nat.testBit_mod_two_pow, decide_eq_true hp, Bool.true_and, BitVec.testBit_toNat]
  have hlt : x.toNat % 2 ^ f.fb < 2 ^ f.fb := Nat.mod_lt _ (Nat.two_pow_pos _)
  rw [Fp.classify, Fp.decode_ieee hf, beq_extractLsb' x _ _ (by omega), beq_extractLsb' x _ _ he,
    beq_extractLsb' x _ _ (Nat.two_pow_pos _), Nat.pow_zero, Nat.div_one, Nat.mod_eq_of_lt x.isLt]
  dsimp only
  rw [hq, BitVec.testBit_toNat]
  generalize x.getLsbD (f.width - 1) = sign, x.getLsbD (f.fb - 1) = quiet, x.toNat / 2 ^ f.fb % 2 ^ f.eb = ex,
    x.toNat % 2 ^ f.fb = fr at hlt
  by_cases hones : ex = 2 ^ f.eb - 1
  · by_cases hfr : fr = 0
    · cases sign <;> simp [Claims.classBit, hones, hfr]
    · cases quiet <;> simp [Claims.classBit, hones, hfr]
  · by_cases hex : ex = 0
    · have hz : ¬ 0 = 2 ^ f.eb - 1 := hex ▸ hones
      by_cases hfr : fr = 0
      · cases sign <;> simp [Claims.classBit, hz, hex, hfr]
      · cases sign <;> simp [Claims.classBit, hz, hex, hfr, hlt]
    · cases sign <;> simp [Claims.classBit, hones, hex]

/-- Settles O26: the model classes a pattern by the value that it decodes to, which its fields decide. -/
theorem floatClasses : Obligations.FloatClasses := by
  unfold Obligations.FloatClasses
  refine ⟨Fp.classify_toNat (f := .f32) (by decide), Fp.classify_toNat (f := .f64) (by decide), fun s L d a => ⟨fun h => ?_, fun h => ?_⟩⟩
  · exact Ops.completes_alu h _ rfl (fun _ _ _ => rfl) (g := fun u => plain (Fp.classify .f32 (u.v a).toNat)) fun _ => rfl
  · exact Ops.completes_alu h _ rfl (fun _ _ _ => rfl) (g := fun u => plain (Fp.classify .f64 (u.vv a).toNat)) fun _ => rfl

/-! ## The order of values (R195, R197) -/

theorem scaled_eq_multiple (n : Bool) (m : Nat) (e h : Int) : scaled n m e h = Claims.multiple h n m e := by
  cases n <;> simp [scaled, Claims.multiple]

/-- A value over a smaller unit is a larger multiple of it. -/
theorem multiple_of_le {h q e : Int} (hq : h ≤ q) (he : q ≤ e) (n : Bool) (m : Nat) :
    Claims.multiple h n m e = Claims.multiple q n m e * 2 ^ (q - h).toNat := by
  have hs : (e - h).toNat = (e - q).toNat + (q - h).toNat := by omega
  rw [Claims.multiple, Claims.multiple, hs, Int.pow_add, Int.mul_assoc, Int.mul_assoc]

theorem Num.cmp_fin_fin (x y : Bool) (m n : Nat) (e g : Int) : Num.cmp (.fin x m e) (.fin y n g) =
    compare (Claims.multiple (min e g) x m e) (Claims.multiple (min e g) y n g) := by
  rw [← scaled_eq_multiple, ← scaled_eq_multiple]; rfl

/-- The order of two finite values is that of their multiples of any unit that both have. -/
theorem Num.cmp_eq_compare_multiple {e g h : Int} (he : h ≤ e) (hg : h ≤ g) (x y : Bool) (m n : Nat) :
    Num.cmp (.fin x m e) (.fin y n g) = compare (Claims.multiple h x m e) (Claims.multiple h y n g) := by
  have hq : h ≤ min e g := le_min he hg
  rw [Num.cmp_fin_fin, multiple_of_le hq (min_le_left ..), multiple_of_le hq (min_le_right ..), ← cmp_eq_compare, ← cmp_eq_compare,
    cmp_mul_pos_right (by positivity)]

/-! ## FMIN and FMAX (R195) -/

section
variable {f : Fmt} {a b : Nat}

/-- Whether a pattern has a smaller value than another, −0 ordered below +0. -/
def Fp.below (f : Fmt) (a b : Nat) : Bool :=
  let x := Fp.decode f a
  let y := Fp.decode f b
  Num.cmp x y == .lt || (Num.cmp x y == .eq && x.neg && !y.neg)

theorem Num.isSig_of_not_isNan {x : Num} (h : ¬ x.isNan) : x.isSig = false := by
  cases x with
  | nan => exact absurd rfl h
  | inf | fin => rfl

theorem Fp.minMax_nan_nan (ha : (Fp.decode f a).isNan) (hb : (Fp.decode f b).isNan) (m : Bool) :
    Fp.minMax f m a b = (f.nan, flagIf ((Fp.decode f a).isSig || (Fp.decode f b).isSig) fNV) := by
  simp [Fp.minMax, ha, hb]

theorem Fp.minMax_nan_left (ha : (Fp.decode f a).isNan) (hb : ¬ (Fp.decode f b).isNan) (m : Bool) :
    Fp.minMax f m a b = (b % 2 ^ f.width, flagIf ((Fp.decode f a).isSig || (Fp.decode f b).isSig) fNV) := by
  simp [Fp.minMax, ha, hb]

theorem Fp.minMax_nan_right (ha : ¬ (Fp.decode f a).isNan) (hb : (Fp.decode f b).isNan) (m : Bool) :
    Fp.minMax f m a b = (a % 2 ^ f.width, flagIf ((Fp.decode f a).isSig || (Fp.decode f b).isSig) fNV) := by
  simp [Fp.minMax, ha, hb]

theorem Fp.minMax_numbers (ha : ¬ (Fp.decode f a).isNan) (hb : ¬ (Fp.decode f b).isNan) (m : Bool) :
    Fp.minMax f m a b =
      ((if Fp.below f a b then (if m then b else a) else if m then a else b) % 2 ^ f.width, 0) := by
  have hif (c : Bool) : (if xor c m then a else b) = if c then (if m then b else a) else if m then a else b := by
    cases c <;> cases m <;> rfl
  rw [← hif]
  cases ho : Num.cmp (Fp.decode f a) (Fp.decode f b) with
  | _ => simp [Fp.minMax, Fp.below, ho, ha, hb, Num.isSig_of_not_isNan, flagIf]

/-! ## FCMP (R197) -/

theorem Fp.cmp_nan (h : (Fp.decode f a).isNan ∨ (Fp.decode f b).isNan) (c : FCond) :
    Fp.cmp f c a b = (c == .ne || c == .un,
      flagIf ((Fp.decode f a).isSig || (Fp.decode f b).isSig || c == .lt || c == .le || c == .gt || c == .ge) fNV) := by
  have hu : ((Fp.decode f a).isNan || (Fp.decode f b).isNan) = true := by simpa using h
  cases c with
  | _ => simp [Fp.cmp, hu, beq_eq_decide]

/-- What FCMP makes of the order of two values that are not NaN. -/
def FCond.holds (c : FCond) (o : Ordering) : Bool :=
  match c with
  | .eq => o == .eq | .ne => o != .eq | .lt => o == .lt | .le => o != .gt | .gt => o == .gt | .ge => o != .lt | .un => false | .ord => true

theorem Fp.cmp_numbers (ha : ¬ (Fp.decode f a).isNan) (hb : ¬ (Fp.decode f b).isNan) (c : FCond) :
    Fp.cmp f c a b = (FCond.holds c (Num.cmp (Fp.decode f a) (Fp.decode f b)), 0) := by
  cases c with
  | _ => simp [Fp.cmp, FCond.holds, ha, hb, Num.isSig_of_not_isNan, flagIf]

end

/-- Settles O27: beside a NaN the operations pass over the order, and without one they follow the order of the values, which for
finite values is that of their multiples of a common unit. -/
theorem floatComparison : Obligations.FloatComparison := by
  unfold Obligations.FloatComparison
  refine ⟨fun s L d a b => ?_, fun f a b => ?_⟩
  · intro lo gives sets
    refine ⟨?_, ?_, ?_, ?_, ?_, ?_, ?_, ?_, fun c h => ?_, fun c h => ?_⟩
    · exact fun h => Ops.completes_alu h _ rfl (fun _ _ _ => rfl) fun u => by rw [Thread.lowNum_f32, Thread.lowNum_f32]
    · exact fun h => Ops.completes_alu h _ rfl (fun _ _ _ => rfl) fun _ => rfl
    · exact fun h => Ops.completes_alu h _ rfl (fun _ _ _ => rfl) fun _ => rfl
    · exact fun h => Ops.completes_alu h _ rfl (fun _ _ _ => rfl) fun _ => rfl
    · exact fun h => Ops.completes_alu h _ rfl (fun _ _ _ => rfl) fun u => by rw [Thread.lowNum_f32, Thread.lowNum_f32]
    · exact fun h => Ops.completes_alu h _ rfl (fun _ _ _ => rfl) fun _ => rfl
    · exact fun h => Ops.completes_alu h _ rfl (fun _ _ _ => rfl) fun _ => rfl
    · exact fun h => Ops.completes_alu h _ rfl (fun _ _ _ => rfl) fun _ => rfl
    · exact Ops.completes_test h (fun u => Fp.cmp .f32 c (u.num a) (u.num b)) rfl fun _ _ _ => rfl
    · exact Ops.completes_test h (fun u => Fp.cmp .f64 c (u.wide a) (u.wide b)) rfl fun _ _ _ => rfl
  · intro x y order below nv
    refine ⟨Fp.minMax_nan_nan, Fp.minMax_nan_left, Fp.minMax_nan_right, fun hx hy => ⟨?_, ?_⟩, fun c => ⟨fun h => ?_, fun hx hy => ?_⟩,
      fun m p e n q g h hx hy he hg => ?_, fun n hx => ⟨fun m hy => ?_, fun m q g hy => ?_⟩, fun n m p e hy hx => ?_⟩
    · exact Fp.minMax_numbers hx hy false
    · exact Fp.minMax_numbers hx hy true
    · rw [Fp.cmp_nan h]; exact ⟨rfl, rfl⟩
    · rw [Fp.cmp_numbers hx hy]; exact ⟨rfl, by cases c <;> rfl⟩
    · exact (congrArg₂ Num.cmp hx hy).trans (Num.cmp_eq_compare_multiple he hg ..)
    · exact congrArg₂ Num.cmp hx hy
    · exact congrArg₂ Num.cmp hx hy
    · exact congrArg₂ Num.cmp hx hy

end Sys2Proof.Machine
end

section
/-! PROOFS. SPACK (14 R297): the nibbles of the mask are packed one by one, each into the two positions that it keeps. -/

namespace Sys2Proof.Machine

open Sys2Proof

/-! ## Numbers made of nibbles -/

/-- The number whose nibbles 0 to k − 1 are the given ones. -/
def ofNibbles (g : Nat → Nat) (k : Nat) : Nat := (List.range k).foldl (fun v n => v + g n * 16 ^ n) 0

theorem ofNibbles_succ (g : Nat → Nat) (k : Nat) : ofNibbles g (k + 1) = ofNibbles g k + g k * 16 ^ k := by
  simp [ofNibbles, List.range_succ]

theorem ofNibbles_lt {g : Nat → Nat} (hg : ∀ n, g n < 16) (k : Nat) : ofNibbles g k < 16 ^ k := by
  induction k with
  | zero => simp [ofNibbles]
  | succ k ih =>
    have hk : g k * 16 ^ k ≤ 15 * 16 ^ k := Nat.mul_le_mul_right _ (Nat.le_of_lt_succ (hg k))
    rw [ofNibbles_succ, Nat.pow_succ]
    omega

theorem ofNibbles_nibble {g : Nat → Nat} (hg : ∀ n, g n < 16) {k n : Nat} (hn : n < k) : ofNibbles g k / 16 ^ n % 16 = g n := by
  induction k with
  | zero => cases hn
  | succ k ih =>
    rw [ofNibbles_succ]
    rcases Nat.lt_succ_iff_lt_or_eq.mp hn with h | rfl
    · have hp : g k * 16 ^ k = g k * 16 ^ (k - (n + 1)) * 16 * 16 ^ n := by
        rw [Nat.mul_assoc, Nat.mul_assoc, ← Nat.pow_succ', ← Nat.pow_add, Nat.sub_add_cancel h]
      rw [hp, Nat.add_mul_div_right _ _ (Nat.pow_pos (by decide)), Nat.add_mul_mod_self_right, ih h]
    · rw [Nat.add_mul_div_right _ _ (Nat.pow_pos (by decide)), Nat.div_eq_of_lt (ofNibbles_lt hg n), Nat.zero_add, Nat.mod_eq_of_lt (hg n)]

/-! ## The positions that a keep mask picks -/

/-- The nibble i0 | i1 << 2 names the two positions that R297 chooses for the keep mask m. -/
def Picks (m r : Nat) : Prop :=
  r % 4 < r / 4 ∧
  (∀ j, j < 4 → m.testBit j = true → (j = r % 4 ∨ j = r / 4 ∨ (m.testBit (r % 4) = true ∧ m.testBit (r / 4) = true ∧ r / 4 < j))) ∧
  (m.testBit (r % 4) = false → ∀ j, j < 4 → m.testBit j = false → r % 4 ≤ j) ∧
  (m.testBit (r / 4) = false → ∀ j, j < 4 → m.testBit j = false → r / 4 ≤ j ∨ j = r % 4)

theorem packNibble_lt : ∀ m < 16, packNibble m < 16 := by decide

theorem packNibble_rises : ∀ m < 16, packNibble m % 4 < packNibble m / 4 := by decide

/-- A kept position that is not picked stands behind two kept ones. -/
theorem packNibble_kept : ∀ m < 16, ∀ j < 4, m.testBit j = true → j = packNibble m % 4 ∨ j = packNibble m / 4 ∨
    (m.testBit (packNibble m % 4) = true ∧ m.testBit (packNibble m / 4) = true ∧ packNibble m / 4 < j) := by decide

/-- The first position that fills up is the lowest clear one. -/
theorem packNibble_fills_first : ∀ m < 16, m.testBit (packNibble m % 4) = false →
    ∀ j < 4, m.testBit j = false → packNibble m % 4 ≤ j := by decide

/-- The second position, where it fills up, is the lowest clear one beside the first. -/
theorem packNibble_fills_second : ∀ m < 16, m.testBit (packNibble m / 4) = false →
    ∀ j < 4, m.testBit j = false → packNibble m / 4 ≤ j ∨ j = packNibble m % 4 := by decide

theorem packNibble_picks {m : Nat} (hm : m < 16) : Picks m (packNibble m) :=
  ⟨packNibble_rises m hm, packNibble_kept m hm, packNibble_fills_first m hm, packNibble_fills_second m hm⟩

theorem packNibble_mod_lt (m : Nat) : packNibble (m % 16) < 16 := packNibble_lt _ (Nat.mod_lt _ (by decide))

/-- The mask is packed nibble by nibble. -/
theorem packMask_eq_ofNibbles (a : Nat) : packMask a = ofNibbles (fun n => packNibble (a / 16 ^ n % 16)) 8 := rfl

theorem packMask_lt (a : Nat) : packMask a < 2 ^ 32 := ofNibbles_lt (fun _ => packNibble_mod_lt _) 8

theorem packMask_nibble (a : Nat) {n : Nat} (hn : n < 8) : packMask a / 16 ^ n % 16 = packNibble (a / 16 ^ n % 16) := by
  rw [packMask_eq_ofNibbles, ofNibbles_nibble (fun _ => packNibble_mod_lt _) hn]

/-- The word that SPACK writes for the word of keep masks. -/
def packWord (x : Word) : Word := BitVec.ofNat 32 (packMask x.toNat)

theorem packWord_toNat (x : Word) : (packWord x).toNat = packMask x.toNat := by
  rw [packWord, BitVec.toNat_ofNat, Nat.mod_eq_of_lt (packMask_lt _)]

theorem packWord_picks (x : Word) {n : Nat} (hn : n < 8) : Picks (x.toNat / 16 ^ n % 16) ((packWord x).toNat / 16 ^ n % 16) := by
  rw [packWord_toNat, packMask_nibble _ hn]
  exact packNibble_picks (Nat.mod_lt _ (by decide))

/-- Settles O45: SPACK writes the packed word, whose nibbles are the packed nibbles of the mask, and each of those names its positions. -/
theorem spackPacksMasks : Obligations.SpackPacksMasks := by
  unfold Obligations.SpackPacksMasks
  intro s L d a h
  refine ⟨packWord, ?_, fun x n hn => packWord_picks x hn⟩
  exact Ops.writes32 _ _ rfl (fun _ _ _ => rfl) (fun u => (packWord_toNat (u.v a)).symm) h

end Sys2Proof.Machine
end
